-- ==== Sys2Proof/Word.lean ====
section
/-! DEFINITION. The plain types of the model: operation words, NUM bit patterns, complex elements, sparse buffers. -/

namespace Sys2Proof

/-- A 32-bit operation word (30_encoding R110). -/
abbrev Word := BitVec 32

/-- A NUM value: an IEEE 754 binary32 bit pattern (00_scope R9, 20_memory R81). -/
abbrev NUM := BitVec 32

/-- A soft bit: a signed 8-bit two's-complement integer (20_memory R81). -/
abbrev Soft := BitVec 8

/-- A complex element: a pair of NUM values (20_memory R81). -/
structure Cplx where
  re : NUM
  im : NUM
  deriving DecidableEq, Repr, Inhabited

/-- A buffer: the elements that differ from the reset element, by strictly rising index
(10_state R52, R56; log entry 23). -/
abbrev Mem (α : Type) := List (Nat × α)

end Sys2Proof
end

