-- ==== Sys2Proof/Config.lean ====
section
/-! DEFINITION. What an implementation fixes (parameter sets) and the values the spec leaves free. -/

namespace Sys2Proof

/-- The OFDM parameters of one transmission mode (00_scope R5). -/
structure Params where
  F : Nat
  N : Nat
  G : Nat
  P : Nat
  C : Nat
  deriving DecidableEq, Repr, Inhabited

/-- Symbol period `S = N + G` (00_scope R5). -/
abbrev Params.S (p : Params) : Nat := p.N + p.G

/-- `L = log2 N` (00_scope R5). -/
abbrev Params.L (p : Params) : Nat := Nat.log2 p.N

/-- Capacity of an ingest buffer, `P + F·S` (10_state R52). -/
abbrev Params.frameLen (p : Params) : Nat := p.F * p.S + p.P

/-- Length of the output block, `(F − 1)·C·2` (10_state R52). -/
abbrev Params.outLen (p : Params) : Nat := (p.F - 1) * (2 * p.C)

namespace Config

/-- Row `MODE = 0`, transmission mode I (00_scope R6). -/
def modeI : Params := { F := 76, N := 2048, G := 504, P := 2656, C := 1536 }
/-- Row `MODE = 1`, transmission mode II (00_scope R6, from general knowledge; log entry 3). -/
def modeII : Params := { F := 76, N := 512, G := 126, P := 664, C := 384 }
/-- Row `MODE = 2`, transmission mode III (00_scope R6, from general knowledge; log entry 3). -/
def modeIII : Params := { F := 153, N := 256, G := 63, P := 345, C := 192 }
/-- Row `MODE = 3`, transmission mode IV (00_scope R6, from general knowledge; log entry 3). -/
def modeIV : Params := { F := 76, N := 1024, G := 252, P := 1328, C := 768 }

/-- The operations of NUM that can answer a NaN (log entry 6). -/
inductive FpOp where
  | add | mul | div | sqrt | max | fmod | arg | log10
  deriving DecidableEq, Repr

/-- Free: sign and payload of the quiet NaN that an operation answers on its operands (00_scope R9, R11; log entry 6). -/
opaque nanBits : FpOp → NUM → NUM → BitVec 23

/-- Free: the unit phasor `cis(phase0 + 2π·freq·i)` as the hardware forms it (41 R140, U9; log entry 7). -/
opaque rotFree : (phase0 freq : NUM) → (i : Nat) → Cplx

/-- Free: the angle of a nonzero number without NaN, as an index into the binary32 values of `(−π, π]`
(00_scope R11, U9; log entry 7). -/
opaque argFree : (re im : NUM) → Fin 2157060023

/-- Free: the base-10 logarithm of a finite positive number (00_scope R11, U9; log entry 7). -/
opaque log10Free : NUM → NUM

/-- Free: sign and finite magnitude pattern of the real (`false`) or imaginary (`true`) part of coefficient `k` of the
phase-reference symbol of a mode (10_state R53, U11; log entry 4). -/
opaque prsPart : (mode k : Nat) → Bool → Bool × Fin 2139095040

/-- Free: the carrier permutation of a mode (10_state R54, U11; log entry 4). -/
opaque cmap : (mode C : Nat) → Equiv.Perm (Fin C)

/-- Free: which agent takes the next step when no turn is laid down (00_scope R15, U2; log entry 1). -/
opaque freeAgent : Nat → Nat

/-- Free: what a read of `OUT` outside its window returns (U3, U6; log entry 16). -/
opaque freeSoft : Nat → Soft

/-- Free: whether `IMP_DATA` read during FINE_TIME shows the old element (U8; log entry 17). -/
opaque freeOld : Nat → Bool

/-- Free: what `IMP_DATA` shows for an index outside `IMP` (10_state R49; log entry 16). -/
opaque freeNum : Nat → NUM

end Config
end Sys2Proof
end

