-- ==== Sys2Proof/Syntax.lean ====
section
/-! DEFINITION. The operations of the core, one constructor per row of spec/opcode_table.json. -/

namespace Sys2Proof

/-- The acquisition states, in the order of their codes 0 to 4 (10_state R31). -/
inductive AcqState where
  | findNull | readNullPrs | coarseFreq | fineTime | readSymbols
  deriving DecidableEq, Repr

/-- The buffer a transform step works on: `SA` (BUF 4) or a slot of `ZF` (BUF 7) (30_encoding R113). -/
inductive XBuf where
  | sa
  | zf (slot : Nat)
  deriving DecidableEq, Repr

/-- The reference tables `CMUL` can name: `PRSF` (BUF 10), `PRST` (BUF 11) (30_encoding R113). -/
inductive RefTable where
  | prsf | prst
  deriving DecidableEq, Repr

/-- A barrier: class and, for classes 2 to 5, worker number (45_synchronisation R260). -/
inductive Barrier where
  | cs | ce
  | ws (w : Nat) | wp (w : Nat) | wf (w : Nat) | wd (w : Nat)
  deriving DecidableEq, Repr

/-- The 37 operations (30_encoding R114). -/
inductive Instr where
  | bitrev (b : XBuf)
  | bflyf (b : XBuf) (stage : Nat)
  | bflyi (b : XBuf) (stage : Nat)
  | delta
  | cmul (t : RefTable)
  | mag
  | lmag
  | pllp
  | ldprs
  | nsamp
  | l1win
  | ncap
  | capp
  | fczero
  | peakc
  | fcupd
  | peakw
  | ftchk
  | prscp
  | iapp
  | nullcp
  | desync
  | adv (target : AcqState)
  | derot (i : Nat)
  | cperr (i : Nat)
  | phpub
  | ldsym (i : Nat)
  | dqpsk (i : Nat)
  | soft (i : Nat)
  | rel
  | phavg
  | ffupd
  | emit
  | sig (x : Barrier)
  | wait (x : Barrier)
  | swap
  | halt
  deriving DecidableEq, Repr

end Sys2Proof
end

