-- ==== Sys2Proof/WellFormed.lean ====
section
/-! DEFINITION. Which operations have an operation word, whatever the parameter set (30_encoding R111 to R115).
The ranges that depend on `F`, `L` and `T` (R113) are in Machine/Operands.lean. -/

namespace Sys2Proof

/-- The field `IDX` is 16 bits (30_encoding R111). -/
def idxFits (i : Nat) : Bool := decide (i < 65536)

/-- A slot of `ZF` fits `IDX`; `SA` has `IDX = 0` (30_encoding R113). -/
def XBuf.fits : XBuf → Bool
  | .sa => true
  | .zf i => idxFits i

/-- A worker number fits `IDX` (30_encoding R113). -/
def Barrier.fits : Barrier → Bool
  | .cs => true
  | .ce => true
  | .ws w => idxFits w
  | .wp w => idxFits w
  | .wf w => idxFits w
  | .wd w => idxFits w

/-- A stage is 1 to 15: `AUX` is 4 bits and stage 0 is reserved (30_encoding R111, R115). -/
def stageFits (s : Nat) : Bool := decide (1 ≤ s ∧ s < 16)

/-- The operation has a word: every operand fits its field, `ADV FIND_NULL` and `WAIT WF[0]` do not exist
(30_encoding R115, 45_synchronisation R266). -/
def Instr.wf : Instr → Bool
  | .bitrev b => b.fits
  | .bflyf b s => b.fits && stageFits s
  | .bflyi b s => b.fits && stageFits s
  | .delta => true
  | .cmul _ => true
  | .mag => true
  | .lmag => true
  | .pllp => true
  | .ldprs => true
  | .nsamp => true
  | .l1win => true
  | .ncap => true
  | .capp => true
  | .fczero => true
  | .peakc => true
  | .fcupd => true
  | .peakw => true
  | .ftchk => true
  | .prscp => true
  | .iapp => true
  | .nullcp => true
  | .desync => true
  | .adv t => decide (t ≠ .findNull)
  | .derot i => idxFits i
  | .cperr i => idxFits i
  | .phpub => true
  | .ldsym i => idxFits i
  | .dqpsk i => idxFits i
  | .soft i => idxFits i
  | .rel => true
  | .phavg => true
  | .ffupd => true
  | .emit => true
  | .sig x => x.fits
  | .wait x => x.fits && decide (x ≠ .wf 0)
  | .swap => true
  | .halt => true

end Sys2Proof
end

