-- ==== Sys2Proof/Decode.lean ====
section
/-! DEFINITION. The operation word read and written (30_encoding R110 to R115): a total decoder, an encoder. -/

namespace Sys2Proof

/-- `W[31:24]` (30_encoding R111). -/
def opcOf (w : Word) : Nat := w.toNat / 16777216
/-- `W[23:20]` (30_encoding R111). -/
def bufOf (w : Word) : Nat := w.toNat / 1048576 % 16
/-- `W[19:16]` (30_encoding R111). -/
def auxOf (w : Word) : Nat := w.toNat / 65536 % 16
/-- `W[15:0]` (30_encoding R111). -/
def idxOf (w : Word) : Nat := w.toNat % 65536

/-- The word with the four fields (30_encoding R111). -/
def mkWord (opc buf aux idx : Nat) : Word :=
  BitVec.ofNat 32 (opc * 16777216 + buf * 1048576 + aux * 65536 + idx)

/-- Format Z: every field but `OPC` is zero (30_encoding R111, R112). -/
def fmtZ (w : Word) (i : Instr) : Option Instr :=
  if bufOf w = 0 ∧ auxOf w = 0 ∧ idxOf w = 0 then some i else none

/-- Format X: `IDX` is used, `BUF` and `AUX` are zero (30_encoding R111, R112). -/
def fmtX (w : Word) (i : Nat → Instr) : Option Instr :=
  if bufOf w = 0 ∧ auxOf w = 0 then some (i (idxOf w)) else none

/-- The buffer operand of formats V and K (30_encoding R113). -/
def decodeXBuf (w : Word) : Option XBuf :=
  if bufOf w = 4 ∧ idxOf w = 0 then some .sa
  else if bufOf w = 7 then some (.zf (idxOf w))
  else none

/-- Format V: `BUF` and `IDX`, `AUX` zero (30_encoding R112). -/
def fmtV (w : Word) (i : XBuf → Instr) : Option Instr :=
  if auxOf w = 0 then (decodeXBuf w).map i else none

/-- Format K: `BUF`, `IDX` and a stage in `AUX`; stage 0 is reserved (30_encoding R112, R115). -/
def fmtK (w : Word) (i : XBuf → Nat → Instr) : Option Instr :=
  if auxOf w = 0 then none else (decodeXBuf w).map fun b => i b (auxOf w)

/-- Format R: a table in `BUF` (30_encoding R112, R113). -/
def fmtR (w : Word) (i : RefTable → Instr) : Option Instr :=
  if auxOf w = 0 ∧ idxOf w = 0 then
    if bufOf w = 10 then some (i .prsf) else if bufOf w = 11 then some (i .prst) else none
  else none

/-- The state with a code, for `ADV`'s operand (10_state R31). -/
def acqStateOf : Nat → Option AcqState
  | 0 => some .findNull
  | 1 => some .readNullPrs
  | 2 => some .coarseFreq
  | 3 => some .fineTime
  | 4 => some .readSymbols
  | _ => none

/-- The code of a state (10_state R31). -/
def AcqState.code : AcqState → Nat
  | .findNull => 0
  | .readNullPrs => 1
  | .coarseFreq => 2
  | .fineTime => 3
  | .readSymbols => 4

/-- Format S: a target state 1 to 4 in `AUX` (30_encoding R112, R113). -/
def fmtS (w : Word) (i : AcqState → Instr) : Option Instr :=
  if bufOf w = 0 ∧ idxOf w = 0 ∧ auxOf w ≠ 0 then (acqStateOf (auxOf w)).map i else none

/-- The barrier operand of format B (30_encoding R113, 45_synchronisation R260). -/
def decodeBarrier (w : Word) : Option Barrier :=
  match bufOf w with
  | 0 => if idxOf w = 0 then some .cs else none
  | 1 => if idxOf w = 0 then some .ce else none
  | 2 => some (.ws (idxOf w))
  | 3 => some (.wp (idxOf w))
  | 4 => some (.wf (idxOf w))
  | 5 => some (.wd (idxOf w))
  | _ => none

/-- Format B: class in `BUF`, worker in `IDX`, `AUX` zero (30_encoding R112). -/
def fmtB (w : Word) (i : Barrier → Instr) : Option Instr :=
  if auxOf w = 0 then (decodeBarrier w).map i else none

/-- The reserved form `WAIT WF[0]` taken out (45_synchronisation R266). -/
def notWaitWf0 : Instr → Option Instr
  | .wait (.wf 0) => none
  | i => some i

/-- The operation a word stands for; `none` for a reserved word (30_encoding R114, R115). -/
def decode (w : Word) : Option Instr :=
  match opcOf w with
  | 0x10 => fmtV w .bitrev
  | 0x11 => fmtK w .bflyf
  | 0x12 => fmtK w .bflyi
  | 0x13 => fmtZ w .delta
  | 0x14 => fmtR w .cmul
  | 0x15 => fmtZ w .mag
  | 0x16 => fmtZ w .lmag
  | 0x17 => fmtZ w .pllp
  | 0x18 => fmtZ w .ldprs
  | 0x20 => fmtZ w .nsamp
  | 0x21 => fmtZ w .l1win
  | 0x22 => fmtZ w .ncap
  | 0x23 => fmtZ w .capp
  | 0x24 => fmtZ w .fczero
  | 0x25 => fmtZ w .peakc
  | 0x26 => fmtZ w .fcupd
  | 0x27 => fmtZ w .peakw
  | 0x28 => fmtZ w .ftchk
  | 0x29 => fmtZ w .prscp
  | 0x2A => fmtZ w .iapp
  | 0x2B => fmtZ w .nullcp
  | 0x2C => fmtZ w .desync
  | 0x2D => fmtS w .adv
  | 0x30 => fmtX w .derot
  | 0x31 => fmtX w .cperr
  | 0x32 => fmtZ w .phpub
  | 0x33 => fmtX w .ldsym
  | 0x34 => fmtX w .dqpsk
  | 0x35 => fmtX w .soft
  | 0x40 => fmtZ w .rel
  | 0x41 => fmtZ w .phavg
  | 0x42 => fmtZ w .ffupd
  | 0x43 => fmtZ w .emit
  | 0x50 => fmtB w .sig
  | 0x51 => (fmtB w .wait).bind notWaitWf0
  | 0x52 => fmtZ w .swap
  | 0x53 => fmtZ w .halt
  | _ => none

/-- `BUF` and `IDX` of a transform buffer (30_encoding R113). -/
def XBuf.fields : XBuf → Nat × Nat
  | .sa => (4, 0)
  | .zf i => (7, i)

/-- `BUF` of a reference table (10_state R53). -/
def RefTable.field : RefTable → Nat
  | .prsf => 10
  | .prst => 11

/-- `BUF` and `IDX` of a barrier (45_synchronisation R260). -/
def Barrier.fields : Barrier → Nat × Nat
  | .cs => (0, 0)
  | .ce => (1, 0)
  | .ws w => (2, w)
  | .wp w => (3, w)
  | .wf w => (4, w)
  | .wd w => (5, w)

/-- The word of an operation (30_encoding R114). -/
def encode : Instr → Word
  | .bitrev b => mkWord 0x10 b.fields.1 0 b.fields.2
  | .bflyf b s => mkWord 0x11 b.fields.1 s b.fields.2
  | .bflyi b s => mkWord 0x12 b.fields.1 s b.fields.2
  | .delta => mkWord 0x13 0 0 0
  | .cmul t => mkWord 0x14 t.field 0 0
  | .mag => mkWord 0x15 0 0 0
  | .lmag => mkWord 0x16 0 0 0
  | .pllp => mkWord 0x17 0 0 0
  | .ldprs => mkWord 0x18 0 0 0
  | .nsamp => mkWord 0x20 0 0 0
  | .l1win => mkWord 0x21 0 0 0
  | .ncap => mkWord 0x22 0 0 0
  | .capp => mkWord 0x23 0 0 0
  | .fczero => mkWord 0x24 0 0 0
  | .peakc => mkWord 0x25 0 0 0
  | .fcupd => mkWord 0x26 0 0 0
  | .peakw => mkWord 0x27 0 0 0
  | .ftchk => mkWord 0x28 0 0 0
  | .prscp => mkWord 0x29 0 0 0
  | .iapp => mkWord 0x2A 0 0 0
  | .nullcp => mkWord 0x2B 0 0 0
  | .desync => mkWord 0x2C 0 0 0
  | .adv t => mkWord 0x2D 0 t.code 0
  | .derot i => mkWord 0x30 0 0 i
  | .cperr i => mkWord 0x31 0 0 i
  | .phpub => mkWord 0x32 0 0 0
  | .ldsym i => mkWord 0x33 0 0 i
  | .dqpsk i => mkWord 0x34 0 0 i
  | .soft i => mkWord 0x35 0 0 i
  | .rel => mkWord 0x40 0 0 0
  | .phavg => mkWord 0x41 0 0 0
  | .ffupd => mkWord 0x42 0 0 0
  | .emit => mkWord 0x43 0 0 0
  | .sig x => mkWord 0x50 x.fields.1 0 x.fields.2
  | .wait x => mkWord 0x51 x.fields.1 0 x.fields.2
  | .swap => mkWord 0x52 0 0 0
  | .halt => mkWord 0x53 0 0 0

/-- The operation at the head of a stored list of words, and the rest: four bytes a word, least significant
first (30_encoding R110, 20_memory R82). -/
def decodeBytes : List (BitVec 8) → Option (Instr × List (BitVec 8))
  | b0 :: b1 :: b2 :: b3 :: rest => (decode (b3 ++ b2 ++ b1 ++ b0)).map fun i => (i, rest)
  | _ => none

/-- The bytes of an operation as a tool stores it (30_encoding R110, 20_memory R82). -/
def encodeBytes (i : Instr) : List (BitVec 8) :=
  let w := encode i
  [w.extractLsb' 0 8, w.extractLsb' 8 8, w.extractLsb' 16 8, w.extractLsb' 24 8]

/-- What the decoder reads from a table word of `nbits` bits, laid out in bytes as R110 stores it. -/
def decodeTableWord (nbits w : Nat) : Option Instr :=
  let v := BitVec.ofNat 32 (w % 2 ^ nbits)
  (decodeBytes [v.extractLsb' 0 8, v.extractLsb' 8 8, v.extractLsb' 16 8, v.extractLsb' 24 8]).map Prod.fst

end Sys2Proof
end

