-- ==== Sys2Proof/Machine/Num.lean ====
section
/-! DEFINITION. NUM: IEEE 754 binary32, round to nearest even, each written operation rounded once
(00_scope R9 to R12). A finite value is an integer number of units of `2^-149`, so every exact result is a
ratio of integers and is rounded once by `roundQ`. -/

namespace Sys2Proof.Fp

/-- The sign bit. -/
def neg? (x : NUM) : Bool := decide (2147483648 ≤ x.toNat)

/-- The pattern without the sign bit. -/
def magBits (x : NUM) : Nat := x.toNat % 2147483648

/-- Exponent all ones, fraction nonzero. -/
def isNaN (x : NUM) : Bool := decide (2139095040 < magBits x)

/-- Exponent all ones, fraction zero. -/
def isInf (x : NUM) : Bool := decide (magBits x = 2139095040)

/-- Neither infinite nor a NaN. -/
def isFinite (x : NUM) : Bool := decide (magBits x < 2139095040)

/-- `+0` or `−0`. -/
def isZero (x : NUM) : Bool := decide (magBits x = 0)

/-- The magnitude of a finite value, in units of `2^-149`. -/
def units (x : NUM) : Nat :=
  if magBits x < 8388608 then magBits x
  else (magBits x % 8388608 + 8388608) * 2 ^ (magBits x / 8388608 - 1)

/-- A finite value, in units of `2^-149`. -/
def sunits (x : NUM) : Int := if neg? x then -(units x : Int) else (units x : Int)

/-- The pattern with a sign and a magnitude pattern. -/
def pack (neg : Bool) (mag : Nat) : NUM := BitVec.ofNat 32 (if neg then 2147483648 + mag else mag)

/-- The magnitude pattern nearest to `num / den` units of `2^-149`, ties to even; `+∞`'s pattern on overflow
(00_scope R9). A significand `m < 2^24` at scale `2^k` has the pattern `k·2^23 + m`. -/
def roundMag (num den : Nat) : Nat :=
  let k := if num / den < 16777216 then 0 else Nat.log2 (num / den) - 23
  let d := den * 2 ^ k
  let m := num / d
  let r := num % d
  let m' := if d < 2 * r ∨ (2 * r = d ∧ m % 2 = 1) then m + 1 else m
  min (k * 8388608 + m') 2139095040

/-- The NUM value nearest to `±num / den` units of `2^-149`. -/
def roundQ (neg : Bool) (num den : Nat) : NUM := pack neg (roundMag num den)

/-- The quiet NaN that operation `op` answers: sign and payload are free (log entry 6). -/
def nan (op : Config.FpOp) (a b : NUM) : NUM :=
  pack (decide (4194304 ≤ (Config.nanBits op a b).toNat)) (2143289344 + (Config.nanBits op a b).toNat % 4194304)

def zero : NUM := 0x00000000#32
def one : NUM := 0x3F800000#32
def negZero : NUM := 0x80000000#32
def negInf : NUM := 0xFF800000#32
/-- `π`: the NUM value nearest to π (00_scope R11). -/
def pi : NUM := 0x40490FDB#32
/-- `2π`, the exact double of `pi`. -/
def twoPi : NUM := 0x40C90FDB#32
/-- The NUM value nearest to 1.5. -/
def oneHalf3 : NUM := 0x3FC00000#32
/-- The NUM value nearest to 0.505 (10_state R34). -/
def c0505 : NUM := 0x3F0147AE#32
/-- The NUM value 20 (00_scope R11). -/
def twenty : NUM := 0x41A00000#32

/-- Change of sign: the sign bit is flipped. -/
def neg (x : NUM) : NUM := x ^^^ 0x80000000#32

/-- Magnitude: the sign bit is cleared. -/
def abs (x : NUM) : NUM := x &&& 0x7FFFFFFF#32

/-- IEEE 754 addition. -/
def add (a b : NUM) : NUM :=
  if isNaN a || isNaN b then nan .add a b
  else if isInf a then (if isInf b && (neg? a != neg? b) then nan .add a b else a)
  else if isInf b then b
  else if sunits a + sunits b = 0 then (if neg? a && neg? b then negZero else zero)
  else roundQ (decide (sunits a + sunits b < 0)) (sunits a + sunits b).natAbs 1

/-- IEEE 754 subtraction: addition of the operand with its sign changed. -/
def sub (a b : NUM) : NUM := add a (neg b)

/-- IEEE 754 multiplication. -/
def mul (a b : NUM) : NUM :=
  if isNaN a || isNaN b then nan .mul a b
  else if isInf a || isInf b then
    (if isZero a || isZero b then nan .mul a b else pack (neg? a != neg? b) 2139095040)
  else roundQ (neg? a != neg? b) (units a * units b) (2 ^ 149)

/-- IEEE 754 division. -/
def div (a b : NUM) : NUM :=
  if isNaN a || isNaN b then nan .div a b
  else if isInf a then (if isInf b then nan .div a b else pack (neg? a != neg? b) 2139095040)
  else if isInf b then pack (neg? a != neg? b) 0
  else if isZero b then (if isZero a then nan .div a b else pack (neg? a != neg? b) 2139095040)
  else roundQ (neg? a != neg? b) (units a * 2 ^ 149) (units b)

/-- Integer square root by bits, from bit `k − 1` down, on top of `acc`. -/
def isqrtFrom (n : Nat) : Nat → Nat → Nat
  | 0, acc => acc
  | k + 1, acc => isqrtFrom n k (if (acc + 2 ^ k) * (acc + 2 ^ k) ≤ n then acc + 2 ^ k else acc)

/-- IEEE 754 square root. The root of a nonzero value has at least 75 bits here, so half a unit stands for
any inexact remainder without changing the rounding. -/
def sqrt (x : NUM) : NUM :=
  if isNaN x then nan .sqrt x x
  else if isZero x then x
  else if neg? x then nan .sqrt x x
  else if isInf x then x
  else
    let n := units x * 2 ^ 149
    let r := isqrtFrom n 214 0
    roundQ false (if r * r = n then 2 * r else 2 * r + 1) 2

/-- `fmod(x, m)`: the remainder of truncated division, with the sign of `x` (00_scope R11; log entry 9). -/
def fmod (a b : NUM) : NUM :=
  if isNaN a || isNaN b || isInf a || isZero b then nan .fmod a b
  else if isInf b then a
  else roundQ (neg? a) (units a % units b) 1

/-- The order of non-NaN values: `±0` are equal, infinities are the extremes. -/
def key (x : NUM) : Int := if neg? x then -(magBits x : Int) else (magBits x : Int)

/-- `a < b`; false with a NaN (00_scope R11). -/
def lt (a b : NUM) : Bool := !isNaN a && !isNaN b && decide (key a < key b)

/-- `a ≤ b`; false with a NaN (00_scope R11). -/
def le (a b : NUM) : Bool := !isNaN a && !isNaN b && decide (key a ≤ key b)

/-- The larger value; a NaN if either is one (43 R217, 70 R322; log entry 8). -/
def max (a b : NUM) : NUM :=
  if isNaN a || isNaN b then nan .max a b else if lt a b then b else a

/-- The NUM value nearest to a natural number. -/
def ofNat (n : Nat) : NUM := roundQ false (n * 2 ^ 149) 1

/-- The NUM value nearest to an integer. -/
def ofInt (z : Int) : NUM := roundQ (decide (z < 0)) (z.natAbs * 2 ^ 149) 1

/-- The greatest integer at most a finite value (00_scope R11). -/
def floorInt (x : NUM) : Int := sunits x / (2 ^ 149 : Int)

/-- A finite value rounded toward zero to an integer (43 R218). -/
def truncInt (x : NUM) : Int := Int.tdiv (sunits x) (2 ^ 149)

/-- `log10` (00_scope R11): `log10(0) = −∞`; a NaN and `+∞` pass by IEEE 754; free elsewhere (log entry 7). -/
def log10 (x : NUM) : NUM :=
  if isNaN x then nan .log10 x x
  else if isZero x then negInf
  else if neg? x then nan .log10 x x
  else if isInf x then x
  else Config.log10Free x

/-- The binary32 values of `(−π, π]`, numbered: `0 … π` first, then `−0` down to the last above `−π`. -/
def angleOf (i : Fin 2157060023) : NUM :=
  if i.val < 1078530012 then pack false i.val else pack true (i.val - 1078530012)

end Sys2Proof.Fp

namespace Sys2Proof.Cplx

/-- Sum, difference and product of complex numbers (00_scope R10). -/
def add (a b : Cplx) : Cplx := ⟨Fp.add a.re b.re, Fp.add a.im b.im⟩
def sub (a b : Cplx) : Cplx := ⟨Fp.sub a.re b.re, Fp.sub a.im b.im⟩
def mul (a b : Cplx) : Cplx :=
  ⟨Fp.sub (Fp.mul a.re b.re) (Fp.mul a.im b.im), Fp.add (Fp.mul a.re b.im) (Fp.mul a.im b.re)⟩

/-- `conj(a) = (ar, −ai)` (00_scope R10). -/
def conj (a : Cplx) : Cplx := ⟨a.re, Fp.neg a.im⟩

/-- `(1, 0)`. -/
def one : Cplx := ⟨Fp.one, Fp.zero⟩

/-- `(0, 0)`. -/
def zero : Cplx := ⟨Fp.zero, Fp.zero⟩

/-- `|a| = sqrt(ar² + ai²)` (00_scope R10). -/
def modulus (a : Cplx) : NUM := Fp.sqrt (Fp.add (Fp.mul a.re a.re) (Fp.mul a.im a.im))

/-- The L1 magnitude `|Re a| + |Im a|` (42 R172). -/
def l1 (a : Cplx) : NUM := Fp.add (Fp.abs a.re) (Fp.abs a.im)

/-- `arg(z)` in `(−π, π]`, `arg(0) = 0`; free elsewhere within the range (00_scope R11; log entry 7). -/
def arg (z : Cplx) : NUM :=
  if Fp.isNaN z.re || Fp.isNaN z.im then Fp.nan .arg z.re z.im
  else if Fp.isZero z.re && Fp.isZero z.im then Fp.zero
  else Fp.angleOf (Config.argFree z.re z.im)

/-- `dB(z) = 20·log10(|z|)` (00_scope R11). -/
def dB (z : Cplx) : NUM := Fp.mul Fp.twenty (Fp.log10 z.modulus)

/-- The rotator's phasor `cis(phase0 + 2π·freq·i)`: `(1, 0)` at phase zero (41 R159, 43 R212), free elsewhere
(41 R140; log entry 7). -/
def rot (phase0 freq : NUM) (i : Nat) : Cplx :=
  if Fp.isZero phase0 && Fp.isZero freq then one else Config.rotFree phase0 freq i

/-- An element from the sample port's word `{im, re}` (20_memory R81, R82). -/
def ofBits (d : BitVec 64) : Cplx := ⟨d.extractLsb' 0 32, d.extractLsb' 32 32⟩

/-- The element as a 64-bit word `{im, re}` (20_memory R81). -/
def toBits (a : Cplx) : BitVec 64 := a.im ++ a.re

end Sys2Proof.Cplx

namespace Sys2Proof.Twiddle

/-- The scale of the fixed-point series. -/
def scale : Nat := 2 ^ 120

/-- `π · 2^120`, rounded down. -/
def piScaled : Nat := 4175892906503776358826876457663557747

/-- Alternating Taylor series from the term with index `k`, for the square `x2` (scaled) of the angle. -/
def series (x2 : Nat) : (fuel k : Nat) → (term : Nat) → Int
  | 0, _, _ => 0
  | fuel + 1, k, term =>
    (term : Int) - series x2 fuel (k + 2) (term * x2 / (scale * ((k + 1) * (k + 2))))

/-- `2π·t/N`, scaled. -/
def angle (N t : Nat) : Nat := 2 * piScaled * t / N

/-- `cos(2πt/N)` scaled, for an angle of at most `π/4`. -/
def cosOct (N t : Nat) : Nat := (series (angle N t * angle N t / scale) 20 0 scale).toNat

/-- `sin(2πt/N)` scaled, for an angle of at most `π/4`. -/
def sinOct (N t : Nat) : Nat := (series (angle N t * angle N t / scale) 20 1 (angle N t)).toNat

/-- `(cos, sin)` of `2πt/N` scaled, for an angle of at most `π/2`. -/
def quarter (N t : Nat) : Nat × Nat :=
  if 8 * t ≤ N then (cosOct N t, sinOct N t) else (sinOct N (N / 4 - t), cosOct N (N / 4 - t))

/-- A scaled value rounded to NUM. -/
def toNum (neg : Bool) (c : Nat) : NUM := Fp.roundQ (neg && decide (c ≠ 0)) (c * 2 ^ 149) scale

/-- `TW[t] = cis(−2π·t/N)` for `t < N/2`, each component the nearest NUM value (10_state R55; log entry 22). -/
def tw (N t : Nat) : Cplx :=
  if 4 * t ≤ N then ⟨toNum false (quarter N t).1, toNum true (quarter N t).2⟩
  else ⟨toNum true (quarter N (N / 2 - t)).1, toNum true (quarter N (N / 2 - t)).2⟩

end Sys2Proof.Twiddle
end

