-- ==== Sys2Proof/Machine/Tables.lean ====
section
/-! DEFINITION. The reference tables as functions of the phase-reference symbol (10_state R53; 41 R141, R147). `PRST` holds
the NUM rounding of the exact value: `IFFT(Delta(PRS_FFT))` is an integer combination of cosines of fractions of the circle,
and such numbers are compared exactly, by squaring (log entry 4). -/

namespace Sys2Proof

/-- The numbers `a + b·s_n` over the level below, down to the integers, where `s_n = 2·cos(π / 2^(n+1))`: `s_0 = 0` and
`s_(n+1) = √(2 + s_n)`. Level `n` holds `2·cos` of every multiple of `2π / 2^(n+2)`. -/
abbrev Tower : Nat → Type
  | 0 => Int
  | n + 1 => Tower n × Tower n

namespace Tower

/-- An integer. -/
def ofInt : (n : Nat) → Int → Tower n
  | 0, c => c
  | n + 1, c => (ofInt n c, ofInt n 0)

/-- The sum. -/
def add : (n : Nat) → Tower n → Tower n → Tower n
  | 0, x, y => Int.add x y
  | n + 1, x, y => (add n x.1 y.1, add n x.2 y.2)

/-- An integer multiple. -/
def scale : (n : Nat) → Int → Tower n → Tower n
  | 0, c, x => Int.mul c x
  | n + 1, c, x => (scale n c x.1, scale n c x.2)

/-- The difference. -/
def sub (n : Nat) (x y : Tower n) : Tower n := add n x (scale n (-1) y)

/-- `s_n·x`. -/
def mulRoot : (n : Nat) → Tower n → Tower n
  | 0, _ => (0 : Int)
  | n + 1, x => (add n (scale n 2 x.2) (mulRoot n x.2), x.1)

/-- `s_(n+1)²·x`, which is `(2 + s_n)·x`. -/
def mulRootSq (n : Nat) (x : Tower n) : Tower n := add n (scale n 2 x) (mulRoot n x)

/-- The product. -/
def mul : (n : Nat) → Tower n → Tower n → Tower n
  | 0, x, y => Int.mul x y
  | n + 1, x, y => (add n (mul n x.1 y.1) (mulRootSq n (mul n x.2 y.2)), add n (mul n x.1 y.2) (mul n x.2 y.1))

/-- The sign, −1, 0 or 1: where `a` and `b·s` differ in sign, the larger square decides. -/
def sign : (n : Nat) → Tower n → Int
  | 0, x => Int.sign x
  | n + 1, x =>
    let a := sign n x.1
    let b := sign n x.2
    if a = b ∨ b = 0 then a
    else if a = 0 then b
    else a * sign n (sub n (mul n x.1 x.1) (mulRootSq n (mul n x.2 x.2)))

/-- `j` steps of `c_(i+2) = s_n·c_(i+1) − c_i`. -/
def chebyshev (n : Nat) : (j : Nat) → (c d : Tower n) → Tower n
  | 0, c, _ => c
  | j + 1, c, d => chebyshev n j d (sub n (mulRoot n d) c)

/-- `2·cos(2π·j / 2^(n+2))`. -/
def twoCos (n j : Nat) : Tower n := chebyshev n (j % 2 ^ (n + 2)) (ofInt n 2) (mulRoot n (ofInt n 1))

/-- `2·sin(2π·j / 2^(n+2))`: a cosine three quarters of the circle on. -/
def twoSin (n j : Nat) : Tower n := twoCos n (j + 3 * 2 ^ n)

/-- The value of a magnitude pattern in units of `2^-299`; that of `+∞` stands for `2^128`, where a longer exponent would
go on. -/
def magUnits (m : Nat) : Int := (Fp.units (BitVec.ofNat 32 m) : Int) * 2 ^ 150

/-- The largest finite magnitude pattern whose value is at most `x` units of `2^-299`, bit by bit from bit `k − 1` down, on
top of `m`. -/
def truncFrom (n : Nat) (x : Tower n) : (k m : Nat) → Nat
  | 0, m => m
  | k + 1, m =>
    truncFrom n x k
      (if m + 2 ^ k < 2139095040 ∧ 0 ≤ sign n (sub n x (ofInt n (magUnits (m + 2 ^ k)))) then m + 2 ^ k else m)

/-- The magnitude pattern nearest to `x ≥ 0` units of `2^-299`, ties to even; `+∞`'s on overflow (00_scope R9). -/
def roundMag (n : Nat) (x : Tower n) : Nat :=
  let m := truncFrom n x 31 0
  let c := sign n (sub n (scale n 2 x) (ofInt n (magUnits m + magUnits (m + 1))))
  if 0 < c ∨ (c = 0 ∧ m % 2 = 1) then m + 1 else m

/-- The NUM nearest to `x` units of `2^-299` (00_scope R9); zero gives `+0` (log entry 24). -/
def toNum (n : Nat) (x : Tower n) : NUM :=
  if sign n x < 0 then Fp.pack true (roundMag n (scale n (-1) x)) else Fp.pack false (roundMag n x)

end Tower

namespace Tables

/-- Coefficient `k` of the phase-reference symbol of a mode: free, finite (10_state R53; log entry 4). -/
def prsFft (mode k : Nat) : Cplx :=
  ⟨Fp.pack (Config.prsPart mode k false).1 (Config.prsPart mode k false).2.val,
   Fp.pack (Config.prsPart mode k true).1 (Config.prsPart mode k true).2.val⟩

/-- Real part of element `k` of `Delta(PRS_FFT)`, exactly, in units of `2^-298` (41 R147). -/
def deltaRe (N : Nat) (prs : Nat → Cplx) (k : Nat) : Int :=
  if k + 1 < N then
    Fp.sunits (prs k).re * Fp.sunits (prs (k + 1)).re + Fp.sunits (prs k).im * Fp.sunits (prs (k + 1)).im
  else 0

/-- Imaginary part of element `k` of `Delta(PRS_FFT)`, exactly, in units of `2^-298` (41 R147). -/
def deltaIm (N : Nat) (prs : Nat → Cplx) (k : Nat) : Int :=
  if k + 1 < N then
    Fp.sunits (prs k).re * Fp.sunits (prs (k + 1)).im - Fp.sunits (prs k).im * Fp.sunits (prs (k + 1)).re
  else 0

/-- The level that holds the cosines of the multiples of `2π/N`, for `N` a power of two. -/
def level (N : Nat) : Nat := Nat.log2 N - 2

/-- `2π·m/N` as a number of parts of the circle of the level of `N`. -/
def turnPart (N m : Nat) : Nat := m * (2 ^ (level N + 2) / N)

/-- The sum of `f 0` to `f (K − 1)`. -/
def sum (n : Nat) : (K : Nat) → (f : Nat → Tower n) → Tower n
  | 0, _ => Tower.ofInt n 0
  | K + 1, f => Tower.add n (sum n K f) (f K)

/-- Real part of `IFFT(Delta(PRS_FFT))[n]`, exactly, in units of `2^-299` (41 R141). -/
def ifftRe (N : Nat) (prs : Nat → Cplx) (n : Nat) : Tower (level N) :=
  sum (level N) N fun k =>
    Tower.sub _ (Tower.scale _ (deltaRe N prs k) (Tower.twoCos _ (turnPart N (n * k))))
      (Tower.scale _ (deltaIm N prs k) (Tower.twoSin _ (turnPart N (n * k))))

/-- Imaginary part of `IFFT(Delta(PRS_FFT))[n]`, exactly, in units of `2^-299` (41 R141). -/
def ifftIm (N : Nat) (prs : Nat → Cplx) (n : Nat) : Tower (level N) :=
  sum (level N) N fun k =>
    Tower.add _ (Tower.scale _ (deltaRe N prs k) (Tower.twoSin _ (turnPart N (n * k))))
      (Tower.scale _ (deltaIm N prs k) (Tower.twoCos _ (turnPart N (n * k))))

/-- `PRSF[k] = conj(PRS_FFT[k])` (10_state R53). -/
def prsf (prs : Nat → Cplx) (k : Nat) : Cplx := (prs k).conj

/-- `PRST[n] = conj(IFFT(Delta(PRS_FFT))[n])`, the exact value rounded to NUM once (10_state R53, 70 R313). -/
def prst (N : Nat) (prs : Nat → Cplx) (n : Nat) : Cplx :=
  ⟨Tower.toNum _ (ifftRe N prs n), Tower.toNum _ (Tower.scale _ (-1) (ifftIm N prs n))⟩

end Tables
end Sys2Proof
end

