-- ==== Sys2Proof/Machine/State.lean ====
section
/-! DEFINITION. The state of the core, the reasons a step can stop, and the state after reset
(10_state R30 to R56). Each field's docstring gives the spec's name. -/

namespace Sys2Proof.Machine

/-- The core's agents (00_scope R15, 60_exceptions R291). -/
inductive Agent where
  | ingest
  | coord
  | worker (w : Nat)
  deriving DecidableEq, Repr

/-- A pending diversion of an agent from its list: Desync raised by `FTCHK`, or the outcome *stopped*
(60_exceptions R280, R286, 45_synchronisation R265; log entry 12). -/
inductive Divert where
  | none
  | desync
  | stopped
  deriving DecidableEq, Repr, Inhabited

/-- The configuration registers the host writes (10_state R48). -/
structure Cfg where
  /-- MODE, 0x00 -/
  mode : BitVec 2
  /-- L1_NB_SAMPLES, 0x10, `K` -/
  l1NbSamples : BitVec 32
  /-- L1_NB_DECIMATE, 0x11, `D` -/
  l1NbDecimate : BitVec 32
  /-- L1_UPDATE_BETA, 0x12, `β_l1` -/
  l1UpdateBeta : NUM
  /-- THRESH_NULL_START, 0x13, `θ_start` -/
  threshNullStart : NUM
  /-- THRESH_NULL_END, 0x14, `θ_end` -/
  threshNullEnd : NUM
  /-- COARSE_FREQ_EN, 0x15, `coarse_en` -/
  coarseFreqEn : Bool
  /-- MAX_COARSE_FREQ_NORM, 0x16, `w_max` -/
  maxCoarseFreqNorm : NUM
  /-- COARSE_FREQ_SLOW_BETA, 0x17, `β_slow` -/
  coarseFreqSlowBeta : NUM
  /-- IMPULSE_PEAK_THRESH_DB, 0x18, `θ_imp` -/
  impulsePeakThreshDb : NUM
  /-- IMPULSE_PEAK_DIST_PROB, 0x19, `p_dist` -/
  impulsePeakDistProb : NUM
  /-- FINE_FREQ_UPDATE_BETA, 0x1A, `β_fine` -/
  fineFreqUpdateBeta : NUM
  /-- SOFT_HIGH, 0x1B, a signed 8-bit integer -/
  softHigh : BitVec 8
  deriving DecidableEq, Repr, Inhabited

/-- One row of the mode table with the ROM contents fixed with it (00_scope R6, 10_state R53, R54). -/
structure ModeRow where
  par : Params
  /-- `PRSF` -/
  prsf : List Cplx
  /-- `PRST` -/
  prst : List Cplx
  /-- `CMAP` -/
  cmap : List Nat
  deriving DecidableEq, Repr, Inhabited

/-- The mode table: one row per value of MODE (00_scope R6; log entry 3). -/
structure Modes where
  row0 : ModeRow
  row1 : ModeRow
  row2 : ModeRow
  row3 : ModeRow
  deriving DecidableEq, Repr, Inhabited

/-- One worker's registers, flags and `norm_vec` (10_state R32, R43, R45, R46, R52), and the phase of the frame it is in
(20_memory R88; log entry 14). -/
structure Worker where
  /-- `wk_pc[w]` -/
  pc : Nat
  /-- `ph_acc[w]` -/
  phAcc : NUM
  /-- `ph_slot[w]` -/
  phSlot : NUM
  /-- `WS[w]` -/
  ws : Bool
  /-- `WP[w]` -/
  wp : Bool
  /-- `WF[w]` -/
  wf : Bool
  /-- `WD[w]` -/
  wd : Bool
  /-- `halted[w]` -/
  halted : Bool
  /-- outcome *stopped* pending (log entry 12) -/
  divert : Divert
  /-- the worker is between its `WAIT WS[w]` and its `SIG WD[w]` -/
  holds : Bool
  /-- the worker has passed `WAIT WF[w + 1]` since the last `REL` -/
  sawWf : Bool
  /-- the coordinator has passed `WAIT WP[w]` since the last `REL` -/
  sawWp : Bool
  /-- `NV[w]` -/
  nv : Mem Cplx
  deriving DecidableEq, Repr, Inhabited

/-- What the host can do in one step (70_reset_and_hazards R320). -/
inductive HostAct where
  /-- assert and release `rst` -/
  | rst
  /-- `RegWrite(n, v)` -/
  | regWrite (n : BitVec 8) (v : BitVec 32)
  /-- `RegRead(n)` -/
  | regRead (n : BitVec 8)
  /-- offer one sample, `s_data = {im, re}` -/
  | offer (d : BitVec 64)
  /-- read `OUT[a]` at the frame port -/
  | readOut (a : Nat)
  deriving DecidableEq, Repr

/-- One turn of the interleaving (00_scope R15, R16; log entries 1, 2). -/
inductive Turn where
  /-- agent `a` takes the next operation of its own list -/
  | run (a : Agent)
  /-- agent `a` issues the operation word `w` of a test program -/
  | issue (a : Agent) (w : Word)
  /-- the host acts -/
  | host (h : HostAct)
  deriving DecidableEq, Repr

/-- The state of the core (10_state). -/
structure State where
  /-- the mode table and ROM, fixed before the run -/
  modes : Modes
  /-- the `T` workers -/
  workers : List Worker
  /-- `acq_state` -/
  acqState : AcqState
  /-- `acq_sub` -/
  acqSub : Nat
  /-- `co_pc` -/
  coPc : Nat
  /-- pending diversion of the ingest agent -/
  ingDivert : Divert
  /-- pending diversion of the coordinator -/
  coDivert : Divert
  /-- `f_coarse` -/
  fCoarse : NUM
  /-- `f_fine` -/
  fFine : NUM
  /-- `f_snap` -/
  fSnap : NUM
  /-- `is_found` -/
  isFound : Bool
  /-- `fine_time_offset` -/
  fineTimeOffset : Int
  /-- `l1_avg` -/
  l1Avg : NUM
  /-- `l1_acc` -/
  l1Acc : NUM
  /-- `l1_cnt` -/
  l1Cnt : Nat
  /-- `l1_win` -/
  l1Win : Nat
  /-- `l1_last` -/
  l1Last : NUM
  /-- `null_start` -/
  nullStart : Bool
  /-- `null_end` -/
  nullEnd : Bool
  /-- `circ_wr` -/
  circWr : Nat
  /-- `corr_len` -/
  corrLen : Nat
  /-- `ing_len` -/
  ingLen : Nat
  /-- `peak_off` -/
  peakOff : Int
  /-- `imp_k` -/
  impK : Nat
  /-- `imp_w` -/
  impW : NUM
  /-- `imp_mu` -/
  impMu : NUM
  /-- `sel` -/
  sel : Bool
  /-- `frames_read` -/
  framesRead : BitVec 32
  /-- `frames_desync` -/
  framesDesync : BitVec 32
  /-- `en` -/
  en : Bool
  /-- `stop` -/
  stop : Bool
  /-- `halted[ingest]` -/
  ingHalted : Bool
  /-- `halted[coord]` -/
  coHalted : Bool
  /-- `psi_avg` -/
  psiAvg : NUM
  /-- `frame_valid` -/
  frameValid : Bool
  /-- `EMIT` has raised `frame_valid` and is blocked -/
  emitArmed : Bool
  /-- `CS` -/
  cs : Bool
  /-- `CE` -/
  ce : Bool
  /-- the configuration registers -/
  cfg : Cfg
  /-- numbers of the configuration registers not written since reset -/
  unset : List (BitVec 8)
  /-- `IMP_INDEX` -/
  impIndex : BitVec 32
  /-- `CIRC` -/
  circ : Mem Cplx
  /-- `CORR` -/
  corr : Mem Cplx
  /-- `ING[0]` -/
  ing0 : Mem Cplx
  /-- `ING[1]` -/
  ing1 : Mem Cplx
  /-- `SA` -/
  sa : Mem Cplx
  /-- `SPEC` -/
  spec : Mem NUM
  /-- `IMP` -/
  imp : Mem NUM
  /-- what `LMAG` overwrote in the FINE_TIME pass in progress (U8) -/
  impPrev : Option (Mem NUM)
  /-- `ZF`, a row per slot -/
  zf : Mem (Mem Cplx)
  /-- `OUT` -/
  out : Mem Soft
  /-- samples offered and not yet taken -/
  samples : List Cplx
  /-- data last driven on the register port -/
  rdData : BitVec 32
  /-- data last driven on the frame port -/
  frData : Soft
  /-- the agent that issues the current operation -/
  cur : Agent
  /-- the turns to come -/
  turns : List Turn
  /-- the counter free values are applied to -/
  tick : Nat
  deriving DecidableEq, Repr

/-- The core has no fault state: "The engine has no exceptional exits" (00_scope R17; log entry 28). -/
inductive Fault where
  deriving DecidableEq, Repr

/-- The reasons the model refuses a step (00_scope R17, 60_exceptions R282). The hardware cannot produce any of
them, so each is safe. -/
inductive Refusal where
  /-- by `exec`'s arm of an operation without a meaning; none is left; safe -/
  | notModelled (mnemonic : String)
  /-- by the step: the word is reserved (30_encoding R115); safe -/
  | reservedWord
  /-- by the meanings with operands: an operand is outside its range for the parameter set (R113, R115); safe -/
  | reservedOperand
  /-- by every meaning: the issuing agent is not entitled to the operation (R115, R266); safe -/
  | notEntitled
  /-- by the meanings on slots and transform buffers: the issuing agent does not own the buffer (R88, R97, R113); safe -/
  | notOwned
  /-- by the meanings with a phase: the buffer or register is the agent's, but not at this moment (R88, R97); safe -/
  | outOfPhase
  /-- by `NSAMP`, `CAPP`, `IAPP`, `PRSCP`: an index register points outside its buffer (R83, R97); safe -/
  | outsideBuffer
  /-- by the host's write of CTRL.EN: the configuration is unwritten or illegal (R50, R312, U4); safe -/
  | illegalConfiguration
  /-- by every meaning and by the step: the worker named does not exist (00_scope R15); safe -/
  | noSuchAgent
  /-- by the step: the agent's position is past the end of its list (10_state R32, 60 R295). DESIGN CHOICE: words of a test
  program can move the ingest agent's there, the hardware's own lists cannot (log entry 13); safe -/
  | noOperation
  deriving DecidableEq, Repr

/-- Every configuration register at the model's value for "unspecified" (10_state R56; log entry 5). -/
def Cfg.power : Cfg where
  mode := 0#2
  l1NbSamples := 0#32
  l1NbDecimate := 0#32
  l1UpdateBeta := 0#32
  threshNullStart := 0#32
  threshNullEnd := 0#32
  coarseFreqEn := false
  maxCoarseFreqNorm := 0#32
  coarseFreqSlowBeta := 0#32
  impulsePeakThreshDb := 0#32
  impulsePeakDistProb := 0#32
  fineFreqUpdateBeta := 0#32
  softHigh := 0#8

/-- The configuration registers the host must write before EN (10_state R48, R56). -/
def cfgNumbers : List (BitVec 8) :=
  [0x00#8, 0x10#8, 0x11#8, 0x12#8, 0x13#8, 0x14#8, 0x15#8, 0x16#8, 0x17#8, 0x18#8, 0x19#8, 0x1A#8, 0x1B#8]

/-- A worker after reset (10_state R56). -/
def Worker.power : Worker where
  pc := 0
  phAcc := 0#32
  phSlot := 0#32
  ws := false
  wp := false
  wf := false
  wd := false
  halted := false
  divert := .none
  holds := false
  sawWf := false
  sawWp := false
  nv := []

/-- The core after reset, built with the mode table `m` and `T` workers (10_state R56, 70 R311). -/
def State.power (m : Modes) (T : Nat) : State where
  modes := m
  workers := List.replicate T Worker.power
  acqState := .findNull
  acqSub := 0
  coPc := 0
  ingDivert := .none
  coDivert := .none
  fCoarse := 0#32
  fFine := 0#32
  fSnap := 0#32
  isFound := false
  fineTimeOffset := 0
  l1Avg := 0#32
  l1Acc := 0#32
  l1Cnt := 0
  l1Win := 0
  l1Last := 0#32
  nullStart := false
  nullEnd := false
  circWr := 0
  corrLen := 0
  ingLen := 0
  peakOff := 0
  impK := 0
  impW := 0#32
  impMu := 0#32
  sel := false
  framesRead := 0#32
  framesDesync := 0#32
  en := false
  stop := false
  ingHalted := false
  coHalted := false
  psiAvg := 0#32
  frameValid := false
  emitArmed := false
  cs := false
  ce := true
  cfg := Cfg.power
  unset := cfgNumbers
  impIndex := 0#32
  circ := []
  corr := []
  ing0 := []
  ing1 := []
  sa := []
  spec := []
  imp := []
  impPrev := none
  zf := []
  out := []
  samples := []
  rdData := 0#32
  frData := 0#8
  cur := .ingest
  turns := []
  tick := 0

/-- The row of a parameter set, a phase-reference symbol and a carrier map: both reference tables are functions of the
symbol (10_state R53, R54; 70 R313). -/
def ModeRow.ofPrs (p : Params) (prs : Nat → Cplx) (cmap : List Nat) : ModeRow where
  par := p
  prsf := (List.range p.N).map (Tables.prsf prs)
  prst := (List.range p.N).map (Tables.prst p.N prs)
  cmap := cmap

/-- A row of the mode table as built: the parameters of R6, the phase-reference symbol and the carrier map free
(10_state R53, R54; log entry 4). -/
def builtRow (mode : Nat) (p : Params) : ModeRow :=
  ModeRow.ofPrs p (Tables.prsFft mode) ((List.finRange p.C).map fun c => (Config.cmap mode p.C c).val)

/-- The mode table as built (00_scope R6). -/
def builtModes : Modes where
  row0 := builtRow 0 Config.modeI
  row1 := builtRow 1 Config.modeII
  row2 := builtRow 2 Config.modeIII
  row3 := builtRow 3 Config.modeIV

/-- The core right after reset (10_state R56); `T = 4`, as in the example of 00_scope R7 (log entry 3). -/
def State.reset : State := State.power builtModes 4

end Sys2Proof.Machine
end

