-- ==== Sys2Proof/Machine/Operands.lean ====
section
/-! DEFINITION. Operands: the parameter set in force, slot ranges, carrier bins, the legal range of every operand,
which agent may issue what, which buffer it may name, and when (00_scope R5, R7; 10_state R54; 20_memory R88, R97;
30_encoding R113, R115; 45_synchronisation R266). -/

namespace Sys2Proof

/-- A legal parameter set (00_scope R5, 70 R321). -/
def Params.legal (p : Params) : Bool :=
  decide (p.N = 2 ^ p.L) && decide (2 ≤ p.N) && decide (1 ≤ p.G ∧ p.G ≤ p.N) && decide (p.C % 2 = 0)
    && decide (2 ≤ p.C ∧ p.C + 2 ≤ p.N) && decide (2 ≤ p.F) && decide (p.S ≤ p.P) && decide (p.G ≤ p.P)

/-- The quotient `q = floor((F + 1) / T)` (00_scope R7). -/
def sliceLen (p : Params) (T : Nat) : Nat := (p.F + 1) / T

/-- `start_w = w·q` (00_scope R7). -/
def startOf (p : Params) (T w : Nat) : Nat := w * sliceLen p T

/-- `end_w`: `(w + 1)·q`, but `F + 1` for the last worker (00_scope R7). -/
def endOf (p : Params) (T w : Nat) : Nat := if w + 1 < T then (w + 1) * sliceLen p T else p.F + 1

/-- `T` as the software chooses it from the parallelism `PAR` (00_scope R7, 90_conflicts C10); the hardware's `T`
is a synthesis parameter. -/
def workersFor (F par : Nat) : Nat := min (F + 1) (Nat.max 1 (par - 1))

/-- `c'`, the signed carrier number of position `j` of `norm_vec` (10_state R54). -/
def cprime (p : Params) (j : Nat) : Int := if j < p.C / 2 then (j : Int) - (p.C / 2 : Nat) else (j : Int) - (p.C / 2 : Nat) + 1

/-- The FFT bin of position `j`, `(N + c') mod N` (10_state R54). -/
def bin (p : Params) (j : Nat) : Nat := (((p.N : Int) + cprime p j) % (p.N : Int)).toNat

namespace Machine

/-- The row of the mode table that MODE selects (10_state R48, 70 R312). -/
def State.row (s : State) : ModeRow :=
  match s.cfg.mode.toNat with
  | 0 => s.modes.row0
  | 1 => s.modes.row1
  | 2 => s.modes.row2
  | _ => s.modes.row3

/-- The parameter set in force. -/
abbrev State.par (s : State) : Params := s.row.par

/-- `T`, the number of workers (00_scope R7). -/
abbrev State.T (s : State) : Nat := s.workers.length

/-- `K` (00_scope R8). -/
abbrev State.K (s : State) : Nat := s.cfg.l1NbSamples.toNat

/-- `D` (00_scope R8). -/
abbrev State.D (s : State) : Nat := s.cfg.l1NbDecimate.toNat

/-- Element `k` of a reference table (10_state R53). -/
def State.refElem (s : State) (t : RefTable) (k : Nat) : Cplx :=
  match t with
  | .prsf => s.row.prsf.getD k default
  | .prst => s.row.prst.getD k default

/-- `CMAP[c]` (10_state R54). -/
def State.cmapAt (s : State) (c : Nat) : Nat := s.row.cmap.getD c 0

/-- The agent exists: workers are numbered `0` to `T − 1` (00_scope R15). -/
def agentExists (T : Nat) : Agent → Bool
  | .ingest => true
  | .coord => true
  | .worker w => decide (w < T)

/-- A slot operand of a transform buffer is at most `F` (30_encoding R113). -/
def xbufLegal (p : Params) : XBuf → Bool
  | .sa => true
  | .zf i => decide (i ≤ p.F)

/-- A stage is 1 to `L` (30_encoding R113). -/
def stageLegal (p : Params) (st : Nat) : Bool := decide (1 ≤ st ∧ st ≤ p.L)

/-- The worker number of a barrier is below `T` (30_encoding R113). -/
def barrierLegal (T : Nat) : Barrier → Bool
  | .cs => true
  | .ce => true
  | .ws w => decide (w < T)
  | .wp w => decide (w < T)
  | .wf w => decide (w < T)
  | .wd w => decide (w < T)

/-- Every operand is inside its range (30_encoding R113, R115). -/
def operandsLegal (p : Params) (T : Nat) : Instr → Bool
  | .bitrev b => xbufLegal p b
  | .bflyf b st => xbufLegal p b && stageLegal p st
  | .bflyi b st => xbufLegal p b && stageLegal p st
  | .adv t => decide (t ≠ .findNull)
  | .derot i => decide (i ≤ p.F)
  | .cperr i => decide (i + 1 ≤ p.F)
  | .ldsym i => decide (i ≤ p.F)
  | .dqpsk i => decide (i + 2 ≤ p.F)
  | .soft i => decide (i + 2 ≤ p.F)
  | .sig x => barrierLegal T x
  | .wait x => barrierLegal T x && decide (x ≠ .wf 0)
  | .delta => true
  | .cmul _ => true
  | .mag => true
  | .lmag => true
  | .pllp => true
  | .ldprs => true
  | .nsamp => true
  | .l1win => true
  | .ncap => true
  | .capp => true
  | .fczero => true
  | .peakc => true
  | .fcupd => true
  | .peakw => true
  | .ftchk => true
  | .prscp => true
  | .iapp => true
  | .nullcp => true
  | .desync => true
  | .phpub => true
  | .rel => true
  | .phavg => true
  | .ffupd => true
  | .emit => true
  | .swap => true
  | .halt => true

/-- The agent is the ingest agent. -/
def isIngest : Agent → Bool
  | .ingest => true
  | .coord => false
  | .worker _ => false

/-- The agent is the coordinator. -/
def isCoord : Agent → Bool
  | .ingest => false
  | .coord => true
  | .worker _ => false

/-- The agent is a worker. -/
def isWorker : Agent → Bool
  | .ingest => false
  | .coord => false
  | .worker _ => true

/-- Who may signal a barrier (45_synchronisation R266). -/
def maySignal (a : Agent) : Barrier → Bool
  | .cs => isIngest a
  | .ce => isCoord a
  | .ws _ => isCoord a
  | .wp w => decide (a = .worker w)
  | .wf w => decide (a = .worker w)
  | .wd w => decide (a = .worker w)

/-- Who may wait on a barrier (45_synchronisation R266). -/
def mayWait (a : Agent) : Barrier → Bool
  | .cs => isCoord a
  | .ce => isIngest a
  | .ws w => decide (a = .worker w)
  | .wp _ => isCoord a
  | .wf w => decide (1 ≤ w ∧ a = .worker (w - 1))
  | .wd _ => isCoord a

/-- The agent may issue the operation (30_encoding R114 last column, 45_synchronisation R266). -/
def entitled (a : Agent) : Instr → Bool
  | .bitrev _ => isIngest a || isWorker a
  | .bflyf _ _ => isIngest a || isWorker a
  | .bflyi _ _ => isIngest a
  | .delta => isIngest a
  | .cmul _ => isIngest a
  | .mag => isIngest a
  | .lmag => isIngest a
  | .pllp => isIngest a
  | .ldprs => isIngest a
  | .nsamp => isIngest a
  | .l1win => isIngest a
  | .ncap => isIngest a
  | .capp => isIngest a
  | .fczero => isIngest a
  | .peakc => isIngest a
  | .fcupd => isIngest a
  | .peakw => isIngest a
  | .ftchk => isIngest a
  | .prscp => isIngest a
  | .iapp => isIngest a
  | .nullcp => isIngest a
  | .desync => isIngest a
  | .adv _ => isIngest a
  | .derot _ => isWorker a
  | .cperr _ => isWorker a
  | .phpub => isWorker a
  | .ldsym _ => isWorker a
  | .dqpsk _ => isWorker a
  | .soft _ => isWorker a
  | .rel => isCoord a
  | .phavg => isCoord a
  | .ffupd => isCoord a
  | .emit => isCoord a
  | .sig x => maySignal a x
  | .wait x => mayWait a x
  | .swap => isIngest a
  | .halt => true

/-- The agent is the worker that owns slot `i` (00_scope R7, 20_memory R88). -/
def ownsSlot (p : Params) (T : Nat) (a : Agent) (i : Nat) : Bool :=
  match a with
  | .ingest => false
  | .coord => false
  | .worker w => decide (startOf p T w ≤ i ∧ i < endOf p T w)

/-- `SA` is the ingest agent's, `ZF[i]` the owner of slot `i`'s (20_memory R88). -/
def ownsXBuf (p : Params) (T : Nat) (a : Agent) : XBuf → Bool
  | .sa => isIngest a
  | .zf i => ownsSlot p T a i

/-- The agent owns the buffer or slot the operation names (20_memory R88, R97, 30_encoding R113; log entry 14). -/
def owned (p : Params) (T : Nat) (a : Agent) : Instr → Bool
  | .bitrev b => ownsXBuf p T a b
  | .bflyf b _ => ownsXBuf p T a b
  | .bflyi b _ => ownsXBuf p T a b
  | .derot i => ownsSlot p T a i
  | .cperr i => ownsSlot p T a i
  | .ldsym i => ownsSlot p T a i
  | .dqpsk i => ownsSlot p T a i
  | .soft i => ownsSlot p T a i
  | .delta => true
  | .cmul _ => true
  | .mag => true
  | .lmag => true
  | .pllp => true
  | .ldprs => true
  | .nsamp => true
  | .l1win => true
  | .ncap => true
  | .capp => true
  | .fczero => true
  | .peakc => true
  | .fcupd => true
  | .peakw => true
  | .ftchk => true
  | .prscp => true
  | .iapp => true
  | .nullcp => true
  | .desync => true
  | .adv _ => true
  | .phpub => true
  | .rel => true
  | .phavg => true
  | .ffupd => true
  | .emit => true
  | .sig _ => true
  | .wait _ => true
  | .swap => true
  | .halt => true

/-- Worker `w`'s registers; the reset ones if there is no such worker. -/
def State.wk (s : State) (w : Nat) : Worker := s.workers.getD w Worker.power

/-- The number of the issuing worker. -/
def State.curW (s : State) : Nat :=
  match s.cur with
  | .ingest => 0
  | .coord => 0
  | .worker w => w

/-- The issuing worker may write the transform buffer: `ZF[start_w]` is read by worker `w − 1` once `WF[w]` is set, so
worker `w` writes it before (20_memory R88). -/
def xbufInPhase (s : State) : XBuf → Bool
  | .sa => true
  | .zf i => !(decide (1 ≤ s.curW ∧ i = startOf s.par s.T s.curW) && (s.wk s.curW).wf)

/-- The moment is one at which the issuing agent may make the operation's accesses (20_memory R88, R97; log entry 14):
the slots of `ACT` and `OUT` from `WAIT WS[w]` to `SIG WD[w]`, `OUT` not while the host may read it, `ZF[end_w]` after
`WAIT WF[w + 1]`, `ph_slot[w]` written before `SIG WP[w]` and read after `WAIT WP[w]`, `SWAP` while the coordinator is
idle at its barrier and no worker holds a slot. -/
def inPhase (s : State) : Instr → Bool
  | .bitrev b => xbufInPhase s b
  | .bflyf b _ => xbufInPhase s b
  | .bflyi b _ => xbufInPhase s b
  | .derot _ => (s.wk s.curW).holds
  | .cperr _ => (s.wk s.curW).holds
  | .phpub => !(s.wk s.curW).wp
  | .ldsym i => (s.wk s.curW).holds && xbufInPhase s (.zf i)
  | .dqpsk i => decide (i + 1 ≠ endOf s.par s.T s.curW) || (s.wk s.curW).sawWf
  | .soft _ => (s.wk s.curW).holds && !s.frameValid
  | .phavg => s.workers.all (·.sawWp)
  | .swap => decide (s.coPc = 0) && !s.cs && s.workers.all fun k => !k.holds && !k.ws
  | .delta => true
  | .cmul _ => true
  | .mag => true
  | .lmag => true
  | .pllp => true
  | .ldprs => true
  | .nsamp => true
  | .l1win => true
  | .ncap => true
  | .capp => true
  | .fczero => true
  | .peakc => true
  | .fcupd => true
  | .peakw => true
  | .ftchk => true
  | .prscp => true
  | .iapp => true
  | .nullcp => true
  | .desync => true
  | .adv _ => true
  | .rel => true
  | .ffupd => true
  | .emit => true
  | .sig _ => true
  | .wait _ => true
  | .halt => true

/-- Why the operation is refused to the issuing agent, if it is (00_scope R17, 20_memory R97, 30_encoding R115;
log entry 14). -/
def issueCheck (s : State) (i : Instr) : Option Refusal :=
  if !agentExists s.T s.cur then some .noSuchAgent
  else if !operandsLegal s.par s.T i then some .reservedOperand
  else if !entitled s.cur i then some .notEntitled
  else if !owned s.par s.T s.cur i then some .notOwned
  else if !inPhase s i then some .outOfPhase
  else none

end Machine
end Sys2Proof
end

