-- ==== Sys2Proof/Machine/Sequencers.lean ====
section
/-! DEFINITION. The hardwired operation lists of the agents and how a position moves in them
(42 R171, R175, R177, R181, R185; 43 R211; 44 R240; 60 R295). -/

namespace Sys2Proof.Machine

/-- `FFT b`: `BITREV b`, then `BFLYF b, 1` to `BFLYF b, L` (30_encoding R119, 41 R153). -/
def fftOps (L : Nat) (b : XBuf) : List Instr := .bitrev b :: (List.range L).map fun k => .bflyf b (k + 1)

/-- `IFFT SA` (30_encoding R119, 41 R154). -/
def ifftOps (L : Nat) : List Instr := .bitrev .sa :: (List.range L).map fun k => .bflyi .sa (k + 1)

/-- `FFTS i` (30_encoding R119, 43 R216). -/
def fftsOps (L i : Nat) : List Instr := .ldsym i :: fftOps L (.zf i)

/-- The operations of FIND_NULL; positions 0 and 1 loop (42 R171). -/
def findNullOps : List Instr := [.nsamp, .l1win, .ncap, .adv .readNullPrs]

/-- The operations of READ_NULL_PRS; position 0 loops (42 R175). -/
def readNullPrsOps : List Instr := [.capp, .adv .coarseFreq]

/-- The operations of COARSE_FREQ (42 R177). -/
def coarseFreqOps (L : Nat) (coarseEn : Bool) : List Instr :=
  if coarseEn then
    Instr.ldprs :: fftOps L XBuf.sa ++ [Instr.delta] ++ ifftOps L ++ [Instr.cmul .prst] ++ fftOps L XBuf.sa
      ++ [Instr.mag, Instr.peakc, Instr.fcupd, Instr.adv .fineTime]
  else [Instr.fczero, Instr.adv .fineTime]

/-- The operations of FINE_TIME (42 R181). -/
def fineTimeOps (L : Nat) : List Instr :=
  [Instr.ldprs, Instr.pllp] ++ fftOps L XBuf.sa ++ [Instr.cmul .prsf] ++ ifftOps L
    ++ [Instr.lmag, Instr.peakw, Instr.ftchk, Instr.prscp, Instr.adv .readSymbols]

/-- The operations of READ_SYMBOLS; position 0 loops (42 R185). -/
def readSymbolsOps : List Instr := [.iapp, .nullcp, .wait .ce, .swap, .sig .cs, Instr.adv .readNullPrs]

/-- The list of the ingest agent's state (42). -/
def ingestOps (s : State) : List Instr :=
  match s.acqState with
  | .findNull => findNullOps
  | .readNullPrs => readNullPrsOps
  | .coarseFreq => coarseFreqOps s.par.L s.cfg.coarseFreqEn
  | .fineTime => fineTimeOps s.par.L
  | .readSymbols => readSymbolsOps

/-- The coordinator's list (44 R240). -/
def coordOps (T : Nat) : List Instr :=
  [Instr.wait .cs, Instr.rel] ++ (List.range T).map (fun w => Instr.wait (.wp w)) ++ [Instr.phavg, Instr.ffupd]
    ++ (List.range T).map (fun w => Instr.wait (.wd w)) ++ [Instr.emit, Instr.sig .ce]

/-- `a, a + 1, …, b − 1`. -/
def slots (a b : Nat) : List Nat := (List.range (b - a)).map (a + ·)

/-- `DQPSK i`, `SOFT i`, after `WAIT WF[w + 1]` for the last pair of the range (43 R211, R219). -/
def pairOps (w e i : Nat) : List Instr :=
  (if i + 1 = e then [Instr.wait (.wf (w + 1))] else []) ++ [Instr.dqpsk i, Instr.soft i]

/-- `WorkerProgram(w)` for the slots `[a, e)` (43 R211). -/
def workerOpsOn (F L w a e : Nat) : List Instr :=
  [Instr.wait (.ws w)] ++ (slots a e).map Instr.derot ++ (slots a (min e F)).map Instr.cperr ++ [Instr.phpub, Instr.sig (.wp w)]
    ++ fftsOps L a ++ [Instr.sig (.wf w)] ++ (slots (a + 1) e).flatMap (fftsOps L)
    ++ (slots a (min e (F - 1))).flatMap (pairOps w e) ++ [Instr.sig (.wd w)]

/-- `WorkerProgram(w)` (43 R211). -/
def workerOps (p : Params) (T w : Nat) : List Instr := workerOpsOn p.F p.L w (startOf p T w) (endOf p T w)

/-- The next operation of the ingest agent: a pending `DESYNC` or `HALT` before its list (60 R286, 45 R265). -/
def nextIngest (s : State) : Option Instr :=
  match s.ingDivert with
  | .desync => some .desync
  | .stopped => some .halt
  | .none => (ingestOps s)[s.acqSub]?

/-- The next operation of the coordinator (44 R240, 45 R265). -/
def nextCoord (s : State) : Option Instr :=
  match s.coDivert with
  | .stopped => some .halt
  | .desync => none
  | .none => (coordOps s.T)[s.coPc]?

/-- The next operation of worker `w` (43 R211, 45 R265). -/
def nextWorker (s : State) (w : Nat) : Option Instr :=
  match s.workers[w]? with
  | none => none
  | some k =>
    match k.divert with
    | .stopped => some .halt
    | .desync => none
    | .none => (workerOps s.par s.T w)[k.pc]?

/-- The operation an agent's sequencer issues next (10_state R31, R32). -/
def State.nextInstr (s : State) (a : Agent) : Option Instr :=
  match a with
  | .ingest => nextIngest s
  | .coord => nextCoord s
  | .worker w => nextWorker s w

/-- The ingest agent's next position in its state's list: one further, except where the list loops
(42 R171, R175, R185; 60 R295; log entry 13). -/
def nextSub (s : State) : Nat :=
  match s.acqState, s.acqSub with
  | .findNull, 0 => if s.l1Cnt = s.K then 1 else if s.nullEnd then 2 else 0
  | .findNull, 1 => if s.nullEnd then 2 else 0
  | .readNullPrs, 0 => if s.corrLen = s.par.P + s.par.S then 1 else 0
  | .readSymbols, 0 => if s.ingLen = s.par.frameLen then 1 else 0
  | _, n => n + 1

/-- The coordinator's next position, back to 0 after the last (10_state R32). -/
def nextCoPc (s : State) : Nat := (s.coPc + 1) % (coordOps s.T).length

/-- A worker's next position, back to 0 after the last (10_state R32). -/
def nextWkPc (s : State) (w : Nat) (k : Worker) : Nat := (k.pc + 1) % (workerOps s.par s.T w).length

/-- The workers after worker `w`'s position moved. -/
def movedWorkers (s : State) : List Worker :=
  match s.cur with
  | .ingest => s.workers
  | .coord => s.workers
  | .worker w => s.workers.modify w fun k => { k with pc := nextWkPc s w k }

/-- The issuing agent's position moves on after an operation (10_state R32, 60 R295). -/
def State.advance (s : State) : State :=
  { s with
    acqSub := if s.cur = .ingest then nextSub s else s.acqSub
    coPc := if s.cur = .coord then nextCoPc s else s.coPc
    workers := movedWorkers s }

end Sys2Proof.Machine
end

