-- ==== Sys2Proof/Machine/Flags.lean ====
section
/-! DEFINITION. Every flag: the barrier flags, the null flags, the halted bits, FLAGS (10_state R38, R43, R46, R49, R57;
45_synchronisation R260). -/

namespace Sys2Proof.Machine

/-- Worker `w`'s registers changed. -/
def State.setWk (s : State) (w : Nat) (f : Worker → Worker) : State := { s with workers := s.workers.modify w f }

/-- The value of a barrier flag (10_state R46). -/
def State.flag (s : State) : Barrier → Bool
  | .cs => s.cs
  | .ce => s.ce
  | .ws w => (s.wk w).ws
  | .wp w => (s.wk w).wp
  | .wf w => (s.wk w).wf
  | .wd w => (s.wk w).wd

/-- A barrier flag written (10_state R46). -/
def State.setFlag (s : State) (x : Barrier) (v : Bool) : State :=
  match x with
  | .cs => { s with cs := v }
  | .ce => { s with ce := v }
  | .ws w => s.setWk w fun k => { k with ws := v }
  | .wp w => s.setWk w fun k => { k with wp := v }
  | .wf w => s.setWk w fun k => { k with wf := v }
  | .wd w => s.setWk w fun k => { k with wd := v }

/-- The classes a passing `WAIT` clears: `CS`, `CE`, `WS` (45_synchronisation R260, R262). -/
def isConsumed : Barrier → Bool
  | .cs => true
  | .ce => true
  | .ws _ => true
  | .wp _ => false
  | .wf _ => false
  | .wd _ => false

/-- A worker after `REL` (44 R241): its flags, and what its neighbour and the coordinator saw of the last frame. -/
def Worker.released (k : Worker) : Worker :=
  { k with wp := false, wf := false, wd := false, ws := true, sawWf := false, sawWp := false }

/-- The phase `SIG x` ends: `SIG WD[w]` ends worker `w`'s hold on its slots (20_memory R88; log entry 14). -/
def State.leavePhase (s : State) : Barrier → State
  | .wd w => s.setWk w fun k => { k with holds := false }
  | .cs => s
  | .ce => s
  | .ws _ => s
  | .wp _ => s
  | .wf _ => s

/-- The phase a passed `WAIT x` begins: `WAIT WS[w]` gives worker `w` its slots, `WAIT WF[w]` lets worker `w − 1` read
`ZF[start_w]`, `WAIT WP[w]` lets the coordinator read `ph_slot[w]` (20_memory R88; log entry 14). -/
def State.enterPhase (s : State) : Barrier → State
  | .ws w => s.setWk w fun k => { k with holds := true }
  | .wf w => s.setWk (w - 1) fun k => { k with sawWf := true }
  | .wp w => s.setWk w fun k => { k with sawWp := true }
  | .cs => s
  | .ce => s
  | .wd _ => s

/-- `null_start` after the window test (42 R173). -/
def nullStartAfter (s : State) (l1w : NUM) : Bool :=
  s.nullStart || Fp.lt l1w (Fp.mul s.cfg.threshNullStart s.l1Avg)

/-- `null_end` after the window test, which only a window after the one that set `null_start` can set (42 R173). -/
def nullEndAfter (s : State) (l1w : NUM) : Bool :=
  s.nullEnd || (s.nullStart && Fp.lt (Fp.mul s.cfg.threshNullEnd s.l1Avg) l1w)

/-- The halted bit of an agent (10_state R43). -/
def State.isHalted (s : State) : Agent → Bool
  | .ingest => s.ingHalted
  | .coord => s.coHalted
  | .worker w => (s.wk w).halted

/-- The halted bit of the issuing agent set (45_synchronisation R264). -/
def State.setHalted (s : State) : State :=
  match s.cur with
  | .ingest => { s with ingHalted := true }
  | .coord => { s with coHalted := true }
  | .worker w => s.setWk w fun k => { k with halted := true }

/-- The outcome *stopped* pending for the issuing agent: its next operation is `HALT` (45_synchronisation R265). DESIGN
CHOICE: a blocking operation of a test program issued in an agent whose `DESYNC` is pending puts `HALT` in its place
(log entry 12). -/
def State.setStopped (s : State) : State :=
  match s.cur with
  | .ingest => { s with ingDivert := .stopped }
  | .coord => { s with coDivert := .stopped }
  | .worker w => s.setWk w fun k => { k with divert := .stopped }

/-- Every agent has halted: FLAGS bit 7 (10_state R49, 45_synchronisation R264). -/
def State.allHalted (s : State) : Bool := s.ingHalted && s.coHalted && s.workers.all (·.halted)

/-- One bit as a number. -/
def bitAt (b : Bool) (n : Nat) : Nat := if b then 2 ^ n else 0

/-- FLAGS, register 0x28 (10_state R49). -/
def State.flagsWord (s : State) : BitVec 32 :=
  BitVec.ofNat 32 (bitAt s.isFound 0 + bitAt s.nullStart 1 + bitAt s.nullEnd 2 + bitAt s.sel 3
    + bitAt s.frameValid 4 + bitAt s.stop 5 + bitAt s.en 6 + bitAt s.allHalted 7)

end Sys2Proof.Machine
end

