-- ==== Sys2Proof/Machine/Ops.lean ====
section
/-! DEFINITION. The named operations over buffers and registers, taking the exception, and the DSP functions
(20_memory R80 to R97; 41 R140 to R147; 60 R281 to R287). -/

namespace Sys2Proof

/-- `MemRead(B, i)`: the last value written, or the reset element (20_memory R97). -/
def Mem.rd {α : Type} [Inhabited α] (m : Mem α) (i : Nat) : α := (m.lookup i).getD default

/-- The entries of `f 0, …, f (n − 1)` at `base` onward that differ from the reset element. -/
def Mem.cells {α : Type} [Inhabited α] [DecidableEq α] (base n : Nat) (f : Nat → α) : Mem α :=
  (List.range n).filterMap fun i => if f i = default then none else some (base + i, f i)

/-- The elements `base, …, base + n − 1` written with `f 0, …, f (n − 1)`; the canonical form is kept
(20_memory R97; log entry 23). -/
def Mem.fill {α : Type} [Inhabited α] [DecidableEq α] (m : Mem α) (base n : Nat) (f : Nat → α) : Mem α :=
  m.filter (fun c => decide (c.1 < base)) ++ Mem.cells base n f ++ m.filter (fun c => decide (base + n ≤ c.1))

/-- `MemWrite(B, i, v)` (20_memory R97). -/
def Mem.put {α : Type} [Inhabited α] [DecidableEq α] (m : Mem α) (i : Nat) (v : α) : Mem α := m.fill i 1 fun _ => v

/-- The canonical form: indices strictly rising, no entry equal to the reset element. -/
abbrev Mem.wf {α : Type} [Inhabited α] (m : Mem α) : Prop :=
  m.Pairwise (fun a b => a.1 < b.1) ∧ ∀ c ∈ m, c.2 ≠ default

namespace Dsp

/-- The arithmetic a butterfly needs: that of NUM complex numbers in the hardware, of exact numbers in claims. -/
structure Arith (α : Type) where
  add : α → α → α
  sub : α → α → α
  mul : α → α → α

/-- NUM complex arithmetic (00_scope R10). -/
def num : Arith Cplx := ⟨Cplx.add, Cplx.sub, Cplx.mul⟩

/-- `rev_L(n)`: the `L` binary digits of `n` in reverse (41 R142). -/
def rev : (L n : Nat) → Nat
  | 0, _ => 0
  | L + 1, n => n % 2 * 2 ^ L + rev L (n / 2)

/-- Element `n` of a buffer `x` after one butterfly stage with half block `h` and twiddles `w 0, …, w (h − 1)`
(41 R143): the pairs of a stage are disjoint, so each element is written once. -/
def stage {α : Type} (A : Arith α) (h : Nat) (w : Nat → α) (x : Nat → α) (n : Nat) : α :=
  if n % (2 * h) < h then A.add (x n) (A.mul (w (n % (2 * h))) (x (n + h)))
  else A.sub (x (n - h)) (A.mul (w (n % (2 * h) - h)) (x n))

/-- The stages `1, …, k` after each other (41 R143, R153), with `tw s j` the twiddle of stage `s`. -/
def stages {α : Type} (A : Arith α) (tw : Nat → Nat → α) (x : Nat → α) : Nat → Nat → α
  | 0 => x
  | k + 1 => stage A (2 ^ k) (tw (k + 1)) (stages A tw x k)

/-- The bit reversal and all `L` stages (41 R153, R154). -/
def transform {α : Type} (A : Arith α) (L : Nat) (tw : Nat → Nat → α) (x : Nat → α) : Nat → α :=
  stages A tw (fun n => x (rev L n)) L

/-- The forward twiddle `TW[j·r]`, `r = N / 2^s` (41 R143). -/
def twF (N s j : Nat) : Cplx := Twiddle.tw N (j * (N / 2 ^ s))

/-- The inverse twiddle `conj(TW[j·r])` (41 R143). -/
def twI (N s j : Nat) : Cplx := (Twiddle.tw N (j * (N / 2 ^ s))).conj

/-- Element `i` of `ApplyPLL(input, freq, phase0)` (41 R140). -/
def applyPll (x : Nat → Cplx) (freq phase0 : NUM) (i : Nat) : Cplx := (x i).mul (Cplx.rot phase0 freq i)

/-- `ConjMulSum(a, b)` over `n` elements, ascending from `(0, 0)` (41 R144). -/
def conjMulSum (n : Nat) (a b : Nat → Cplx) : Cplx :=
  (List.range n).foldl (fun acc i => acc.add ((a i).conj.mul (b i))) Cplx.zero

/-- Element `k` of `Delta(X)` (41 R147). -/
def delta (N : Nat) (x : Nat → Cplx) (k : Nat) : Cplx := if k + 1 < N then (x k).conj.mul (x (k + 1)) else Cplx.zero

/-- Element `i` of `Magnitude(X)`, FFT shift included (41 R145). -/
def magnitude (N : Nat) (x : Nat → Cplx) (i : Nat) : NUM := (x ((i + N / 2) % N)).dB

/-- Element `k` of `LogMag(X)` (41 R146). -/
def logMag (x : Nat → Cplx) (k : Nat) : NUM := (x k).dB

/-- The sum of `f 0, …, f (n − 1)`, ascending from zero (00_scope R9). -/
def sum (n : Nat) (f : Nat → NUM) : NUM := (List.range n).foldl (fun acc i => Fp.add acc (f i)) Fp.zero

/-- The index an ascending scan ends with: a candidate wins only if strictly greater, so the first maximum
wins and a NaN never replaces one (42 R179, R182). -/
def scanMax (val : Nat → NUM) (first : Nat) (rest : List Nat) : Nat :=
  rest.foldl (fun best i => if Fp.lt (val best) (val i) then i else best) first

/-- `soft(x)` (43 R218): scale, truncate, clamp; NaN to 0. -/
def soft (softHigh : Int) (x : NUM) : Soft :=
  let y := Fp.mul (Fp.ofInt softHigh) x
  if Fp.isNaN y then 0#8
  else if Fp.isInf y then BitVec.ofInt 8 (if Fp.neg? y then -softHigh else softHigh)
  else BitVec.ofInt 8 (Max.max (-softHigh) (Min.min (Fp.truncInt y) softHigh))

end Dsp

namespace Machine

/-- `B_f = 0.505 / N` (10_state R34). -/
def fineBound (N : Nat) : NUM := Fp.div Fp.c0505 (Fp.ofNat N)

/-- `wrap_f(v) = fmod(v, B_f)` (10_state R34). -/
def wrapF (N : Nat) (v : NUM) : NUM := Fp.fmod v (fineBound N)

/-- The active ingest buffer `ING[sel]` (10_state R41). -/
def State.act (s : State) : Mem Cplx := if s.sel then s.ing1 else s.ing0

/-- The inactive ingest buffer `ING[1 − sel]` (10_state R41). -/
def State.inact (s : State) : Mem Cplx := if s.sel then s.ing0 else s.ing1

/-- The active ingest buffer written. -/
def State.setAct (s : State) (m : Mem Cplx) : State :=
  { s with ing0 := if s.sel then s.ing0 else m, ing1 := if s.sel then m else s.ing1 }

/-- The inactive ingest buffer written. -/
def State.setInact (s : State) (m : Mem Cplx) : State :=
  { s with ing0 := if s.sel then m else s.ing0, ing1 := if s.sel then s.ing1 else m }

/-- The buffer a transform step reads (30_encoding R113). -/
def State.xbuf (s : State) : XBuf → Mem Cplx
  | .sa => s.sa
  | .zf i => s.zf.rd i

/-- The buffer a transform step writes (30_encoding R113). -/
def State.setXbuf (s : State) (b : XBuf) (m : Mem Cplx) : State :=
  match b with
  | .sa => { s with sa := m }
  | .zf i => { s with zf := s.zf.put i m }

/-- The buffer of `N` elements replaced by `f 0, …, f (N − 1)`, every read before every write. -/
def State.mapXbuf (s : State) (b : XBuf) (f : Nat → Cplx) : State := s.setXbuf b ((s.xbuf b).fill 0 s.par.N f)

/-- The outcome type of a step of this machine. -/
abbrev Res := Host.Outcome State Fault Refusal

/-- The operation runs if the issuing agent may issue it with these operands (00_scope R17, 30_encoding R115). -/
def checked (s : State) (i : Instr) (k : Res) : Res :=
  match issueCheck s i with
  | some r => .refused r
  | none => k

/-- A blocking operation: with `stop` set its outcome is *stopped* and it has no effect (45_synchronisation R265). -/
def blocking (s : State) (k : Res) : Res := if s.stop then .next s.setStopped else k

/-- A blocked operation changes nothing and its agent stays on it (45_synchronisation R262; log entry 10). -/
def blocked (s : State) : Res := .next s

/-- The operation is done: its agent's position moves on (60 R295). -/
def done (s : State) : Res := .next s.advance

/-- Taking the one exception, Desync: nothing is saved, the raising operation writes nothing, and the ingest agent's
next operation is `DESYNC` (60 R281, R286). DESIGN CHOICE: an `FTCHK` of a test program that raises it in an agent whose
`HALT` is pending puts `DESYNC` in its place; the hardware issues no `FTCHK` there (log entry 12). -/
def State.raiseDesync (s : State) : State := { s with ingDivert := .desync }

/-- The whole handler of Desync; there is no return, FIND_NULL follows (42 R189, 60 R287). DESIGN CHOICE: a `DESYNC` of a
test program issued in an agent whose `HALT` is pending clears that too, so the agent goes on to FIND_NULL and, `stop`
being set for good, is stopped again by the `NSAMP` that follows, as 60 R285 has it; R189 and R265 are silent on it
(log entry 12). -/
def State.handleDesync (s : State) : State :=
  { s with
    framesDesync := s.framesDesync + 1
    acqState := .findNull
    acqSub := 0
    corrLen := 0
    isFound := false
    fFine := Fp.zero
    fineTimeOffset := 0
    nullStart := false
    nullEnd := false
    l1Acc := Fp.zero
    l1Cnt := 0
    l1Win := 0
    ingDivert := .none
    impPrev := none }

end Machine
end Sys2Proof
end

