-- ==== Sys2Proof/Machine/Acquisition.lean ====
section
/-! DEFINITION. Group 0x2_: the acquisition state machine (42 R172 to R189). -/

namespace Sys2Proof.Machine

/-- A sample-consuming operation: blocks while no sample is offered, takes one otherwise (42 R170). -/
def takeSample (s : State) (k : Cplx → State → Res) : Res :=
  blocking s <|
    match s.samples with
    | [] => blocked s
    | x :: rest => k x { s with samples := rest }

/-- `NSAMP` (42 R172). -/
def execNsamp (s : State) : Res :=
  checked s .nsamp <| takeSample s fun x t =>
    if t.circWr < t.par.P then
      done { t with
        circ := t.circ.put t.circWr x
        circWr := (t.circWr + 1) % t.par.P
        l1Acc := Fp.add t.l1Acc x.l1
        l1Cnt := t.l1Cnt + 1 }
    else .refused .outsideBuffer

/-- The window's L1, the mean of its samples (42 R173). -/
def windowL1 (s : State) : NUM := Fp.div s.l1Acc (Fp.ofNat s.K)

/-- `l1_avg` after a window: updated by the first of every `D` windows only (42 R173). -/
def l1AvgAfter (s : State) (l1w : NUM) : NUM :=
  if s.l1Win = 0 then Fp.add s.l1Avg (Fp.mul s.cfg.l1UpdateBeta (Fp.sub l1w s.l1Avg)) else s.l1Avg

/-- `L1WIN` (42 R173): the tests use the average from before this window. -/
def execL1win (s : State) : Res :=
  checked s .l1win <|
    done { s with
      l1Last := windowL1 s
      l1Acc := Fp.zero
      l1Cnt := 0
      nullStart := nullStartAfter s (windowL1 s)
      nullEnd := nullEndAfter s (windowL1 s)
      l1Avg := l1AvgAfter s (windowL1 s)
      l1Win := (s.l1Win + 1) % s.D }

/-- `NCAP` (42 R174): oldest sample first. -/
def execNcap (s : State) : Res :=
  checked s .ncap <|
    done { s with
      corr := s.corr.fill 0 s.par.P fun n => s.circ.rd ((s.circWr + n) % s.par.P)
      corrLen := s.par.P
      nullStart := false
      nullEnd := false }

/-- `CAPP` (42 R176). -/
def execCapp (s : State) : Res :=
  checked s .capp <| takeSample s fun x t =>
    if t.corrLen < t.par.P + t.par.S then
      done { t with corr := t.corr.put t.corrLen x, corrLen := t.corrLen + 1 }
    else .refused .outsideBuffer

/-- `FCZERO` (42 R178). -/
def execFczero (s : State) : Res :=
  checked s .fczero <| done { s with fCoarse := Fp.zero }

/-- `W = floor(w_max·N)` clamped to `[0, N/2]` (42 R179); an infinite product clamps to the end of its sign
(log entry 9). -/
def searchHalfWidth (s : State) : Nat :=
  let y := Fp.mul s.cfg.maxCoarseFreqNorm (Fp.ofNat s.par.N)
  if Fp.isInf y then (if Fp.neg? y then 0 else s.par.N / 2)
  else min (Fp.floorInt y).toNat (s.par.N / 2)

/-- The candidates after the first: `N/2 − W + 1, …, N/2 + W`, without `N` (42 R179). -/
def coarseCandidates (N W : Nat) : List Nat :=
  ((List.range (2 * W)).map fun i => N / 2 - W + 1 + i).filter fun i => decide (i ≠ N)

/-- The index of the coarse peak (42 R179). -/
def coarsePeak (s : State) : Nat :=
  Dsp.scanMax s.spec.rd (s.par.N / 2 - searchHalfWidth s) (coarseCandidates s.par.N (searchHalfWidth s))

/-- `PEAKC` (42 R179). -/
def execPeakc (s : State) : Res :=
  checked s .peakc <| done { s with peakOff := (coarsePeak s : Int) - ((s.par.N / 2 : Nat) : Int) }

/-- `f_pred = −peak_off / N` (42 R180). -/
def predictedCoarse (s : State) : NUM := Fp.div (Fp.ofInt (-s.peakOff)) (Fp.ofNat s.par.N)

/-- `e = f_pred − f_coarse` (42 R180). -/
def coarseError (s : State) : NUM := Fp.sub (predictedCoarse s) s.fCoarse

/-- `β`: 1 far from lock or before the first update, `β_slow` otherwise (42 R180). -/
def coarseBeta (s : State) : NUM :=
  if Fp.lt (Fp.div Fp.oneHalf3 (Fp.ofNat s.par.N)) (Fp.abs (coarseError s)) || !s.isFound then Fp.one
  else s.cfg.coarseFreqSlowBeta

/-- `Δf = β·e` (42 R180). -/
def coarseStep (s : State) : NUM := Fp.mul (coarseBeta s) (coarseError s)

/-- `FCUPD` (42 R180): the counter-adjust of `f_fine` is in the same step. -/
def execFcupd (s : State) : Res :=
  checked s .fcupd <|
    done { s with
      fCoarse := Fp.add s.fCoarse (coarseStep s)
      fFine := wrapF s.par.N (Fp.sub s.fFine (coarseStep s))
      isFound := true }

/-- `decay = 1 − p_dist` (42 R182). -/
def peakDecay (s : State) : NUM := Fp.sub Fp.one s.cfg.impulsePeakDistProb

/-- `val(k) = (1 − decay·|k − G|/S)·IMP[k]` (42 R182). -/
def weightedPeak (s : State) (k : Nat) : NUM :=
  Fp.mul
    (Fp.sub Fp.one
      (Fp.div (Fp.mul (peakDecay s) (Fp.ofNat ((k : Int) - (s.par.G : Int)).natAbs)) (Fp.ofNat s.par.S)))
    (s.imp.rd k)

/-- `k*` (42 R182). -/
def impulsePeak (s : State) : Nat :=
  Dsp.scanMax (weightedPeak s) 0 ((List.range (s.par.N - 1)).map fun i => i + 1)

/-- `PEAKW` (42 R182). -/
def execPeakw (s : State) : Res :=
  checked s .peakw <|
    done { s with
      impMu := Fp.div (Dsp.sum s.par.N s.imp.rd) (Fp.ofNat s.par.N)
      impK := impulsePeak s
      impW := weightedPeak s (impulsePeak s) }

/-- The acceptance test fails: `imp_w − imp_mu < θ_imp` (42 R183, 60 R281). -/
def desyncTest (s : State) : Bool := Fp.lt (Fp.sub s.impW s.impMu) s.cfg.impulsePeakThreshDb

/-- `FTCHK` (42 R183): raises Desync, or sets the offset. -/
def execFtchk (s : State) : Res :=
  checked s .ftchk <|
    if desyncTest s then .next s.raiseDesync
    else done { s with fineTimeOffset := (s.impK : Int) - (s.par.G : Int) }

/-- `PRSCP` (42 R184). -/
def execPrscp (s : State) : Res :=
  checked s .prscp <|
    if 0 ≤ (s.par.P : Int) + s.fineTimeOffset ∧ s.fineTimeOffset ≤ (s.par.S : Int)
        ∧ (s.par.S : Int) - s.fineTimeOffset ≤ (s.par.frameLen : Int) then
      done { s.setInact (s.inact.fill 0 ((s.par.S : Int) - s.fineTimeOffset).toNat fun n =>
          s.corr.rd (((s.par.P : Int) + s.fineTimeOffset).toNat + n)) with
        ingLen := ((s.par.S : Int) - s.fineTimeOffset).toNat }
    else .refused .outsideBuffer

/-- `IAPP` (42 R186). -/
def execIapp (s : State) : Res :=
  checked s .iapp <| takeSample s fun x t =>
    if t.ingLen < t.par.frameLen then
      done { t.setInact (t.inact.put t.ingLen x) with ingLen := t.ingLen + 1 }
    else .refused .outsideBuffer

/-- `NULLCP` (42 R187). -/
def execNullcp (s : State) : Res :=
  checked s .nullcp <|
    done { s with
      corr := s.corr.fill 0 s.par.P fun n => s.inact.rd (s.par.F * s.par.S + n)
      corrLen := s.par.P }

/-- `ADV target` (42 R188). -/
def execAdv (target : AcqState) (s : State) : Res :=
  checked s (.adv target) <| .next { s with acqState := target, acqSub := 0, impPrev := none }

/-- `DESYNC` (42 R189): the handler of the one exception. -/
def execDesync (s : State) : Res :=
  checked s .desync <| .next s.handleDesync

end Sys2Proof.Machine
end

