-- ==== Sys2Proof/Machine/Coordinator.lean ====
section
/-! DEFINITION. Group 0x4_: the coordinator (44 R241 to R244). -/

namespace Sys2Proof.Machine

/-- `REL` (44 R241). -/
def execRel (s : State) : Res :=
  checked s .rel <| done { s with workers := s.workers.map Worker.released }

/-- `PHAVG` (44 R242): the sum runs in ascending `w`. -/
def execPhavg (s : State) : Res :=
  checked s .phavg <|
    done { s with psiAvg := Fp.div (Dsp.sum s.T fun w => (s.wk w).phSlot) (Fp.ofNat s.par.F) }

/-- `Δ = −β_fine·(psi_avg·(1/N)/(2π))`, operation by operation as written (44 R243). -/
def fineStep (s : State) : NUM :=
  Fp.neg (Fp.mul s.cfg.fineFreqUpdateBeta
    (Fp.div (Fp.mul s.psiAvg (Fp.div Fp.one (Fp.ofNat s.par.N))) Fp.twoPi))

/-- `FFUPD` (44 R243). -/
def execFfupd (s : State) : Res :=
  checked s .ffupd <| done { s with fFine := wrapF s.par.N (Fp.add s.fFine (fineStep s)) }

/-- `EMIT` (44 R244): raises `frame_valid`, then blocks until the host has acknowledged (log entry 11). DESIGN CHOICE:
`stop` set after the acknowledge but before the coordinator's next turn (one CTRL write of FRAME_ACK and STOP among them)
still makes the outcome *stopped*, with no `SIG CE` after it: the coordinator is blocked in `EMIT` until its own turn. 70
R320 has the acknowledge complete `EMIT` and 45 R265 stops an agent that is blocked; neither says which comes first. The
other order, the turn between acknowledge and stop, is another interleaving of the model. DESIGN CHOICE: a word of a test
program issued to the coordinator between the two steps of `EMIT` runs and leaves `emitArmed` set, so the next `EMIT` only
ends the one begun and does not raise `frame_valid`; R244 says nothing of a word given to a blocked agent (log entry 11). -/
def execEmit (s : State) : Res :=
  checked s .emit <| blocking s <|
    if s.emitArmed then
      (if s.frameValid then blocked s else done { s with emitArmed := false })
    else .next { s with frameValid := true, emitArmed := true }

end Sys2Proof.Machine
end

