-- ==== Sys2Proof/Machine/Dsp.lean ====
section
/-! DEFINITION. Group 0x1_: the transform steps and the other operations on `SA` (41 R150 to R160). -/

namespace Sys2Proof.Machine

/-- `BITREV b` (41 R150): element `n` is the old element `rev_L(n)`, `rev_L` being its own inverse (R142). -/
def execBitrev (b : XBuf) (s : State) : Res :=
  checked s (.bitrev b) <|
    done (s.mapXbuf b fun n => (s.xbuf b).rd (Dsp.rev s.par.L n))

/-- `BFLYF b, stage` (41 R151). -/
def execBflyf (b : XBuf) (stage : Nat) (s : State) : Res :=
  checked s (.bflyf b stage) <|
    done (s.mapXbuf b (Dsp.stage Dsp.num (2 ^ (stage - 1)) (Dsp.twF s.par.N stage) (s.xbuf b).rd))

/-- `BFLYI b, stage` (41 R152). -/
def execBflyi (b : XBuf) (stage : Nat) (s : State) : Res :=
  checked s (.bflyi b stage) <|
    done (s.mapXbuf b (Dsp.stage Dsp.num (2 ^ (stage - 1)) (Dsp.twI s.par.N stage) (s.xbuf b).rd))

/-- `DELTA` (41 R155). -/
def execDelta (s : State) : Res :=
  checked s .delta <| done (s.mapXbuf .sa (Dsp.delta s.par.N s.sa.rd))

/-- `CMUL t` (41 R156). -/
def execCmul (t : RefTable) (s : State) : Res :=
  checked s (.cmul t) <| done (s.mapXbuf .sa fun k => (s.sa.rd k).mul (s.refElem t k))

/-- `MAG` (41 R157). -/
def execMag (s : State) : Res :=
  checked s .mag <| done { s with spec := s.spec.fill 0 s.par.N (Dsp.magnitude s.par.N s.sa.rd) }

/-- `LMAG` (41 R158); the old elements stay visible to a diagnostic read until FINE_TIME is left (U8; log entry 17). -/
def execLmag (s : State) : Res :=
  checked s .lmag <|
    done { s with imp := s.imp.fill 0 s.par.N (Dsp.logMag s.sa.rd), impPrev := some s.imp }

/-- `PLLP` (41 R159): the frequency is one addition, read in the same step. -/
def execPllp (s : State) : Res :=
  checked s .pllp <|
    done (s.mapXbuf .sa (Dsp.applyPll s.sa.rd (Fp.add s.fCoarse s.fFine) Fp.zero))

/-- `LDPRS` (41 R160). -/
def execLdprs (s : State) : Res :=
  checked s .ldprs <| done (s.mapXbuf .sa fun n => s.corr.rd (s.par.P + n))

end Sys2Proof.Machine
end

