-- ==== Sys2Proof/Machine/Pipeline.lean ====
section
/-! DEFINITION. Group 0x3_: the workers (43 R212 to R218). -/

namespace Sys2Proof.Machine

/-- `DEROT i` (43 R212): the phase runs on the sample index `n = i·S + k` within the frame. -/
def execDerot (i : Nat) (s : State) : Res :=
  checked s (.derot i) <|
    done (s.setAct (s.act.fill (i * s.par.S) s.par.S fun k =>
      (s.act.rd (i * s.par.S + k)).mul (Cplx.rot Fp.zero s.fSnap (i * s.par.S + k))))

/-- `z = Σ conj(sym[k])·sym[N + k]` over the cyclic prefix (43 R213, 90_conflicts C4). -/
def prefixProduct (s : State) (i : Nat) : Cplx :=
  Dsp.conjMulSum s.par.G (fun k => s.act.rd (i * s.par.S + k)) (fun k => s.act.rd (i * s.par.S + (s.par.N + k)))

/-- `CPERR i` (43 R213). -/
def execCperr (i : Nat) (s : State) : Res :=
  checked s (.cperr i) <|
    done (s.setWk s.curW fun k => { k with phAcc := Fp.add k.phAcc (prefixProduct s i).arg })

/-- `PHPUB` (43 R214). -/
def execPhpub (s : State) : Res :=
  checked s .phpub <| done (s.setWk s.curW fun k => { k with phSlot := k.phAcc, phAcc := Fp.zero })

/-- `LDSYM i` (43 R215). -/
def execLdsym (i : Nat) (s : State) : Res :=
  checked s (.ldsym i) <|
    done (s.mapXbuf (.zf i) fun n => s.act.rd (i * s.par.S + s.par.G + n))

/-- `v_c = Z_{i+1}[b]·conj(Z_i[b])` (43 R217). -/
def differential (s : State) (i j : Nat) : Cplx :=
  ((s.zf.rd (i + 1)).rd (bin s.par j)).mul ((s.zf.rd i).rd (bin s.par j)).conj

/-- `v / max(|Re v|, |Im v|)`, `(0, 0)` for a zero `v` (43 R217). -/
def normalise (v : Cplx) : Cplx :=
  if Fp.isZero (Fp.max (Fp.abs v.re) (Fp.abs v.im)) then Cplx.zero
  else ⟨Fp.div v.re (Fp.max (Fp.abs v.re) (Fp.abs v.im)), Fp.div v.im (Fp.max (Fp.abs v.re) (Fp.abs v.im))⟩

/-- `DQPSK i` (43 R217). -/
def execDqpsk (i : Nat) (s : State) : Res :=
  checked s (.dqpsk i) <|
    done (s.setWk s.curW fun k => { k with nv := k.nv.fill 0 s.par.C fun j => normalise (differential s i j) })

/-- Element `a` of a pair's `2C` soft bits: `soft(+Re)` in the first half, `soft(−Im)` in the second (43 R218). -/
def softBit (s : State) (a : Nat) : Soft :=
  if a < s.par.C then Dsp.soft s.cfg.softHigh.toInt ((s.wk s.curW).nv.rd (s.cmapAt a)).re
  else Dsp.soft s.cfg.softHigh.toInt (Fp.neg ((s.wk s.curW).nv.rd (s.cmapAt (a - s.par.C))).im)

/-- `SOFT i` (43 R218). -/
def execSoft (i : Nat) (s : State) : Res :=
  checked s (.soft i) <|
    done { s with out := s.out.fill (i * (2 * s.par.C)) (2 * s.par.C) (softBit s) }

end Sys2Proof.Machine
end

