-- ==== Sys2Proof/Machine/Sync.lean ====
section
/-! DEFINITION. Group 0x5_: barriers, buffer swap, halt (45_synchronisation R261 to R264). -/

namespace Sys2Proof.Machine

/-- `SIG x` (45 R261, 20_memory R88). -/
def execSig (x : Barrier) (s : State) : Res :=
  checked s (.sig x) <| done ((s.setFlag x true).leavePhase x)

/-- `WAIT x` (45 R262): `stop` is tested first, then the flag; the consumed classes are cleared, and the phase the
barrier begins is entered (20_memory R88). -/
def execWait (x : Barrier) (s : State) : Res :=
  checked s (.wait x) <| blocking s <|
    if s.flag x then done ((if isConsumed x then s.setFlag x false else s).enterPhase x) else blocked s

/-- `SWAP` (45 R263). -/
def execSwap (s : State) : Res :=
  checked s .swap <|
    done { s with
      sel := !s.sel
      ingLen := 0
      fSnap := Fp.add s.fCoarse s.fFine
      framesRead := s.framesRead + 1 }

/-- `HALT` (45 R264). -/
def execHalt (s : State) : Res :=
  checked s .halt <| .next s.setHalted

end Sys2Proof.Machine
end

