-- ==== Sys2Proof/Machine/Dispatch.lean ====
section
/-! DEFINITION. One operation issued by the agent `cur` of the state: one arm per constructor. -/

namespace Sys2Proof.Machine

def exec (i : Instr) (s : State) : Host.Outcome State Fault Refusal :=
  match i with
  | .bitrev b => Sys2Proof.Machine.execBitrev b s
  | .bflyf b stage => Sys2Proof.Machine.execBflyf b stage s
  | .bflyi b stage => Sys2Proof.Machine.execBflyi b stage s
  | .delta => Sys2Proof.Machine.execDelta s
  | .cmul t => Sys2Proof.Machine.execCmul t s
  | .mag => Sys2Proof.Machine.execMag s
  | .lmag => Sys2Proof.Machine.execLmag s
  | .pllp => Sys2Proof.Machine.execPllp s
  | .ldprs => Sys2Proof.Machine.execLdprs s
  | .nsamp => Sys2Proof.Machine.execNsamp s
  | .l1win => Sys2Proof.Machine.execL1win s
  | .ncap => Sys2Proof.Machine.execNcap s
  | .capp => Sys2Proof.Machine.execCapp s
  | .fczero => Sys2Proof.Machine.execFczero s
  | .peakc => Sys2Proof.Machine.execPeakc s
  | .fcupd => Sys2Proof.Machine.execFcupd s
  | .peakw => Sys2Proof.Machine.execPeakw s
  | .ftchk => Sys2Proof.Machine.execFtchk s
  | .prscp => Sys2Proof.Machine.execPrscp s
  | .iapp => Sys2Proof.Machine.execIapp s
  | .nullcp => Sys2Proof.Machine.execNullcp s
  | .desync => Sys2Proof.Machine.execDesync s
  | .adv target => Sys2Proof.Machine.execAdv target s
  | .derot k => Sys2Proof.Machine.execDerot k s
  | .cperr k => Sys2Proof.Machine.execCperr k s
  | .phpub => Sys2Proof.Machine.execPhpub s
  | .ldsym k => Sys2Proof.Machine.execLdsym k s
  | .dqpsk k => Sys2Proof.Machine.execDqpsk k s
  | .soft k => Sys2Proof.Machine.execSoft k s
  | .rel => Sys2Proof.Machine.execRel s
  | .phavg => Sys2Proof.Machine.execPhavg s
  | .ffupd => Sys2Proof.Machine.execFfupd s
  | .emit => Sys2Proof.Machine.execEmit s
  | .sig x => Sys2Proof.Machine.execSig x s
  | .wait x => Sys2Proof.Machine.execWait x s
  | .swap => Sys2Proof.Machine.execSwap s
  | .halt => Sys2Proof.Machine.execHalt s

end Sys2Proof.Machine
end

