-- ==== Sys2Proof/Machine/HostPort.lean ====
section
/-! DEFINITION. The host's side: register port, frame port, sample port, reset pin
(10_state R48 to R51; 44 R244; 60 R283; 70 R310 to R320). -/

namespace Sys2Proof.Machine

/-- `CMAP` is a bijection on `[0, C)` (10_state R54). -/
def cmapLegal (r : ModeRow) : Bool :=
  decide (r.cmap.length = r.par.C) && decide (∀ j < r.par.C, j ∈ r.cmap)

/-- The configuration is written and legal (00_scope R5, R7, R8; 10_state R48, R50). -/
def State.configLegal (s : State) : Bool :=
  s.unset.isEmpty && s.par.legal && decide (1 ≤ s.T ∧ s.T ≤ s.par.F + 1) && cmapLegal s.row
    && decide (1 ≤ s.K ∧ s.K ≤ s.par.P) && decide (1 ≤ s.D)
    && Fp.isFinite s.cfg.l1UpdateBeta && Fp.isFinite s.cfg.threshNullStart && Fp.isFinite s.cfg.threshNullEnd
    && Fp.isFinite s.cfg.maxCoarseFreqNorm && Fp.isFinite s.cfg.coarseFreqSlowBeta
    && Fp.isFinite s.cfg.impulsePeakThreshDb && Fp.isFinite s.cfg.fineFreqUpdateBeta
    && Fp.le Fp.zero s.cfg.impulsePeakDistProb && Fp.le s.cfg.impulsePeakDistProb Fp.one
    && decide (1 ≤ s.cfg.softHigh.toInt)

/-- A configuration register written, by number; other numbers change nothing (10_state R48, R51). -/
def Cfg.write (c : Cfg) (n : BitVec 8) (v : BitVec 32) : Cfg :=
  match n.toNat with
  | 0x00 => { c with mode := v.extractLsb' 0 2 }
  | 0x10 => { c with l1NbSamples := v }
  | 0x11 => { c with l1NbDecimate := v }
  | 0x12 => { c with l1UpdateBeta := v }
  | 0x13 => { c with threshNullStart := v }
  | 0x14 => { c with threshNullEnd := v }
  | 0x15 => { c with coarseFreqEn := v.getLsbD 0 }
  | 0x16 => { c with maxCoarseFreqNorm := v }
  | 0x17 => { c with coarseFreqSlowBeta := v }
  | 0x18 => { c with impulsePeakThreshDb := v }
  | 0x19 => { c with impulsePeakDistProb := v }
  | 0x1A => { c with fineFreqUpdateBeta := v }
  | 0x1B => { c with softHigh := v.extractLsb' 0 8 }
  | _ => c

/-- CTRL bit 0, EN, while `en = 0` and the configuration is legal, sets `en` (10_state R50). -/
def State.ctrlEn (s : State) (v : BitVec 32) : State := if v.getLsbD 0 then { s with en := true } else s

/-- CTRL bit 2, FRAME_ACK, clears `frame_valid` (10_state R50). -/
def State.ctrlAck (s : State) (v : BitVec 32) : State := if v.getLsbD 2 then { s with frameValid := false } else s

/-- CTRL bit 1, STOP, sets `stop` (10_state R50, 60 R284). -/
def State.ctrlStop (s : State) (v : BitVec 32) : State := if v.getLsbD 1 then { s with stop := true } else s

/-- A write of CTRL: EN, FRAME_ACK, STOP in this order; an EN with an illegal configuration is refused
(10_state R50; log entry 18). -/
def State.writeCtrl (s : State) (v : BitVec 32) : Res :=
  if v.getLsbD 0 && !s.en && !s.configLegal then .refused .illegalConfiguration
  else .next (((s.ctrlEn v).ctrlAck v).ctrlStop v)

/-- `RegWrite(n, v)` (10_state R48 to R51): CTRL and IMP_INDEX at any time, configuration while `en = 0`, every
other number ignored. -/
def State.regWrite (s : State) (n : BitVec 8) (v : BitVec 32) : Res :=
  if n = 0x30#8 then s.writeCtrl v
  else if n = 0x29#8 then .next { s with impIndex := v }
  else if s.en then .next s
  else .next { s with cfg := s.cfg.write n v, unset := s.unset.filter fun m => decide (m ≠ n) }

/-- What IMP_DATA shows (10_state R49): `IMP[IMP_INDEX]`, in FINE_TIME after `LMAG` the old element or the new one
(U8; log entry 17), a free value for an index outside `IMP` (log entry 16). -/
def State.impData (s : State) : NUM :=
  if s.impIndex.toNat < s.par.N then
    match s.impPrev with
    | some old => if s.acqState = .fineTime && Config.freeOld s.tick then old.rd s.impIndex.toNat
                  else s.imp.rd s.impIndex.toNat
    | none => s.imp.rd s.impIndex.toNat
  else Config.freeNum s.tick

/-- `RegRead(n)` (10_state R48 to R51): a number not listed reads 0, and so does CTRL. -/
def State.regRead (s : State) (n : BitVec 8) : BitVec 32 :=
  match n.toNat with
  | 0x00 => s.cfg.mode.zeroExtend 32
  | 0x01 => BitVec.ofNat 32 s.par.F
  | 0x02 => BitVec.ofNat 32 s.par.N
  | 0x03 => BitVec.ofNat 32 s.par.G
  | 0x04 => BitVec.ofNat 32 s.par.P
  | 0x05 => BitVec.ofNat 32 s.par.C
  | 0x06 => BitVec.ofNat 32 s.T
  | 0x10 => s.cfg.l1NbSamples
  | 0x11 => s.cfg.l1NbDecimate
  | 0x12 => s.cfg.l1UpdateBeta
  | 0x13 => s.cfg.threshNullStart
  | 0x14 => s.cfg.threshNullEnd
  | 0x15 => BitVec.ofNat 32 (bitAt s.cfg.coarseFreqEn 0)
  | 0x16 => s.cfg.maxCoarseFreqNorm
  | 0x17 => s.cfg.coarseFreqSlowBeta
  | 0x18 => s.cfg.impulsePeakThreshDb
  | 0x19 => s.cfg.impulsePeakDistProb
  | 0x1A => s.cfg.fineFreqUpdateBeta
  | 0x1B => s.cfg.softHigh.zeroExtend 32
  | 0x20 => BitVec.ofNat 32 s.acqState.code
  | 0x21 => s.framesRead
  | 0x22 => s.framesDesync
  | 0x23 => s.fCoarse
  | 0x24 => s.fFine
  | 0x25 => BitVec.ofInt 32 s.fineTimeOffset
  | 0x26 => s.l1Avg
  | 0x27 => s.l1Last
  | 0x28 => s.flagsWord
  | 0x29 => s.impIndex
  | 0x2A => s.impData
  | _ => 0#32

/-- A read of `OUT[a]` at the frame port (44 R244): the element while `frame_valid`, any soft bit otherwise
(U6; log entry 16). -/
def State.frameRead (s : State) (a : Nat) : Soft :=
  if s.frameValid && decide (a < s.par.outLen) then s.out.rd a else Config.freeSoft s.tick

/-- The `rst` pin (70 R310, R311): the state after reset of the same core; what the host still offers and the turns to
come are not the core's (log entry 19). -/
def State.hardReset (s : State) : State :=
  { State.power s.modes s.T with samples := s.samples, turns := s.turns, tick := s.tick }

/-- One action of the host (70 R320). -/
def hostStep (h : HostAct) (s : State) : Res :=
  match h with
  | .rst => .next s.hardReset
  | .regWrite n v => s.regWrite n v
  | .regRead n => .next { s with rdData := s.regRead n, tick := s.tick + 1 }
  | .offer d => .next { s with samples := s.samples ++ [Cplx.ofBits d] }
  | .readOut a => .next { s with frData := s.frameRead a, tick := s.tick + 1 }

/-- The level output `frame_irq` (60 R283). -/
def State.frameIrq (s : State) : Bool := s.frameValid

/-- The operation takes a sample (42 R170). -/
def consumesSample : Option Instr → Bool
  | some .nsamp => true
  | some .capp => true
  | some .iapp => true
  | _ => false

/-- The output `s_ready`: the ingest agent is at a sample-consuming operation (42 R170, 70 R320). DESIGN CHOICE: not once
`stop` is set, when the operation's outcome is *stopped* and it takes no sample (45 R265); the spec states no `s_ready`
there (log entry 31). -/
def State.sReady (s : State) : Bool := s.en && !s.stop && !s.ingHalted && consumesSample (s.nextInstr .ingest)

end Sys2Proof.Machine
end

