-- ==== Sys2Proof/Machine/Turns.lean ====
section
/-! DEFINITION. What one turn does: an agent's next operation, a word of a test program, the host
(00_scope R15, R16; log entries 1, 2). Step.lean only calls this. -/

namespace Sys2Proof.Machine

/-- Agent `a` issues the word `w`. While `en = 0`, and once `a` has halted, no step is taken
(10_state R43, 45_synchronisation R264). A reserved word is refused (30_encoding R115). -/
def issueWord (a : Agent) (w : Word) (s : State) : Res :=
  if !s.en || s.isHalted a then .next s
  else
    match decode w with
    | none => .refused .reservedWord
    | some i => exec i { s with cur := a }

/-- Agent `a` takes the next operation of its own list (00_scope R16). DESIGN CHOICE: where words of a test program have
moved the ingest agent's position past the end of its state's list, its own turn is refused as `noOperation`; 60 R295 gives
no operation there, and no run of the hardware's own lists reaches it (log entry 13). -/
def runAgent (a : Agent) (s : State) : Res :=
  if !s.en || s.isHalted a then .next s
  else if !agentExists s.T a then .refused .noSuchAgent
  else
    match s.nextInstr a with
    | none => .refused .noOperation
    | some i => issueWord a (encode i) s

/-- The agent with a number, modulo `T + 2`: 0 ingest, 1 coordinator, `2 + w` worker `w` (60 R291). -/
def agentNumbered (T n : Nat) : Agent :=
  match n % (T + 2) with
  | 0 => .ingest
  | 1 => .coord
  | w + 2 => .worker w

/-- The number of an agent in the trace (30_encoding R120, 60 R291). -/
def Agent.number : Agent → Nat
  | .ingest => 0
  | .coord => 1
  | .worker w => w + 2

/-- One step: the first turn of `turns`; past its end, a free choice of the agent (00_scope R15, U2; log entry 1). -/
def takeTurn (s : State) : Res :=
  match s.turns with
  | [] => runAgent (agentNumbered s.T (Config.freeAgent s.tick)) { s with tick := s.tick + 1 }
  | .run a :: rest => runAgent a { s with turns := rest }
  | .issue a w :: rest => issueWord a w { s with turns := rest }
  | .host h :: rest => hostStep h { s with turns := rest }

/-- The agent of the next turn and the word it comes with, whether or not the turn issues it (00_scope R16). -/
def State.pendingWord (s : State) : Option (Agent × Word) :=
  match s.turns with
  | [] =>
    let a := agentNumbered s.T (Config.freeAgent s.tick)
    (s.nextInstr a).map fun i => (a, encode i)
  | .run a :: _ => (s.nextInstr a).map fun i => (a, encode i)
  | .issue a w :: _ => some (a, w)
  | .host _ :: _ => none

/-- The turn of an agent on this operation is one of waiting: the operation is blocked, or it is an `EMIT` that has already
raised `frame_valid` (42 R170, 44 R244, 45 R262). -/
def State.waits (s : State) : Instr → Bool
  | .wait x => !s.stop && !s.flag x
  | .nsamp => !s.stop && s.samples.isEmpty
  | .capp => !s.stop && s.samples.isEmpty
  | .iapp => !s.stop && s.samples.isEmpty
  | .emit => s.emitArmed
  | _ => false

/-- The operation, issued by `a`, is neither refused nor one of waiting. -/
def State.takesEffect (s : State) (a : Agent) (i : Instr) : Bool :=
  match exec i { s with cur := a } with
  | .next _ => !s.waits i
  | .fault _ => false
  | .refused _ => false

/-- What the optional trace reports of the next step: the number of the agent and the word of the operation it issues
(30_encoding R120); nothing where no operation is issued: in a turn of the host, while `en = 0`, once the agent has
halted, and for a word or an operation that is refused. DESIGN CHOICE: an operation is reported once, in the step in which
it takes effect or is stopped, and `EMIT` in the step that raises `frame_valid`; the turns in which it waits are not
reported. R120 does not say whether a blocked operation that is retried counts as issued again (log entries 10, 27). -/
def State.traced (s : State) : Option (Nat × Word) :=
  match s.pendingWord with
  | none => none
  | some (a, w) =>
    match decode w with
    | none => none
    | some i => if s.en && !s.isHalted a && s.takesEffect a i then some (a.number, w) else none

/-- The operation trace of the next `n` steps, in issue order (30_encoding R120). -/
def traceOf : Nat → State → List (Nat × Word)
  | 0, _ => []
  | n + 1, s =>
    s.traced.toList ++
      match takeTurn s with
      | .next t => traceOf n t
      | .fault _ => []
      | .refused _ => []

/-- The soft bits the host may read at the frame port, `(F − 1)·C·2` of them (44 R244). -/
def State.offeredFrame (s : State) : List Soft := (List.range s.par.outLen).map s.out.rd

/-- The sequence of frames offered in the next `n` steps, each as `OUT` holds it when `EMIT` raises `frame_valid`
(70 R324). -/
def framesOffered : Nat → State → List (List Soft)
  | 0, _ => []
  | n + 1, s =>
    match takeTurn s with
    | .next t => (if !s.emitArmed && t.emitArmed then [t.offeredFrame] else []) ++ framesOffered n t
    | .fault _ => []
    | .refused _ => []

/-- The worker that owns slot `i` (00_scope R7). -/
def slotOwner (p : Params) (T i : Nat) : Agent := .worker (min (i / sliceLen p T) (T - 1))

/-- The agent that issues an operation in a test program: the entitled one, for a slot its owner
(30_encoding R114, 45_synchronisation R266). -/
def issuerOf (p : Params) (T : Nat) : Instr → Agent
  | .bitrev (.zf i) => slotOwner p T i
  | .bflyf (.zf i) _ => slotOwner p T i
  | .derot i => slotOwner p T i
  | .cperr i => slotOwner p T i
  | .ldsym i => slotOwner p T i
  | .dqpsk i => slotOwner p T i
  | .soft i => slotOwner p T i
  | .phpub => .worker 0
  | .rel => .coord
  | .phavg => .coord
  | .ffupd => .coord
  | .emit => .coord
  | .sig .ce => .coord
  | .sig (.ws _) => .coord
  | .sig (.wp w) => .worker w
  | .sig (.wf w) => .worker w
  | .sig (.wd w) => .worker w
  | .wait .cs => .coord
  | .wait (.ws w) => .worker w
  | .wait (.wp _) => .coord
  | .wait (.wf w) => .worker (w - 1)
  | .wait (.wd _) => .coord
  | _ => .ingest

/-- The agent for a table word; the ingest agent for a reserved one. -/
def issuerOfWord (p : Params) (T : Nat) (w : Word) : Agent :=
  match decode w with
  | some i => issuerOf p T i
  | none => .ingest

/-- Worker `w`'s phase bits changed, for a worker; nothing for another agent. -/
def State.setPhase (s : State) (a : Agent) (f : Worker → Worker) : State :=
  match a with
  | .ingest => s
  | .coord => s
  | .worker w => s.setWk w f

/-- The phase the operation needs, open to the agent: the waits that precede it count as passed (20_memory R88;
log entry 2). -/
def State.openPhase (s : State) (a : Agent) : Instr → State
  | .derot _ => s.setPhase a fun k => { k with holds := true }
  | .cperr _ => s.setPhase a fun k => { k with holds := true }
  | .ldsym _ => s.setPhase a fun k => { k with holds := true }
  | .soft _ => s.setPhase a fun k => { k with holds := true }
  | .dqpsk _ => s.setPhase a fun k => { k with sawWf := true }
  | .phavg => { s with workers := s.workers.map fun k => { k with sawWp := true } }
  | _ => s

/-- The phase of a table word, if it is the word of an operation. -/
def State.openPhaseOfWord (s : State) (a : Agent) (w : Word) : State :=
  match decode w with
  | some i => s.openPhase a i
  | none => s

/-- The core enabled, in the phase the operation needs, with the word as the next turn of the agent entitled to it
(log entry 2). -/
def placeWord (s : State) (nbits w : Nat) : State :=
  let v := BitVec.ofNat 32 (w % 2 ^ nbits)
  let a := issuerOfWord s.par s.T v
  { s.openPhaseOfWord a v with en := true, turns := .issue a v :: s.turns }

end Sys2Proof.Machine
end

