-- ==== Sys2Proof/Machine/Step.lean ====
section
/-! DEFINITION. One step of the machine, and how the host places an operation word. -/

namespace Sys2Proof.Machine

/-- One step: one turn of one agent or of the host (00_scope R15 to R17). -/
def step (s : State) : Host.Outcome State Fault Refusal := takeTurn s

/-- `s` with an operation word placed so that the very next step issues it (log entry 2). -/
def State.withFetchWord (s : State) (nbits w : Nat) : State := placeWord s nbits w

end Sys2Proof.Machine
end

