-- ==== Sys2Proof/Safety.lean ====
section
/-! DEFINITION. What counts as a good state and a good run, in the terms the statements use: canonical memory,
register ranges, positions inside the lists, the hand-off discipline, the phases, the end of a run, and the exact numbers
behind NUM and the tables. Nothing here is part of a step. -/

namespace Sys2Proof.Machine

/-- Every buffer of the core is in canonical form (20_memory R97; log entry 23). -/
abbrev Memory.wf (s : State) : Prop :=
  s.circ.wf ∧ s.corr.wf ∧ s.ing0.wf ∧ s.ing1.wf ∧ s.sa.wf ∧ s.spec.wf ∧ s.imp.wf ∧ s.out.wf
    ∧ s.zf.wf ∧ (∀ r ∈ s.zf, r.2.wf) ∧ (∀ k ∈ s.workers, k.nv.wf) ∧ (∀ m ∈ s.impPrev.toList, m.wf)

/-- The next turn is one the hardware itself can take: not a word of a test program (00_scope R16; log entry 2). -/
def hardwired (s : State) : Prop :=
  match s.turns with
  | [] => True
  | .run a :: _ => agentExists s.T a = true
  | .issue _ _ :: _ => False
  | .host _ :: _ => True

/-- The next turn is an agent's own. -/
def agentTurn (s : State) : Prop :=
  match s.turns with
  | [] => True
  | .run a :: _ => agentExists s.T a = true
  | .issue _ _ :: _ => False
  | .host _ :: _ => False

/-- A row's numbers fit 16 bits (00_scope R5). -/
def rowFits (r : ModeRow) : Prop := r.par.N < 65536 ∧ r.par.F < 65536

/-- Every row of the mode table fits (00_scope R5, R6). -/
def modesFit (m : Modes) : Prop := rowFits m.row0 ∧ rowFits m.row1 ∧ rowFits m.row2 ∧ rowFits m.row3

/-- `|f_fine| < B_f`, written so that a NaN, which no order relates, is not excluded (10_state R34, R58; log entry 26). -/
def fineBounded (s : State) : Prop := Fp.le (fineBound s.par.N) (Fp.abs s.fFine) = false

/-- The registers lie in the ranges of 10_state R36 to R40 once the core runs; the bound of `l1_cnt` holds of the lists, not
of every word of a test program, and stands in `PlaceInv`. `fine_time_offset` is 0 before the first `FTCHK` (R56). -/
def rangesHold (s : State) : Prop :=
  s.circWr < s.par.P ∧ s.corrLen ≤ s.par.P + s.par.S ∧ s.ingLen ≤ s.par.frameLen
    ∧ (-((s.par.N / 2 : Nat) : Int) ≤ s.peakOff ∧ s.peakOff < ((s.par.N / 2 : Nat) : Int))
    ∧ s.impK < s.par.N
    ∧ (s.fineTimeOffset = 0 ∨ (-(s.par.G : Int) ≤ s.fineTimeOffset ∧ s.fineTimeOffset ≤ (s.par.N : Int) - 1 - (s.par.G : Int)))
    ∧ s.l1Win < s.D ∧ fineBounded s

/-- Nothing has moved before the host enables the core (70 R311). -/
def quiet (s : State) : Prop :=
  s.acqState = .findNull ∧ s.acqSub = 0 ∧ s.coPc = 0 ∧ s.ingDivert = .none ∧ s.coDivert = .none
    ∧ (∀ k ∈ s.workers, k.pc = 0 ∧ k.divert = .none)
    ∧ s.circWr = 0 ∧ s.corrLen = 0 ∧ s.ingLen = 0 ∧ s.peakOff = 0 ∧ s.impK = 0 ∧ s.fineTimeOffset = 0 ∧ s.l1Win = 0
    ∧ s.l1Cnt = 0 ∧ s.fFine = Fp.zero

/-- The parameter set and `T` in force are legal (00_scope R5, R7, R8). -/
def legalRun (s : State) : Prop := s.par.legal = true ∧ 1 ≤ s.T ∧ s.T ≤ s.par.F + 1 ∧ 1 ≤ s.K ∧ 1 ≤ s.D

/-- The invariant of the registers: legal parameters and ranges while enabled, quiet before. -/
def RangeInv (s : State) : Prop :=
  modesFit s.modes ∧ (s.en = true → legalRun s ∧ rangesHold s) ∧ (s.en = false → quiet s)

/-- The ingest agent's position is inside its state's list, with the lengths its next operation needs
(42 R171, R175, R177, R181, R185). -/
def ingestPlaced (s : State) : Prop :=
  match s.acqState with
  | .findNull =>
    s.acqSub < 4 ∧ (s.acqSub = 0 → s.l1Cnt < s.K) ∧ (s.acqSub = 1 → s.l1Cnt = s.K) ∧ (s.acqSub = 3 → s.corrLen = s.par.P)
  | .readNullPrs => s.acqSub < 2 ∧ (s.acqSub = 0 → s.corrLen < s.par.P + s.par.S)
  | .coarseFreq => s.acqSub < (coarseFreqOps s.par.L s.cfg.coarseFreqEn).length
  | .fineTime =>
    s.acqSub < (fineTimeOps s.par.L).length
      ∧ (s.acqSub + 1 = (fineTimeOps s.par.L).length → s.ingLen < s.par.frameLen)
  | .readSymbols =>
    s.acqSub < 6 ∧ (s.acqSub = 0 → s.ingLen < s.par.frameLen) ∧ (2 ≤ s.acqSub → s.corrLen = s.par.P)

/-- The coordinator's and the workers' positions are inside their lists (43 R211, 44 R240). -/
def pipelinePlaced (s : State) : Prop :=
  s.coPc < (coordOps s.T).length ∧ s.coDivert ≠ .desync
    ∧ ∀ w < s.T, (s.wk w).pc < (workerOps s.par s.T w).length ∧ (s.wk w).divert ≠ .desync

/-- The invariant of a core that only runs its own lists; `l1_cnt` is at most `K` (10_state R37, 42 R172). -/
def PlaceInv (s : State) : Prop := RangeInv s ∧ (s.en = true → s.l1Cnt ≤ s.K ∧ ingestPlaced s ∧ pipelinePlaced s)

/-- The ingest agent has passed `WAIT CE` and not yet signalled `CS`: it is at `SWAP` or `SIG CS` (42 R185). -/
def ingestHolds (s : State) : Bool :=
  decide (s.acqState = .readSymbols) && (decide (s.acqSub = 3) || decide (s.acqSub = 4))

/-- Where the right to the pipeline is: `CE`, the ingest agent, `CS` or the coordinator (20_memory R90 items 4 to 6). -/
def handoffCount (s : State) : Nat :=
  s.ce.toNat + (ingestHolds s).toNat + s.cs.toNat + (decide (s.coPc ≠ 0)).toNat

/-- A worker has nothing to do: at `WAIT WS`, not released (43 R211). -/
def idle (k : Worker) : Prop := k.pc = 0 ∧ k.ws = false

/-- A worker in the frame the coordinator has released: about to start, at work, or done (44 R241, 45 R260). -/
def inFrame (k : Worker) : Prop :=
  (k.ws = true ∧ k.pc = 0 ∧ k.wd = false) ∨ (k.ws = false ∧ k.pc ≠ 0 ∧ k.wd = false)
    ∨ (k.ws = false ∧ k.pc = 0 ∧ k.wd = true)

/-- The hand-off discipline of a core that only runs its own lists (20_memory R90; 44 R240; 45 R260). -/
def HandoffInv (s : State) : Prop :=
  handoffCount s = 1 ∧ (s.ingDivert = .desync → s.acqState = .fineTime)
    ∧ (s.coPc ≤ 1 → ∀ w < s.T, idle (s.wk w))
    ∧ (2 ≤ s.coPc → ∀ w < s.T, inFrame (s.wk w))
    ∧ ∀ w < s.T, s.T + 4 + w < s.coPc → (s.wk w).wd = true

/-- Worker `w`'s phase bits say what its position in its list says: it holds its slots unless it is at `WAIT WS[w]`; `WP[w]`
and `WF[w]` are clear until it has signalled them; past `WAIT WF[w + 1]` it has seen that flag (20_memory R88, 43 R211). -/
def workerPhases (s : State) (w : Nat) : Prop :=
  (s.wk w).holds = decide ((s.wk w).pc ≠ 0)
    ∧ ((s.wk w).ws = true → (s.wk w).wp = false ∧ (s.wk w).wf = false)
    ∧ ((s.wk w).pc ≠ 0 → ∀ n, (s.wk w).pc ≤ n →
        ((workerOps s.par s.T w)[n]? = some (.sig (.wp w)) → (s.wk w).wp = false)
        ∧ ((workerOps s.par s.T w)[n]? = some (.sig (.wf w)) → (s.wk w).wf = false))
    ∧ ∀ n, n < (s.wk w).pc → (workerOps s.par s.T w)[n]? = some (.wait (.wf (w + 1))) → (s.wk w).sawWf = true

/-- The phases of a core that only runs its own lists: the workers', what the coordinator has seen of `WP`, and a frame is
on offer only while the coordinator is in `EMIT` (20_memory R88, 44 R240). -/
def PhaseInv (s : State) : Prop :=
  (∀ w < s.T, workerPhases s w) ∧ (∀ w < s.T, w + 2 < s.coPc → (s.wk w).sawWp = true)
    ∧ (s.frameValid = true ∨ s.emitArmed = true → s.coPc = 2 * s.T + 4)

/-- What every step of a core that only runs its own lists keeps, and all its lists need. -/
def RunInv (s : State) : Prop := PlaceInv s ∧ HandoffInv s ∧ PhaseInv s

/-- The other workers are as before. -/
def sameOthers (s t : State) (w : Nat) : Prop := t.T = s.T ∧ ∀ v, v ≠ w → t.wk v = s.wk v

/-- All workers are as before, positions apart. -/
def sameWorkersButPc (s t : State) : Prop := t.T = s.T ∧ ∀ v, t.wk v = { s.wk v with pc := (t.wk v).pc }

/-- Worker `w` is as before, its position apart, and so are all others. -/
def sameWorkersButPcOf (s t : State) (w : Nat) : Prop :=
  sameOthers s t w ∧ t.wk w = { s.wk w with pc := (t.wk w).pc }

/-- Worker `w` issues and owns slot `i` (30_encoding R113). -/
def issuesAsOwner (s : State) (w i : Nat) : Prop :=
  s.cur = .worker w ∧ w < s.T ∧ startOf s.par s.T w ≤ i ∧ i < endOf s.par s.T w

/-- Worker `w` may write row `i` of `ZF`: its first row not once its neighbour may read it (20_memory R88). -/
def mayWriteZf (s : State) (w i : Nat) : Prop := w = 0 ∨ i ≠ startOf s.par s.T w ∨ (s.wk w).wf = false

/-- The issuing agent may work on the transform buffer: ingest on `SA`, a worker on a slot it owns (20_memory R88,
30_encoding R113). -/
def holdsXBuf (s : State) (b : XBuf) : Prop :=
  match b with
  | .sa => s.cur = .ingest
  | .zf i => i ≤ s.par.F ∧ ∃ w, issuesAsOwner s w i ∧ mayWriteZf s w i

/-- Nothing changed but transform buffer `b` and the position of the issuing agent. -/
def onlyXBuf (s t : State) (b : XBuf) : Prop :=
  t = { s with sa := t.sa, zf := t.zf, acqSub := t.acqSub, workers := t.workers } ∧ sameWorkersButPc s t
    ∧ (∀ n, s.par.N ≤ n → (t.xbuf b).rd n = (s.xbuf b).rd n) ∧ ∀ b', b' ≠ b → t.xbuf b' = s.xbuf b'

/-- The operations of a list one after the other, issued by the same agent (00_scope R16). -/
def execAll : List Instr → State → Res
  | [], s => .next s
  | i :: is, s =>
    match exec i s with
    | .next t => execAll is t
    | .fault f => .fault f
    | .refused r => .refused r

/-- The operations that can block (45_synchronisation R265). -/
def isBlocking : Instr → Bool
  | .wait _ => true
  | .nsamp => true
  | .capp => true
  | .iapp => true
  | .emit => true
  | _ => false

/-- The operations that only advance their agent's position by one (60 R295): not the blocking ones, not those that
set a position or divert the agent. -/
def isPlain : Instr → Bool
  | .ftchk => false
  | .adv _ => false
  | .desync => false
  | .halt => false
  | i => !isBlocking i

/-- The agent is blocked until the host or another agent acts: ingest at a sample operation with no sample, the
coordinator at `WAIT CS` or in `EMIT`, a worker at `WAIT WS` (70 R324). -/
def restsAt (s : State) (a : Agent) : Prop :=
  match a with
  | .ingest => consumesSample (s.nextInstr .ingest) = true ∧ s.samples = []
  | .coord => (s.nextInstr .coord = some (.wait .cs) ∧ s.cs = false) ∨ (s.nextInstr .coord = some .emit ∧ s.emitArmed = true ∧ s.frameValid = true)
  | .worker w => s.nextInstr (.worker w) = some (.wait (.ws w)) ∧ (s.wk w).ws = false

/-- No turn is laid down but agents' own: the host offers, acknowledges and asks nothing more. -/
def noMoreInput (s : State) : Prop := ∀ x ∈ s.turns, ∃ a, x = .run a

/-- The end of a run: the host's input is exhausted and every agent is blocked, or every agent has halted after STOP
(70 R324). Under `stop` a blocking operation does not block (45_synchronisation R265). What a test observes then is the
readable state and `framesOffered`. -/
def runEnded (s : State) : Prop :=
  (s.stop = true ∧ s.allHalted = true)
    ∨ (s.en = true ∧ s.stop = false ∧ noMoreInput s ∧ restsAt s .ingest ∧ restsAt s .coord
      ∧ ∀ w < s.T, restsAt s (.worker w))

end Sys2Proof.Machine

namespace Sys2Proof

/-- The exact value of a finite NUM. -/
def Fp.value (x : NUM) : ℚ := (Fp.sunits x : ℚ) / 2 ^ 149

/-- The squared modulus of a finite element, exactly. -/
def Cplx.normSq (a : Cplx) : ℚ := Fp.value a.re ^ 2 + Fp.value a.im ^ 2

/-- The requirement of 41 R163 on the rotator: rotating and rotating back is within 1e-5 of each sample. The model
assumes it nowhere (00_scope R9); a claim that needs it names it. -/
def RotAccurate (p : Params) : Prop :=
  ∀ (freq : NUM) (i : Nat) (x : Cplx), Fp.isFinite freq = true → |Fp.value freq| ≤ 1 / (2 * p.N) → i < (p.F + 1) * p.S →
    Fp.isFinite x.re = true → Fp.isFinite x.im = true →
    let y := (x.mul (Cplx.rot Fp.zero freq i)).mul (Cplx.rot Fp.zero (Fp.neg freq) i)
    (Fp.value y.re - Fp.value x.re) ^ 2 + (Fp.value y.im - Fp.value x.im) ^ 2 ≤ (1 / 100000 : ℚ) ^ 2 * x.normSq

/-- `x` is a NUM nearest to the real `r`. -/
def Fp.Nearest (x : NUM) (r : ℝ) : Prop :=
  Fp.isFinite x = true ∧ ∀ y, Fp.isFinite y = true → |(Fp.value x : ℝ) - r| ≤ |(Fp.value y : ℝ) - r|

/-- `x` is what a NUM operation with the exact result `r` answers (00_scope R9): from `2^128 − 2^103` on an infinity;
below, a finite value to which no finite value is nearer, the one with the even pattern if another is as near; with the
sign of `r`. -/
def Fp.IsRounding (x : NUM) (r : ℝ) : Prop :=
  (2 ^ 128 - 2 ^ 103 ≤ |r| → Fp.isInf x = true)
    ∧ (|r| < 2 ^ 128 - 2 ^ 103 → Fp.Nearest x r
      ∧ ∀ y, Fp.isFinite y = true → |(Fp.value y : ℝ) - r| = |(Fp.value x : ℝ) - r| → Fp.value y ≠ Fp.value x →
        Fp.magBits x % 2 = 0)
    ∧ (r < 0 → Fp.neg? x = true) ∧ (0 < r → Fp.neg? x = false)

/-- The exact complex value of a finite element. -/
noncomputable def Cplx.value (a : Cplx) : ℂ := ⟨(Fp.value a.re : ℝ), (Fp.value a.im : ℝ)⟩

/-- `Delta` of exact numbers (41 R147). -/
noncomputable def exactDelta (N : Nat) (x : Nat → ℂ) (k : Nat) : ℂ :=
  if k + 1 < N then (starRingEnd ℂ) (x k) * x (k + 1) else 0

/-- `FFT` of exact numbers (41 R141). -/
noncomputable def exactFft (N : Nat) (x : Nat → ℂ) (k : Nat) : ℂ :=
  ∑ n ∈ Finset.range N, x n * Complex.exp (-(2 * Real.pi * Complex.I * n * k / N))

/-- `IFFT` of exact numbers (41 R141). -/
noncomputable def exactIfft (N : Nat) (x : Nat → ℂ) (n : Nat) : ℂ :=
  ∑ k ∈ Finset.range N, x k * Complex.exp (2 * Real.pi * Complex.I * n * k / N)

/-- The arithmetic of exact complex numbers, for the butterflies (41 R143). -/
noncomputable def exactArith : Dsp.Arith ℂ := ⟨fun a b => a + b, fun a b => a - b, fun a b => a * b⟩

/-- The exact forward twiddle of stage `s`: `cis(−2π·j/2^s)` (41 R143). -/
noncomputable def exactTw (s j : Nat) : ℂ := Complex.exp (-(2 * Real.pi * Complex.I * j / 2 ^ s))

/-- The exact inverse twiddle of stage `s`: `cis(+2π·j/2^s)` (41 R143). -/
noncomputable def exactTwInv (s j : Nat) : ℂ := Complex.exp (2 * Real.pi * Complex.I * j / 2 ^ s)

/-- `x` is the NUM rounding of a number within `ε` of the exact `z`, component by component. -/
def Cplx.NearestWithin (x : Cplx) (z : ℂ) (ε : ℝ) : Prop :=
  ∃ c d : ℝ, |c - z.re| ≤ ε ∧ |d - z.im| ≤ ε ∧ Fp.Nearest x.re c ∧ Fp.Nearest x.im d

end Sys2Proof
end

