-- ==== Sys2Proof/Laws/Memory.lean ====
section
/-! SUPPORT. Laws of the buffers: read after write, the canonical form kept, equal reads make equal buffers. -/

namespace Sys2Proof.Mem

variable {α : Type} [Inhabited α] [DecidableEq α]

omit [DecidableEq α] in
@[simp] theorem rd_nil (i : Nat) : Mem.rd ([] : Mem α) i = default := rfl

omit [DecidableEq α] in
@[simp] theorem wf_nil : Mem.wf ([] : Mem α) := ⟨List.Pairwise.nil, by simp⟩

omit [Inhabited α] [DecidableEq α] in
theorem lookup_filter (m : Mem α) (p : Nat → Bool) (i : Nat) :
    (m.filter fun c => p c.1).lookup i = if p i then m.lookup i else none := by
  induction m with
  | nil => simp
  | cons c m ih =>
    obtain ⟨k, v⟩ := c
    by_cases hp : p k <;> by_cases hk : i = k
    · subst hk; simp [hp]
    · have : (i == k) = false := by simpa using hk
      simp [hp, List.lookup_cons, this, ih]
    · subst hk; simp [hp, ih]
    · have : (i == k) = false := by simpa using hk
      simp [hp, List.lookup_cons, this, ih]

omit [Inhabited α] [DecidableEq α] in
theorem lookup_eq_none_of_keys (m : Mem α) (i : Nat) (h : ∀ c ∈ m, c.1 ≠ i) : m.lookup i = none := by
  induction m with
  | nil => rfl
  | cons c m ih =>
    obtain ⟨k, v⟩ := c
    have hk : (i == k) = false := by
      have := h (k, v) (by simp)
      simpa using fun e => this e.symm
    simp [List.lookup_cons, hk, ih fun c hc => h c (List.mem_cons_of_mem _ hc)]

theorem mem_cells {base n : Nat} {f : Nat → α} {c : Nat × α} :
    c ∈ cells base n f ↔ ∃ i < n, f i ≠ default ∧ c = (base + i, f i) := by
  simp only [cells, List.mem_filterMap, List.mem_range]
  constructor
  · rintro ⟨i, hi, h⟩
    split at h
    · cases h
    · exact ⟨i, hi, ‹_›, by simpa using h.symm⟩
  · rintro ⟨i, hi, hd, rfl⟩
    exact ⟨i, hi, by simp [hd]⟩

theorem cells_succ (base n : Nat) (f : Nat → α) :
    cells base (n + 1) f = cells base n f ++ (if f n = default then [] else [(base + n, f n)]) := by
  simp only [cells, List.range_succ, List.filterMap_append]
  by_cases h : f n = default <;> simp [h]

omit [Inhabited α] [DecidableEq α] in
theorem lookup_append_none {m m' : Mem α} {i : Nat} (h : m.lookup i = none) : (m ++ m').lookup i = m'.lookup i := by
  simp [List.lookup_append, h]

/-- What the entries of `cells` read as. -/
theorem lookup_cells (base n : Nat) (f : Nat → α) (i : Nat) :
    (cells base n f).lookup i
      = if base ≤ i ∧ i < base + n ∧ f (i - base) ≠ default then some (f (i - base)) else none := by
  induction n with
  | zero =>
    have : ¬ (base ≤ i ∧ i < base + 0 ∧ f (i - base) ≠ default) := by omega
    rw [if_neg this]; rfl
  | succ n ih =>
    rw [cells_succ, List.lookup_append, ih]
    by_cases hi : i = base + n
    · subst hi
      have h1 : ¬ (base ≤ base + n ∧ base + n < base + n ∧ f (base + n - base) ≠ default) := by omega
      rw [if_neg h1]
      by_cases hd : f n = default
      · simp [hd]
      · simp [hd]
    · have hk : (i == base + n) = false := by simpa using hi
      by_cases hd : f n = default
      · simp only [hd, if_true, List.lookup_nil, Option.or_none]
        congr 1; apply propext
        constructor
        · rintro ⟨a, b, c⟩; exact ⟨a, by omega, c⟩
        · rintro ⟨a, b, c⟩; exact ⟨a, by omega, c⟩
      · simp only [hd, if_false, List.lookup_cons, hk, List.lookup_nil, Option.or_none]
        congr 1; apply propext
        constructor
        · rintro ⟨a, b, c⟩; exact ⟨a, by omega, c⟩
        · rintro ⟨a, b, c⟩; exact ⟨a, by omega, c⟩

/-- `MemRead` after a write of a range: the value written inside it, the old one outside (20_memory R97). -/
theorem rd_fill (m : Mem α) (base n : Nat) (f : Nat → α) (i : Nat) :
    (m.fill base n f).rd i = if base ≤ i ∧ i < base + n then f (i - base) else m.rd i := by
  simp only [fill, rd, List.lookup_append, lookup_cells]
  rw [lookup_filter m (fun k => decide (k < base)), lookup_filter m (fun k => decide (base + n ≤ k))]
  by_cases h1 : i < base
  · have h2 : ¬ (base ≤ i ∧ i < base + n) := by omega
    have h3 : ¬ (base ≤ i ∧ i < base + n ∧ f (i - base) ≠ default) := by omega
    have h4 : ¬ (base + n ≤ i) := by omega
    simp [h1, h2, h3, h4]
  · by_cases h2 : i < base + n
    · have h4 : ¬ (base + n ≤ i) := by omega
      have h5 : base ≤ i := by omega
      by_cases hd : f (i - base) = default
      · simp [h1, h2, h4, h5, hd]
      · simp [h1, h2, h4, h5, hd]
    · have h3 : ¬ (base ≤ i ∧ i < base + n ∧ f (i - base) ≠ default) := by omega
      have h4 : base + n ≤ i := by omega
      have h5 : ¬ (base ≤ i ∧ i < base + n) := by omega
      simp [h1, h3, h4, h5]

/-- `MemRead` after `MemWrite` (20_memory R97). -/
theorem rd_put (m : Mem α) (i : Nat) (v : α) (j : Nat) : (m.put i v).rd j = if j = i then v else m.rd j := by
  rw [put, rd_fill]
  by_cases h : j = i
  · subst h; simp
  · have : ¬ (i ≤ j ∧ j < i + 1) := by omega
    rw [if_neg h, if_neg this]

@[simp] theorem rd_put_same (m : Mem α) (i : Nat) (v : α) : (m.put i v).rd i = v := by simp [rd_put]

theorem cells_pairwise (base n : Nat) (f : Nat → α) : (cells base n f).Pairwise fun a b => a.1 < b.1 := by
  rw [cells, List.pairwise_filterMap]
  refine (List.pairwise_lt_range (n := n)).imp ?_
  intro a b hab x hx y hy
  split at hx
  · cases hx
  · split at hy
    · cases hy
    · cases hx; cases hy; exact Nat.add_lt_add_left hab base

/-- A range write keeps the canonical form. -/
theorem fill_wf {m : Mem α} (h : m.wf) (base n : Nat) (f : Nat → α) : (m.fill base n f).wf := by
  obtain ⟨hs, hd⟩ := h
  constructor
  · rw [fill, List.pairwise_append, List.pairwise_append]
    refine ⟨⟨hs.filter _, cells_pairwise _ _ _, ?_⟩, hs.filter _, ?_⟩
    · intro a ha b hb
      simp only [List.mem_filter, decide_eq_true_eq] at ha
      obtain ⟨i, hi, -, rfl⟩ := mem_cells.1 hb
      show a.1 < base + i
      omega
    · intro a ha b hb
      simp only [List.mem_filter, decide_eq_true_eq] at hb
      rcases List.mem_append.1 ha with ha | ha
      · simp only [List.mem_filter, decide_eq_true_eq] at ha; omega
      · obtain ⟨i, hi, -, rfl⟩ := mem_cells.1 ha
        show base + i < b.1
        omega
  · intro c hc
    simp only [fill, List.mem_append] at hc
    rcases hc with (hc | hc) | hc
    · exact hd c (List.mem_filter.1 hc).1
    · obtain ⟨i, -, hne, rfl⟩ := mem_cells.1 hc; exact hne
    · exact hd c (List.mem_filter.1 hc).1

/-- `MemWrite` keeps the canonical form. -/
theorem put_wf {m : Mem α} (h : m.wf) (i : Nat) (v : α) : (m.put i v).wf := fill_wf h _ _ _

/-- An entry of a written buffer is an old one or a new value. -/
theorem mem_fill {m : Mem α} {base n : Nat} {f : Nat → α} {c : Nat × α} (h : c ∈ m.fill base n f) :
    c ∈ m ∨ ∃ i < n, c = (base + i, f i) := by
  simp only [fill, List.mem_append] at h
  rcases h with (h | h) | h
  · exact .inl (List.mem_filter.1 h).1
  · obtain ⟨i, hi, -, e⟩ := mem_cells.1 h; exact .inr ⟨i, hi, e⟩
  · exact .inl (List.mem_filter.1 h).1

omit [DecidableEq α] in
/-- What is read is the default or an entry. -/
theorem rd_mem (m : Mem α) (i : Nat) : m.rd i = default ∨ (i, m.rd i) ∈ m := by
  induction m with
  | nil => exact .inl rfl
  | cons c m ih =>
    obtain ⟨k, v⟩ := c
    by_cases hk : i = k
    · subst hk; right; simp [rd]
    · have hb : (i == k) = false := by simpa using hk
      have hr : Mem.rd ((k, v) :: m) i = Mem.rd m i := by simp [rd, List.lookup_cons, hb]
      rw [hr]
      exact ih.imp id fun h => List.mem_cons_of_mem _ h

omit [DecidableEq α] in
/-- Two canonical buffers that read alike are equal (log entry 23). -/
theorem ext_of_wf {m m' : Mem α} (h : m.wf) (h' : m'.wf) (hr : ∀ i, m.rd i = m'.rd i) : m = m' := by
  induction m generalizing m' with
  | nil =>
    cases m' with
    | nil => rfl
    | cons c m' =>
      obtain ⟨k, v⟩ := c
      exact absurd (by simpa [rd] using (hr k).symm) (h'.2 (k, v) (by simp))
  | cons c m ih =>
    obtain ⟨k, v⟩ := c
    cases m' with
    | nil => exact absurd (by simpa [rd] using hr k) (h.2 (k, v) (by simp))
    | cons c' m' =>
      obtain ⟨k', v'⟩ := c'
      have hlt : ∀ {m : Mem α} {k : Nat} {v : α} {i : Nat}, Mem.wf ((k, v) :: m) → i ≤ k → Mem.rd m i = default := by
        intro m k v i hw hi
        rcases rd_mem m i with e | e
        · exact e
        · have := (List.pairwise_cons.1 hw.1).1 _ e
          simp only at this; omega
      have hkk : k = k' := by
        rcases Nat.lt_trichotomy k k' with hl | he | hl
        · exfalso
          have e1 : Mem.rd ((k, v) :: m) k = v := by simp [rd]
          have e2 : Mem.rd ((k', v') :: m') k = default := by
            have hb : (k == k') = false := by simpa using Nat.ne_of_lt hl
            have : Mem.rd ((k', v') :: m') k = Mem.rd m' k := by simp [rd, List.lookup_cons, hb]
            rw [this]; exact hlt h' (Nat.le_of_lt hl)
          exact h.2 (k, v) (by simp) (by rw [← e1, hr k, e2])
        · exact he
        · exfalso
          have e1 : Mem.rd ((k', v') :: m') k' = v' := by simp [rd]
          have e2 : Mem.rd ((k, v) :: m) k' = default := by
            have hb : (k' == k) = false := by simpa using Nat.ne_of_lt hl
            have : Mem.rd ((k, v) :: m) k' = Mem.rd m k' := by simp [rd, List.lookup_cons, hb]
            rw [this]; exact hlt h (Nat.le_of_lt hl)
          exact h'.2 (k', v') (by simp) (by rw [← e1, ← hr k', e2])
      subst hkk
      have hv : v = v' := by simpa [rd] using hr k
      subst hv
      have hw : Mem.wf m := ⟨(List.pairwise_cons.1 h.1).2, fun c hc => h.2 c (List.mem_cons_of_mem _ hc)⟩
      have hw' : Mem.wf m' := ⟨(List.pairwise_cons.1 h'.1).2, fun c hc => h'.2 c (List.mem_cons_of_mem _ hc)⟩
      rw [ih hw hw']
      intro i
      by_cases hi : i ≤ k
      · rw [hlt h hi, hlt h' hi]
      · have hb : (i == k) = false := by simp; omega
        have := hr i
        simpa [rd, List.lookup_cons, hb] using this

end Sys2Proof.Mem
end

