-- ==== Sys2Proof/Laws/State.lean ====
section
/-! SUPPORT. What each named update of the state changes: one lemma per field and update, so that no proof unfolds an
update; and the registers read through their accessors. -/

namespace Sys2Proof.Machine

variable (s : State)

@[simp] theorem advance_modes : s.advance.modes = s.modes := rfl
@[simp] theorem advance_workers : s.advance.workers = movedWorkers s := rfl
@[simp] theorem advance_acqState : s.advance.acqState = s.acqState := rfl
@[simp] theorem advance_acqSub : s.advance.acqSub = if s.cur = .ingest then nextSub s else s.acqSub := rfl
@[simp] theorem advance_coPc : s.advance.coPc = if s.cur = .coord then nextCoPc s else s.coPc := rfl
@[simp] theorem advance_ingDivert : s.advance.ingDivert = s.ingDivert := rfl
@[simp] theorem advance_coDivert : s.advance.coDivert = s.coDivert := rfl
@[simp] theorem advance_fCoarse : s.advance.fCoarse = s.fCoarse := rfl
@[simp] theorem advance_fFine : s.advance.fFine = s.fFine := rfl
@[simp] theorem advance_fSnap : s.advance.fSnap = s.fSnap := rfl
@[simp] theorem advance_isFound : s.advance.isFound = s.isFound := rfl
@[simp] theorem advance_fineTimeOffset : s.advance.fineTimeOffset = s.fineTimeOffset := rfl
@[simp] theorem advance_l1Avg : s.advance.l1Avg = s.l1Avg := rfl
@[simp] theorem advance_l1Acc : s.advance.l1Acc = s.l1Acc := rfl
@[simp] theorem advance_l1Cnt : s.advance.l1Cnt = s.l1Cnt := rfl
@[simp] theorem advance_l1Win : s.advance.l1Win = s.l1Win := rfl
@[simp] theorem advance_l1Last : s.advance.l1Last = s.l1Last := rfl
@[simp] theorem advance_nullStart : s.advance.nullStart = s.nullStart := rfl
@[simp] theorem advance_nullEnd : s.advance.nullEnd = s.nullEnd := rfl
@[simp] theorem advance_circWr : s.advance.circWr = s.circWr := rfl
@[simp] theorem advance_corrLen : s.advance.corrLen = s.corrLen := rfl
@[simp] theorem advance_ingLen : s.advance.ingLen = s.ingLen := rfl
@[simp] theorem advance_peakOff : s.advance.peakOff = s.peakOff := rfl
@[simp] theorem advance_impK : s.advance.impK = s.impK := rfl
@[simp] theorem advance_impW : s.advance.impW = s.impW := rfl
@[simp] theorem advance_impMu : s.advance.impMu = s.impMu := rfl
@[simp] theorem advance_sel : s.advance.sel = s.sel := rfl
@[simp] theorem advance_framesRead : s.advance.framesRead = s.framesRead := rfl
@[simp] theorem advance_framesDesync : s.advance.framesDesync = s.framesDesync := rfl
@[simp] theorem advance_en : s.advance.en = s.en := rfl
@[simp] theorem advance_stop : s.advance.stop = s.stop := rfl
@[simp] theorem advance_ingHalted : s.advance.ingHalted = s.ingHalted := rfl
@[simp] theorem advance_coHalted : s.advance.coHalted = s.coHalted := rfl
@[simp] theorem advance_psiAvg : s.advance.psiAvg = s.psiAvg := rfl
@[simp] theorem advance_frameValid : s.advance.frameValid = s.frameValid := rfl
@[simp] theorem advance_emitArmed : s.advance.emitArmed = s.emitArmed := rfl
@[simp] theorem advance_cs : s.advance.cs = s.cs := rfl
@[simp] theorem advance_ce : s.advance.ce = s.ce := rfl
@[simp] theorem advance_cfg : s.advance.cfg = s.cfg := rfl
@[simp] theorem advance_unset : s.advance.unset = s.unset := rfl
@[simp] theorem advance_impIndex : s.advance.impIndex = s.impIndex := rfl
@[simp] theorem advance_circ : s.advance.circ = s.circ := rfl
@[simp] theorem advance_corr : s.advance.corr = s.corr := rfl
@[simp] theorem advance_ing0 : s.advance.ing0 = s.ing0 := rfl
@[simp] theorem advance_ing1 : s.advance.ing1 = s.ing1 := rfl
@[simp] theorem advance_sa : s.advance.sa = s.sa := rfl
@[simp] theorem advance_spec : s.advance.spec = s.spec := rfl
@[simp] theorem advance_imp : s.advance.imp = s.imp := rfl
@[simp] theorem advance_impPrev : s.advance.impPrev = s.impPrev := rfl
@[simp] theorem advance_zf : s.advance.zf = s.zf := rfl
@[simp] theorem advance_out : s.advance.out = s.out := rfl
@[simp] theorem advance_samples : s.advance.samples = s.samples := rfl
@[simp] theorem advance_rdData : s.advance.rdData = s.rdData := rfl
@[simp] theorem advance_frData : s.advance.frData = s.frData := rfl
@[simp] theorem advance_cur : s.advance.cur = s.cur := rfl
@[simp] theorem advance_turns : s.advance.turns = s.turns := rfl
@[simp] theorem advance_tick : s.advance.tick = s.tick := rfl
@[simp] theorem advance_row : s.advance.row = s.row := rfl
@[simp] theorem advance_par : s.advance.par = s.par := rfl
@[simp] theorem advance_K : s.advance.K = s.K := rfl
@[simp] theorem advance_D : s.advance.D = s.D := rfl
@[simp] theorem advance_T : s.advance.T = s.T := by unfold State.T; rw [advance_workers]; unfold movedWorkers; split <;> simp

@[simp] theorem setWk_modes (w : Nat) (f : Worker → Worker) : (s.setWk w f).modes = s.modes := rfl
@[simp] theorem setWk_workers (w : Nat) (f : Worker → Worker) : (s.setWk w f).workers = s.workers.modify w f := rfl
@[simp] theorem setWk_acqState (w : Nat) (f : Worker → Worker) : (s.setWk w f).acqState = s.acqState := rfl
@[simp] theorem setWk_acqSub (w : Nat) (f : Worker → Worker) : (s.setWk w f).acqSub = s.acqSub := rfl
@[simp] theorem setWk_coPc (w : Nat) (f : Worker → Worker) : (s.setWk w f).coPc = s.coPc := rfl
@[simp] theorem setWk_ingDivert (w : Nat) (f : Worker → Worker) : (s.setWk w f).ingDivert = s.ingDivert := rfl
@[simp] theorem setWk_coDivert (w : Nat) (f : Worker → Worker) : (s.setWk w f).coDivert = s.coDivert := rfl
@[simp] theorem setWk_fCoarse (w : Nat) (f : Worker → Worker) : (s.setWk w f).fCoarse = s.fCoarse := rfl
@[simp] theorem setWk_fFine (w : Nat) (f : Worker → Worker) : (s.setWk w f).fFine = s.fFine := rfl
@[simp] theorem setWk_fSnap (w : Nat) (f : Worker → Worker) : (s.setWk w f).fSnap = s.fSnap := rfl
@[simp] theorem setWk_isFound (w : Nat) (f : Worker → Worker) : (s.setWk w f).isFound = s.isFound := rfl
@[simp] theorem setWk_fineTimeOffset (w : Nat) (f : Worker → Worker) : (s.setWk w f).fineTimeOffset = s.fineTimeOffset := rfl
@[simp] theorem setWk_l1Avg (w : Nat) (f : Worker → Worker) : (s.setWk w f).l1Avg = s.l1Avg := rfl
@[simp] theorem setWk_l1Acc (w : Nat) (f : Worker → Worker) : (s.setWk w f).l1Acc = s.l1Acc := rfl
@[simp] theorem setWk_l1Cnt (w : Nat) (f : Worker → Worker) : (s.setWk w f).l1Cnt = s.l1Cnt := rfl
@[simp] theorem setWk_l1Win (w : Nat) (f : Worker → Worker) : (s.setWk w f).l1Win = s.l1Win := rfl
@[simp] theorem setWk_l1Last (w : Nat) (f : Worker → Worker) : (s.setWk w f).l1Last = s.l1Last := rfl
@[simp] theorem setWk_nullStart (w : Nat) (f : Worker → Worker) : (s.setWk w f).nullStart = s.nullStart := rfl
@[simp] theorem setWk_nullEnd (w : Nat) (f : Worker → Worker) : (s.setWk w f).nullEnd = s.nullEnd := rfl
@[simp] theorem setWk_circWr (w : Nat) (f : Worker → Worker) : (s.setWk w f).circWr = s.circWr := rfl
@[simp] theorem setWk_corrLen (w : Nat) (f : Worker → Worker) : (s.setWk w f).corrLen = s.corrLen := rfl
@[simp] theorem setWk_ingLen (w : Nat) (f : Worker → Worker) : (s.setWk w f).ingLen = s.ingLen := rfl
@[simp] theorem setWk_peakOff (w : Nat) (f : Worker → Worker) : (s.setWk w f).peakOff = s.peakOff := rfl
@[simp] theorem setWk_impK (w : Nat) (f : Worker → Worker) : (s.setWk w f).impK = s.impK := rfl
@[simp] theorem setWk_impW (w : Nat) (f : Worker → Worker) : (s.setWk w f).impW = s.impW := rfl
@[simp] theorem setWk_impMu (w : Nat) (f : Worker → Worker) : (s.setWk w f).impMu = s.impMu := rfl
@[simp] theorem setWk_sel (w : Nat) (f : Worker → Worker) : (s.setWk w f).sel = s.sel := rfl
@[simp] theorem setWk_framesRead (w : Nat) (f : Worker → Worker) : (s.setWk w f).framesRead = s.framesRead := rfl
@[simp] theorem setWk_framesDesync (w : Nat) (f : Worker → Worker) : (s.setWk w f).framesDesync = s.framesDesync := rfl
@[simp] theorem setWk_en (w : Nat) (f : Worker → Worker) : (s.setWk w f).en = s.en := rfl
@[simp] theorem setWk_stop (w : Nat) (f : Worker → Worker) : (s.setWk w f).stop = s.stop := rfl
@[simp] theorem setWk_ingHalted (w : Nat) (f : Worker → Worker) : (s.setWk w f).ingHalted = s.ingHalted := rfl
@[simp] theorem setWk_coHalted (w : Nat) (f : Worker → Worker) : (s.setWk w f).coHalted = s.coHalted := rfl
@[simp] theorem setWk_psiAvg (w : Nat) (f : Worker → Worker) : (s.setWk w f).psiAvg = s.psiAvg := rfl
@[simp] theorem setWk_frameValid (w : Nat) (f : Worker → Worker) : (s.setWk w f).frameValid = s.frameValid := rfl
@[simp] theorem setWk_emitArmed (w : Nat) (f : Worker → Worker) : (s.setWk w f).emitArmed = s.emitArmed := rfl
@[simp] theorem setWk_cs (w : Nat) (f : Worker → Worker) : (s.setWk w f).cs = s.cs := rfl
@[simp] theorem setWk_ce (w : Nat) (f : Worker → Worker) : (s.setWk w f).ce = s.ce := rfl
@[simp] theorem setWk_cfg (w : Nat) (f : Worker → Worker) : (s.setWk w f).cfg = s.cfg := rfl
@[simp] theorem setWk_unset (w : Nat) (f : Worker → Worker) : (s.setWk w f).unset = s.unset := rfl
@[simp] theorem setWk_impIndex (w : Nat) (f : Worker → Worker) : (s.setWk w f).impIndex = s.impIndex := rfl
@[simp] theorem setWk_circ (w : Nat) (f : Worker → Worker) : (s.setWk w f).circ = s.circ := rfl
@[simp] theorem setWk_corr (w : Nat) (f : Worker → Worker) : (s.setWk w f).corr = s.corr := rfl
@[simp] theorem setWk_ing0 (w : Nat) (f : Worker → Worker) : (s.setWk w f).ing0 = s.ing0 := rfl
@[simp] theorem setWk_ing1 (w : Nat) (f : Worker → Worker) : (s.setWk w f).ing1 = s.ing1 := rfl
@[simp] theorem setWk_sa (w : Nat) (f : Worker → Worker) : (s.setWk w f).sa = s.sa := rfl
@[simp] theorem setWk_spec (w : Nat) (f : Worker → Worker) : (s.setWk w f).spec = s.spec := rfl
@[simp] theorem setWk_imp (w : Nat) (f : Worker → Worker) : (s.setWk w f).imp = s.imp := rfl
@[simp] theorem setWk_impPrev (w : Nat) (f : Worker → Worker) : (s.setWk w f).impPrev = s.impPrev := rfl
@[simp] theorem setWk_zf (w : Nat) (f : Worker → Worker) : (s.setWk w f).zf = s.zf := rfl
@[simp] theorem setWk_out (w : Nat) (f : Worker → Worker) : (s.setWk w f).out = s.out := rfl
@[simp] theorem setWk_samples (w : Nat) (f : Worker → Worker) : (s.setWk w f).samples = s.samples := rfl
@[simp] theorem setWk_rdData (w : Nat) (f : Worker → Worker) : (s.setWk w f).rdData = s.rdData := rfl
@[simp] theorem setWk_frData (w : Nat) (f : Worker → Worker) : (s.setWk w f).frData = s.frData := rfl
@[simp] theorem setWk_cur (w : Nat) (f : Worker → Worker) : (s.setWk w f).cur = s.cur := rfl
@[simp] theorem setWk_turns (w : Nat) (f : Worker → Worker) : (s.setWk w f).turns = s.turns := rfl
@[simp] theorem setWk_tick (w : Nat) (f : Worker → Worker) : (s.setWk w f).tick = s.tick := rfl
@[simp] theorem setWk_row (w : Nat) (f : Worker → Worker) : (s.setWk w f).row = s.row := rfl
@[simp] theorem setWk_par (w : Nat) (f : Worker → Worker) : (s.setWk w f).par = s.par := rfl
@[simp] theorem setWk_K (w : Nat) (f : Worker → Worker) : (s.setWk w f).K = s.K := rfl
@[simp] theorem setWk_D (w : Nat) (f : Worker → Worker) : (s.setWk w f).D = s.D := rfl
@[simp] theorem setWk_T (w : Nat) (f : Worker → Worker) : (s.setWk w f).T = s.T := by simp [State.T, State.setWk]

@[simp] theorem setAct_modes (m : Mem Cplx) : (s.setAct m).modes = s.modes := rfl
@[simp] theorem setAct_workers (m : Mem Cplx) : (s.setAct m).workers = s.workers := rfl
@[simp] theorem setAct_acqState (m : Mem Cplx) : (s.setAct m).acqState = s.acqState := rfl
@[simp] theorem setAct_acqSub (m : Mem Cplx) : (s.setAct m).acqSub = s.acqSub := rfl
@[simp] theorem setAct_coPc (m : Mem Cplx) : (s.setAct m).coPc = s.coPc := rfl
@[simp] theorem setAct_ingDivert (m : Mem Cplx) : (s.setAct m).ingDivert = s.ingDivert := rfl
@[simp] theorem setAct_coDivert (m : Mem Cplx) : (s.setAct m).coDivert = s.coDivert := rfl
@[simp] theorem setAct_fCoarse (m : Mem Cplx) : (s.setAct m).fCoarse = s.fCoarse := rfl
@[simp] theorem setAct_fFine (m : Mem Cplx) : (s.setAct m).fFine = s.fFine := rfl
@[simp] theorem setAct_fSnap (m : Mem Cplx) : (s.setAct m).fSnap = s.fSnap := rfl
@[simp] theorem setAct_isFound (m : Mem Cplx) : (s.setAct m).isFound = s.isFound := rfl
@[simp] theorem setAct_fineTimeOffset (m : Mem Cplx) : (s.setAct m).fineTimeOffset = s.fineTimeOffset := rfl
@[simp] theorem setAct_l1Avg (m : Mem Cplx) : (s.setAct m).l1Avg = s.l1Avg := rfl
@[simp] theorem setAct_l1Acc (m : Mem Cplx) : (s.setAct m).l1Acc = s.l1Acc := rfl
@[simp] theorem setAct_l1Cnt (m : Mem Cplx) : (s.setAct m).l1Cnt = s.l1Cnt := rfl
@[simp] theorem setAct_l1Win (m : Mem Cplx) : (s.setAct m).l1Win = s.l1Win := rfl
@[simp] theorem setAct_l1Last (m : Mem Cplx) : (s.setAct m).l1Last = s.l1Last := rfl
@[simp] theorem setAct_nullStart (m : Mem Cplx) : (s.setAct m).nullStart = s.nullStart := rfl
@[simp] theorem setAct_nullEnd (m : Mem Cplx) : (s.setAct m).nullEnd = s.nullEnd := rfl
@[simp] theorem setAct_circWr (m : Mem Cplx) : (s.setAct m).circWr = s.circWr := rfl
@[simp] theorem setAct_corrLen (m : Mem Cplx) : (s.setAct m).corrLen = s.corrLen := rfl
@[simp] theorem setAct_ingLen (m : Mem Cplx) : (s.setAct m).ingLen = s.ingLen := rfl
@[simp] theorem setAct_peakOff (m : Mem Cplx) : (s.setAct m).peakOff = s.peakOff := rfl
@[simp] theorem setAct_impK (m : Mem Cplx) : (s.setAct m).impK = s.impK := rfl
@[simp] theorem setAct_impW (m : Mem Cplx) : (s.setAct m).impW = s.impW := rfl
@[simp] theorem setAct_impMu (m : Mem Cplx) : (s.setAct m).impMu = s.impMu := rfl
@[simp] theorem setAct_sel (m : Mem Cplx) : (s.setAct m).sel = s.sel := rfl
@[simp] theorem setAct_framesRead (m : Mem Cplx) : (s.setAct m).framesRead = s.framesRead := rfl
@[simp] theorem setAct_framesDesync (m : Mem Cplx) : (s.setAct m).framesDesync = s.framesDesync := rfl
@[simp] theorem setAct_en (m : Mem Cplx) : (s.setAct m).en = s.en := rfl
@[simp] theorem setAct_stop (m : Mem Cplx) : (s.setAct m).stop = s.stop := rfl
@[simp] theorem setAct_ingHalted (m : Mem Cplx) : (s.setAct m).ingHalted = s.ingHalted := rfl
@[simp] theorem setAct_coHalted (m : Mem Cplx) : (s.setAct m).coHalted = s.coHalted := rfl
@[simp] theorem setAct_psiAvg (m : Mem Cplx) : (s.setAct m).psiAvg = s.psiAvg := rfl
@[simp] theorem setAct_frameValid (m : Mem Cplx) : (s.setAct m).frameValid = s.frameValid := rfl
@[simp] theorem setAct_emitArmed (m : Mem Cplx) : (s.setAct m).emitArmed = s.emitArmed := rfl
@[simp] theorem setAct_cs (m : Mem Cplx) : (s.setAct m).cs = s.cs := rfl
@[simp] theorem setAct_ce (m : Mem Cplx) : (s.setAct m).ce = s.ce := rfl
@[simp] theorem setAct_cfg (m : Mem Cplx) : (s.setAct m).cfg = s.cfg := rfl
@[simp] theorem setAct_unset (m : Mem Cplx) : (s.setAct m).unset = s.unset := rfl
@[simp] theorem setAct_impIndex (m : Mem Cplx) : (s.setAct m).impIndex = s.impIndex := rfl
@[simp] theorem setAct_circ (m : Mem Cplx) : (s.setAct m).circ = s.circ := rfl
@[simp] theorem setAct_corr (m : Mem Cplx) : (s.setAct m).corr = s.corr := rfl
@[simp] theorem setAct_ing0 (m : Mem Cplx) : (s.setAct m).ing0 = if s.sel then s.ing0 else m := rfl
@[simp] theorem setAct_ing1 (m : Mem Cplx) : (s.setAct m).ing1 = if s.sel then m else s.ing1 := rfl
@[simp] theorem setAct_sa (m : Mem Cplx) : (s.setAct m).sa = s.sa := rfl
@[simp] theorem setAct_spec (m : Mem Cplx) : (s.setAct m).spec = s.spec := rfl
@[simp] theorem setAct_imp (m : Mem Cplx) : (s.setAct m).imp = s.imp := rfl
@[simp] theorem setAct_impPrev (m : Mem Cplx) : (s.setAct m).impPrev = s.impPrev := rfl
@[simp] theorem setAct_zf (m : Mem Cplx) : (s.setAct m).zf = s.zf := rfl
@[simp] theorem setAct_out (m : Mem Cplx) : (s.setAct m).out = s.out := rfl
@[simp] theorem setAct_samples (m : Mem Cplx) : (s.setAct m).samples = s.samples := rfl
@[simp] theorem setAct_rdData (m : Mem Cplx) : (s.setAct m).rdData = s.rdData := rfl
@[simp] theorem setAct_frData (m : Mem Cplx) : (s.setAct m).frData = s.frData := rfl
@[simp] theorem setAct_cur (m : Mem Cplx) : (s.setAct m).cur = s.cur := rfl
@[simp] theorem setAct_turns (m : Mem Cplx) : (s.setAct m).turns = s.turns := rfl
@[simp] theorem setAct_tick (m : Mem Cplx) : (s.setAct m).tick = s.tick := rfl
@[simp] theorem setAct_row (m : Mem Cplx) : (s.setAct m).row = s.row := rfl
@[simp] theorem setAct_par (m : Mem Cplx) : (s.setAct m).par = s.par := rfl
@[simp] theorem setAct_K (m : Mem Cplx) : (s.setAct m).K = s.K := rfl
@[simp] theorem setAct_D (m : Mem Cplx) : (s.setAct m).D = s.D := rfl
@[simp] theorem setAct_T (m : Mem Cplx) : (s.setAct m).T = s.T := rfl

@[simp] theorem setInact_modes (m : Mem Cplx) : (s.setInact m).modes = s.modes := rfl
@[simp] theorem setInact_workers (m : Mem Cplx) : (s.setInact m).workers = s.workers := rfl
@[simp] theorem setInact_acqState (m : Mem Cplx) : (s.setInact m).acqState = s.acqState := rfl
@[simp] theorem setInact_acqSub (m : Mem Cplx) : (s.setInact m).acqSub = s.acqSub := rfl
@[simp] theorem setInact_coPc (m : Mem Cplx) : (s.setInact m).coPc = s.coPc := rfl
@[simp] theorem setInact_ingDivert (m : Mem Cplx) : (s.setInact m).ingDivert = s.ingDivert := rfl
@[simp] theorem setInact_coDivert (m : Mem Cplx) : (s.setInact m).coDivert = s.coDivert := rfl
@[simp] theorem setInact_fCoarse (m : Mem Cplx) : (s.setInact m).fCoarse = s.fCoarse := rfl
@[simp] theorem setInact_fFine (m : Mem Cplx) : (s.setInact m).fFine = s.fFine := rfl
@[simp] theorem setInact_fSnap (m : Mem Cplx) : (s.setInact m).fSnap = s.fSnap := rfl
@[simp] theorem setInact_isFound (m : Mem Cplx) : (s.setInact m).isFound = s.isFound := rfl
@[simp] theorem setInact_fineTimeOffset (m : Mem Cplx) : (s.setInact m).fineTimeOffset = s.fineTimeOffset := rfl
@[simp] theorem setInact_l1Avg (m : Mem Cplx) : (s.setInact m).l1Avg = s.l1Avg := rfl
@[simp] theorem setInact_l1Acc (m : Mem Cplx) : (s.setInact m).l1Acc = s.l1Acc := rfl
@[simp] theorem setInact_l1Cnt (m : Mem Cplx) : (s.setInact m).l1Cnt = s.l1Cnt := rfl
@[simp] theorem setInact_l1Win (m : Mem Cplx) : (s.setInact m).l1Win = s.l1Win := rfl
@[simp] theorem setInact_l1Last (m : Mem Cplx) : (s.setInact m).l1Last = s.l1Last := rfl
@[simp] theorem setInact_nullStart (m : Mem Cplx) : (s.setInact m).nullStart = s.nullStart := rfl
@[simp] theorem setInact_nullEnd (m : Mem Cplx) : (s.setInact m).nullEnd = s.nullEnd := rfl
@[simp] theorem setInact_circWr (m : Mem Cplx) : (s.setInact m).circWr = s.circWr := rfl
@[simp] theorem setInact_corrLen (m : Mem Cplx) : (s.setInact m).corrLen = s.corrLen := rfl
@[simp] theorem setInact_ingLen (m : Mem Cplx) : (s.setInact m).ingLen = s.ingLen := rfl
@[simp] theorem setInact_peakOff (m : Mem Cplx) : (s.setInact m).peakOff = s.peakOff := rfl
@[simp] theorem setInact_impK (m : Mem Cplx) : (s.setInact m).impK = s.impK := rfl
@[simp] theorem setInact_impW (m : Mem Cplx) : (s.setInact m).impW = s.impW := rfl
@[simp] theorem setInact_impMu (m : Mem Cplx) : (s.setInact m).impMu = s.impMu := rfl
@[simp] theorem setInact_sel (m : Mem Cplx) : (s.setInact m).sel = s.sel := rfl
@[simp] theorem setInact_framesRead (m : Mem Cplx) : (s.setInact m).framesRead = s.framesRead := rfl
@[simp] theorem setInact_framesDesync (m : Mem Cplx) : (s.setInact m).framesDesync = s.framesDesync := rfl
@[simp] theorem setInact_en (m : Mem Cplx) : (s.setInact m).en = s.en := rfl
@[simp] theorem setInact_stop (m : Mem Cplx) : (s.setInact m).stop = s.stop := rfl
@[simp] theorem setInact_ingHalted (m : Mem Cplx) : (s.setInact m).ingHalted = s.ingHalted := rfl
@[simp] theorem setInact_coHalted (m : Mem Cplx) : (s.setInact m).coHalted = s.coHalted := rfl
@[simp] theorem setInact_psiAvg (m : Mem Cplx) : (s.setInact m).psiAvg = s.psiAvg := rfl
@[simp] theorem setInact_frameValid (m : Mem Cplx) : (s.setInact m).frameValid = s.frameValid := rfl
@[simp] theorem setInact_emitArmed (m : Mem Cplx) : (s.setInact m).emitArmed = s.emitArmed := rfl
@[simp] theorem setInact_cs (m : Mem Cplx) : (s.setInact m).cs = s.cs := rfl
@[simp] theorem setInact_ce (m : Mem Cplx) : (s.setInact m).ce = s.ce := rfl
@[simp] theorem setInact_cfg (m : Mem Cplx) : (s.setInact m).cfg = s.cfg := rfl
@[simp] theorem setInact_unset (m : Mem Cplx) : (s.setInact m).unset = s.unset := rfl
@[simp] theorem setInact_impIndex (m : Mem Cplx) : (s.setInact m).impIndex = s.impIndex := rfl
@[simp] theorem setInact_circ (m : Mem Cplx) : (s.setInact m).circ = s.circ := rfl
@[simp] theorem setInact_corr (m : Mem Cplx) : (s.setInact m).corr = s.corr := rfl
@[simp] theorem setInact_ing0 (m : Mem Cplx) : (s.setInact m).ing0 = if s.sel then m else s.ing0 := rfl
@[simp] theorem setInact_ing1 (m : Mem Cplx) : (s.setInact m).ing1 = if s.sel then s.ing1 else m := rfl
@[simp] theorem setInact_sa (m : Mem Cplx) : (s.setInact m).sa = s.sa := rfl
@[simp] theorem setInact_spec (m : Mem Cplx) : (s.setInact m).spec = s.spec := rfl
@[simp] theorem setInact_imp (m : Mem Cplx) : (s.setInact m).imp = s.imp := rfl
@[simp] theorem setInact_impPrev (m : Mem Cplx) : (s.setInact m).impPrev = s.impPrev := rfl
@[simp] theorem setInact_zf (m : Mem Cplx) : (s.setInact m).zf = s.zf := rfl
@[simp] theorem setInact_out (m : Mem Cplx) : (s.setInact m).out = s.out := rfl
@[simp] theorem setInact_samples (m : Mem Cplx) : (s.setInact m).samples = s.samples := rfl
@[simp] theorem setInact_rdData (m : Mem Cplx) : (s.setInact m).rdData = s.rdData := rfl
@[simp] theorem setInact_frData (m : Mem Cplx) : (s.setInact m).frData = s.frData := rfl
@[simp] theorem setInact_cur (m : Mem Cplx) : (s.setInact m).cur = s.cur := rfl
@[simp] theorem setInact_turns (m : Mem Cplx) : (s.setInact m).turns = s.turns := rfl
@[simp] theorem setInact_tick (m : Mem Cplx) : (s.setInact m).tick = s.tick := rfl
@[simp] theorem setInact_row (m : Mem Cplx) : (s.setInact m).row = s.row := rfl
@[simp] theorem setInact_par (m : Mem Cplx) : (s.setInact m).par = s.par := rfl
@[simp] theorem setInact_K (m : Mem Cplx) : (s.setInact m).K = s.K := rfl
@[simp] theorem setInact_D (m : Mem Cplx) : (s.setInact m).D = s.D := rfl
@[simp] theorem setInact_T (m : Mem Cplx) : (s.setInact m).T = s.T := rfl

@[simp] theorem raiseDesync_modes : s.raiseDesync.modes = s.modes := rfl
@[simp] theorem raiseDesync_workers : s.raiseDesync.workers = s.workers := rfl
@[simp] theorem raiseDesync_acqState : s.raiseDesync.acqState = s.acqState := rfl
@[simp] theorem raiseDesync_acqSub : s.raiseDesync.acqSub = s.acqSub := rfl
@[simp] theorem raiseDesync_coPc : s.raiseDesync.coPc = s.coPc := rfl
@[simp] theorem raiseDesync_ingDivert : s.raiseDesync.ingDivert = .desync := rfl
@[simp] theorem raiseDesync_coDivert : s.raiseDesync.coDivert = s.coDivert := rfl
@[simp] theorem raiseDesync_fCoarse : s.raiseDesync.fCoarse = s.fCoarse := rfl
@[simp] theorem raiseDesync_fFine : s.raiseDesync.fFine = s.fFine := rfl
@[simp] theorem raiseDesync_fSnap : s.raiseDesync.fSnap = s.fSnap := rfl
@[simp] theorem raiseDesync_isFound : s.raiseDesync.isFound = s.isFound := rfl
@[simp] theorem raiseDesync_fineTimeOffset : s.raiseDesync.fineTimeOffset = s.fineTimeOffset := rfl
@[simp] theorem raiseDesync_l1Avg : s.raiseDesync.l1Avg = s.l1Avg := rfl
@[simp] theorem raiseDesync_l1Acc : s.raiseDesync.l1Acc = s.l1Acc := rfl
@[simp] theorem raiseDesync_l1Cnt : s.raiseDesync.l1Cnt = s.l1Cnt := rfl
@[simp] theorem raiseDesync_l1Win : s.raiseDesync.l1Win = s.l1Win := rfl
@[simp] theorem raiseDesync_l1Last : s.raiseDesync.l1Last = s.l1Last := rfl
@[simp] theorem raiseDesync_nullStart : s.raiseDesync.nullStart = s.nullStart := rfl
@[simp] theorem raiseDesync_nullEnd : s.raiseDesync.nullEnd = s.nullEnd := rfl
@[simp] theorem raiseDesync_circWr : s.raiseDesync.circWr = s.circWr := rfl
@[simp] theorem raiseDesync_corrLen : s.raiseDesync.corrLen = s.corrLen := rfl
@[simp] theorem raiseDesync_ingLen : s.raiseDesync.ingLen = s.ingLen := rfl
@[simp] theorem raiseDesync_peakOff : s.raiseDesync.peakOff = s.peakOff := rfl
@[simp] theorem raiseDesync_impK : s.raiseDesync.impK = s.impK := rfl
@[simp] theorem raiseDesync_impW : s.raiseDesync.impW = s.impW := rfl
@[simp] theorem raiseDesync_impMu : s.raiseDesync.impMu = s.impMu := rfl
@[simp] theorem raiseDesync_sel : s.raiseDesync.sel = s.sel := rfl
@[simp] theorem raiseDesync_framesRead : s.raiseDesync.framesRead = s.framesRead := rfl
@[simp] theorem raiseDesync_framesDesync : s.raiseDesync.framesDesync = s.framesDesync := rfl
@[simp] theorem raiseDesync_en : s.raiseDesync.en = s.en := rfl
@[simp] theorem raiseDesync_stop : s.raiseDesync.stop = s.stop := rfl
@[simp] theorem raiseDesync_ingHalted : s.raiseDesync.ingHalted = s.ingHalted := rfl
@[simp] theorem raiseDesync_coHalted : s.raiseDesync.coHalted = s.coHalted := rfl
@[simp] theorem raiseDesync_psiAvg : s.raiseDesync.psiAvg = s.psiAvg := rfl
@[simp] theorem raiseDesync_frameValid : s.raiseDesync.frameValid = s.frameValid := rfl
@[simp] theorem raiseDesync_emitArmed : s.raiseDesync.emitArmed = s.emitArmed := rfl
@[simp] theorem raiseDesync_cs : s.raiseDesync.cs = s.cs := rfl
@[simp] theorem raiseDesync_ce : s.raiseDesync.ce = s.ce := rfl
@[simp] theorem raiseDesync_cfg : s.raiseDesync.cfg = s.cfg := rfl
@[simp] theorem raiseDesync_unset : s.raiseDesync.unset = s.unset := rfl
@[simp] theorem raiseDesync_impIndex : s.raiseDesync.impIndex = s.impIndex := rfl
@[simp] theorem raiseDesync_circ : s.raiseDesync.circ = s.circ := rfl
@[simp] theorem raiseDesync_corr : s.raiseDesync.corr = s.corr := rfl
@[simp] theorem raiseDesync_ing0 : s.raiseDesync.ing0 = s.ing0 := rfl
@[simp] theorem raiseDesync_ing1 : s.raiseDesync.ing1 = s.ing1 := rfl
@[simp] theorem raiseDesync_sa : s.raiseDesync.sa = s.sa := rfl
@[simp] theorem raiseDesync_spec : s.raiseDesync.spec = s.spec := rfl
@[simp] theorem raiseDesync_imp : s.raiseDesync.imp = s.imp := rfl
@[simp] theorem raiseDesync_impPrev : s.raiseDesync.impPrev = s.impPrev := rfl
@[simp] theorem raiseDesync_zf : s.raiseDesync.zf = s.zf := rfl
@[simp] theorem raiseDesync_out : s.raiseDesync.out = s.out := rfl
@[simp] theorem raiseDesync_samples : s.raiseDesync.samples = s.samples := rfl
@[simp] theorem raiseDesync_rdData : s.raiseDesync.rdData = s.rdData := rfl
@[simp] theorem raiseDesync_frData : s.raiseDesync.frData = s.frData := rfl
@[simp] theorem raiseDesync_cur : s.raiseDesync.cur = s.cur := rfl
@[simp] theorem raiseDesync_turns : s.raiseDesync.turns = s.turns := rfl
@[simp] theorem raiseDesync_tick : s.raiseDesync.tick = s.tick := rfl
@[simp] theorem raiseDesync_row : s.raiseDesync.row = s.row := rfl
@[simp] theorem raiseDesync_par : s.raiseDesync.par = s.par := rfl
@[simp] theorem raiseDesync_K : s.raiseDesync.K = s.K := rfl
@[simp] theorem raiseDesync_D : s.raiseDesync.D = s.D := rfl
@[simp] theorem raiseDesync_T : s.raiseDesync.T = s.T := rfl

@[simp] theorem handleDesync_modes : s.handleDesync.modes = s.modes := rfl
@[simp] theorem handleDesync_workers : s.handleDesync.workers = s.workers := rfl
@[simp] theorem handleDesync_acqState : s.handleDesync.acqState = .findNull := rfl
@[simp] theorem handleDesync_acqSub : s.handleDesync.acqSub = 0 := rfl
@[simp] theorem handleDesync_coPc : s.handleDesync.coPc = s.coPc := rfl
@[simp] theorem handleDesync_ingDivert : s.handleDesync.ingDivert = .none := rfl
@[simp] theorem handleDesync_coDivert : s.handleDesync.coDivert = s.coDivert := rfl
@[simp] theorem handleDesync_fCoarse : s.handleDesync.fCoarse = s.fCoarse := rfl
@[simp] theorem handleDesync_fFine : s.handleDesync.fFine = Fp.zero := rfl
@[simp] theorem handleDesync_fSnap : s.handleDesync.fSnap = s.fSnap := rfl
@[simp] theorem handleDesync_isFound : s.handleDesync.isFound = false := rfl
@[simp] theorem handleDesync_fineTimeOffset : s.handleDesync.fineTimeOffset = 0 := rfl
@[simp] theorem handleDesync_l1Avg : s.handleDesync.l1Avg = s.l1Avg := rfl
@[simp] theorem handleDesync_l1Acc : s.handleDesync.l1Acc = Fp.zero := rfl
@[simp] theorem handleDesync_l1Cnt : s.handleDesync.l1Cnt = 0 := rfl
@[simp] theorem handleDesync_l1Win : s.handleDesync.l1Win = 0 := rfl
@[simp] theorem handleDesync_l1Last : s.handleDesync.l1Last = s.l1Last := rfl
@[simp] theorem handleDesync_nullStart : s.handleDesync.nullStart = false := rfl
@[simp] theorem handleDesync_nullEnd : s.handleDesync.nullEnd = false := rfl
@[simp] theorem handleDesync_circWr : s.handleDesync.circWr = s.circWr := rfl
@[simp] theorem handleDesync_corrLen : s.handleDesync.corrLen = 0 := rfl
@[simp] theorem handleDesync_ingLen : s.handleDesync.ingLen = s.ingLen := rfl
@[simp] theorem handleDesync_peakOff : s.handleDesync.peakOff = s.peakOff := rfl
@[simp] theorem handleDesync_impK : s.handleDesync.impK = s.impK := rfl
@[simp] theorem handleDesync_impW : s.handleDesync.impW = s.impW := rfl
@[simp] theorem handleDesync_impMu : s.handleDesync.impMu = s.impMu := rfl
@[simp] theorem handleDesync_sel : s.handleDesync.sel = s.sel := rfl
@[simp] theorem handleDesync_framesRead : s.handleDesync.framesRead = s.framesRead := rfl
@[simp] theorem handleDesync_framesDesync : s.handleDesync.framesDesync = s.framesDesync + 1 := rfl
@[simp] theorem handleDesync_en : s.handleDesync.en = s.en := rfl
@[simp] theorem handleDesync_stop : s.handleDesync.stop = s.stop := rfl
@[simp] theorem handleDesync_ingHalted : s.handleDesync.ingHalted = s.ingHalted := rfl
@[simp] theorem handleDesync_coHalted : s.handleDesync.coHalted = s.coHalted := rfl
@[simp] theorem handleDesync_psiAvg : s.handleDesync.psiAvg = s.psiAvg := rfl
@[simp] theorem handleDesync_frameValid : s.handleDesync.frameValid = s.frameValid := rfl
@[simp] theorem handleDesync_emitArmed : s.handleDesync.emitArmed = s.emitArmed := rfl
@[simp] theorem handleDesync_cs : s.handleDesync.cs = s.cs := rfl
@[simp] theorem handleDesync_ce : s.handleDesync.ce = s.ce := rfl
@[simp] theorem handleDesync_cfg : s.handleDesync.cfg = s.cfg := rfl
@[simp] theorem handleDesync_unset : s.handleDesync.unset = s.unset := rfl
@[simp] theorem handleDesync_impIndex : s.handleDesync.impIndex = s.impIndex := rfl
@[simp] theorem handleDesync_circ : s.handleDesync.circ = s.circ := rfl
@[simp] theorem handleDesync_corr : s.handleDesync.corr = s.corr := rfl
@[simp] theorem handleDesync_ing0 : s.handleDesync.ing0 = s.ing0 := rfl
@[simp] theorem handleDesync_ing1 : s.handleDesync.ing1 = s.ing1 := rfl
@[simp] theorem handleDesync_sa : s.handleDesync.sa = s.sa := rfl
@[simp] theorem handleDesync_spec : s.handleDesync.spec = s.spec := rfl
@[simp] theorem handleDesync_imp : s.handleDesync.imp = s.imp := rfl
@[simp] theorem handleDesync_impPrev : s.handleDesync.impPrev = none := rfl
@[simp] theorem handleDesync_zf : s.handleDesync.zf = s.zf := rfl
@[simp] theorem handleDesync_out : s.handleDesync.out = s.out := rfl
@[simp] theorem handleDesync_samples : s.handleDesync.samples = s.samples := rfl
@[simp] theorem handleDesync_rdData : s.handleDesync.rdData = s.rdData := rfl
@[simp] theorem handleDesync_frData : s.handleDesync.frData = s.frData := rfl
@[simp] theorem handleDesync_cur : s.handleDesync.cur = s.cur := rfl
@[simp] theorem handleDesync_turns : s.handleDesync.turns = s.turns := rfl
@[simp] theorem handleDesync_tick : s.handleDesync.tick = s.tick := rfl
@[simp] theorem handleDesync_row : s.handleDesync.row = s.row := rfl
@[simp] theorem handleDesync_par : s.handleDesync.par = s.par := rfl
@[simp] theorem handleDesync_K : s.handleDesync.K = s.K := rfl
@[simp] theorem handleDesync_D : s.handleDesync.D = s.D := rfl
@[simp] theorem handleDesync_T : s.handleDesync.T = s.T := rfl

@[simp] theorem setFlag_modes (x : Barrier) (v : Bool) : (s.setFlag x v).modes = s.modes := by cases x <;> rfl
@[simp] theorem setFlag_acqState (x : Barrier) (v : Bool) : (s.setFlag x v).acqState = s.acqState := by cases x <;> rfl
@[simp] theorem setFlag_acqSub (x : Barrier) (v : Bool) : (s.setFlag x v).acqSub = s.acqSub := by cases x <;> rfl
@[simp] theorem setFlag_coPc (x : Barrier) (v : Bool) : (s.setFlag x v).coPc = s.coPc := by cases x <;> rfl
@[simp] theorem setFlag_ingDivert (x : Barrier) (v : Bool) : (s.setFlag x v).ingDivert = s.ingDivert := by cases x <;> rfl
@[simp] theorem setFlag_coDivert (x : Barrier) (v : Bool) : (s.setFlag x v).coDivert = s.coDivert := by cases x <;> rfl
@[simp] theorem setFlag_fCoarse (x : Barrier) (v : Bool) : (s.setFlag x v).fCoarse = s.fCoarse := by cases x <;> rfl
@[simp] theorem setFlag_fFine (x : Barrier) (v : Bool) : (s.setFlag x v).fFine = s.fFine := by cases x <;> rfl
@[simp] theorem setFlag_fSnap (x : Barrier) (v : Bool) : (s.setFlag x v).fSnap = s.fSnap := by cases x <;> rfl
@[simp] theorem setFlag_isFound (x : Barrier) (v : Bool) : (s.setFlag x v).isFound = s.isFound := by cases x <;> rfl
@[simp] theorem setFlag_fineTimeOffset (x : Barrier) (v : Bool) : (s.setFlag x v).fineTimeOffset = s.fineTimeOffset := by cases x <;> rfl
@[simp] theorem setFlag_l1Avg (x : Barrier) (v : Bool) : (s.setFlag x v).l1Avg = s.l1Avg := by cases x <;> rfl
@[simp] theorem setFlag_l1Acc (x : Barrier) (v : Bool) : (s.setFlag x v).l1Acc = s.l1Acc := by cases x <;> rfl
@[simp] theorem setFlag_l1Cnt (x : Barrier) (v : Bool) : (s.setFlag x v).l1Cnt = s.l1Cnt := by cases x <;> rfl
@[simp] theorem setFlag_l1Win (x : Barrier) (v : Bool) : (s.setFlag x v).l1Win = s.l1Win := by cases x <;> rfl
@[simp] theorem setFlag_l1Last (x : Barrier) (v : Bool) : (s.setFlag x v).l1Last = s.l1Last := by cases x <;> rfl
@[simp] theorem setFlag_nullStart (x : Barrier) (v : Bool) : (s.setFlag x v).nullStart = s.nullStart := by cases x <;> rfl
@[simp] theorem setFlag_nullEnd (x : Barrier) (v : Bool) : (s.setFlag x v).nullEnd = s.nullEnd := by cases x <;> rfl
@[simp] theorem setFlag_circWr (x : Barrier) (v : Bool) : (s.setFlag x v).circWr = s.circWr := by cases x <;> rfl
@[simp] theorem setFlag_corrLen (x : Barrier) (v : Bool) : (s.setFlag x v).corrLen = s.corrLen := by cases x <;> rfl
@[simp] theorem setFlag_ingLen (x : Barrier) (v : Bool) : (s.setFlag x v).ingLen = s.ingLen := by cases x <;> rfl
@[simp] theorem setFlag_peakOff (x : Barrier) (v : Bool) : (s.setFlag x v).peakOff = s.peakOff := by cases x <;> rfl
@[simp] theorem setFlag_impK (x : Barrier) (v : Bool) : (s.setFlag x v).impK = s.impK := by cases x <;> rfl
@[simp] theorem setFlag_impW (x : Barrier) (v : Bool) : (s.setFlag x v).impW = s.impW := by cases x <;> rfl
@[simp] theorem setFlag_impMu (x : Barrier) (v : Bool) : (s.setFlag x v).impMu = s.impMu := by cases x <;> rfl
@[simp] theorem setFlag_sel (x : Barrier) (v : Bool) : (s.setFlag x v).sel = s.sel := by cases x <;> rfl
@[simp] theorem setFlag_framesRead (x : Barrier) (v : Bool) : (s.setFlag x v).framesRead = s.framesRead := by cases x <;> rfl
@[simp] theorem setFlag_framesDesync (x : Barrier) (v : Bool) : (s.setFlag x v).framesDesync = s.framesDesync := by cases x <;> rfl
@[simp] theorem setFlag_en (x : Barrier) (v : Bool) : (s.setFlag x v).en = s.en := by cases x <;> rfl
@[simp] theorem setFlag_stop (x : Barrier) (v : Bool) : (s.setFlag x v).stop = s.stop := by cases x <;> rfl
@[simp] theorem setFlag_ingHalted (x : Barrier) (v : Bool) : (s.setFlag x v).ingHalted = s.ingHalted := by cases x <;> rfl
@[simp] theorem setFlag_coHalted (x : Barrier) (v : Bool) : (s.setFlag x v).coHalted = s.coHalted := by cases x <;> rfl
@[simp] theorem setFlag_psiAvg (x : Barrier) (v : Bool) : (s.setFlag x v).psiAvg = s.psiAvg := by cases x <;> rfl
@[simp] theorem setFlag_frameValid (x : Barrier) (v : Bool) : (s.setFlag x v).frameValid = s.frameValid := by cases x <;> rfl
@[simp] theorem setFlag_emitArmed (x : Barrier) (v : Bool) : (s.setFlag x v).emitArmed = s.emitArmed := by cases x <;> rfl
@[simp] theorem setFlag_cfg (x : Barrier) (v : Bool) : (s.setFlag x v).cfg = s.cfg := by cases x <;> rfl
@[simp] theorem setFlag_unset (x : Barrier) (v : Bool) : (s.setFlag x v).unset = s.unset := by cases x <;> rfl
@[simp] theorem setFlag_impIndex (x : Barrier) (v : Bool) : (s.setFlag x v).impIndex = s.impIndex := by cases x <;> rfl
@[simp] theorem setFlag_circ (x : Barrier) (v : Bool) : (s.setFlag x v).circ = s.circ := by cases x <;> rfl
@[simp] theorem setFlag_corr (x : Barrier) (v : Bool) : (s.setFlag x v).corr = s.corr := by cases x <;> rfl
@[simp] theorem setFlag_ing0 (x : Barrier) (v : Bool) : (s.setFlag x v).ing0 = s.ing0 := by cases x <;> rfl
@[simp] theorem setFlag_ing1 (x : Barrier) (v : Bool) : (s.setFlag x v).ing1 = s.ing1 := by cases x <;> rfl
@[simp] theorem setFlag_sa (x : Barrier) (v : Bool) : (s.setFlag x v).sa = s.sa := by cases x <;> rfl
@[simp] theorem setFlag_spec (x : Barrier) (v : Bool) : (s.setFlag x v).spec = s.spec := by cases x <;> rfl
@[simp] theorem setFlag_imp (x : Barrier) (v : Bool) : (s.setFlag x v).imp = s.imp := by cases x <;> rfl
@[simp] theorem setFlag_impPrev (x : Barrier) (v : Bool) : (s.setFlag x v).impPrev = s.impPrev := by cases x <;> rfl
@[simp] theorem setFlag_zf (x : Barrier) (v : Bool) : (s.setFlag x v).zf = s.zf := by cases x <;> rfl
@[simp] theorem setFlag_out (x : Barrier) (v : Bool) : (s.setFlag x v).out = s.out := by cases x <;> rfl
@[simp] theorem setFlag_samples (x : Barrier) (v : Bool) : (s.setFlag x v).samples = s.samples := by cases x <;> rfl
@[simp] theorem setFlag_rdData (x : Barrier) (v : Bool) : (s.setFlag x v).rdData = s.rdData := by cases x <;> rfl
@[simp] theorem setFlag_frData (x : Barrier) (v : Bool) : (s.setFlag x v).frData = s.frData := by cases x <;> rfl
@[simp] theorem setFlag_cur (x : Barrier) (v : Bool) : (s.setFlag x v).cur = s.cur := by cases x <;> rfl
@[simp] theorem setFlag_turns (x : Barrier) (v : Bool) : (s.setFlag x v).turns = s.turns := by cases x <;> rfl
@[simp] theorem setFlag_tick (x : Barrier) (v : Bool) : (s.setFlag x v).tick = s.tick := by cases x <;> rfl
@[simp] theorem setFlag_row (x : Barrier) (v : Bool) : (s.setFlag x v).row = s.row := by cases x <;> rfl
@[simp] theorem setFlag_par (x : Barrier) (v : Bool) : (s.setFlag x v).par = s.par := by cases x <;> rfl
@[simp] theorem setFlag_K (x : Barrier) (v : Bool) : (s.setFlag x v).K = s.K := by cases x <;> rfl
@[simp] theorem setFlag_D (x : Barrier) (v : Bool) : (s.setFlag x v).D = s.D := by cases x <;> rfl
@[simp] theorem setFlag_T (x : Barrier) (v : Bool) : (s.setFlag x v).T = s.T := by cases x <;> simp [State.T, State.setFlag, State.setWk]

@[simp] theorem leavePhase_modes (x : Barrier) : (s.leavePhase x).modes = s.modes := by cases x <;> rfl
@[simp] theorem leavePhase_acqState (x : Barrier) : (s.leavePhase x).acqState = s.acqState := by cases x <;> rfl
@[simp] theorem leavePhase_acqSub (x : Barrier) : (s.leavePhase x).acqSub = s.acqSub := by cases x <;> rfl
@[simp] theorem leavePhase_coPc (x : Barrier) : (s.leavePhase x).coPc = s.coPc := by cases x <;> rfl
@[simp] theorem leavePhase_ingDivert (x : Barrier) : (s.leavePhase x).ingDivert = s.ingDivert := by cases x <;> rfl
@[simp] theorem leavePhase_coDivert (x : Barrier) : (s.leavePhase x).coDivert = s.coDivert := by cases x <;> rfl
@[simp] theorem leavePhase_fCoarse (x : Barrier) : (s.leavePhase x).fCoarse = s.fCoarse := by cases x <;> rfl
@[simp] theorem leavePhase_fFine (x : Barrier) : (s.leavePhase x).fFine = s.fFine := by cases x <;> rfl
@[simp] theorem leavePhase_fSnap (x : Barrier) : (s.leavePhase x).fSnap = s.fSnap := by cases x <;> rfl
@[simp] theorem leavePhase_isFound (x : Barrier) : (s.leavePhase x).isFound = s.isFound := by cases x <;> rfl
@[simp] theorem leavePhase_fineTimeOffset (x : Barrier) : (s.leavePhase x).fineTimeOffset = s.fineTimeOffset := by cases x <;> rfl
@[simp] theorem leavePhase_l1Avg (x : Barrier) : (s.leavePhase x).l1Avg = s.l1Avg := by cases x <;> rfl
@[simp] theorem leavePhase_l1Acc (x : Barrier) : (s.leavePhase x).l1Acc = s.l1Acc := by cases x <;> rfl
@[simp] theorem leavePhase_l1Cnt (x : Barrier) : (s.leavePhase x).l1Cnt = s.l1Cnt := by cases x <;> rfl
@[simp] theorem leavePhase_l1Win (x : Barrier) : (s.leavePhase x).l1Win = s.l1Win := by cases x <;> rfl
@[simp] theorem leavePhase_l1Last (x : Barrier) : (s.leavePhase x).l1Last = s.l1Last := by cases x <;> rfl
@[simp] theorem leavePhase_nullStart (x : Barrier) : (s.leavePhase x).nullStart = s.nullStart := by cases x <;> rfl
@[simp] theorem leavePhase_nullEnd (x : Barrier) : (s.leavePhase x).nullEnd = s.nullEnd := by cases x <;> rfl
@[simp] theorem leavePhase_circWr (x : Barrier) : (s.leavePhase x).circWr = s.circWr := by cases x <;> rfl
@[simp] theorem leavePhase_corrLen (x : Barrier) : (s.leavePhase x).corrLen = s.corrLen := by cases x <;> rfl
@[simp] theorem leavePhase_ingLen (x : Barrier) : (s.leavePhase x).ingLen = s.ingLen := by cases x <;> rfl
@[simp] theorem leavePhase_peakOff (x : Barrier) : (s.leavePhase x).peakOff = s.peakOff := by cases x <;> rfl
@[simp] theorem leavePhase_impK (x : Barrier) : (s.leavePhase x).impK = s.impK := by cases x <;> rfl
@[simp] theorem leavePhase_impW (x : Barrier) : (s.leavePhase x).impW = s.impW := by cases x <;> rfl
@[simp] theorem leavePhase_impMu (x : Barrier) : (s.leavePhase x).impMu = s.impMu := by cases x <;> rfl
@[simp] theorem leavePhase_sel (x : Barrier) : (s.leavePhase x).sel = s.sel := by cases x <;> rfl
@[simp] theorem leavePhase_framesRead (x : Barrier) : (s.leavePhase x).framesRead = s.framesRead := by cases x <;> rfl
@[simp] theorem leavePhase_framesDesync (x : Barrier) : (s.leavePhase x).framesDesync = s.framesDesync := by cases x <;> rfl
@[simp] theorem leavePhase_en (x : Barrier) : (s.leavePhase x).en = s.en := by cases x <;> rfl
@[simp] theorem leavePhase_stop (x : Barrier) : (s.leavePhase x).stop = s.stop := by cases x <;> rfl
@[simp] theorem leavePhase_ingHalted (x : Barrier) : (s.leavePhase x).ingHalted = s.ingHalted := by cases x <;> rfl
@[simp] theorem leavePhase_coHalted (x : Barrier) : (s.leavePhase x).coHalted = s.coHalted := by cases x <;> rfl
@[simp] theorem leavePhase_psiAvg (x : Barrier) : (s.leavePhase x).psiAvg = s.psiAvg := by cases x <;> rfl
@[simp] theorem leavePhase_frameValid (x : Barrier) : (s.leavePhase x).frameValid = s.frameValid := by cases x <;> rfl
@[simp] theorem leavePhase_emitArmed (x : Barrier) : (s.leavePhase x).emitArmed = s.emitArmed := by cases x <;> rfl
@[simp] theorem leavePhase_cs (x : Barrier) : (s.leavePhase x).cs = s.cs := by cases x <;> rfl
@[simp] theorem leavePhase_ce (x : Barrier) : (s.leavePhase x).ce = s.ce := by cases x <;> rfl
@[simp] theorem leavePhase_cfg (x : Barrier) : (s.leavePhase x).cfg = s.cfg := by cases x <;> rfl
@[simp] theorem leavePhase_unset (x : Barrier) : (s.leavePhase x).unset = s.unset := by cases x <;> rfl
@[simp] theorem leavePhase_impIndex (x : Barrier) : (s.leavePhase x).impIndex = s.impIndex := by cases x <;> rfl
@[simp] theorem leavePhase_circ (x : Barrier) : (s.leavePhase x).circ = s.circ := by cases x <;> rfl
@[simp] theorem leavePhase_corr (x : Barrier) : (s.leavePhase x).corr = s.corr := by cases x <;> rfl
@[simp] theorem leavePhase_ing0 (x : Barrier) : (s.leavePhase x).ing0 = s.ing0 := by cases x <;> rfl
@[simp] theorem leavePhase_ing1 (x : Barrier) : (s.leavePhase x).ing1 = s.ing1 := by cases x <;> rfl
@[simp] theorem leavePhase_sa (x : Barrier) : (s.leavePhase x).sa = s.sa := by cases x <;> rfl
@[simp] theorem leavePhase_spec (x : Barrier) : (s.leavePhase x).spec = s.spec := by cases x <;> rfl
@[simp] theorem leavePhase_imp (x : Barrier) : (s.leavePhase x).imp = s.imp := by cases x <;> rfl
@[simp] theorem leavePhase_impPrev (x : Barrier) : (s.leavePhase x).impPrev = s.impPrev := by cases x <;> rfl
@[simp] theorem leavePhase_zf (x : Barrier) : (s.leavePhase x).zf = s.zf := by cases x <;> rfl
@[simp] theorem leavePhase_out (x : Barrier) : (s.leavePhase x).out = s.out := by cases x <;> rfl
@[simp] theorem leavePhase_samples (x : Barrier) : (s.leavePhase x).samples = s.samples := by cases x <;> rfl
@[simp] theorem leavePhase_rdData (x : Barrier) : (s.leavePhase x).rdData = s.rdData := by cases x <;> rfl
@[simp] theorem leavePhase_frData (x : Barrier) : (s.leavePhase x).frData = s.frData := by cases x <;> rfl
@[simp] theorem leavePhase_cur (x : Barrier) : (s.leavePhase x).cur = s.cur := by cases x <;> rfl
@[simp] theorem leavePhase_turns (x : Barrier) : (s.leavePhase x).turns = s.turns := by cases x <;> rfl
@[simp] theorem leavePhase_tick (x : Barrier) : (s.leavePhase x).tick = s.tick := by cases x <;> rfl
@[simp] theorem leavePhase_row (x : Barrier) : (s.leavePhase x).row = s.row := by cases x <;> rfl
@[simp] theorem leavePhase_par (x : Barrier) : (s.leavePhase x).par = s.par := by cases x <;> rfl
@[simp] theorem leavePhase_K (x : Barrier) : (s.leavePhase x).K = s.K := by cases x <;> rfl
@[simp] theorem leavePhase_D (x : Barrier) : (s.leavePhase x).D = s.D := by cases x <;> rfl
@[simp] theorem leavePhase_T (x : Barrier) : (s.leavePhase x).T = s.T := by cases x <;> simp [State.T, State.leavePhase, State.setWk]

@[simp] theorem enterPhase_modes (x : Barrier) : (s.enterPhase x).modes = s.modes := by cases x <;> rfl
@[simp] theorem enterPhase_acqState (x : Barrier) : (s.enterPhase x).acqState = s.acqState := by cases x <;> rfl
@[simp] theorem enterPhase_acqSub (x : Barrier) : (s.enterPhase x).acqSub = s.acqSub := by cases x <;> rfl
@[simp] theorem enterPhase_coPc (x : Barrier) : (s.enterPhase x).coPc = s.coPc := by cases x <;> rfl
@[simp] theorem enterPhase_ingDivert (x : Barrier) : (s.enterPhase x).ingDivert = s.ingDivert := by cases x <;> rfl
@[simp] theorem enterPhase_coDivert (x : Barrier) : (s.enterPhase x).coDivert = s.coDivert := by cases x <;> rfl
@[simp] theorem enterPhase_fCoarse (x : Barrier) : (s.enterPhase x).fCoarse = s.fCoarse := by cases x <;> rfl
@[simp] theorem enterPhase_fFine (x : Barrier) : (s.enterPhase x).fFine = s.fFine := by cases x <;> rfl
@[simp] theorem enterPhase_fSnap (x : Barrier) : (s.enterPhase x).fSnap = s.fSnap := by cases x <;> rfl
@[simp] theorem enterPhase_isFound (x : Barrier) : (s.enterPhase x).isFound = s.isFound := by cases x <;> rfl
@[simp] theorem enterPhase_fineTimeOffset (x : Barrier) : (s.enterPhase x).fineTimeOffset = s.fineTimeOffset := by cases x <;> rfl
@[simp] theorem enterPhase_l1Avg (x : Barrier) : (s.enterPhase x).l1Avg = s.l1Avg := by cases x <;> rfl
@[simp] theorem enterPhase_l1Acc (x : Barrier) : (s.enterPhase x).l1Acc = s.l1Acc := by cases x <;> rfl
@[simp] theorem enterPhase_l1Cnt (x : Barrier) : (s.enterPhase x).l1Cnt = s.l1Cnt := by cases x <;> rfl
@[simp] theorem enterPhase_l1Win (x : Barrier) : (s.enterPhase x).l1Win = s.l1Win := by cases x <;> rfl
@[simp] theorem enterPhase_l1Last (x : Barrier) : (s.enterPhase x).l1Last = s.l1Last := by cases x <;> rfl
@[simp] theorem enterPhase_nullStart (x : Barrier) : (s.enterPhase x).nullStart = s.nullStart := by cases x <;> rfl
@[simp] theorem enterPhase_nullEnd (x : Barrier) : (s.enterPhase x).nullEnd = s.nullEnd := by cases x <;> rfl
@[simp] theorem enterPhase_circWr (x : Barrier) : (s.enterPhase x).circWr = s.circWr := by cases x <;> rfl
@[simp] theorem enterPhase_corrLen (x : Barrier) : (s.enterPhase x).corrLen = s.corrLen := by cases x <;> rfl
@[simp] theorem enterPhase_ingLen (x : Barrier) : (s.enterPhase x).ingLen = s.ingLen := by cases x <;> rfl
@[simp] theorem enterPhase_peakOff (x : Barrier) : (s.enterPhase x).peakOff = s.peakOff := by cases x <;> rfl
@[simp] theorem enterPhase_impK (x : Barrier) : (s.enterPhase x).impK = s.impK := by cases x <;> rfl
@[simp] theorem enterPhase_impW (x : Barrier) : (s.enterPhase x).impW = s.impW := by cases x <;> rfl
@[simp] theorem enterPhase_impMu (x : Barrier) : (s.enterPhase x).impMu = s.impMu := by cases x <;> rfl
@[simp] theorem enterPhase_sel (x : Barrier) : (s.enterPhase x).sel = s.sel := by cases x <;> rfl
@[simp] theorem enterPhase_framesRead (x : Barrier) : (s.enterPhase x).framesRead = s.framesRead := by cases x <;> rfl
@[simp] theorem enterPhase_framesDesync (x : Barrier) : (s.enterPhase x).framesDesync = s.framesDesync := by cases x <;> rfl
@[simp] theorem enterPhase_en (x : Barrier) : (s.enterPhase x).en = s.en := by cases x <;> rfl
@[simp] theorem enterPhase_stop (x : Barrier) : (s.enterPhase x).stop = s.stop := by cases x <;> rfl
@[simp] theorem enterPhase_ingHalted (x : Barrier) : (s.enterPhase x).ingHalted = s.ingHalted := by cases x <;> rfl
@[simp] theorem enterPhase_coHalted (x : Barrier) : (s.enterPhase x).coHalted = s.coHalted := by cases x <;> rfl
@[simp] theorem enterPhase_psiAvg (x : Barrier) : (s.enterPhase x).psiAvg = s.psiAvg := by cases x <;> rfl
@[simp] theorem enterPhase_frameValid (x : Barrier) : (s.enterPhase x).frameValid = s.frameValid := by cases x <;> rfl
@[simp] theorem enterPhase_emitArmed (x : Barrier) : (s.enterPhase x).emitArmed = s.emitArmed := by cases x <;> rfl
@[simp] theorem enterPhase_cs (x : Barrier) : (s.enterPhase x).cs = s.cs := by cases x <;> rfl
@[simp] theorem enterPhase_ce (x : Barrier) : (s.enterPhase x).ce = s.ce := by cases x <;> rfl
@[simp] theorem enterPhase_cfg (x : Barrier) : (s.enterPhase x).cfg = s.cfg := by cases x <;> rfl
@[simp] theorem enterPhase_unset (x : Barrier) : (s.enterPhase x).unset = s.unset := by cases x <;> rfl
@[simp] theorem enterPhase_impIndex (x : Barrier) : (s.enterPhase x).impIndex = s.impIndex := by cases x <;> rfl
@[simp] theorem enterPhase_circ (x : Barrier) : (s.enterPhase x).circ = s.circ := by cases x <;> rfl
@[simp] theorem enterPhase_corr (x : Barrier) : (s.enterPhase x).corr = s.corr := by cases x <;> rfl
@[simp] theorem enterPhase_ing0 (x : Barrier) : (s.enterPhase x).ing0 = s.ing0 := by cases x <;> rfl
@[simp] theorem enterPhase_ing1 (x : Barrier) : (s.enterPhase x).ing1 = s.ing1 := by cases x <;> rfl
@[simp] theorem enterPhase_sa (x : Barrier) : (s.enterPhase x).sa = s.sa := by cases x <;> rfl
@[simp] theorem enterPhase_spec (x : Barrier) : (s.enterPhase x).spec = s.spec := by cases x <;> rfl
@[simp] theorem enterPhase_imp (x : Barrier) : (s.enterPhase x).imp = s.imp := by cases x <;> rfl
@[simp] theorem enterPhase_impPrev (x : Barrier) : (s.enterPhase x).impPrev = s.impPrev := by cases x <;> rfl
@[simp] theorem enterPhase_zf (x : Barrier) : (s.enterPhase x).zf = s.zf := by cases x <;> rfl
@[simp] theorem enterPhase_out (x : Barrier) : (s.enterPhase x).out = s.out := by cases x <;> rfl
@[simp] theorem enterPhase_samples (x : Barrier) : (s.enterPhase x).samples = s.samples := by cases x <;> rfl
@[simp] theorem enterPhase_rdData (x : Barrier) : (s.enterPhase x).rdData = s.rdData := by cases x <;> rfl
@[simp] theorem enterPhase_frData (x : Barrier) : (s.enterPhase x).frData = s.frData := by cases x <;> rfl
@[simp] theorem enterPhase_cur (x : Barrier) : (s.enterPhase x).cur = s.cur := by cases x <;> rfl
@[simp] theorem enterPhase_turns (x : Barrier) : (s.enterPhase x).turns = s.turns := by cases x <;> rfl
@[simp] theorem enterPhase_tick (x : Barrier) : (s.enterPhase x).tick = s.tick := by cases x <;> rfl
@[simp] theorem enterPhase_row (x : Barrier) : (s.enterPhase x).row = s.row := by cases x <;> rfl
@[simp] theorem enterPhase_par (x : Barrier) : (s.enterPhase x).par = s.par := by cases x <;> rfl
@[simp] theorem enterPhase_K (x : Barrier) : (s.enterPhase x).K = s.K := by cases x <;> rfl
@[simp] theorem enterPhase_D (x : Barrier) : (s.enterPhase x).D = s.D := by cases x <;> rfl
@[simp] theorem enterPhase_T (x : Barrier) : (s.enterPhase x).T = s.T := by cases x <;> simp [State.T, State.enterPhase, State.setWk]

@[simp] theorem setHalted_modes : s.setHalted.modes = s.modes := by unfold State.setHalted; split <;> rfl
@[simp] theorem setHalted_acqState : s.setHalted.acqState = s.acqState := by unfold State.setHalted; split <;> rfl
@[simp] theorem setHalted_acqSub : s.setHalted.acqSub = s.acqSub := by unfold State.setHalted; split <;> rfl
@[simp] theorem setHalted_coPc : s.setHalted.coPc = s.coPc := by unfold State.setHalted; split <;> rfl
@[simp] theorem setHalted_ingDivert : s.setHalted.ingDivert = s.ingDivert := by unfold State.setHalted; split <;> rfl
@[simp] theorem setHalted_coDivert : s.setHalted.coDivert = s.coDivert := by unfold State.setHalted; split <;> rfl
@[simp] theorem setHalted_fCoarse : s.setHalted.fCoarse = s.fCoarse := by unfold State.setHalted; split <;> rfl
@[simp] theorem setHalted_fFine : s.setHalted.fFine = s.fFine := by unfold State.setHalted; split <;> rfl
@[simp] theorem setHalted_fSnap : s.setHalted.fSnap = s.fSnap := by unfold State.setHalted; split <;> rfl
@[simp] theorem setHalted_isFound : s.setHalted.isFound = s.isFound := by unfold State.setHalted; split <;> rfl
@[simp] theorem setHalted_fineTimeOffset : s.setHalted.fineTimeOffset = s.fineTimeOffset := by unfold State.setHalted; split <;> rfl
@[simp] theorem setHalted_l1Avg : s.setHalted.l1Avg = s.l1Avg := by unfold State.setHalted; split <;> rfl
@[simp] theorem setHalted_l1Acc : s.setHalted.l1Acc = s.l1Acc := by unfold State.setHalted; split <;> rfl
@[simp] theorem setHalted_l1Cnt : s.setHalted.l1Cnt = s.l1Cnt := by unfold State.setHalted; split <;> rfl
@[simp] theorem setHalted_l1Win : s.setHalted.l1Win = s.l1Win := by unfold State.setHalted; split <;> rfl
@[simp] theorem setHalted_l1Last : s.setHalted.l1Last = s.l1Last := by unfold State.setHalted; split <;> rfl
@[simp] theorem setHalted_nullStart : s.setHalted.nullStart = s.nullStart := by unfold State.setHalted; split <;> rfl
@[simp] theorem setHalted_nullEnd : s.setHalted.nullEnd = s.nullEnd := by unfold State.setHalted; split <;> rfl
@[simp] theorem setHalted_circWr : s.setHalted.circWr = s.circWr := by unfold State.setHalted; split <;> rfl
@[simp] theorem setHalted_corrLen : s.setHalted.corrLen = s.corrLen := by unfold State.setHalted; split <;> rfl
@[simp] theorem setHalted_ingLen : s.setHalted.ingLen = s.ingLen := by unfold State.setHalted; split <;> rfl
@[simp] theorem setHalted_peakOff : s.setHalted.peakOff = s.peakOff := by unfold State.setHalted; split <;> rfl
@[simp] theorem setHalted_impK : s.setHalted.impK = s.impK := by unfold State.setHalted; split <;> rfl
@[simp] theorem setHalted_impW : s.setHalted.impW = s.impW := by unfold State.setHalted; split <;> rfl
@[simp] theorem setHalted_impMu : s.setHalted.impMu = s.impMu := by unfold State.setHalted; split <;> rfl
@[simp] theorem setHalted_sel : s.setHalted.sel = s.sel := by unfold State.setHalted; split <;> rfl
@[simp] theorem setHalted_framesRead : s.setHalted.framesRead = s.framesRead := by unfold State.setHalted; split <;> rfl
@[simp] theorem setHalted_framesDesync : s.setHalted.framesDesync = s.framesDesync := by unfold State.setHalted; split <;> rfl
@[simp] theorem setHalted_en : s.setHalted.en = s.en := by unfold State.setHalted; split <;> rfl
@[simp] theorem setHalted_stop : s.setHalted.stop = s.stop := by unfold State.setHalted; split <;> rfl
@[simp] theorem setHalted_psiAvg : s.setHalted.psiAvg = s.psiAvg := by unfold State.setHalted; split <;> rfl
@[simp] theorem setHalted_frameValid : s.setHalted.frameValid = s.frameValid := by unfold State.setHalted; split <;> rfl
@[simp] theorem setHalted_emitArmed : s.setHalted.emitArmed = s.emitArmed := by unfold State.setHalted; split <;> rfl
@[simp] theorem setHalted_cs : s.setHalted.cs = s.cs := by unfold State.setHalted; split <;> rfl
@[simp] theorem setHalted_ce : s.setHalted.ce = s.ce := by unfold State.setHalted; split <;> rfl
@[simp] theorem setHalted_cfg : s.setHalted.cfg = s.cfg := by unfold State.setHalted; split <;> rfl
@[simp] theorem setHalted_unset : s.setHalted.unset = s.unset := by unfold State.setHalted; split <;> rfl
@[simp] theorem setHalted_impIndex : s.setHalted.impIndex = s.impIndex := by unfold State.setHalted; split <;> rfl
@[simp] theorem setHalted_circ : s.setHalted.circ = s.circ := by unfold State.setHalted; split <;> rfl
@[simp] theorem setHalted_corr : s.setHalted.corr = s.corr := by unfold State.setHalted; split <;> rfl
@[simp] theorem setHalted_ing0 : s.setHalted.ing0 = s.ing0 := by unfold State.setHalted; split <;> rfl
@[simp] theorem setHalted_ing1 : s.setHalted.ing1 = s.ing1 := by unfold State.setHalted; split <;> rfl
@[simp] theorem setHalted_sa : s.setHalted.sa = s.sa := by unfold State.setHalted; split <;> rfl
@[simp] theorem setHalted_spec : s.setHalted.spec = s.spec := by unfold State.setHalted; split <;> rfl
@[simp] theorem setHalted_imp : s.setHalted.imp = s.imp := by unfold State.setHalted; split <;> rfl
@[simp] theorem setHalted_impPrev : s.setHalted.impPrev = s.impPrev := by unfold State.setHalted; split <;> rfl
@[simp] theorem setHalted_zf : s.setHalted.zf = s.zf := by unfold State.setHalted; split <;> rfl
@[simp] theorem setHalted_out : s.setHalted.out = s.out := by unfold State.setHalted; split <;> rfl
@[simp] theorem setHalted_samples : s.setHalted.samples = s.samples := by unfold State.setHalted; split <;> rfl
@[simp] theorem setHalted_rdData : s.setHalted.rdData = s.rdData := by unfold State.setHalted; split <;> rfl
@[simp] theorem setHalted_frData : s.setHalted.frData = s.frData := by unfold State.setHalted; split <;> rfl
@[simp] theorem setHalted_cur : s.setHalted.cur = s.cur := by unfold State.setHalted; split <;> rfl
@[simp] theorem setHalted_turns : s.setHalted.turns = s.turns := by unfold State.setHalted; split <;> rfl
@[simp] theorem setHalted_tick : s.setHalted.tick = s.tick := by unfold State.setHalted; split <;> rfl
@[simp] theorem setHalted_row : s.setHalted.row = s.row := by unfold State.setHalted; split <;> rfl
@[simp] theorem setHalted_par : s.setHalted.par = s.par := by unfold State.setHalted; split <;> rfl
@[simp] theorem setHalted_K : s.setHalted.K = s.K := by unfold State.setHalted; split <;> rfl
@[simp] theorem setHalted_D : s.setHalted.D = s.D := by unfold State.setHalted; split <;> rfl
@[simp] theorem setHalted_T : s.setHalted.T = s.T := by unfold State.T State.setHalted; split <;> simp [State.setWk]

@[simp] theorem setStopped_modes : s.setStopped.modes = s.modes := by unfold State.setStopped; split <;> rfl
@[simp] theorem setStopped_acqState : s.setStopped.acqState = s.acqState := by unfold State.setStopped; split <;> rfl
@[simp] theorem setStopped_acqSub : s.setStopped.acqSub = s.acqSub := by unfold State.setStopped; split <;> rfl
@[simp] theorem setStopped_coPc : s.setStopped.coPc = s.coPc := by unfold State.setStopped; split <;> rfl
@[simp] theorem setStopped_fCoarse : s.setStopped.fCoarse = s.fCoarse := by unfold State.setStopped; split <;> rfl
@[simp] theorem setStopped_fFine : s.setStopped.fFine = s.fFine := by unfold State.setStopped; split <;> rfl
@[simp] theorem setStopped_fSnap : s.setStopped.fSnap = s.fSnap := by unfold State.setStopped; split <;> rfl
@[simp] theorem setStopped_isFound : s.setStopped.isFound = s.isFound := by unfold State.setStopped; split <;> rfl
@[simp] theorem setStopped_fineTimeOffset : s.setStopped.fineTimeOffset = s.fineTimeOffset := by unfold State.setStopped; split <;> rfl
@[simp] theorem setStopped_l1Avg : s.setStopped.l1Avg = s.l1Avg := by unfold State.setStopped; split <;> rfl
@[simp] theorem setStopped_l1Acc : s.setStopped.l1Acc = s.l1Acc := by unfold State.setStopped; split <;> rfl
@[simp] theorem setStopped_l1Cnt : s.setStopped.l1Cnt = s.l1Cnt := by unfold State.setStopped; split <;> rfl
@[simp] theorem setStopped_l1Win : s.setStopped.l1Win = s.l1Win := by unfold State.setStopped; split <;> rfl
@[simp] theorem setStopped_l1Last : s.setStopped.l1Last = s.l1Last := by unfold State.setStopped; split <;> rfl
@[simp] theorem setStopped_nullStart : s.setStopped.nullStart = s.nullStart := by unfold State.setStopped; split <;> rfl
@[simp] theorem setStopped_nullEnd : s.setStopped.nullEnd = s.nullEnd := by unfold State.setStopped; split <;> rfl
@[simp] theorem setStopped_circWr : s.setStopped.circWr = s.circWr := by unfold State.setStopped; split <;> rfl
@[simp] theorem setStopped_corrLen : s.setStopped.corrLen = s.corrLen := by unfold State.setStopped; split <;> rfl
@[simp] theorem setStopped_ingLen : s.setStopped.ingLen = s.ingLen := by unfold State.setStopped; split <;> rfl
@[simp] theorem setStopped_peakOff : s.setStopped.peakOff = s.peakOff := by unfold State.setStopped; split <;> rfl
@[simp] theorem setStopped_impK : s.setStopped.impK = s.impK := by unfold State.setStopped; split <;> rfl
@[simp] theorem setStopped_impW : s.setStopped.impW = s.impW := by unfold State.setStopped; split <;> rfl
@[simp] theorem setStopped_impMu : s.setStopped.impMu = s.impMu := by unfold State.setStopped; split <;> rfl
@[simp] theorem setStopped_sel : s.setStopped.sel = s.sel := by unfold State.setStopped; split <;> rfl
@[simp] theorem setStopped_framesRead : s.setStopped.framesRead = s.framesRead := by unfold State.setStopped; split <;> rfl
@[simp] theorem setStopped_framesDesync : s.setStopped.framesDesync = s.framesDesync := by unfold State.setStopped; split <;> rfl
@[simp] theorem setStopped_en : s.setStopped.en = s.en := by unfold State.setStopped; split <;> rfl
@[simp] theorem setStopped_stop : s.setStopped.stop = s.stop := by unfold State.setStopped; split <;> rfl
@[simp] theorem setStopped_ingHalted : s.setStopped.ingHalted = s.ingHalted := by unfold State.setStopped; split <;> rfl
@[simp] theorem setStopped_coHalted : s.setStopped.coHalted = s.coHalted := by unfold State.setStopped; split <;> rfl
@[simp] theorem setStopped_psiAvg : s.setStopped.psiAvg = s.psiAvg := by unfold State.setStopped; split <;> rfl
@[simp] theorem setStopped_frameValid : s.setStopped.frameValid = s.frameValid := by unfold State.setStopped; split <;> rfl
@[simp] theorem setStopped_emitArmed : s.setStopped.emitArmed = s.emitArmed := by unfold State.setStopped; split <;> rfl
@[simp] theorem setStopped_cs : s.setStopped.cs = s.cs := by unfold State.setStopped; split <;> rfl
@[simp] theorem setStopped_ce : s.setStopped.ce = s.ce := by unfold State.setStopped; split <;> rfl
@[simp] theorem setStopped_cfg : s.setStopped.cfg = s.cfg := by unfold State.setStopped; split <;> rfl
@[simp] theorem setStopped_unset : s.setStopped.unset = s.unset := by unfold State.setStopped; split <;> rfl
@[simp] theorem setStopped_impIndex : s.setStopped.impIndex = s.impIndex := by unfold State.setStopped; split <;> rfl
@[simp] theorem setStopped_circ : s.setStopped.circ = s.circ := by unfold State.setStopped; split <;> rfl
@[simp] theorem setStopped_corr : s.setStopped.corr = s.corr := by unfold State.setStopped; split <;> rfl
@[simp] theorem setStopped_ing0 : s.setStopped.ing0 = s.ing0 := by unfold State.setStopped; split <;> rfl
@[simp] theorem setStopped_ing1 : s.setStopped.ing1 = s.ing1 := by unfold State.setStopped; split <;> rfl
@[simp] theorem setStopped_sa : s.setStopped.sa = s.sa := by unfold State.setStopped; split <;> rfl
@[simp] theorem setStopped_spec : s.setStopped.spec = s.spec := by unfold State.setStopped; split <;> rfl
@[simp] theorem setStopped_imp : s.setStopped.imp = s.imp := by unfold State.setStopped; split <;> rfl
@[simp] theorem setStopped_impPrev : s.setStopped.impPrev = s.impPrev := by unfold State.setStopped; split <;> rfl
@[simp] theorem setStopped_zf : s.setStopped.zf = s.zf := by unfold State.setStopped; split <;> rfl
@[simp] theorem setStopped_out : s.setStopped.out = s.out := by unfold State.setStopped; split <;> rfl
@[simp] theorem setStopped_samples : s.setStopped.samples = s.samples := by unfold State.setStopped; split <;> rfl
@[simp] theorem setStopped_rdData : s.setStopped.rdData = s.rdData := by unfold State.setStopped; split <;> rfl
@[simp] theorem setStopped_frData : s.setStopped.frData = s.frData := by unfold State.setStopped; split <;> rfl
@[simp] theorem setStopped_cur : s.setStopped.cur = s.cur := by unfold State.setStopped; split <;> rfl
@[simp] theorem setStopped_turns : s.setStopped.turns = s.turns := by unfold State.setStopped; split <;> rfl
@[simp] theorem setStopped_tick : s.setStopped.tick = s.tick := by unfold State.setStopped; split <;> rfl
@[simp] theorem setStopped_row : s.setStopped.row = s.row := by unfold State.setStopped; split <;> rfl
@[simp] theorem setStopped_par : s.setStopped.par = s.par := by unfold State.setStopped; split <;> rfl
@[simp] theorem setStopped_K : s.setStopped.K = s.K := by unfold State.setStopped; split <;> rfl
@[simp] theorem setStopped_D : s.setStopped.D = s.D := by unfold State.setStopped; split <;> rfl
@[simp] theorem setStopped_T : s.setStopped.T = s.T := by unfold State.T State.setStopped; split <;> simp [State.setWk]

@[simp] theorem setXbuf_modes (b : XBuf) (m : Mem Cplx) : (s.setXbuf b m).modes = s.modes := by cases b <;> rfl
@[simp] theorem setXbuf_workers (b : XBuf) (m : Mem Cplx) : (s.setXbuf b m).workers = s.workers := by cases b <;> rfl
@[simp] theorem setXbuf_acqState (b : XBuf) (m : Mem Cplx) : (s.setXbuf b m).acqState = s.acqState := by cases b <;> rfl
@[simp] theorem setXbuf_acqSub (b : XBuf) (m : Mem Cplx) : (s.setXbuf b m).acqSub = s.acqSub := by cases b <;> rfl
@[simp] theorem setXbuf_coPc (b : XBuf) (m : Mem Cplx) : (s.setXbuf b m).coPc = s.coPc := by cases b <;> rfl
@[simp] theorem setXbuf_ingDivert (b : XBuf) (m : Mem Cplx) : (s.setXbuf b m).ingDivert = s.ingDivert := by cases b <;> rfl
@[simp] theorem setXbuf_coDivert (b : XBuf) (m : Mem Cplx) : (s.setXbuf b m).coDivert = s.coDivert := by cases b <;> rfl
@[simp] theorem setXbuf_fCoarse (b : XBuf) (m : Mem Cplx) : (s.setXbuf b m).fCoarse = s.fCoarse := by cases b <;> rfl
@[simp] theorem setXbuf_fFine (b : XBuf) (m : Mem Cplx) : (s.setXbuf b m).fFine = s.fFine := by cases b <;> rfl
@[simp] theorem setXbuf_fSnap (b : XBuf) (m : Mem Cplx) : (s.setXbuf b m).fSnap = s.fSnap := by cases b <;> rfl
@[simp] theorem setXbuf_isFound (b : XBuf) (m : Mem Cplx) : (s.setXbuf b m).isFound = s.isFound := by cases b <;> rfl
@[simp] theorem setXbuf_fineTimeOffset (b : XBuf) (m : Mem Cplx) : (s.setXbuf b m).fineTimeOffset = s.fineTimeOffset := by cases b <;> rfl
@[simp] theorem setXbuf_l1Avg (b : XBuf) (m : Mem Cplx) : (s.setXbuf b m).l1Avg = s.l1Avg := by cases b <;> rfl
@[simp] theorem setXbuf_l1Acc (b : XBuf) (m : Mem Cplx) : (s.setXbuf b m).l1Acc = s.l1Acc := by cases b <;> rfl
@[simp] theorem setXbuf_l1Cnt (b : XBuf) (m : Mem Cplx) : (s.setXbuf b m).l1Cnt = s.l1Cnt := by cases b <;> rfl
@[simp] theorem setXbuf_l1Win (b : XBuf) (m : Mem Cplx) : (s.setXbuf b m).l1Win = s.l1Win := by cases b <;> rfl
@[simp] theorem setXbuf_l1Last (b : XBuf) (m : Mem Cplx) : (s.setXbuf b m).l1Last = s.l1Last := by cases b <;> rfl
@[simp] theorem setXbuf_nullStart (b : XBuf) (m : Mem Cplx) : (s.setXbuf b m).nullStart = s.nullStart := by cases b <;> rfl
@[simp] theorem setXbuf_nullEnd (b : XBuf) (m : Mem Cplx) : (s.setXbuf b m).nullEnd = s.nullEnd := by cases b <;> rfl
@[simp] theorem setXbuf_circWr (b : XBuf) (m : Mem Cplx) : (s.setXbuf b m).circWr = s.circWr := by cases b <;> rfl
@[simp] theorem setXbuf_corrLen (b : XBuf) (m : Mem Cplx) : (s.setXbuf b m).corrLen = s.corrLen := by cases b <;> rfl
@[simp] theorem setXbuf_ingLen (b : XBuf) (m : Mem Cplx) : (s.setXbuf b m).ingLen = s.ingLen := by cases b <;> rfl
@[simp] theorem setXbuf_peakOff (b : XBuf) (m : Mem Cplx) : (s.setXbuf b m).peakOff = s.peakOff := by cases b <;> rfl
@[simp] theorem setXbuf_impK (b : XBuf) (m : Mem Cplx) : (s.setXbuf b m).impK = s.impK := by cases b <;> rfl
@[simp] theorem setXbuf_impW (b : XBuf) (m : Mem Cplx) : (s.setXbuf b m).impW = s.impW := by cases b <;> rfl
@[simp] theorem setXbuf_impMu (b : XBuf) (m : Mem Cplx) : (s.setXbuf b m).impMu = s.impMu := by cases b <;> rfl
@[simp] theorem setXbuf_sel (b : XBuf) (m : Mem Cplx) : (s.setXbuf b m).sel = s.sel := by cases b <;> rfl
@[simp] theorem setXbuf_framesRead (b : XBuf) (m : Mem Cplx) : (s.setXbuf b m).framesRead = s.framesRead := by cases b <;> rfl
@[simp] theorem setXbuf_framesDesync (b : XBuf) (m : Mem Cplx) : (s.setXbuf b m).framesDesync = s.framesDesync := by cases b <;> rfl
@[simp] theorem setXbuf_en (b : XBuf) (m : Mem Cplx) : (s.setXbuf b m).en = s.en := by cases b <;> rfl
@[simp] theorem setXbuf_stop (b : XBuf) (m : Mem Cplx) : (s.setXbuf b m).stop = s.stop := by cases b <;> rfl
@[simp] theorem setXbuf_ingHalted (b : XBuf) (m : Mem Cplx) : (s.setXbuf b m).ingHalted = s.ingHalted := by cases b <;> rfl
@[simp] theorem setXbuf_coHalted (b : XBuf) (m : Mem Cplx) : (s.setXbuf b m).coHalted = s.coHalted := by cases b <;> rfl
@[simp] theorem setXbuf_psiAvg (b : XBuf) (m : Mem Cplx) : (s.setXbuf b m).psiAvg = s.psiAvg := by cases b <;> rfl
@[simp] theorem setXbuf_frameValid (b : XBuf) (m : Mem Cplx) : (s.setXbuf b m).frameValid = s.frameValid := by cases b <;> rfl
@[simp] theorem setXbuf_emitArmed (b : XBuf) (m : Mem Cplx) : (s.setXbuf b m).emitArmed = s.emitArmed := by cases b <;> rfl
@[simp] theorem setXbuf_cs (b : XBuf) (m : Mem Cplx) : (s.setXbuf b m).cs = s.cs := by cases b <;> rfl
@[simp] theorem setXbuf_ce (b : XBuf) (m : Mem Cplx) : (s.setXbuf b m).ce = s.ce := by cases b <;> rfl
@[simp] theorem setXbuf_cfg (b : XBuf) (m : Mem Cplx) : (s.setXbuf b m).cfg = s.cfg := by cases b <;> rfl
@[simp] theorem setXbuf_unset (b : XBuf) (m : Mem Cplx) : (s.setXbuf b m).unset = s.unset := by cases b <;> rfl
@[simp] theorem setXbuf_impIndex (b : XBuf) (m : Mem Cplx) : (s.setXbuf b m).impIndex = s.impIndex := by cases b <;> rfl
@[simp] theorem setXbuf_circ (b : XBuf) (m : Mem Cplx) : (s.setXbuf b m).circ = s.circ := by cases b <;> rfl
@[simp] theorem setXbuf_corr (b : XBuf) (m : Mem Cplx) : (s.setXbuf b m).corr = s.corr := by cases b <;> rfl
@[simp] theorem setXbuf_ing0 (b : XBuf) (m : Mem Cplx) : (s.setXbuf b m).ing0 = s.ing0 := by cases b <;> rfl
@[simp] theorem setXbuf_ing1 (b : XBuf) (m : Mem Cplx) : (s.setXbuf b m).ing1 = s.ing1 := by cases b <;> rfl
@[simp] theorem setXbuf_spec (b : XBuf) (m : Mem Cplx) : (s.setXbuf b m).spec = s.spec := by cases b <;> rfl
@[simp] theorem setXbuf_imp (b : XBuf) (m : Mem Cplx) : (s.setXbuf b m).imp = s.imp := by cases b <;> rfl
@[simp] theorem setXbuf_impPrev (b : XBuf) (m : Mem Cplx) : (s.setXbuf b m).impPrev = s.impPrev := by cases b <;> rfl
@[simp] theorem setXbuf_out (b : XBuf) (m : Mem Cplx) : (s.setXbuf b m).out = s.out := by cases b <;> rfl
@[simp] theorem setXbuf_samples (b : XBuf) (m : Mem Cplx) : (s.setXbuf b m).samples = s.samples := by cases b <;> rfl
@[simp] theorem setXbuf_rdData (b : XBuf) (m : Mem Cplx) : (s.setXbuf b m).rdData = s.rdData := by cases b <;> rfl
@[simp] theorem setXbuf_frData (b : XBuf) (m : Mem Cplx) : (s.setXbuf b m).frData = s.frData := by cases b <;> rfl
@[simp] theorem setXbuf_cur (b : XBuf) (m : Mem Cplx) : (s.setXbuf b m).cur = s.cur := by cases b <;> rfl
@[simp] theorem setXbuf_turns (b : XBuf) (m : Mem Cplx) : (s.setXbuf b m).turns = s.turns := by cases b <;> rfl
@[simp] theorem setXbuf_tick (b : XBuf) (m : Mem Cplx) : (s.setXbuf b m).tick = s.tick := by cases b <;> rfl
@[simp] theorem setXbuf_row (b : XBuf) (m : Mem Cplx) : (s.setXbuf b m).row = s.row := by cases b <;> rfl
@[simp] theorem setXbuf_par (b : XBuf) (m : Mem Cplx) : (s.setXbuf b m).par = s.par := by cases b <;> rfl
@[simp] theorem setXbuf_K (b : XBuf) (m : Mem Cplx) : (s.setXbuf b m).K = s.K := by cases b <;> rfl
@[simp] theorem setXbuf_D (b : XBuf) (m : Mem Cplx) : (s.setXbuf b m).D = s.D := by cases b <;> rfl
@[simp] theorem setXbuf_T (b : XBuf) (m : Mem Cplx) : (s.setXbuf b m).T = s.T := by cases b <;> rfl

@[simp] theorem mapXbuf_modes (b : XBuf) (f : Nat → Cplx) : (s.mapXbuf b f).modes = s.modes := by cases b <;> rfl
@[simp] theorem mapXbuf_workers (b : XBuf) (f : Nat → Cplx) : (s.mapXbuf b f).workers = s.workers := by cases b <;> rfl
@[simp] theorem mapXbuf_acqState (b : XBuf) (f : Nat → Cplx) : (s.mapXbuf b f).acqState = s.acqState := by cases b <;> rfl
@[simp] theorem mapXbuf_acqSub (b : XBuf) (f : Nat → Cplx) : (s.mapXbuf b f).acqSub = s.acqSub := by cases b <;> rfl
@[simp] theorem mapXbuf_coPc (b : XBuf) (f : Nat → Cplx) : (s.mapXbuf b f).coPc = s.coPc := by cases b <;> rfl
@[simp] theorem mapXbuf_ingDivert (b : XBuf) (f : Nat → Cplx) : (s.mapXbuf b f).ingDivert = s.ingDivert := by cases b <;> rfl
@[simp] theorem mapXbuf_coDivert (b : XBuf) (f : Nat → Cplx) : (s.mapXbuf b f).coDivert = s.coDivert := by cases b <;> rfl
@[simp] theorem mapXbuf_fCoarse (b : XBuf) (f : Nat → Cplx) : (s.mapXbuf b f).fCoarse = s.fCoarse := by cases b <;> rfl
@[simp] theorem mapXbuf_fFine (b : XBuf) (f : Nat → Cplx) : (s.mapXbuf b f).fFine = s.fFine := by cases b <;> rfl
@[simp] theorem mapXbuf_fSnap (b : XBuf) (f : Nat → Cplx) : (s.mapXbuf b f).fSnap = s.fSnap := by cases b <;> rfl
@[simp] theorem mapXbuf_isFound (b : XBuf) (f : Nat → Cplx) : (s.mapXbuf b f).isFound = s.isFound := by cases b <;> rfl
@[simp] theorem mapXbuf_fineTimeOffset (b : XBuf) (f : Nat → Cplx) : (s.mapXbuf b f).fineTimeOffset = s.fineTimeOffset := by cases b <;> rfl
@[simp] theorem mapXbuf_l1Avg (b : XBuf) (f : Nat → Cplx) : (s.mapXbuf b f).l1Avg = s.l1Avg := by cases b <;> rfl
@[simp] theorem mapXbuf_l1Acc (b : XBuf) (f : Nat → Cplx) : (s.mapXbuf b f).l1Acc = s.l1Acc := by cases b <;> rfl
@[simp] theorem mapXbuf_l1Cnt (b : XBuf) (f : Nat → Cplx) : (s.mapXbuf b f).l1Cnt = s.l1Cnt := by cases b <;> rfl
@[simp] theorem mapXbuf_l1Win (b : XBuf) (f : Nat → Cplx) : (s.mapXbuf b f).l1Win = s.l1Win := by cases b <;> rfl
@[simp] theorem mapXbuf_l1Last (b : XBuf) (f : Nat → Cplx) : (s.mapXbuf b f).l1Last = s.l1Last := by cases b <;> rfl
@[simp] theorem mapXbuf_nullStart (b : XBuf) (f : Nat → Cplx) : (s.mapXbuf b f).nullStart = s.nullStart := by cases b <;> rfl
@[simp] theorem mapXbuf_nullEnd (b : XBuf) (f : Nat → Cplx) : (s.mapXbuf b f).nullEnd = s.nullEnd := by cases b <;> rfl
@[simp] theorem mapXbuf_circWr (b : XBuf) (f : Nat → Cplx) : (s.mapXbuf b f).circWr = s.circWr := by cases b <;> rfl
@[simp] theorem mapXbuf_corrLen (b : XBuf) (f : Nat → Cplx) : (s.mapXbuf b f).corrLen = s.corrLen := by cases b <;> rfl
@[simp] theorem mapXbuf_ingLen (b : XBuf) (f : Nat → Cplx) : (s.mapXbuf b f).ingLen = s.ingLen := by cases b <;> rfl
@[simp] theorem mapXbuf_peakOff (b : XBuf) (f : Nat → Cplx) : (s.mapXbuf b f).peakOff = s.peakOff := by cases b <;> rfl
@[simp] theorem mapXbuf_impK (b : XBuf) (f : Nat → Cplx) : (s.mapXbuf b f).impK = s.impK := by cases b <;> rfl
@[simp] theorem mapXbuf_impW (b : XBuf) (f : Nat → Cplx) : (s.mapXbuf b f).impW = s.impW := by cases b <;> rfl
@[simp] theorem mapXbuf_impMu (b : XBuf) (f : Nat → Cplx) : (s.mapXbuf b f).impMu = s.impMu := by cases b <;> rfl
@[simp] theorem mapXbuf_sel (b : XBuf) (f : Nat → Cplx) : (s.mapXbuf b f).sel = s.sel := by cases b <;> rfl
@[simp] theorem mapXbuf_framesRead (b : XBuf) (f : Nat → Cplx) : (s.mapXbuf b f).framesRead = s.framesRead := by cases b <;> rfl
@[simp] theorem mapXbuf_framesDesync (b : XBuf) (f : Nat → Cplx) : (s.mapXbuf b f).framesDesync = s.framesDesync := by cases b <;> rfl
@[simp] theorem mapXbuf_en (b : XBuf) (f : Nat → Cplx) : (s.mapXbuf b f).en = s.en := by cases b <;> rfl
@[simp] theorem mapXbuf_stop (b : XBuf) (f : Nat → Cplx) : (s.mapXbuf b f).stop = s.stop := by cases b <;> rfl
@[simp] theorem mapXbuf_ingHalted (b : XBuf) (f : Nat → Cplx) : (s.mapXbuf b f).ingHalted = s.ingHalted := by cases b <;> rfl
@[simp] theorem mapXbuf_coHalted (b : XBuf) (f : Nat → Cplx) : (s.mapXbuf b f).coHalted = s.coHalted := by cases b <;> rfl
@[simp] theorem mapXbuf_psiAvg (b : XBuf) (f : Nat → Cplx) : (s.mapXbuf b f).psiAvg = s.psiAvg := by cases b <;> rfl
@[simp] theorem mapXbuf_frameValid (b : XBuf) (f : Nat → Cplx) : (s.mapXbuf b f).frameValid = s.frameValid := by cases b <;> rfl
@[simp] theorem mapXbuf_emitArmed (b : XBuf) (f : Nat → Cplx) : (s.mapXbuf b f).emitArmed = s.emitArmed := by cases b <;> rfl
@[simp] theorem mapXbuf_cs (b : XBuf) (f : Nat → Cplx) : (s.mapXbuf b f).cs = s.cs := by cases b <;> rfl
@[simp] theorem mapXbuf_ce (b : XBuf) (f : Nat → Cplx) : (s.mapXbuf b f).ce = s.ce := by cases b <;> rfl
@[simp] theorem mapXbuf_cfg (b : XBuf) (f : Nat → Cplx) : (s.mapXbuf b f).cfg = s.cfg := by cases b <;> rfl
@[simp] theorem mapXbuf_unset (b : XBuf) (f : Nat → Cplx) : (s.mapXbuf b f).unset = s.unset := by cases b <;> rfl
@[simp] theorem mapXbuf_impIndex (b : XBuf) (f : Nat → Cplx) : (s.mapXbuf b f).impIndex = s.impIndex := by cases b <;> rfl
@[simp] theorem mapXbuf_circ (b : XBuf) (f : Nat → Cplx) : (s.mapXbuf b f).circ = s.circ := by cases b <;> rfl
@[simp] theorem mapXbuf_corr (b : XBuf) (f : Nat → Cplx) : (s.mapXbuf b f).corr = s.corr := by cases b <;> rfl
@[simp] theorem mapXbuf_ing0 (b : XBuf) (f : Nat → Cplx) : (s.mapXbuf b f).ing0 = s.ing0 := by cases b <;> rfl
@[simp] theorem mapXbuf_ing1 (b : XBuf) (f : Nat → Cplx) : (s.mapXbuf b f).ing1 = s.ing1 := by cases b <;> rfl
@[simp] theorem mapXbuf_spec (b : XBuf) (f : Nat → Cplx) : (s.mapXbuf b f).spec = s.spec := by cases b <;> rfl
@[simp] theorem mapXbuf_imp (b : XBuf) (f : Nat → Cplx) : (s.mapXbuf b f).imp = s.imp := by cases b <;> rfl
@[simp] theorem mapXbuf_impPrev (b : XBuf) (f : Nat → Cplx) : (s.mapXbuf b f).impPrev = s.impPrev := by cases b <;> rfl
@[simp] theorem mapXbuf_out (b : XBuf) (f : Nat → Cplx) : (s.mapXbuf b f).out = s.out := by cases b <;> rfl
@[simp] theorem mapXbuf_samples (b : XBuf) (f : Nat → Cplx) : (s.mapXbuf b f).samples = s.samples := by cases b <;> rfl
@[simp] theorem mapXbuf_rdData (b : XBuf) (f : Nat → Cplx) : (s.mapXbuf b f).rdData = s.rdData := by cases b <;> rfl
@[simp] theorem mapXbuf_frData (b : XBuf) (f : Nat → Cplx) : (s.mapXbuf b f).frData = s.frData := by cases b <;> rfl
@[simp] theorem mapXbuf_cur (b : XBuf) (f : Nat → Cplx) : (s.mapXbuf b f).cur = s.cur := by cases b <;> rfl
@[simp] theorem mapXbuf_turns (b : XBuf) (f : Nat → Cplx) : (s.mapXbuf b f).turns = s.turns := by cases b <;> rfl
@[simp] theorem mapXbuf_tick (b : XBuf) (f : Nat → Cplx) : (s.mapXbuf b f).tick = s.tick := by cases b <;> rfl
@[simp] theorem mapXbuf_row (b : XBuf) (f : Nat → Cplx) : (s.mapXbuf b f).row = s.row := by cases b <;> rfl
@[simp] theorem mapXbuf_par (b : XBuf) (f : Nat → Cplx) : (s.mapXbuf b f).par = s.par := by cases b <;> rfl
@[simp] theorem mapXbuf_K (b : XBuf) (f : Nat → Cplx) : (s.mapXbuf b f).K = s.K := by cases b <;> rfl
@[simp] theorem mapXbuf_D (b : XBuf) (f : Nat → Cplx) : (s.mapXbuf b f).D = s.D := by cases b <;> rfl
@[simp] theorem mapXbuf_T (b : XBuf) (f : Nat → Cplx) : (s.mapXbuf b f).T = s.T := by cases b <;> rfl

/-! The workers. -/

theorem wk_eq_getElem (w : Nat) (h : w < s.workers.length) : s.wk w = s.workers[w] := by
  simp [State.wk, List.getD_eq_getElem?_getD, h]

theorem wk_of_le (w : Nat) (h : s.workers.length ≤ w) : s.wk w = Worker.power := by
  simp [State.wk, List.getD_eq_getElem?_getD, h]

/-- Two states whose workers have equal number and equal records have equal workers. -/
theorem workers_ext {s t : State} (hl : t.workers.length = s.workers.length) (h : ∀ v, t.wk v = s.wk v) :
    t.workers = s.workers := by
  apply List.ext_getElem hl
  intro i h1 h2
  rw [← wk_eq_getElem t i h1, ← wk_eq_getElem s i h2, h]

theorem getD_modify (l : List Worker) (w v : Nat) (f : Worker → Worker) :
    (l.modify w f).getD v Worker.power = if v = w ∧ w < l.length then f (l.getD w Worker.power) else l.getD v Worker.power := by
  simp only [List.getD_eq_getElem?_getD, List.getElem?_modify]
  by_cases hv : v = w
  · subst hv
    by_cases hl : v < l.length
    · simp [hl]
    · simp [hl]
  · have : ¬ w = v := fun e => hv e.symm
    simp [hv, this]

/-- Worker `v` after worker `w`'s registers changed. -/
theorem wk_setWk (w v : Nat) (f : Worker → Worker) :
    (s.setWk w f).wk v = if v = w ∧ w < s.workers.length then f (s.wk w) else s.wk v := getD_modify _ _ _ _

@[simp] theorem setWk_length (w : Nat) (f : Worker → Worker) : (s.setWk w f).workers.length = s.workers.length := by
  simp [State.setWk]

@[simp] theorem movedWorkers_length : (movedWorkers s).length = s.workers.length := by
  unfold movedWorkers; split <;> simp

@[simp] theorem setFlag_length (x : Barrier) (v : Bool) : (s.setFlag x v).workers.length = s.workers.length := by
  cases x <;> simp [State.setFlag, State.setWk]

@[simp] theorem leavePhase_length (x : Barrier) : (s.leavePhase x).workers.length = s.workers.length := by
  cases x <;> simp [State.leavePhase, State.setWk]

@[simp] theorem enterPhase_length (x : Barrier) : (s.enterPhase x).workers.length = s.workers.length := by
  cases x <;> simp [State.enterPhase, State.setWk]

@[simp] theorem setHalted_length : s.setHalted.workers.length = s.workers.length := by
  unfold State.setHalted; split <;> simp [State.setWk]

@[simp] theorem setStopped_length : s.setStopped.workers.length = s.workers.length := by
  unfold State.setStopped; split <;> simp [State.setWk]

/-- Worker `v` after its agent's position moved: only a worker's own turn moves it (10_state R32). -/
theorem wk_advance (v : Nat) :
    s.advance.wk v
      = if s.cur = .worker v ∧ v < s.workers.length then { s.wk v with pc := nextWkPc s v (s.wk v) } else s.wk v := by
  unfold State.wk
  rw [advance_workers]
  unfold movedWorkers
  split
  · next h => simp [h]
  · next h => simp [h]
  · next w h =>
    rw [getD_modify]
    by_cases hv : v = w
    · subst hv; simp [h]
    · have : ¬ w = v := fun e => hv e.symm
      simp [h, hv, this]

/-- An agent that is no worker leaves every worker as it is. -/
theorem advance_workers_of_not_worker (h : ∀ w, s.cur ≠ .worker w) : s.advance.workers = s.workers := by
  rw [advance_workers]; unfold movedWorkers
  split
  · rfl
  · rfl
  · next w hw => exact absurd hw (h w)

/-- Worker `w`'s turn moves worker `w`'s position only. -/
theorem wk_advance_of_ne (w v : Nat) (h : s.cur = .worker w) (hv : v ≠ w) : s.advance.wk v = s.wk v := by
  rw [wk_advance, if_neg]
  rw [h]; intro hc
  exact hv (by injection hc.1 with e; exact e.symm)

/-! The flags. -/

/-- A flag read after a flag written (10_state R46). -/
theorem flag_setFlag_same (x : Barrier) (v : Bool) (h : barrierLegal s.T x = true) : (s.setFlag x v).flag x = v := by
  cases x <;> simp_all [State.setFlag, State.flag, barrierLegal, wk_setWk]

/-- Writing one flag leaves the others. -/
theorem flag_setFlag_of_ne (x y : Barrier) (v : Bool) (h : y ≠ x) : (s.setFlag x v).flag y = s.flag y := by
  cases x <;> cases y <;> simp only [State.setFlag, State.flag, wk_setWk, setWk_cs, setWk_ce] <;>
    first
    | rfl
    | exact absurd rfl h
    | (split
       · next hc => first
         | rfl
         | exact absurd (congrArg _ hc.1) h
         | (rw [hc.1])
       · rfl)

/-- Moving a position leaves every flag. -/
@[simp] theorem flag_advance (y : Barrier) : s.advance.flag y = s.flag y := by
  cases y <;> simp only [State.flag, advance_cs, advance_ce, wk_advance] <;> split <;> rfl

/-- Writing a flag leaves a worker's other registers. -/
theorem wk_setFlag (x : Barrier) (v : Bool) (w : Nat) :
    (s.setFlag x v).wk w = { s.wk w with
      ws := ((s.setFlag x v).wk w).ws, wp := ((s.setFlag x v).wk w).wp
      wf := ((s.setFlag x v).wk w).wf, wd := ((s.setFlag x v).wk w).wd } := by
  cases x <;> first | rfl | (simp only [State.setFlag, wk_setWk]; split <;> simp_all)

/-! The phases (20_memory R88). -/

/-- Ending a phase changes a worker's `holds` only. -/
theorem wk_leavePhase (x : Barrier) (w : Nat) :
    (s.leavePhase x).wk w = { s.wk w with holds := ((s.leavePhase x).wk w).holds } := by
  cases x <;> first | rfl | (simp only [State.leavePhase, wk_setWk]; split <;> simp_all)

/-- Beginning a phase changes a worker's three phase bits only. -/
theorem wk_enterPhase (x : Barrier) (w : Nat) :
    (s.enterPhase x).wk w = { s.wk w with
      holds := ((s.enterPhase x).wk w).holds, sawWf := ((s.enterPhase x).wk w).sawWf
      sawWp := ((s.enterPhase x).wk w).sawWp } := by
  cases x <;> first | rfl | (simp only [State.enterPhase, wk_setWk]; split <;> simp_all)

@[simp] theorem flag_leavePhase (x y : Barrier) : (s.leavePhase x).flag y = s.flag y := by
  cases y <;> simp only [State.flag, leavePhase_cs, leavePhase_ce] <;> rw [wk_leavePhase]

@[simp] theorem flag_enterPhase (x y : Barrier) : (s.enterPhase x).flag y = s.flag y := by
  cases y <;> simp only [State.flag, enterPhase_cs, enterPhase_ce] <;> rw [wk_enterPhase]

/-! The two ingest buffers. -/

@[simp] theorem act_setAct (m : Mem Cplx) : (s.setAct m).act = m := by
  simp only [State.act, setAct_sel, setAct_ing0, setAct_ing1]; split <;> simp_all

@[simp] theorem inact_setAct (m : Mem Cplx) : (s.setAct m).inact = s.inact := by
  simp only [State.inact, setAct_sel, setAct_ing0, setAct_ing1]; split <;> simp_all

@[simp] theorem inact_setInact (m : Mem Cplx) : (s.setInact m).inact = m := by
  simp only [State.inact, setInact_sel, setInact_ing0, setInact_ing1]; split <;> simp_all

@[simp] theorem act_setInact (m : Mem Cplx) : (s.setInact m).act = s.act := by
  simp only [State.act, setInact_sel, setInact_ing0, setInact_ing1]; split <;> simp_all

/-! The transform buffers. -/

@[simp] theorem xbuf_setXbuf (b : XBuf) (m : Mem Cplx) : (s.setXbuf b m).xbuf b = m := by
  cases b <;> simp [State.setXbuf, State.xbuf]

theorem xbuf_setXbuf_of_ne (b b' : XBuf) (m : Mem Cplx) (h : b' ≠ b) : (s.setXbuf b m).xbuf b' = s.xbuf b' := by
  cases b <;> cases b' <;> simp_all [State.setXbuf, State.xbuf, Mem.rd_put]

/-- Element `n` of a transform buffer after its `N` elements were replaced. -/
theorem rd_mapXbuf (b : XBuf) (f : Nat → Cplx) (n : Nat) :
    ((s.mapXbuf b f).xbuf b).rd n = if n < s.par.N then f n else (s.xbuf b).rd n := by
  simp [State.mapXbuf, Mem.rd_fill]

theorem xbuf_mapXbuf_of_ne (b b' : XBuf) (f : Nat → Cplx) (h : b' ≠ b) : (s.mapXbuf b f).xbuf b' = s.xbuf b' :=
  xbuf_setXbuf_of_ne _ _ _ _ h

end Sys2Proof.Machine
end

