-- ==== Sys2Proof/Laws/Ops.lean ====
section
/-! SUPPORT. What each shared operation can do, said once: the checks, the blocking outcomes, the end of an operation,
taking a sample, taking Desync. Proofs cite these and unfold none of the operations. -/

namespace Sys2Proof.Machine

/-- The five checks of an issue (00_scope R17, 20_memory R97, 30_encoding R115). -/
theorem issueCheck_none {s : State} {i : Instr} :
    issueCheck s i = none ↔ agentExists s.T s.cur = true ∧ operandsLegal s.par s.T i = true
      ∧ entitled s.cur i = true ∧ owned s.par s.T s.cur i = true ∧ inPhase s i = true := by
  unfold issueCheck
  cases agentExists s.T s.cur <;> cases operandsLegal s.par s.T i <;> cases entitled s.cur i <;>
    cases owned s.par s.T s.cur i <;> cases inPhase s i <;> simp

theorem checked_next {s t : State} {i : Instr} {k : Res} :
    checked s i k = .next t ↔ issueCheck s i = none ∧ k = .next t := by
  unfold checked; cases issueCheck s i <;> simp

theorem checked_ok {s : State} {i : Instr} (k : Res) (h : issueCheck s i = none) : checked s i k = k := by
  unfold checked; rw [h]

theorem checked_refused {s : State} {i : Instr} {r : Refusal} (k : Res) (h : issueCheck s i = some r) :
    checked s i k = .refused r := by
  unfold checked; rw [h]

/-- A blocking operation: *stopped*, or on with its effect (45_synchronisation R265). -/
theorem blocking_next {s t : State} {k : Res} :
    blocking s k = .next t ↔ (s.stop = true ∧ t = s.setStopped) ∨ (s.stop = false ∧ k = .next t) := by
  unfold blocking
  cases s.stop
  · simp
  · simp [eq_comm]

theorem blocking_stop {s : State} (k : Res) (h : s.stop = true) : blocking s k = .next s.setStopped := by
  simp [blocking, h]

theorem blocking_run {s : State} (k : Res) (h : s.stop = false) : blocking s k = k := by
  simp [blocking, h]

@[simp] theorem done_next {s t : State} : done s = .next t ↔ t = s.advance := by
  simp [done, eq_comm]

@[simp] theorem blocked_next {s t : State} : blocked s = .next t ↔ t = s := by
  simp [blocked, eq_comm]

/-- A sample operation: stopped, blocked with no sample, or on with the first sample taken (42 R170). -/
theorem takeSample_next {s t : State} {k : Cplx → State → Res} :
    takeSample s k = .next t ↔
      (s.stop = true ∧ t = s.setStopped) ∨ (s.stop = false ∧ s.samples = [] ∧ t = s)
        ∨ ∃ x rest, s.stop = false ∧ s.samples = x :: rest ∧ k x { s with samples := rest } = .next t := by
  unfold takeSample
  rw [blocking_next]
  cases hs : s.samples with
  | nil => simp
  | cons x rest => simp

/-- Every meaning makes the checks before anything else (00_scope R17). -/
theorem exec_refused_of_check {s : State} {i : Instr} {r : Refusal} (h : issueCheck s i = some r) :
    exec i s = .refused r := by
  cases i <;> exact checked_refused _ h

/-- What an operation that gives a next state has passed. -/
theorem check_of_exec_next {s t : State} {i : Instr} (h : exec i s = .next t) : issueCheck s i = none := by
  cases hc : issueCheck s i with
  | none => rfl
  | some r => rw [exec_refused_of_check hc] at h; cases h

/-- No step faults: the core has no fault state (00_scope R17). -/
theorem exec_ne_fault (i : Instr) (s : State) (f : Fault) : exec i s ≠ .fault f := nomatch f

/-- The position moves, everything else stays (60 R295). -/
theorem advance_frame (s : State) :
    s.advance = { s with acqSub := s.advance.acqSub, coPc := s.advance.coPc, workers := s.advance.workers } := rfl

theorem advance_ingest {s : State} (h : s.cur = .ingest) : s.advance = { s with acqSub := nextSub s } := by
  simp [State.advance, movedWorkers, h]

theorem advance_coord {s : State} (h : s.cur = .coord) : s.advance = { s with coPc := nextCoPc s } := by
  simp [State.advance, movedWorkers, h]

theorem advance_worker {s : State} {w : Nat} (h : s.cur = .worker w) :
    s.advance = s.setWk w fun k => { k with pc := nextWkPc s w k } := by
  simp [State.advance, State.setWk, movedWorkers, h]

/-- The ingest agent's advance changes `acq_sub` only. -/
theorem advance_frame_ingest {s : State} (h : s.cur = .ingest) : s.advance = { s with acqSub := s.advance.acqSub } := by
  rw [advance_ingest h]

/-- The coordinator's advance changes `co_pc` only. -/
theorem advance_frame_coord {s : State} (h : s.cur = .coord) : s.advance = { s with coPc := s.advance.coPc } := by
  rw [advance_coord h]

/-- A worker's advance changes the workers only. -/
theorem advance_frame_worker {s : State} {w : Nat} (h : s.cur = .worker w) :
    s.advance = { s with workers := s.advance.workers } := by
  rw [advance_worker h]; rfl

/-- An advance changes positions only, worker by worker. -/
theorem wk_advance_pc (s : State) (v : Nat) : s.advance.wk v = { s.wk v with pc := (s.advance.wk v).pc } := by
  rw [wk_advance]; split <;> rfl

/-- A flag is a function of `CS`, `CE` and the workers (10_state R46). -/
theorem flag_congr {s t : State} (h1 : t.cs = s.cs) (h2 : t.ce = s.ce)
    (h3 : ∀ w, (t.wk w).ws = (s.wk w).ws ∧ (t.wk w).wp = (s.wk w).wp ∧ (t.wk w).wf = (s.wk w).wf ∧ (t.wk w).wd = (s.wk w).wd)
    (x : Barrier) : t.flag x = s.flag x := by
  cases x <;> simp [State.flag, h1, h2, h3]

/-- A halted bit is a function of the three kinds of halted bits (10_state R43). -/
theorem isHalted_congr {s t : State} (h1 : t.ingHalted = s.ingHalted) (h2 : t.coHalted = s.coHalted)
    (h3 : ∀ w, (t.wk w).halted = (s.wk w).halted) (a : Agent) : t.isHalted a = s.isHalted a := by
  cases a <;> simp [State.isHalted, h1, h2, h3]

theorem wk_congr {s t : State} (h : t.workers = s.workers) (w : Nat) : t.wk w = s.wk w := by simp [State.wk, h]

@[simp] theorem isHalted_advance (s : State) (a : Agent) : s.advance.isHalted a = s.isHalted a :=
  isHalted_congr (by simp) (by simp) (fun w => by rw [wk_advance_pc]) a

/-- The outcome *stopped* leaves every worker's registers but the pending halt (45_synchronisation R265). -/
theorem wk_setStopped (s : State) (w : Nat) : s.setStopped.wk w = { s.wk w with divert := (s.setStopped.wk w).divert } := by
  cases hc : s.cur with
  | ingest => simp [State.setStopped, hc, State.wk]
  | coord => simp [State.setStopped, hc, State.wk]
  | worker v =>
    simp only [State.setStopped, hc]
    rw [wk_setWk]
    split
    · next h => obtain ⟨rfl, -⟩ := h; rfl
    · rfl

@[simp] theorem flag_setStopped (s : State) (x : Barrier) : s.setStopped.flag x = s.flag x :=
  flag_congr (by simp) (by simp) (fun w => by rw [wk_setStopped]; exact ⟨rfl, rfl, rfl, rfl⟩) x

@[simp] theorem isHalted_setStopped (s : State) (a : Agent) : s.setStopped.isHalted a = s.isHalted a :=
  isHalted_congr (by simp) (by simp) (fun w => by rw [wk_setStopped]) a

/-- Outside the loops of FIND_NULL, READ_NULL_PRS and READ_SYMBOLS the ingest agent goes one further (60 R295). -/
theorem nextSub_eq_succ (s : State)
    (h : ¬ (s.acqState = .findNull ∧ s.acqSub ≤ 1) ∧ ¬ (s.acqState = .readNullPrs ∧ s.acqSub = 0)
      ∧ ¬ (s.acqState = .readSymbols ∧ s.acqSub = 0)) : nextSub s = s.acqSub + 1 := by
  obtain ⟨h1, h2, h3⟩ := h
  unfold nextSub
  split <;> simp_all

/-- Taking Desync writes the pending `DESYNC` and nothing else (60 R286). -/
theorem raiseDesync_frame (s : State) : s.raiseDesync = { s with ingDivert := .desync } := rfl

/-- With Desync pending the ingest agent's next operation is `DESYNC` (60 R286). -/
theorem next_of_desync {s : State} (h : s.ingDivert = .desync) : s.nextInstr .ingest = some .desync := by
  simp [State.nextInstr, nextIngest, h]

/-- After the handler FIND_NULL's list runs from its start (60 R287). -/
theorem next_of_handleDesync (s : State) : s.handleDesync.nextInstr .ingest = some .nsamp := by
  simp [State.nextInstr, nextIngest, ingestOps, findNullOps]

/-- After the outcome *stopped* the agent's next operation is `HALT` (45 R265). -/
theorem next_of_setStopped {s : State} (h : agentExists s.T s.cur = true) : s.setStopped.nextInstr s.cur = some .halt := by
  cases hc : s.cur with
  | ingest => simp [State.setStopped, State.nextInstr, nextIngest, hc]
  | coord => simp [State.setStopped, State.nextInstr, nextCoord, hc]
  | worker w =>
    have hw : w < s.workers.length := by simpa [agentExists, hc] using h
    simp [State.setStopped, State.nextInstr, nextWorker, State.setWk, hc, hw]

/-- After `HALT` the agent is halted (45 R264). -/
theorem isHalted_setHalted {s : State} (h : agentExists s.T s.cur = true) : s.setHalted.isHalted s.cur = true := by
  cases hc : s.cur with
  | ingest => simp [State.setHalted, State.isHalted, hc]
  | coord => simp [State.setHalted, State.isHalted, hc]
  | worker w =>
    have hw : w < s.workers.length := by simpa [agentExists, hc] using h
    simp [State.setHalted, State.isHalted, hc, wk_setWk, hw]

/-- What a word's turn does (00_scope R16; 30_encoding R115). -/
theorem issueWord_cases (a : Agent) (w : Word) (s : State) :
    (s.en = false ∨ s.isHalted a = true) ∧ issueWord a w s = .next s
      ∨ s.en = true ∧ s.isHalted a = false ∧
        ((decode w = none ∧ issueWord a w s = .refused .reservedWord)
          ∨ ∃ i, decode w = some i ∧ issueWord a w s = exec i { s with cur := a }) := by
  unfold issueWord
  cases he : s.en <;> cases hh : s.isHalted a <;> simp
  cases hd : decode w <;> simp

end Sys2Proof.Machine
end

