-- ==== Sys2Proof/Laws/Meanings.lean ====
section
/-! SUPPORT. One lemma per meaning: when it gives a next state, and which. Proofs about an operation cite its lemma
instead of unfolding the meaning. -/

namespace Sys2Proof.Machine

variable {s t : State}

theorem execBitrev_next (b : XBuf) :
    execBitrev b s = .next t ↔ issueCheck s (.bitrev b) = none ∧ t = State.advance (s.mapXbuf b fun n => (s.xbuf b).rd (Dsp.rev s.par.L n)) := by
  simp only [execBitrev, checked_next, done_next]

theorem execBflyf_next (b : XBuf) (k : Nat) :
    execBflyf b k s = .next t ↔ issueCheck s (.bflyf b k) = none ∧ t = State.advance (s.mapXbuf b (Dsp.stage Dsp.num (2 ^ (k - 1)) (Dsp.twF s.par.N k) (s.xbuf b).rd)) := by
  simp only [execBflyf, checked_next, done_next]

theorem execBflyi_next (b : XBuf) (k : Nat) :
    execBflyi b k s = .next t ↔ issueCheck s (.bflyi b k) = none ∧ t = State.advance (s.mapXbuf b (Dsp.stage Dsp.num (2 ^ (k - 1)) (Dsp.twI s.par.N k) (s.xbuf b).rd)) := by
  simp only [execBflyi, checked_next, done_next]

theorem execDelta_next :
    execDelta s = .next t ↔ issueCheck s (.delta) = none ∧ t = State.advance (s.mapXbuf .sa (Dsp.delta s.par.N s.sa.rd)) := by
  simp only [execDelta, checked_next, done_next]

theorem execCmul_next (r : RefTable) :
    execCmul r s = .next t ↔ issueCheck s (.cmul r) = none ∧ t = State.advance (s.mapXbuf .sa fun k => (s.sa.rd k).mul (s.refElem r k)) := by
  simp only [execCmul, checked_next, done_next]

theorem execMag_next :
    execMag s = .next t ↔ issueCheck s (.mag) = none ∧ t = State.advance ({ s with spec := s.spec.fill 0 s.par.N (Dsp.magnitude s.par.N s.sa.rd) }) := by
  simp only [execMag, checked_next, done_next]

theorem execLmag_next :
    execLmag s = .next t ↔ issueCheck s (.lmag) = none ∧ t = State.advance ({ s with imp := s.imp.fill 0 s.par.N (Dsp.logMag s.sa.rd), impPrev := some s.imp }) := by
  simp only [execLmag, checked_next, done_next]

theorem execPllp_next :
    execPllp s = .next t ↔ issueCheck s (.pllp) = none ∧ t = State.advance (s.mapXbuf .sa (Dsp.applyPll s.sa.rd (Fp.add s.fCoarse s.fFine) Fp.zero)) := by
  simp only [execPllp, checked_next, done_next]

theorem execLdprs_next :
    execLdprs s = .next t ↔ issueCheck s (.ldprs) = none ∧ t = State.advance (s.mapXbuf .sa fun n => s.corr.rd (s.par.P + n)) := by
  simp only [execLdprs, checked_next, done_next]

theorem execL1win_next :
    execL1win s = .next t ↔ issueCheck s (.l1win) = none ∧ t = State.advance ({ s with
      l1Last := windowL1 s, l1Acc := Fp.zero, l1Cnt := 0, nullStart := nullStartAfter s (windowL1 s)
      nullEnd := nullEndAfter s (windowL1 s), l1Avg := l1AvgAfter s (windowL1 s), l1Win := (s.l1Win + 1) % s.D }) := by
  simp only [execL1win, checked_next, done_next]

theorem execNcap_next :
    execNcap s = .next t ↔ issueCheck s (.ncap) = none ∧ t = State.advance ({ s with
      corr := s.corr.fill 0 s.par.P fun n => s.circ.rd ((s.circWr + n) % s.par.P)
      corrLen := s.par.P, nullStart := false, nullEnd := false }) := by
  simp only [execNcap, checked_next, done_next]

theorem execFczero_next :
    execFczero s = .next t ↔ issueCheck s (.fczero) = none ∧ t = State.advance ({ s with fCoarse := Fp.zero }) := by
  simp only [execFczero, checked_next, done_next]

theorem execPeakc_next :
    execPeakc s = .next t ↔ issueCheck s (.peakc) = none ∧ t = State.advance ({ s with peakOff := (coarsePeak s : Int) - ((s.par.N / 2 : Nat) : Int) }) := by
  simp only [execPeakc, checked_next, done_next]

theorem execFcupd_next :
    execFcupd s = .next t ↔ issueCheck s (.fcupd) = none ∧ t = State.advance ({ s with
      fCoarse := Fp.add s.fCoarse (coarseStep s), fFine := wrapF s.par.N (Fp.sub s.fFine (coarseStep s))
      isFound := true }) := by
  simp only [execFcupd, checked_next, done_next]

theorem execPeakw_next :
    execPeakw s = .next t ↔ issueCheck s (.peakw) = none ∧ t = State.advance ({ s with
      impMu := Fp.div (Dsp.sum s.par.N s.imp.rd) (Fp.ofNat s.par.N), impK := impulsePeak s
      impW := weightedPeak s (impulsePeak s) }) := by
  simp only [execPeakw, checked_next, done_next]

theorem execNullcp_next :
    execNullcp s = .next t ↔ issueCheck s (.nullcp) = none ∧ t = State.advance ({ s with
      corr := s.corr.fill 0 s.par.P fun n => s.inact.rd (s.par.F * s.par.S + n), corrLen := s.par.P }) := by
  simp only [execNullcp, checked_next, done_next]

theorem execDerot_next (i : Nat) :
    execDerot i s = .next t ↔ issueCheck s (.derot i) = none ∧ t = State.advance (s.setAct (s.act.fill (i * s.par.S) s.par.S fun k =>
      (s.act.rd (i * s.par.S + k)).mul (Cplx.rot Fp.zero s.fSnap (i * s.par.S + k)))) := by
  simp only [execDerot, checked_next, done_next]

theorem execCperr_next (i : Nat) :
    execCperr i s = .next t ↔ issueCheck s (.cperr i) = none ∧ t = State.advance (s.setWk s.curW fun k => { k with phAcc := Fp.add k.phAcc (prefixProduct s i).arg }) := by
  simp only [execCperr, checked_next, done_next]

theorem execPhpub_next :
    execPhpub s = .next t ↔ issueCheck s (.phpub) = none ∧ t = State.advance (s.setWk s.curW fun k => { k with phSlot := k.phAcc, phAcc := Fp.zero }) := by
  simp only [execPhpub, checked_next, done_next]

theorem execLdsym_next (i : Nat) :
    execLdsym i s = .next t ↔ issueCheck s (.ldsym i) = none ∧ t = State.advance (s.mapXbuf (.zf i) fun n => s.act.rd (i * s.par.S + s.par.G + n)) := by
  simp only [execLdsym, checked_next, done_next]

theorem execDqpsk_next (i : Nat) :
    execDqpsk i s = .next t ↔ issueCheck s (.dqpsk i) = none ∧ t = State.advance (s.setWk s.curW fun k => { k with nv := k.nv.fill 0 s.par.C fun j => normalise (differential s i j) }) := by
  simp only [execDqpsk, checked_next, done_next]

theorem execSoft_next (i : Nat) :
    execSoft i s = .next t ↔ issueCheck s (.soft i) = none ∧ t = State.advance ({ s with out := s.out.fill (i * (2 * s.par.C)) (2 * s.par.C) (softBit s) }) := by
  simp only [execSoft, checked_next, done_next]

theorem execRel_next :
    execRel s = .next t ↔ issueCheck s (.rel) = none ∧ t = State.advance ({ s with workers := s.workers.map Worker.released }) := by
  simp only [execRel, checked_next, done_next]

theorem execPhavg_next :
    execPhavg s = .next t ↔ issueCheck s (.phavg) = none ∧ t = State.advance ({ s with psiAvg := Fp.div (Dsp.sum s.T fun w => (s.wk w).phSlot) (Fp.ofNat s.par.F) }) := by
  simp only [execPhavg, checked_next, done_next]

theorem execFfupd_next :
    execFfupd s = .next t ↔ issueCheck s (.ffupd) = none ∧ t = State.advance ({ s with fFine := wrapF s.par.N (Fp.add s.fFine (fineStep s)) }) := by
  simp only [execFfupd, checked_next, done_next]

theorem execSig_next (x : Barrier) :
    execSig x s = .next t ↔ issueCheck s (.sig x) = none ∧ t = State.advance ((s.setFlag x true).leavePhase x) := by
  simp only [execSig, checked_next, done_next]

theorem execSwap_next :
    execSwap s = .next t ↔ issueCheck s (.swap) = none ∧ t = State.advance ({ s with
      sel := !s.sel, ingLen := 0, fSnap := Fp.add s.fCoarse s.fFine, framesRead := s.framesRead + 1 }) := by
  simp only [execSwap, checked_next, done_next]

theorem execNsamp_next :
    execNsamp s = .next t ↔ issueCheck s .nsamp = none ∧
      ((s.stop = true ∧ t = s.setStopped) ∨ (s.stop = false ∧ s.samples = [] ∧ t = s)
        ∨ ∃ x rest, s.stop = false ∧ s.samples = x :: rest ∧ s.circWr < s.par.P ∧
          t = State.advance { s with
            samples := rest, circ := s.circ.put s.circWr x, circWr := (s.circWr + 1) % s.par.P
            l1Acc := Fp.add s.l1Acc x.l1, l1Cnt := s.l1Cnt + 1 }) := by
  simp only [execNsamp, checked_next, takeSample_next]
  refine and_congr_right fun _ => or_congr_right (or_congr_right (exists_congr fun x => exists_congr fun rest => ?_))
  refine and_congr_right fun _ => and_congr_right fun _ => ?_
  show (if s.circWr < s.par.P then _ else _) = _ ↔ _
  split
  · next h => rw [done_next]; exact ⟨fun e => ⟨h, e⟩, fun e => e.2⟩
  · next h => simp [h]

theorem execCapp_next :
    execCapp s = .next t ↔ issueCheck s .capp = none ∧
      ((s.stop = true ∧ t = s.setStopped) ∨ (s.stop = false ∧ s.samples = [] ∧ t = s)
        ∨ ∃ x rest, s.stop = false ∧ s.samples = x :: rest ∧ s.corrLen < s.par.P + s.par.S ∧
          t = State.advance { s with
            samples := rest, corr := s.corr.put s.corrLen x, corrLen := s.corrLen + 1 }) := by
  simp only [execCapp, checked_next, takeSample_next]
  refine and_congr_right fun _ => or_congr_right (or_congr_right (exists_congr fun x => exists_congr fun rest => ?_))
  refine and_congr_right fun _ => and_congr_right fun _ => ?_
  show (if s.corrLen < s.par.P + s.par.S then _ else _) = _ ↔ _
  split
  · next h => rw [done_next]; exact ⟨fun e => ⟨h, e⟩, fun e => e.2⟩
  · next h => simp [h]

theorem execIapp_next :
    execIapp s = .next t ↔ issueCheck s .iapp = none ∧
      ((s.stop = true ∧ t = s.setStopped) ∨ (s.stop = false ∧ s.samples = [] ∧ t = s)
        ∨ ∃ x rest, s.stop = false ∧ s.samples = x :: rest ∧ s.ingLen < s.par.frameLen ∧
          t = State.advance { s.setInact (s.inact.put s.ingLen x) with
            samples := rest, ingLen := s.ingLen + 1 }) := by
  simp only [execIapp, checked_next, takeSample_next]
  refine and_congr_right fun _ => or_congr_right (or_congr_right (exists_congr fun x => exists_congr fun rest => ?_))
  refine and_congr_right fun _ => and_congr_right fun _ => ?_
  show (if s.ingLen < s.par.frameLen then _ else _) = _ ↔ _
  split
  · next h => rw [done_next]; exact ⟨fun e => ⟨h, e⟩, fun e => e.2⟩
  · next h => simp [h]

theorem execFtchk_next :
    execFtchk s = .next t ↔ issueCheck s .ftchk = none ∧
      ((desyncTest s = true ∧ t = s.raiseDesync)
        ∨ (desyncTest s = false ∧ t = State.advance { s with fineTimeOffset := (s.impK : Int) - (s.par.G : Int) })) := by
  simp only [execFtchk, checked_next]
  refine and_congr_right fun _ => ?_
  cases desyncTest s <;> simp
  exact eq_comm

/-- `PRSCP` stays inside its buffers (20_memory R83). -/
def prscpFits (s : State) : Prop :=
  0 ≤ (s.par.P : Int) + s.fineTimeOffset ∧ s.fineTimeOffset ≤ (s.par.S : Int)
    ∧ (s.par.S : Int) - s.fineTimeOffset ≤ (s.par.frameLen : Int)

theorem execPrscp_next :
    execPrscp s = .next t ↔ issueCheck s .prscp = none ∧ prscpFits s ∧
      t = State.advance { s.setInact (s.inact.fill 0 ((s.par.S : Int) - s.fineTimeOffset).toNat fun n =>
          s.corr.rd (((s.par.P : Int) + s.fineTimeOffset).toNat + n)) with
        ingLen := ((s.par.S : Int) - s.fineTimeOffset).toNat } := by
  simp only [execPrscp, checked_next, prscpFits]
  refine and_congr_right fun _ => ?_
  split
  · next h => rw [done_next]; exact ⟨fun e => ⟨h, e⟩, fun e => e.2⟩
  · next h => simp only [reduceCtorEq, false_iff, not_and]; exact fun h' => absurd h' h

theorem execDesync_next :
    execDesync s = .next t ↔ issueCheck s .desync = none ∧ t = s.handleDesync := by
  simp only [execDesync, checked_next]; simp [eq_comm]

theorem execAdv_next (a : AcqState) :
    execAdv a s = .next t ↔ issueCheck s (.adv a) = none ∧ t = { s with acqState := a, acqSub := 0, impPrev := none } := by
  simp only [execAdv, checked_next]; simp [eq_comm]

theorem execEmit_next :
    execEmit s = .next t ↔ issueCheck s .emit = none ∧
      ((s.stop = true ∧ t = s.setStopped)
        ∨ (s.stop = false ∧ s.emitArmed = false ∧ t = { s with frameValid := true, emitArmed := true })
        ∨ (s.stop = false ∧ s.emitArmed = true ∧ s.frameValid = true ∧ t = s)
        ∨ (s.stop = false ∧ s.emitArmed = true ∧ s.frameValid = false ∧ t = State.advance { s with emitArmed := false })) := by
  simp only [execEmit, checked_next, blocking_next]
  refine and_congr_right fun _ => or_congr_right ?_
  cases s.stop <;> cases s.emitArmed <;> cases s.frameValid <;> simp <;> exact eq_comm

theorem execWait_next (x : Barrier) :
    execWait x s = .next t ↔ issueCheck s (.wait x) = none ∧
      ((s.stop = true ∧ t = s.setStopped) ∨ (s.stop = false ∧ s.flag x = false ∧ t = s)
        ∨ (s.stop = false ∧ s.flag x = true ∧ t = State.advance ((if isConsumed x then s.setFlag x false else s).enterPhase x))) := by
  simp only [execWait, checked_next, blocking_next]
  refine and_congr_right fun _ => or_congr_right ?_
  cases s.stop <;> cases s.flag x <;> simp

theorem execHalt_next : execHalt s = .next t ↔ issueCheck s .halt = none ∧ t = s.setHalted := by
  simp only [execHalt, checked_next]; simp [eq_comm]

end Sys2Proof.Machine
end

