-- ==== Sys2Proof/Laws/Tables.lean ====
section
/-! SUPPORT. What the exact numbers of Machine/Tables.lean are: the real value of each operation, its sign, and the cosines. -/

namespace Sys2Proof.Tower

/-- `s_n = 2·cos(π / 2^(n+1))`. -/
noncomputable def root (n : Nat) : ℝ := Real.sqrtTwoAddSeries 0 n

theorem root_eq (n : Nat) : root n = 2 * Real.cos (Real.pi / 2 ^ (n + 1)) := by
  rw [Real.cos_pi_over_two_pow, root]; ring

theorem root_nonneg (n : Nat) : 0 ≤ root n := Real.sqrtTwoAddSeries_zero_nonneg n

theorem root_succ_sq (n : Nat) : root (n + 1) ^ 2 = 2 + root n := by
  have := root_nonneg n
  simp only [root, Real.sqrtTwoAddSeries] at *
  exact Real.sq_sqrt (by linarith)

theorem root_succ_pos (n : Nat) : 0 < root (n + 1) := by
  have := root_nonneg n
  simp only [root, Real.sqrtTwoAddSeries] at *
  exact Real.sqrt_pos.2 (by linarith)

/-- The real value. -/
noncomputable def val : (n : Nat) → Tower n → ℝ
  | 0, x => ((x : Int) : ℝ)
  | n + 1, x => val n x.1 + val n x.2 * root (n + 1)

theorem val_ofInt (n : Nat) (c : Int) : val n (ofInt n c) = c := by
  induction n generalizing c with
  | zero => rfl
  | succ n ih => simp [val, ofInt, ih]

theorem val_add (n : Nat) (x y : Tower n) : val n (add n x y) = val n x + val n y := by
  induction n with
  | zero => exact Int.cast_add x y
  | succ n ih => simp only [val, add, ih]; ring

theorem val_scale (n : Nat) (c : Int) (x : Tower n) : val n (scale n c x) = c * val n x := by
  induction n with
  | zero => exact Int.cast_mul c x
  | succ n ih => simp only [val, scale, ih]; ring

theorem val_sub (n : Nat) (x y : Tower n) : val n (sub n x y) = val n x - val n y := by
  rw [sub, val_add, val_scale]; push_cast; ring

theorem val_mulRoot (n : Nat) (x : Tower n) : val n (mulRoot n x) = root n * val n x := by
  induction n with
  | zero => simp [val, mulRoot, root, Real.sqrtTwoAddSeries]
  | succ n ih =>
    simp only [val, mulRoot, val_add, val_scale, ih]
    push_cast
    linear_combination (-val n x.2) * root_succ_sq n

theorem val_mulRootSq (n : Nat) (x : Tower n) : val n (mulRootSq n x) = root (n + 1) ^ 2 * val n x := by
  rw [mulRootSq, val_add, val_scale, val_mulRoot, root_succ_sq]; push_cast; ring

theorem val_mul (n : Nat) (x y : Tower n) : val n (mul n x y) = val n x * val n y := by
  induction n with
  | zero => exact Int.cast_mul x y
  | succ n ih => simp only [val, mul, val_add, val_mulRootSq, ih]; ring

/-- The sign of a sum of two reals from their signs and, where these differ, from their squares. -/
theorem sign_add_eq (a t : ℝ) :
    SignType.sign (a + t)
      = if SignType.sign a = SignType.sign t ∨ SignType.sign t = 0 then SignType.sign a
        else if SignType.sign a = 0 then SignType.sign t
        else SignType.sign a * SignType.sign (a ^ 2 - t ^ 2) := by
  have hsq : a ^ 2 - t ^ 2 = (a - t) * (a + t) := by ring
  rw [hsq, sign_mul]
  rcases lt_trichotomy a 0 with ha | rfl | ha <;> rcases lt_trichotomy t 0 with ht | rfl | ht
  · simp [sign_neg ha, sign_neg ht, sign_neg (add_neg ha ht)]
  · simp
  · simp [sign_neg ha, sign_pos ht, sign_neg (by linarith : a - t < 0)]
  · simp [sign_neg ht]
  · simp
  · simp [sign_pos ht]
  · simp [sign_pos ha, sign_neg ht, sign_pos (by linarith : 0 < a - t)]
  · simp
  · simp [sign_pos ha, sign_pos ht, sign_pos (add_pos ha ht)]

/-- `sign` is the sign of the value, exactly. -/
theorem sign_eq (n : Nat) (x : Tower n) : sign n x = SignType.sign (val n x) := by
  induction n with
  | zero =>
    show Int.sign x = SignType.sign ((x : Int) : ℝ)
    rcases lt_trichotomy (x : Int) 0 with h | h | h
    · rw [Int.sign_eq_neg_one_of_neg h, sign_neg (by exact_mod_cast h)]; rfl
    · rw [h]; simp
    · rw [Int.sign_eq_one_of_pos h, sign_pos (by exact_mod_cast h)]; rfl
  | succ n ih =>
    have hd : val n (sub n (mul n x.1 x.1) (mulRootSq n (mul n x.2 x.2)))
        = val n x.1 ^ 2 - (val n x.2 * root (n + 1)) ^ 2 := by
      rw [val_sub, val_mul, val_mulRootSq, val_mul]; ring
    have hb : SignType.sign (val n x.2 * root (n + 1)) = SignType.sign (val n x.2) := by
      rw [sign_mul, sign_pos (root_succ_pos n), mul_one]
    rw [val, sign_add_eq, hb]
    simp only [sign, ih, hd]
    generalize SignType.sign (val n x.1 ^ 2 - (val n x.2 * root (n + 1)) ^ 2) = c
    generalize SignType.sign (val n x.1) = a
    generalize SignType.sign (val n x.2) = b
    revert a b c
    decide

theorem val_chebyshev (n : Nat) (θ : ℝ) (hθ : root n = 2 * Real.cos θ) (j i : Nat) (c d : Tower n)
    (hc : val n c = 2 * Real.cos (i * θ)) (hd : val n d = 2 * Real.cos ((i + 1) * θ)) :
    val n (chebyshev n j c d) = 2 * Real.cos ((i + j : Nat) * θ) := by
  induction j generalizing i c d with
  | zero => simpa [chebyshev] using hc
  | succ j ih =>
    rw [chebyshev, ih (i + 1) _ _ (by push_cast; exact hd)]
    · congr 3; push_cast; ring
    · rw [val_sub, val_mulRoot, hc, hd, hθ]
      have h1 : ((i + 1 : Nat) + 1 : ℝ) * θ = (i + 1) * θ + θ := by push_cast; ring
      have h2 : (i : ℝ) * θ = (i + 1) * θ - θ := by ring
      rw [h1, h2, Real.cos_add, Real.cos_sub]; ring

/-- The cosines of the level. -/
theorem val_twoCos (n j : Nat) : val n (twoCos n j) = 2 * Real.cos (2 * Real.pi * j / 2 ^ (n + 2)) := by
  have hθ := root_eq n
  rw [twoCos, val_chebyshev n _ hθ (j % 2 ^ (n + 2)) 0 _ _ (by simp [val_ofInt])
    (by simp [val_mulRoot, val_ofInt, hθ])]
  have hj : ((2 ^ (n + 2) * (j / 2 ^ (n + 2)) + j % 2 ^ (n + 2) : Nat) : ℝ) = j := by rw [Nat.div_add_mod]
  push_cast at hj
  have : 2 * Real.pi * j / 2 ^ (n + 2)
      = (0 + j % 2 ^ (n + 2) : Nat) * (Real.pi / 2 ^ (n + 1)) + (j / 2 ^ (n + 2) : Nat) * (2 * Real.pi) := by
    rw [← hj]
    push_cast
    field_simp
    ring
  rw [this, Real.cos_add_nat_mul_two_pi]

/-- The sines of the level. -/
theorem val_twoSin (n j : Nat) : val n (twoSin n j) = 2 * Real.sin (2 * Real.pi * j / 2 ^ (n + 2)) := by
  have : 2 * Real.pi * (j + 3 * 2 ^ n : Nat) / 2 ^ (n + 2) = 2 * Real.pi * j / 2 ^ (n + 2) - Real.pi / 2 + 2 * Real.pi := by
    push_cast
    field_simp
    ring
  rw [twoSin, val_twoCos, this, Real.cos_add_two_pi, Real.cos_sub_pi_div_two]

/-- The sum of a table of exact numbers. -/
theorem val_sum (n K : Nat) (f : Nat → Tower n) : val n (Tables.sum n K f) = ∑ k ∈ Finset.range K, val n (f k) := by
  induction K with
  | zero => simp [Tables.sum, val_ofInt]
  | succ K ih => rw [Tables.sum, val_add, ih, Finset.sum_range_succ]

end Sys2Proof.Tower
end

