-- ==== Sys2Proof/Laws/PerInstr.lean ====
section
/-! SUPPORT. The family `TableRow`: the word of a well-formed operation carries its opcode and leaves every field its
format does not use zero (30_encoding R111, R112, R114). One lemma per constructor. -/

namespace Sys2Proof

/-- The seven formats (30_encoding R112). -/
inductive Format where
  | z | x | r | v | k | s | b
  deriving DecidableEq, Repr

/-- The formats that use `BUF` (30_encoding R112). -/
def Format.usesBuf : Format → Bool
  | .z => false | .x => false | .r => true | .v => true | .k => true | .s => false | .b => true

/-- The formats that use `AUX`. -/
def Format.usesAux : Format → Bool
  | .z => false | .x => false | .r => false | .v => false | .k => true | .s => true | .b => false

/-- The formats that use `IDX`. -/
def Format.usesIdx : Format → Bool
  | .z => false | .x => true | .r => false | .v => true | .k => true | .s => false | .b => true

/-- Opcode and format of an operation, from the map of 30_encoding R114. -/
def Instr.row : Instr → Nat × Format
  | .bitrev _ => (0x10, .v)
  | .bflyf _ _ => (0x11, .k)
  | .bflyi _ _ => (0x12, .k)
  | .delta => (0x13, .z)
  | .cmul _ => (0x14, .r)
  | .mag => (0x15, .z)
  | .lmag => (0x16, .z)
  | .pllp => (0x17, .z)
  | .ldprs => (0x18, .z)
  | .nsamp => (0x20, .z)
  | .l1win => (0x21, .z)
  | .ncap => (0x22, .z)
  | .capp => (0x23, .z)
  | .fczero => (0x24, .z)
  | .peakc => (0x25, .z)
  | .fcupd => (0x26, .z)
  | .peakw => (0x27, .z)
  | .ftchk => (0x28, .z)
  | .prscp => (0x29, .z)
  | .iapp => (0x2A, .z)
  | .nullcp => (0x2B, .z)
  | .desync => (0x2C, .z)
  | .adv _ => (0x2D, .s)
  | .derot _ => (0x30, .x)
  | .cperr _ => (0x31, .x)
  | .phpub => (0x32, .z)
  | .ldsym _ => (0x33, .x)
  | .dqpsk _ => (0x34, .x)
  | .soft _ => (0x35, .x)
  | .rel => (0x40, .z)
  | .phavg => (0x41, .z)
  | .ffupd => (0x42, .z)
  | .emit => (0x43, .z)
  | .sig _ => (0x50, .b)
  | .wait _ => (0x51, .b)
  | .swap => (0x52, .z)
  | .halt => (0x53, .z)

namespace Laws

variable {o b a i : Nat}

theorem toNat_mkWord (ho : o < 256) (hb : b < 16) (ha : a < 16) (hi : i < 65536) :
    (mkWord o b a i).toNat = o * 16777216 + b * 1048576 + a * 65536 + i := by
  rw [mkWord, BitVec.toNat_ofNat]; omega

theorem opcOf_mkWord (ho : o < 256) (hb : b < 16) (ha : a < 16) (hi : i < 65536) : opcOf (mkWord o b a i) = o := by
  rw [opcOf, toNat_mkWord ho hb ha hi]; omega

theorem bufOf_mkWord (ho : o < 256) (hb : b < 16) (ha : a < 16) (hi : i < 65536) : bufOf (mkWord o b a i) = b := by
  rw [bufOf, toNat_mkWord ho hb ha hi]; omega

theorem auxOf_mkWord (ho : o < 256) (hb : b < 16) (ha : a < 16) (hi : i < 65536) : auxOf (mkWord o b a i) = a := by
  rw [auxOf, toNat_mkWord ho hb ha hi]; omega

theorem idxOf_mkWord (ho : o < 256) (hb : b < 16) (ha : a < 16) (hi : i < 65536) : idxOf (mkWord o b a i) = i := by
  rw [idxOf, toNat_mkWord ho hb ha hi]; omega

theorem xbuf_fields_lt {x : XBuf} (h : x.fits = true) : x.fields.1 < 16 ∧ x.fields.2 < 65536 := by
  cases x <;> simp_all [XBuf.fits, XBuf.fields, idxFits]

theorem barrier_fields_lt {x : Barrier} (h : x.fits = true) : x.fields.1 < 16 ∧ x.fields.2 < 65536 := by
  cases x <;> simp_all [Barrier.fits, Barrier.fields, idxFits]

/-- What the family says of one operation. -/
def TableRow.Statement (i : Instr) : Prop :=
  i.wf = true → opcOf (encode i) = i.row.1 ∧ (i.row.2.usesBuf = false → bufOf (encode i) = 0)
    ∧ (i.row.2.usesAux = false → auxOf (encode i) = 0) ∧ (i.row.2.usesIdx = false → idxOf (encode i) = 0)

/-- A word with its fields in range, as the family asks. -/
theorem row_of_fields {j : Instr} (he : encode j = mkWord j.row.1 b a i) (ho : j.row.1 < 256) (hb : b < 16)
    (ha : a < 16) (hi : i < 65536) (zb : j.row.2.usesBuf = false → b = 0) (za : j.row.2.usesAux = false → a = 0)
    (zi : j.row.2.usesIdx = false → i = 0) :
    opcOf (encode j) = j.row.1 ∧ (j.row.2.usesBuf = false → bufOf (encode j) = 0)
      ∧ (j.row.2.usesAux = false → auxOf (encode j) = 0) ∧ (j.row.2.usesIdx = false → idxOf (encode j) = 0) := by
  rw [he, opcOf_mkWord ho hb ha hi, bufOf_mkWord ho hb ha hi, auxOf_mkWord ho hb ha hi, idxOf_mkWord ho hb ha hi]
  exact ⟨rfl, zb, za, zi⟩

theorem TableRow.bitrev (b : XBuf) : TableRow.Statement (.bitrev b) := by
  intro h
  have hx := xbuf_fields_lt (x := b) (by simpa [Instr.wf] using h)
  exact row_of_fields rfl (by simp [Instr.row]) hx.1 (by decide) hx.2 (fun e => nomatch e) (fun _ => rfl) (fun e => nomatch e)

theorem TableRow.bflyf (b : XBuf) (k : Nat) : TableRow.Statement (.bflyf b k) := by
  intro h
  have hw : b.fits = true ∧ 1 ≤ k ∧ k < 16 := by simpa [Instr.wf, stageFits] using h
  have hx := xbuf_fields_lt hw.1
  exact row_of_fields rfl (by simp [Instr.row]) hx.1 hw.2.2 hx.2 (fun e => nomatch e) (fun e => nomatch e) (fun e => nomatch e)

theorem TableRow.bflyi (b : XBuf) (k : Nat) : TableRow.Statement (.bflyi b k) := by
  intro h
  have hw : b.fits = true ∧ 1 ≤ k ∧ k < 16 := by simpa [Instr.wf, stageFits] using h
  have hx := xbuf_fields_lt hw.1
  exact row_of_fields rfl (by simp [Instr.row]) hx.1 hw.2.2 hx.2 (fun e => nomatch e) (fun e => nomatch e) (fun e => nomatch e)

theorem TableRow.delta : TableRow.Statement (.delta) := fun _ => by decide

theorem TableRow.cmul (t : RefTable) : TableRow.Statement (.cmul t) := by
  intro _; cases t <;> decide

theorem TableRow.mag : TableRow.Statement (.mag) := fun _ => by decide

theorem TableRow.lmag : TableRow.Statement (.lmag) := fun _ => by decide

theorem TableRow.pllp : TableRow.Statement (.pllp) := fun _ => by decide

theorem TableRow.ldprs : TableRow.Statement (.ldprs) := fun _ => by decide

theorem TableRow.nsamp : TableRow.Statement (.nsamp) := fun _ => by decide

theorem TableRow.l1win : TableRow.Statement (.l1win) := fun _ => by decide

theorem TableRow.ncap : TableRow.Statement (.ncap) := fun _ => by decide

theorem TableRow.capp : TableRow.Statement (.capp) := fun _ => by decide

theorem TableRow.fczero : TableRow.Statement (.fczero) := fun _ => by decide

theorem TableRow.peakc : TableRow.Statement (.peakc) := fun _ => by decide

theorem TableRow.fcupd : TableRow.Statement (.fcupd) := fun _ => by decide

theorem TableRow.peakw : TableRow.Statement (.peakw) := fun _ => by decide

theorem TableRow.ftchk : TableRow.Statement (.ftchk) := fun _ => by decide

theorem TableRow.prscp : TableRow.Statement (.prscp) := fun _ => by decide

theorem TableRow.iapp : TableRow.Statement (.iapp) := fun _ => by decide

theorem TableRow.nullcp : TableRow.Statement (.nullcp) := fun _ => by decide

theorem TableRow.desync : TableRow.Statement (.desync) := fun _ => by decide

theorem TableRow.adv (t : AcqState) : TableRow.Statement (.adv t) := by
  intro _; cases t <;> decide

theorem TableRow.derot (i : Nat) : TableRow.Statement (.derot i) := by
  intro h
  exact row_of_fields rfl (by simp [Instr.row]) (by decide) (by decide) (by simpa [Instr.wf, idxFits] using h)
    (fun _ => rfl) (fun _ => rfl) (fun e => nomatch e)

theorem TableRow.cperr (i : Nat) : TableRow.Statement (.cperr i) := by
  intro h
  exact row_of_fields rfl (by simp [Instr.row]) (by decide) (by decide) (by simpa [Instr.wf, idxFits] using h)
    (fun _ => rfl) (fun _ => rfl) (fun e => nomatch e)

theorem TableRow.phpub : TableRow.Statement (.phpub) := fun _ => by decide

theorem TableRow.ldsym (i : Nat) : TableRow.Statement (.ldsym i) := by
  intro h
  exact row_of_fields rfl (by simp [Instr.row]) (by decide) (by decide) (by simpa [Instr.wf, idxFits] using h)
    (fun _ => rfl) (fun _ => rfl) (fun e => nomatch e)

theorem TableRow.dqpsk (i : Nat) : TableRow.Statement (.dqpsk i) := by
  intro h
  exact row_of_fields rfl (by simp [Instr.row]) (by decide) (by decide) (by simpa [Instr.wf, idxFits] using h)
    (fun _ => rfl) (fun _ => rfl) (fun e => nomatch e)

theorem TableRow.soft (i : Nat) : TableRow.Statement (.soft i) := by
  intro h
  exact row_of_fields rfl (by simp [Instr.row]) (by decide) (by decide) (by simpa [Instr.wf, idxFits] using h)
    (fun _ => rfl) (fun _ => rfl) (fun e => nomatch e)

theorem TableRow.rel : TableRow.Statement (.rel) := fun _ => by decide

theorem TableRow.phavg : TableRow.Statement (.phavg) := fun _ => by decide

theorem TableRow.ffupd : TableRow.Statement (.ffupd) := fun _ => by decide

theorem TableRow.emit : TableRow.Statement (.emit) := fun _ => by decide

theorem TableRow.sig (x : Barrier) : TableRow.Statement (.sig x) := by
  intro h
  have hx := barrier_fields_lt (x := x) (by simpa [Instr.wf] using h)
  exact row_of_fields rfl (by simp [Instr.row]) hx.1 (by decide) hx.2 (fun e => nomatch e) (fun _ => rfl) (fun e => nomatch e)

theorem TableRow.wait (x : Barrier) : TableRow.Statement (.wait x) := by
  intro h
  have hx := barrier_fields_lt (x := x) (by simp [Instr.wf] at h; exact h.1)
  exact row_of_fields rfl (by simp [Instr.row]) hx.1 (by decide) hx.2 (fun e => nomatch e) (fun _ => rfl) (fun e => nomatch e)

theorem TableRow.swap : TableRow.Statement (.swap) := fun _ => by decide

theorem TableRow.halt : TableRow.Statement (.halt) := fun _ => by decide

end Laws
end Sys2Proof
end

