-- ==== Sys2Proof/Certificates/Slice0/Obligations.lean ====
section
/-! DEFINITION. The statements for the provers. Each docstring names the rules of the spec it formalises. -/

open Sys2Proof Sys2Proof.Machine

/-! Encoding. -/

/-- 30_encoding R110 to R115: decoding the word of any well-formed operation gives the operation back. -/
def Obligations.DecodeOfEncode : Prop :=
  ∀ i : Instr, i.wf = true → decode (encode i) = some i

/-- 30_encoding R115: a word has at most one meaning and only well-formed operations are decoded; re-encoding what was
decoded gives the word, so every unused field of a decoded word was zero.
30_encoding R115: the reserved words, each class of them. -/
def Obligations.OnlyTableWordsDecode : Prop :=
  (∀ (w : Word) (i : Instr), decode w = some i → i.wf = true ∧ encode i = w)
  ∧ ((∀ w : Word, opcOf w ∉ [0x10, 0x11, 0x12, 0x13, 0x14, 0x15, 0x16, 0x17, 0x18, 0x20, 0x21, 0x22, 0x23, 0x24, 0x25,
       0x26, 0x27, 0x28, 0x29, 0x2A, 0x2B, 0x2C, 0x2D, 0x30, 0x31, 0x32, 0x33, 0x34, 0x35, 0x40, 0x41, 0x42, 0x43,
       0x50, 0x51, 0x52, 0x53] → decode w = none)
     ∧ (∀ w : Word, opcOf w ∈ [0x10, 0x11, 0x12] → bufOf w ≠ 4 → bufOf w ≠ 7 → decode w = none)
     ∧ (∀ w : Word, opcOf w ∈ [0x10, 0x11, 0x12] → bufOf w = 4 → idxOf w ≠ 0 → decode w = none)
     ∧ (∀ w : Word, opcOf w ∈ [0x11, 0x12] → auxOf w = 0 → decode w = none)
     ∧ (∀ w : Word, opcOf w = 0x14 → bufOf w ≠ 10 → bufOf w ≠ 11 → decode w = none)
     ∧ (∀ w : Word, opcOf w = 0x2D → auxOf w = 0 ∨ 4 < auxOf w → decode w = none)
     ∧ (∀ w : Word, opcOf w ∈ [0x50, 0x51] → 6 ≤ bufOf w → decode w = none)
     ∧ (∀ w : Word, opcOf w ∈ [0x50, 0x51] → bufOf w ≤ 1 → idxOf w ≠ 0 → decode w = none)
     ∧ (∀ w : Word, opcOf w ∈ [0x10, 0x14, 0x30, 0x31, 0x33, 0x34, 0x35, 0x50, 0x51] → auxOf w ≠ 0 → decode w = none)
     ∧ (∀ w : Word, opcOf w ∈ [0x30, 0x31, 0x33, 0x34, 0x35, 0x2D] → bufOf w ≠ 0 → decode w = none)
     ∧ (∀ w : Word, opcOf w ∈ [0x14, 0x2D] → idxOf w ≠ 0 → decode w = none)
     ∧ decode 0x51400000#32 = none ∧ decode 0x00000000#32 = none ∧ decode 0xFFFFFFFF#32 = none)

/-- 30_encoding R113, R114: the word of every row, for every operand its fields can hold. -/
def Obligations.WordsOfEveryRow : Prop :=
  (∀ i : Nat, i < 65536 →
    decode (0x10700000#32 + BitVec.ofNat 32 i) = some (.bitrev (.zf i))
    ∧ decode (0x30000000#32 + BitVec.ofNat 32 i) = some (.derot i)
    ∧ decode (0x31000000#32 + BitVec.ofNat 32 i) = some (.cperr i)
    ∧ decode (0x33000000#32 + BitVec.ofNat 32 i) = some (.ldsym i)
    ∧ decode (0x34000000#32 + BitVec.ofNat 32 i) = some (.dqpsk i)
    ∧ decode (0x35000000#32 + BitVec.ofNat 32 i) = some (.soft i)
    ∧ decode (0x50200000#32 + BitVec.ofNat 32 i) = some (.sig (.ws i))
    ∧ decode (0x50300000#32 + BitVec.ofNat 32 i) = some (.sig (.wp i))
    ∧ decode (0x50400000#32 + BitVec.ofNat 32 i) = some (.sig (.wf i))
    ∧ decode (0x50500000#32 + BitVec.ofNat 32 i) = some (.sig (.wd i))
    ∧ decode (0x51200000#32 + BitVec.ofNat 32 i) = some (.wait (.ws i))
    ∧ decode (0x51300000#32 + BitVec.ofNat 32 i) = some (.wait (.wp i))
    ∧ decode (0x51400000#32 + BitVec.ofNat 32 i) = (if i = 0 then none else some (.wait (.wf i)))
    ∧ decode (0x51500000#32 + BitVec.ofNat 32 i) = some (.wait (.wd i))
    ∧ ∀ st : Nat, 1 ≤ st → st < 16 →
      decode (0x11700000#32 + BitVec.ofNat 32 (65536 * st + i)) = some (.bflyf (.zf i) st)
      ∧ decode (0x12700000#32 + BitVec.ofNat 32 (65536 * st + i)) = some (.bflyi (.zf i) st))
  ∧ (∀ st : Nat, 1 ≤ st → st < 16 →
      decode (0x11400000#32 + BitVec.ofNat 32 (65536 * st)) = some (.bflyf .sa st)
      ∧ decode (0x12400000#32 + BitVec.ofNat 32 (65536 * st)) = some (.bflyi .sa st))
  ∧ [0x10400000#32, 0x14A00000#32, 0x14B00000#32, 0x2D010000#32, 0x2D020000#32, 0x2D030000#32, 0x2D040000#32,
      0x50000000#32, 0x50100000#32, 0x51000000#32, 0x51100000#32].map decode
    = [some (.bitrev .sa), some (.cmul .prsf), some (.cmul .prst), some (.adv .readNullPrs), some (.adv .coarseFreq),
      some (.adv .fineTime), some (.adv .readSymbols), some (.sig .cs), some (.sig .ce), some (.wait .cs), some (.wait .ce)]
  ∧ [0x13000000#32, 0x15000000#32, 0x16000000#32, 0x17000000#32, 0x18000000#32, 0x20000000#32, 0x21000000#32,
      0x22000000#32, 0x23000000#32, 0x24000000#32, 0x25000000#32, 0x26000000#32, 0x27000000#32, 0x28000000#32,
      0x29000000#32, 0x2A000000#32, 0x2B000000#32, 0x2C000000#32].map decode
    = [some .delta, some .mag, some .lmag, some .pllp, some .ldprs, some .nsamp, some .l1win, some .ncap, some .capp,
      some .fczero, some .peakc, some .fcupd, some .peakw, some .ftchk, some .prscp, some .iapp, some .nullcp, some .desync]
  ∧ [0x32000000#32, 0x40000000#32, 0x41000000#32, 0x42000000#32, 0x43000000#32, 0x52000000#32, 0x53000000#32].map decode
    = [some .phpub, some .rel, some .phavg, some .ffupd, some .emit, some .swap, some .halt]

/-- 30_encoding R114 (its example words): a sanity check of a few words. -/
def Obligations.ExampleWordsDecode : Prop :=
  decode 0x11720003#32 = some (.bflyf (.zf 3) 2) ∧ decode 0x14B00000#32 = some (.cmul .prst)
    ∧ decode 0x2D030000#32 = some (.adv .fineTime) ∧ decode 0x30000005#32 = some (.derot 5)
    ∧ decode 0x51400001#32 = some (.wait (.wf 1)) ∧ decode 0x50000000#32 = some (.sig .cs)

/-- 00_scope R17; 20_memory R88, R97; 30_encoding R113 to R115; 45 R266: what the machine refuses an issuing agent, each
range and table written out. In this order, which is the model's (log entry 14): a worker that does not exist, an operand
outside its range, an agent not entitled, a slot or buffer not owned, a moment outside the phases of R88. The phase bits
`holds`, `sawWf` and `sawWp` are the model's record of the waits that R88 names. -/
def Obligations.WrongIssuerOrOperandIsRefused : Prop :=
  (∀ (j : Instr) (s : State) (w : Nat), s.cur = .worker w → s.T ≤ w → exec j s = .refused .noSuchAgent)
  ∧ ∀ s : State, (∀ w, s.cur = .worker w → w < s.T) →
    -- operands (R113)
    ((∀ i st, s.par.F < i → ∀ j ∈ [Instr.bitrev (.zf i), .bflyf (.zf i) st, .bflyi (.zf i) st, .derot i, .ldsym i],
        exec j s = .refused .reservedOperand)
      ∧ (∀ L b st, s.par.N = 2 ^ L → st = 0 ∨ L < st → ∀ j ∈ [Instr.bflyf b st, .bflyi b st],
        exec j s = .refused .reservedOperand)
      ∧ (∀ i, s.par.F ≤ i → exec (.cperr i) s = .refused .reservedOperand)
      ∧ (∀ i, s.par.F ≤ i + 1 → ∀ j ∈ [Instr.dqpsk i, .soft i], exec j s = .refused .reservedOperand)
      ∧ (∀ w, s.T ≤ w → ∀ x ∈ [Barrier.ws w, .wp w, .wf w, .wd w], ∀ j ∈ [Instr.sig x, .wait x],
        exec j s = .refused .reservedOperand)
      ∧ ∀ j ∈ [Instr.adv .findNull, .wait (.wf 0)], exec j s = .refused .reservedOperand)
    -- the last column of R114 and the table of R266
    ∧ (∀ j : Instr, exec j s ≠ .refused .reservedOperand →
        ¬ (match j with
          | .bitrev _ | .bflyf _ _ => s.cur ≠ .coord
          | .bflyi _ _ | .delta | .cmul _ | .mag | .lmag | .pllp | .ldprs | .nsamp | .l1win | .ncap | .capp | .fczero
          | .peakc | .fcupd | .peakw | .ftchk | .prscp | .iapp | .nullcp | .desync | .adv _ | .swap
          | .sig .cs | .wait .ce => s.cur = .ingest
          | .derot _ | .cperr _ | .phpub | .ldsym _ | .dqpsk _ | .soft _ => ∃ w, s.cur = .worker w
          | .rel | .phavg | .ffupd | .emit | .sig .ce | .sig (.ws _) | .wait .cs | .wait (.wp _) | .wait (.wd _) =>
            s.cur = .coord
          | .sig (.wp w) | .sig (.wf w) | .sig (.wd w) | .wait (.ws w) => s.cur = .worker w
          | .wait (.wf w) => 1 ≤ w ∧ s.cur = .worker (w - 1)
          | .halt => True) →
        exec j s = .refused .notEntitled)
    -- slots and `SA` (R88, R113)
    ∧ (∀ w, s.cur = .worker w →
        (∀ i st, i ≤ s.par.F → i < w * ((s.par.F + 1) / s.T) ∨ (w + 1 < s.T ∧ (w + 1) * ((s.par.F + 1) / s.T) ≤ i) →
          ∀ j ∈ [Instr.bitrev (.zf i), .bflyf (.zf i) st, .derot i, .cperr i, .ldsym i, .dqpsk i, .soft i],
            exec j s ≠ .refused .reservedOperand → exec j s = .refused .notOwned)
        ∧ ∀ st, ∀ j ∈ [Instr.bitrev .sa, .bflyf .sa st],
            exec j s ≠ .refused .reservedOperand → exec j s = .refused .notOwned)
    ∧ (s.cur = .ingest → ∀ i st, ∀ j ∈ [Instr.bitrev (.zf i), .bflyf (.zf i) st, .bflyi (.zf i) st],
        exec j s ≠ .refused .reservedOperand → exec j s = .refused .notOwned)
    -- phases (R88)
    ∧ (∀ w i, issuesAsOwner s w i → i ≤ s.par.F →
        ((s.wk w).holds = false → ∀ j ∈ [Instr.derot i, .cperr i, .ldsym i, .soft i],
          exec j s ≠ .refused .reservedOperand → exec j s = .refused .outOfPhase)
        ∧ (s.frameValid = true → i + 2 ≤ s.par.F → exec (.soft i) s = .refused .outOfPhase)
        ∧ (i + 1 = endOf s.par s.T w → (s.wk w).sawWf = false → i + 2 ≤ s.par.F →
          exec (.dqpsk i) s = .refused .outOfPhase)
        ∧ (1 ≤ w → i = startOf s.par s.T w → (s.wk w).wf = true → ∀ st,
          ∀ j ∈ [Instr.bitrev (.zf i), .bflyf (.zf i) st, .ldsym i],
            exec j s ≠ .refused .reservedOperand → exec j s = .refused .outOfPhase))
    ∧ (∀ w, s.cur = .worker w → (s.wk w).wp = true → exec .phpub s = .refused .outOfPhase)
    ∧ (∀ w, s.cur = .coord → w < s.T → (s.wk w).sawWp = false → exec .phavg s = .refused .outOfPhase)
    ∧ (s.cur = .ingest →
        (s.coPc ≠ 0 ∨ s.cs = true ∨ ∃ w, w < s.T ∧ ((s.wk w).holds = true ∨ (s.wk w).ws = true)) →
        exec .swap s = .refused .outOfPhase)

/-! The step. -/

/-- 00_scope R16: a turn that issues a word runs exactly the operation the word decodes to, as the agent of the turn.
00_scope R17, 30_encoding R115: a word that decodes to nothing is refused. -/
def Obligations.StepRunsTheDecodedWord : Prop :=
  ∀ (s : State) (a : Agent) (w : Word) (rest : List Turn),
    s.turns = .issue a w :: rest → s.en = true → s.isHalted a = false →
    (∀ i, decode w = some i → step s = exec i { s with turns := rest, cur := a })
    ∧ (decode w = none → step s = .refused .reservedWord)

/-- 00_scope R16, 30_encoding R110, R120: an agent's own turn runs the operation at its position in its list, a turn of a
test program the word it names; the trace reports the agent's number and the word if the operation is not refused and does
not wait (that a retried operation is reported once is the model's choice, log entry 27).
00_scope R15: past the laid-down turns some existing agent takes its own turn; which one is a free value.
10_state R43, 45_synchronisation R264: while `en = 0`, and once it has halted, an agent takes no step; neither that, nor a
turn of the host, nor a reserved word is reported.
70 R324: at the end of a run the agents' turns change no register, flag or buffer. -/
def Obligations.TurnsOfTheAgents : Prop :=
  (∀ (s : State) (a : Agent) (i : Instr) (w : Word) (rest : List Turn),
     (s.turns = .run a :: rest ∧ agentExists s.T a = true ∧ s.nextInstr a = some i ∧ i.wf = true ∧ w = encode i)
       ∨ (s.turns = .issue a w :: rest ∧ decode w = some i) →
     s.en = true → s.isHalted a = false →
     step s = exec i { s with turns := rest, cur := a }
     ∧ (∀ t, step s = .next t → s.traced = if s.waits i = true then none else some (a.number, w))
     ∧ ∀ r, step s = .refused r → s.traced = none)
  ∧ (∀ s : State, s.turns = [] → ∃ a, agentExists s.T a = true ∧
     step s = step { s with turns := [.run a], tick := s.tick + 1 }
     ∧ s.traced = { s with turns := [.run a], tick := s.tick + 1 }.traced)
  ∧ (∀ (s : State) (a : Agent) (w : Word) (rest : List Turn),
     (s.en = false ∨ s.isHalted a = true →
       (s.turns = .run a :: rest → step s = .next { s with turns := rest } ∧ s.traced = none)
       ∧ (s.turns = .issue a w :: rest → step s = .next { s with turns := rest } ∧ s.traced = none))
     ∧ (s.turns = .issue a w :: rest → decode w = none → s.traced = none)
     ∧ ∀ h, s.turns = .host h :: rest → s.traced = none)
  ∧ ∀ s t : State, s.T ≤ 65536 → runEnded s → noMoreInput s → step s = .next t →
     t = { s with turns := t.turns, tick := t.tick, cur := t.cur } ∧ runEnded t ∧ noMoreInput t

/-- 10_state R32, 60 R295: every operation that neither blocks nor sets a position moves its agent's position by one,
back to 0 after the last, and no other agent's. -/
def Obligations.PositionsAdvanceByOne : Prop :=
  ∀ (i : Instr) (s t : State), exec i s = .next t → isPlain i = true →
    (s.cur = .ingest → ¬ (s.acqState = .findNull ∧ s.acqSub ≤ 1) → ¬ (s.acqState = .readNullPrs ∧ s.acqSub = 0) →
      ¬ (s.acqState = .readSymbols ∧ s.acqSub = 0) → t.acqSub = s.acqSub + 1)
    ∧ (s.cur = .coord → t.coPc = (s.coPc + 1) % (coordOps s.T).length)
    ∧ (∀ w, s.cur = .worker w → (t.wk w).pc = ((s.wk w).pc + 1) % (workerOps s.par s.T w).length)
    ∧ (s.cur ≠ .ingest → t.acqSub = s.acqSub) ∧ (s.cur ≠ .coord → t.coPc = s.coPc)
    ∧ (∀ w, s.cur ≠ .worker w → (t.wk w).pc = (s.wk w).pc) ∧ t.acqState = s.acqState

/-- 42 R171, R175, R185: the loops of the three states that take samples, and what follows each; `L1WIN` takes no sample. -/
def Obligations.AcquisitionLoops : Prop :=
  ∀ (s t : State), s.ingDivert = .none →
    (s.acqState = .findNull → s.acqSub = 1 → exec .l1win s = .next t →
      t.nextInstr .ingest = some (if t.nullEnd then .ncap else .nsamp))
    ∧ (s.stop = false → s.samples ≠ [] →
      (s.acqState = .findNull → s.acqSub = 0 → exec .nsamp s = .next t →
        t.nextInstr .ingest = some (if t.l1Cnt = t.K then .l1win else if t.nullEnd then .ncap else .nsamp))
      ∧ (s.acqState = .readNullPrs → s.acqSub = 0 → exec .capp s = .next t →
        t.nextInstr .ingest = some (if t.corrLen = t.par.P + t.par.S then .adv .coarseFreq else .capp))
      ∧ (s.acqState = .readSymbols → s.acqSub = 0 → exec .iapp s = .next t →
        t.nextInstr .ingest = some (if t.ingLen = t.par.F * t.par.S + t.par.P then .nullcp else .iapp)))

/-! The transform and the other operations on `SA` (group 0x1_). -/

/-- 41 R142: `rev_L` reverses the `L` binary digits and is its own inverse.
41 R150: `BITREV` completes on `SA` and on an owned slot, permutes the `N` elements and changes nothing else. -/
def Obligations.BitReversalAndBitrev : Prop :=
  (∀ L n : Nat, n < 2 ^ L →
     Dsp.rev L n < 2 ^ L ∧ Dsp.rev L (Dsp.rev L n) = n
     ∧ ∀ b, b < L → (Dsp.rev L n).testBit (L - 1 - b) = n.testBit b)
  ∧ (∀ (b : XBuf) (s : State), holdsXBuf s b → s.par.N = 2 ^ s.par.L →
     ∃ t, exec (.bitrev b) s = .next t ∧ onlyXBuf s t b
       ∧ ∀ n, n < s.par.N → (t.xbuf b).rd (Dsp.rev s.par.L n) = (s.xbuf b).rd n)

/-- 41 R151, R143: `BFLYF` completes and does every butterfly of its stage with `TW[j·r]`. -/
def Obligations.ForwardButterflyResult : Prop :=
  ∀ (b : XBuf) (st : Nat) (s : State), holdsXBuf s b → s.par.N = 2 ^ s.par.L → 1 ≤ st → st ≤ s.par.L →
    ∃ t, exec (.bflyf b st) s = .next t ∧ onlyXBuf s t b
      ∧ ∀ k j, j < 2 ^ (st - 1) → k * 2 ^ st + j + 2 ^ (st - 1) < s.par.N →
        let p := (Twiddle.tw s.par.N (j * (s.par.N / 2 ^ st))).mul ((s.xbuf b).rd (k * 2 ^ st + j + 2 ^ (st - 1)))
        let u := (s.xbuf b).rd (k * 2 ^ st + j)
        (t.xbuf b).rd (k * 2 ^ st + j) = u.add p ∧ (t.xbuf b).rd (k * 2 ^ st + j + 2 ^ (st - 1)) = u.sub p

/-- 41 R152, R143: `BFLYI` on `SA` completes and does every butterfly of its stage with `conj(TW[j·r])`.
30_encoding R113 to R115, 20_memory R88: only the ingest agent may issue `BFLYI` and it owns no slot of `ZF`, so the
`ZF` form is refused to every agent. -/
def Obligations.InverseButterflyResults : Prop :=
  (∀ (st : Nat) (s : State), s.cur = .ingest → s.par.N = 2 ^ s.par.L → 1 ≤ st → st ≤ s.par.L →
     ∃ t, exec (.bflyi .sa st) s = .next t ∧ onlyXBuf s t .sa
       ∧ ∀ k j, j < 2 ^ (st - 1) → k * 2 ^ st + j + 2 ^ (st - 1) < s.par.N →
         let p := (Twiddle.tw s.par.N (j * (s.par.N / 2 ^ st))).conj.mul (s.sa.rd (k * 2 ^ st + j + 2 ^ (st - 1)))
         let u := s.sa.rd (k * 2 ^ st + j)
         t.sa.rd (k * 2 ^ st + j) = u.add p ∧ t.sa.rd (k * 2 ^ st + j + 2 ^ (st - 1)) = u.sub p)
  ∧ (∀ (i st : Nat) (s : State), agentExists s.T s.cur = true → i ≤ s.par.F → 1 ≤ st → st ≤ s.par.L →
     exec (.bflyi (.zf i) st) s = .refused (if s.cur = .ingest then .notOwned else .notEntitled))

/-- 41 R155, R147: `DELTA`.
41 R156: `CMUL` by either reference table.
41 R160: `LDPRS`; which `N` of the window's samples it takes is the spec's decision D12. -/
def Obligations.ScratchBufferResults : Prop :=
  (decode 0x13000000#32 = some .delta ∧
   ∀ s : State, s.cur = .ingest → 1 ≤ s.par.N →
     ∃ t, exec .delta s = .next t ∧ t = { s with sa := t.sa, acqSub := t.acqSub }
       ∧ (∀ k, k + 1 < s.par.N → t.sa.rd k = (s.sa.rd k).conj.mul (s.sa.rd (k + 1)))
       ∧ t.sa.rd (s.par.N - 1) = Cplx.zero
       ∧ ∀ n, s.par.N ≤ n → t.sa.rd n = s.sa.rd n)
  ∧ (decode 0x14A00000#32 = some (.cmul .prsf) ∧ decode 0x14B00000#32 = some (.cmul .prst) ∧
   ∀ (r : RefTable) (s : State), s.cur = .ingest →
     ∃ t, exec (.cmul r) s = .next t ∧ t = { s with sa := t.sa, acqSub := t.acqSub }
       ∧ (∀ k, k < s.par.N → t.sa.rd k = (s.sa.rd k).mul (s.refElem r k))
       ∧ ∀ n, s.par.N ≤ n → t.sa.rd n = s.sa.rd n)
  ∧ (decode 0x18000000#32 = some .ldprs ∧
   ∀ s : State, s.cur = .ingest →
     ∃ t, exec .ldprs s = .next t ∧ t = { s with sa := t.sa, acqSub := t.acqSub }
       ∧ (∀ n, n < s.par.N → t.sa.rd n = s.corr.rd (s.par.P + n))
       ∧ ∀ n, s.par.N ≤ n → t.sa.rd n = s.sa.rd n)

/-- 41 R157, R158, R145, R146; 00_scope R11: `MAG` writes the shifted and `LMAG` the unshifted log-magnitude of `SA`,
`SA` unchanged; a zero gives `−∞`. That `LMAG` keeps the old `IMP` in `impPrev` is the model's choice (93 U8, log entry 17). -/
def Obligations.LogMagnitudeResults : Prop :=
  decode 0x15000000#32 = some .mag ∧ decode 0x16000000#32 = some .lmag ∧
  (∀ a : Cplx, a.dB = Fp.mul Fp.twenty (Fp.log10 a.modulus)
    ∧ (Fp.isZero a.re = true → Fp.isZero a.im = true → a.dB = Fp.negInf)) ∧
  ∀ s : State, s.cur = .ingest →
    (∃ t, exec .mag s = .next t ∧ t = { s with spec := t.spec, acqSub := t.acqSub }
      ∧ (∀ i, i < s.par.N → t.spec.rd i = (s.sa.rd ((i + s.par.N / 2) % s.par.N)).dB)
      ∧ ∀ n, s.par.N ≤ n → t.spec.rd n = s.spec.rd n)
    ∧ (∃ t, exec .lmag s = .next t ∧ t = { s with imp := t.imp, impPrev := some s.imp, acqSub := t.acqSub }
      ∧ (∀ k, k < s.par.N → t.imp.rd k = (s.sa.rd k).dB)
      ∧ ∀ n, s.par.N ≤ n → t.imp.rd n = s.imp.rd n)

/-- 41 R159, R140: `PLLP` rotates `SA` by the phasor of the one sum `f_coarse + f_fine`; at frequency zero by `(1, 0)`. -/
def Obligations.PllpResult : Prop :=
  decode 0x17000000#32 = some .pllp ∧
  ∀ s : State, s.cur = .ingest →
    ∃ t, exec .pllp s = .next t ∧ t = { s with sa := t.sa, acqSub := t.acqSub }
      ∧ (∀ i, i < s.par.N → t.sa.rd i = (s.sa.rd i).mul (Cplx.rot Fp.zero (Fp.add s.fCoarse s.fFine) i))
      ∧ (Fp.isZero (Fp.add s.fCoarse s.fFine) = true → ∀ i, i < s.par.N → t.sa.rd i = (s.sa.rd i).mul Cplx.one)
      ∧ ∀ n, s.par.N ≤ n → t.sa.rd n = s.sa.rd n

/-- 41 R153, R154; 30_encoding R119: the words of `FFT b` and of `IFFT SA`, one after the other, complete and leave the
bit reversal and all stages, in NUM, in the buffer; nothing else changes. -/
def Obligations.TransformsByTheirWords : Prop :=
  (∀ (b : XBuf) (s : State), holdsXBuf s b → s.par.N = 2 ^ s.par.L →
    ∃ t, execAll (fftOps s.par.L b) s = .next t ∧ onlyXBuf s t b
      ∧ ∀ k, k < s.par.N →
        (t.xbuf b).rd k = Dsp.transform Dsp.num s.par.L (Dsp.twF s.par.N) (s.xbuf b).rd k)
  ∧ ∀ s : State, s.cur = .ingest → s.par.N = 2 ^ s.par.L →
    ∃ t, execAll (ifftOps s.par.L) s = .next t ∧ onlyXBuf s t .sa
      ∧ ∀ k, k < s.par.N → t.sa.rd k = Dsp.transform Dsp.num s.par.L (Dsp.twI s.par.N) s.sa.rd k

/-- 41 R143, R141: over exact numbers the same bit reversal and stages are `FFT`, with the inverse twiddles `IFFT`, of
R141, unscaled. -/
def Obligations.PipelineIsTheFourierTransform : Prop :=
  ∀ (L : Nat) (x : Nat → ℂ) (k : Nat), k < 2 ^ L →
    Dsp.transform exactArith L exactTw x k = exactFft (2 ^ L) x k
    ∧ Dsp.transform exactArith L exactTwInv x k = exactIfft (2 ^ L) x k

/-! The acquisition (group 0x2_). -/

/-- 42 R172, R170: `NSAMP` with a sample offered, and blocked without one. -/
def Obligations.NsampResult : Prop :=
  decode 0x20000000#32 = some .nsamp ∧
  ∀ s : State, s.cur = .ingest → s.stop = false →
    (s.samples = [] → exec .nsamp s = .next s)
    ∧ ∀ x rest, s.samples = x :: rest → s.circWr < s.par.P →
      ∃ t, exec .nsamp s = .next t
        ∧ t = { s with samples := rest, circ := t.circ, circWr := (s.circWr + 1) % s.par.P,
                       l1Acc := Fp.add s.l1Acc (Fp.add (Fp.abs x.re) (Fp.abs x.im)), l1Cnt := s.l1Cnt + 1,
                       acqSub := t.acqSub }
        ∧ t.circ.rd s.circWr = x ∧ ∀ n, n ≠ s.circWr → t.circ.rd n = s.circ.rd n

/-- 42 R173, 10_state R38: `L1WIN`: mean, strict tests against the average of before, never both flags in one window,
the average updated only by the first of `D` windows. -/
def Obligations.L1winResult : Prop :=
  decode 0x21000000#32 = some .l1win ∧
  ∀ s : State, s.cur = .ingest →
    ∃ t, exec .l1win s = .next t
      ∧ t = { s with l1Last := t.l1Last, l1Acc := Fp.zero, l1Cnt := 0, nullStart := t.nullStart,
                     nullEnd := t.nullEnd, l1Avg := t.l1Avg, l1Win := (s.l1Win + 1) % s.D, acqSub := t.acqSub }
      ∧ t.l1Last = Fp.div s.l1Acc (Fp.ofNat s.K)
      ∧ (s.nullStart = false →
          t.nullStart = Fp.lt t.l1Last (Fp.mul s.cfg.threshNullStart s.l1Avg) ∧ t.nullEnd = s.nullEnd)
      ∧ (s.nullStart = true → t.nullStart = true
          ∧ t.nullEnd = (s.nullEnd || Fp.lt (Fp.mul s.cfg.threshNullEnd s.l1Avg) t.l1Last))
      ∧ t.l1Avg = (if s.l1Win = 0 then
          Fp.add s.l1Avg (Fp.mul s.cfg.l1UpdateBeta (Fp.sub t.l1Last s.l1Avg)) else s.l1Avg)

/-- 42 R174, R187: `NCAP` and `NULLCP`, the two operations that put a null in front of the correlation buffer.
That `NCAP` takes the last `P` samples up to the window's end and clears both flags is the spec's decision D11. -/
def Obligations.CorrelationPrefixResults : Prop :=
  decode 0x22000000#32 = some .ncap ∧ decode 0x2B000000#32 = some .nullcp ∧
  ∀ s : State, s.cur = .ingest →
    (∃ t, exec .ncap s = .next t
      ∧ t = { s with corr := t.corr, corrLen := s.par.P, nullStart := false, nullEnd := false, acqSub := t.acqSub }
      ∧ (∀ n, n < s.par.P → t.corr.rd n = s.circ.rd ((s.circWr + n) % s.par.P))
      ∧ ∀ n, s.par.P ≤ n → t.corr.rd n = s.corr.rd n)
    ∧ (∃ t, exec .nullcp s = .next t ∧ t = { s with corr := t.corr, corrLen := s.par.P, acqSub := t.acqSub }
      ∧ (∀ n, n < s.par.P → t.corr.rd n = s.inact.rd (s.par.F * s.par.S + n))
      ∧ ∀ n, s.par.P ≤ n → t.corr.rd n = s.corr.rd n)

/-- 42 R176, R186: `CAPP` and `IAPP` append the next sample.
42 R170: without one they block; that this is an unchanged next state is the model's reading (log entry 10). -/
def Obligations.AppendResults : Prop :=
  decode 0x23000000#32 = some .capp ∧ decode 0x2A000000#32 = some .iapp ∧
  ∀ s : State, s.cur = .ingest → s.stop = false →
    (s.samples = [] → exec .capp s = .next s ∧ exec .iapp s = .next s)
    ∧ ∀ x rest, s.samples = x :: rest →
      (s.corrLen < s.par.P + s.par.S → ∃ t, exec .capp s = .next t
        ∧ t = { s with samples := rest, corr := t.corr, corrLen := s.corrLen + 1, acqSub := t.acqSub }
        ∧ t.corr.rd s.corrLen = x ∧ ∀ n, n ≠ s.corrLen → t.corr.rd n = s.corr.rd n)
      ∧ (s.ingLen < s.par.F * s.par.S + s.par.P → ∃ t, exec .iapp s = .next t
        ∧ t = { s with samples := rest, ing0 := t.ing0, ing1 := t.ing1, ingLen := s.ingLen + 1, acqSub := t.acqSub }
        ∧ t.act = s.act ∧ t.inact.rd s.ingLen = x ∧ ∀ n, n ≠ s.ingLen → t.inact.rd n = s.inact.rd n)

/-- 42 R178, R180; 10_state R34: `FCZERO` and `FCUPD`. That `FCUPD` sets `is_found`, wraps by `fmod` and
wraps here too are the spec's decisions D16, D17 and D18 (log entry 25). -/
def Obligations.CoarseUpdateResults : Prop :=
  decode 0x24000000#32 = some .fczero ∧ decode 0x26000000#32 = some .fcupd ∧
  ∀ s : State, s.cur = .ingest →
    (∃ t, exec .fczero s = .next t ∧ t = { s with fCoarse := Fp.zero, acqSub := t.acqSub })
    ∧ ∃ t, exec .fcupd s = .next t
      ∧ t = { s with fCoarse := t.fCoarse, fFine := t.fFine, isFound := true, acqSub := t.acqSub }
      ∧ let e := Fp.sub (Fp.div (Fp.ofInt (-s.peakOff)) (Fp.ofNat s.par.N)) s.fCoarse
        let β := if Fp.lt (Fp.div Fp.oneHalf3 (Fp.ofNat s.par.N)) (Fp.abs e) = true ∨ s.isFound = false
                 then Fp.one else s.cfg.coarseFreqSlowBeta
        t.fCoarse = Fp.add s.fCoarse (Fp.mul β e)
        ∧ t.fFine = Fp.fmod (Fp.sub s.fFine (Fp.mul β e)) (Fp.div Fp.c0505 (Fp.ofNat s.par.N))

/-- 42 R179: `PEAKC`: the peak lies in the search window without index `N`, no candidate is above it, none before it is
as high, and a NaN wins only as the first candidate.
42 R179: the half width of the search: `floor(w_max·N)` clamped to `[0, N/2]`. -/
def Obligations.PeakcResults : Prop :=
  (decode 0x25000000#32 = some .peakc ∧
   ∀ s : State, s.cur = .ingest → s.par.legal = true →
     ∃ (t : State) (best : Nat), exec .peakc s = .next t ∧ t = { s with peakOff := (best : Int) - ((s.par.N / 2 : Nat) : Int), acqSub := t.acqSub }
       ∧ let W := searchHalfWidth s
         W ≤ s.par.N / 2 ∧ s.par.N / 2 - W ≤ best ∧ best ≤ s.par.N / 2 + W ∧ best ≠ s.par.N
         ∧ ∀ i, s.par.N / 2 - W ≤ i → i ≤ s.par.N / 2 + W → i ≠ s.par.N →
           Fp.lt (s.spec.rd best) (s.spec.rd i) = false
           ∧ (i < best → Fp.isNaN (s.spec.rd i) = false → Fp.lt (s.spec.rd i) (s.spec.rd best) = true)
           ∧ (Fp.isNaN (s.spec.rd best) = true → best = s.par.N / 2 - W))
  ∧ (∀ s : State, Fp.isFinite (Fp.mul s.cfg.maxCoarseFreqNorm (Fp.ofNat s.par.N)) = true →
     (searchHalfWidth s : Int)
       = min (max ⌊Fp.value (Fp.mul s.cfg.maxCoarseFreqNorm (Fp.ofNat s.par.N))⌋ 0) ((s.par.N / 2 : Nat) : Int))

/-- 42 R182: `PEAKW`: the mean, and the first index whose weighted value no other exceeds. -/
def Obligations.PeakwResult : Prop :=
  decode 0x27000000#32 = some .peakw ∧
  ∀ s : State, s.cur = .ingest → 1 ≤ s.par.N →
    ∃ t, exec .peakw s = .next t ∧ t = { s with impMu := t.impMu, impK := t.impK, impW := t.impW, acqSub := t.acqSub }
      ∧ t.impMu = Fp.div (Dsp.sum s.par.N s.imp.rd) (Fp.ofNat s.par.N)
      ∧ let val := fun k : Nat => Fp.mul (Fp.sub Fp.one (Fp.div (Fp.mul (Fp.sub Fp.one s.cfg.impulsePeakDistProb)
          (Fp.ofNat ((k : Int) - (s.par.G : Int)).natAbs)) (Fp.ofNat s.par.S))) (s.imp.rd k)
        t.impW = val t.impK ∧ t.impK < s.par.N
        ∧ ∀ k, k < s.par.N → Fp.lt (val t.impK) (val k) = false
          ∧ (k < t.impK → Fp.isNaN (val k) = false → Fp.lt (val k) (val t.impK) = true)
          ∧ (Fp.isNaN (val t.impK) = true → t.impK = 0)

/-- 42 R183; 60 R281, R286: `FTCHK` raises Desync exactly when `imp_w − imp_mu < θ_imp`, writing nothing but the pending
`DESYNC`, which is then the ingest agent's next operation; otherwise it sets the offset and moves on by one (60 R295).
60 R286, R285: once Desync is raised, whatever the other agents and the host (but for `rst`) do, the ingest agent's
next operation stays `DESYNC`. -/
def Obligations.FtchkRaisesDesync : Prop :=
  (decode 0x28000000#32 = some .ftchk ∧
   ∀ s : State, s.cur = .ingest →
     (Fp.lt (Fp.sub s.impW s.impMu) s.cfg.impulsePeakThreshDb = true →
       ∃ t, exec .ftchk s = .next t ∧ t = { s with ingDivert := .desync } ∧ t.nextInstr .ingest = some .desync)
     ∧ (Fp.lt (Fp.sub s.impW s.impMu) s.cfg.impulsePeakThreshDb = false →
       ∃ t, exec .ftchk s = .next t
         ∧ t = { s with fineTimeOffset := (s.impK : Int) - (s.par.G : Int), acqSub := t.acqSub }
         ∧ (s.acqState = .fineTime → t.acqSub = s.acqSub + 1)))
  ∧ (∀ s t : State, s.ingDivert = .desync → step s = .next t → s.turns ≠ [] →
     (∀ rest, s.turns ≠ .run .ingest :: rest) → (∀ w rest, s.turns ≠ .issue .ingest w :: rest) →
     (∀ rest, s.turns ≠ .host .rst :: rest) →
     t.ingDivert = .desync ∧ t.nextInstr .ingest = some .desync)

/-- 42 R184, 20_memory R83: `PRSCP` for every offset `FTCHK` can set. -/
def Obligations.PrscpResult : Prop :=
  decode 0x29000000#32 = some .prscp ∧
  ∀ s : State, s.cur = .ingest → s.par.legal = true →
    -(s.par.G : Int) ≤ s.fineTimeOffset → s.fineTimeOffset ≤ (s.par.N : Int) - 1 - (s.par.G : Int) →
    ∃ t, exec .prscp s = .next t ∧ t = { s with ing0 := t.ing0, ing1 := t.ing1, ingLen := t.ingLen, acqSub := t.acqSub }
      ∧ (t.ingLen : Int) = (s.par.S : Int) - s.fineTimeOffset ∧ t.ingLen ≤ s.par.S + s.par.G
      ∧ 2 * s.par.G + 1 ≤ t.ingLen
      ∧ (∀ n k : Nat, n < t.ingLen → (k : Int) = (s.par.P : Int) + s.fineTimeOffset + (n : Int) →
          t.inact.rd n = s.corr.rd k)
      ∧ (∀ n, t.ingLen ≤ n → t.inact.rd n = s.inact.rd n) ∧ t.act = s.act

/-- 42 R188: `ADV` to each of its four targets; the model's own record of the impulse response `LMAG` overwrote ends
with the state (log entry 17).
42 R189; 60 R287: `DESYNC` writes exactly what R189 lists; FIND_NULL's list follows. The list rests on the spec's
decisions D8, D11 and D16; the pending diversion and `impPrev` that it ends are the model's (log entries 12, 17). -/
def Obligations.AdvAndDesyncResults : Prop :=
  (∀ (a : AcqState) (s : State), s.cur = .ingest → a ≠ .findNull →
     exec (.adv a) s = .next { s with acqState := a, acqSub := 0, impPrev := none })
  ∧ (decode 0x2C000000#32 = some .desync ∧
   ∀ s : State, s.cur = .ingest →
     ∃ t, exec .desync s = .next t
       ∧ t = { s with framesDesync := s.framesDesync + 1, acqState := .findNull, acqSub := 0, corrLen := 0,
                      isFound := false, fFine := Fp.zero, fineTimeOffset := 0, nullStart := false, nullEnd := false,
                      l1Acc := Fp.zero, l1Cnt := 0, l1Win := 0, ingDivert := .none, impPrev := none }
       ∧ t.nextInstr .ingest = some .nsamp)

/-- 42 R190: the transition graph, complete: a step of the hardware that changes the state takes one of the six edges,
the one into FIND_NULL by `DESYNC`, counted. -/
def Obligations.TransitionGraph : Prop :=
  ∀ s t : State, modesFit s.modes → agentTurn s → (s.ingDivert = .desync → s.acqState = .fineTime) → step s = .next t →
    t.acqState ≠ s.acqState →
    ((s.acqState, t.acqState) ∈ [(.findNull, .readNullPrs), (.readNullPrs, .coarseFreq), (.coarseFreq, .fineTime),
        (.fineTime, .readSymbols), (.readSymbols, .readNullPrs)] ∧ t.framesDesync = s.framesDesync)
    ∨ (s.acqState = .fineTime ∧ t.acqState = .findNull ∧ t.framesDesync = s.framesDesync + 1)

/-- 42 R170: a sample is taken by exactly one sample-consuming operation; no other operation touches the stream.
70 R320, 20_memory R81: the host's offer of `s_data = {im, re}` appends one sample, the order kept. -/
def Obligations.SamplesAreTakenOnce : Prop :=
  (∀ (i : Instr) (s t : State), exec i s = .next t →
    t.samples = s.samples ∨ ((i = .nsamp ∨ i = .capp ∨ i = .iapp) ∧ s.stop = false ∧ ∃ x, s.samples = x :: t.samples))
  ∧ ∀ (s : State) (d : BitVec 64), ∃ x : Cplx,
    (∀ b, x.re.getLsbD b = (decide (b < 32) && d.getLsbD b)) ∧ (∀ b, x.im.getLsbD b = (decide (b < 32) && d.getLsbD (b + 32)))
    ∧ hostStep (.offer d) s = .next { s with samples := s.samples ++ [x] }

/-! The workers (group 0x3_). -/

/-- 43 R212; between `WAIT WS` and `SIG WD` (20_memory R88): `DEROT i` rotates the `S` samples of slot `i` by the phasor of their index in the frame. -/
def Obligations.DerotResult : Prop :=
  ∀ (i w : Nat) (s : State), issuesAsOwner s w i → i ≤ s.par.F → (s.wk w).holds = true →
    ∃ t, exec (.derot i) s = .next t ∧ t = { s with ing0 := t.ing0, ing1 := t.ing1, workers := t.workers }
      ∧ sameWorkersButPcOf s t w ∧ t.inact = s.inact
      ∧ (∀ k, k < s.par.S → t.act.rd (i * s.par.S + k)
          = (s.act.rd (i * s.par.S + k)).mul (Cplx.rot Fp.zero s.fSnap (i * s.par.S + k)))
      ∧ (Fp.isZero s.fSnap = true → ∀ k, k < s.par.S →
          t.act.rd (i * s.par.S + k) = (s.act.rd (i * s.par.S + k)).mul Cplx.one)
      ∧ ∀ n, n < i * s.par.S ∨ (i + 1) * s.par.S ≤ n → t.act.rd n = s.act.rd n

/-- 43 R213, R214; 41 R144; in their phases (20_memory R88): `CPERR i` adds the angle of the prefix product to the worker's sum, `PHPUB` publishes and
clears it. -/
def Obligations.PhaseErrorResults : Prop :=
  decode 0x32000000#32 = some .phpub ∧
  (∀ (i w : Nat) (s : State), issuesAsOwner s w i → i + 1 ≤ s.par.F → (s.wk w).holds = true →
    ∃ t, exec (.cperr i) s = .next t ∧ t = { s with workers := t.workers } ∧ sameOthers s t w
      ∧ t.wk w = { s.wk w with
          pc := (t.wk w).pc
          phAcc := Fp.add (s.wk w).phAcc (Cplx.arg ((List.range s.par.G).foldl
            (fun z k => z.add ((s.act.rd (i * s.par.S + k)).conj.mul (s.act.rd (i * s.par.S + s.par.N + k))))
            Cplx.zero)) })
  ∧ ∀ (w : Nat) (s : State), s.cur = .worker w → w < s.T → (s.wk w).wp = false →
    ∃ t, exec .phpub s = .next t ∧ t = { s with workers := t.workers } ∧ sameOthers s t w
      ∧ t.wk w = { s.wk w with pc := (t.wk w).pc, phSlot := (s.wk w).phAcc, phAcc := Fp.zero }

/-- 00_scope R11: the angle of a number without NaN lies in `(−π, π]`, and `arg(0) = 0`.
43 R217 (corner case): a finite nonzero product is normalised into the unit square, and onto its edge. -/
def Obligations.AngleAndNormalisedRanges : Prop :=
  (∀ z : Cplx, Fp.isNaN z.re = false → Fp.isNaN z.im = false →
     Fp.lt (Fp.neg Fp.pi) z.arg = true ∧ Fp.le z.arg Fp.pi = true
     ∧ (Fp.isZero z.re = true → Fp.isZero z.im = true → z.arg = Fp.zero))
  ∧ (∀ v : Cplx, Fp.isFinite v.re = true → Fp.isFinite v.im = true →
     (Fp.isZero v.re = false ∨ Fp.isZero v.im = false) →
     Fp.le (Fp.abs (normalise v).re) Fp.one = true ∧ Fp.le (Fp.abs (normalise v).im) Fp.one = true
     ∧ (Fp.abs (normalise v).re = Fp.one ∨ Fp.abs (normalise v).im = Fp.one))

/-- 43 R215; in its phase (20_memory R88): `LDSYM i` copies the FFT block of slot `i`. -/
def Obligations.LdsymResult : Prop :=
  ∀ (i w : Nat) (s : State), issuesAsOwner s w i → i ≤ s.par.F → (s.wk w).holds = true → mayWriteZf s w i →
    ∃ t, exec (.ldsym i) s = .next t ∧ t = { s with zf := t.zf, workers := t.workers } ∧ sameWorkersButPcOf s t w
      ∧ (∀ n, n < s.par.N → (t.zf.rd i).rd n = s.act.rd (i * s.par.S + s.par.G + n))
      ∧ (∀ n, s.par.N ≤ n → (t.zf.rd i).rd n = (s.zf.rd i).rd n) ∧ ∀ j, j ≠ i → t.zf.rd j = s.zf.rd j

/-- 43 R217; for the last slot of a range after `WAIT WF` (20_memory R88): `DQPSK i`: the differential product at every carrier's bin, divided by its L∞ norm; `(0, 0)` for a zero. -/
def Obligations.DqpskResult : Prop :=
  ∀ (i w : Nat) (s : State), issuesAsOwner s w i → i + 2 ≤ s.par.F → (i + 1 = endOf s.par s.T w → (s.wk w).sawWf = true) →
    ∃ t, exec (.dqpsk i) s = .next t ∧ t = { s with workers := t.workers } ∧ sameOthers s t w
      ∧ t.wk w = { s.wk w with pc := (t.wk w).pc, nv := (t.wk w).nv }
      ∧ (∀ j, j < s.par.C →
          let v := ((s.zf.rd (i + 1)).rd (bin s.par j)).mul ((s.zf.rd i).rd (bin s.par j)).conj
          let A := Fp.max (Fp.abs v.re) (Fp.abs v.im)
          (t.wk w).nv.rd j = if Fp.isZero A = true then Cplx.zero else ⟨Fp.div v.re A, Fp.div v.im A⟩)
      ∧ ∀ j, s.par.C ≤ j → (t.wk w).nv.rd j = (s.wk w).nv.rd j

/-- 43 R218; in its phase (20_memory R88): `SOFT i`: the `2C` soft bits of pair `i`, deinterleaved.
43 R218: the conversion to a soft bit: truncated toward zero and clamped, a NaN to 0, an infinity to the end of its
sign. -/
def Obligations.SoftResults : Prop :=
  (∀ (i w : Nat) (s : State), issuesAsOwner s w i → i + 2 ≤ s.par.F → (s.wk w).holds = true → s.frameValid = false →
     ∃ t, exec (.soft i) s = .next t ∧ t = { s with out := t.out, workers := t.workers } ∧ sameWorkersButPcOf s t w
       ∧ (∀ c, c < s.par.C →
           t.out.rd (i * (2 * s.par.C) + c)
             = Dsp.soft s.cfg.softHigh.toInt ((s.wk w).nv.rd (s.cmapAt c)).re
           ∧ t.out.rd (i * (2 * s.par.C) + s.par.C + c)
             = Dsp.soft s.cfg.softHigh.toInt (Fp.neg ((s.wk w).nv.rd (s.cmapAt c)).im))
       ∧ ∀ a, a < i * (2 * s.par.C) ∨ (i + 1) * (2 * s.par.C) ≤ a → t.out.rd a = s.out.rd a)
  ∧ (∀ (h : Int) (x : NUM), 1 ≤ h → h ≤ 127 →
     let y := Fp.mul (Fp.ofInt h) x
     (Fp.isNaN y = true → Dsp.soft h x = 0#8)
     ∧ (Fp.isInf y = true → (Dsp.soft h x).toInt = if Fp.neg? y then -h else h)
     ∧ (Fp.isFinite y = true →
         (Dsp.soft h x).toInt = max (-h) (min (if Fp.value y < 0 then ⌈Fp.value y⌉ else ⌊Fp.value y⌋) h)))

/-- 43 R211, R220: over all workers' lists every pair is demodulated and written by exactly one worker, once, and no
other pair is; `DQPSK` and `SOFT` of a pair are issued by the same worker.
43 R216, R219: in every worker's list each `DQPSK i` comes after `LDSYM` and the last butterfly stage of those of the slots
`i` and `i + 1` that are the worker's own, and after `WAIT WF[w + 1]` where slot `i + 1` is the next worker's. -/
def Obligations.PairsAcrossTheWorkerLists : Prop :=
  (∀ (p : Params) (T i : Nat), 2 ≤ p.F → 1 ≤ T → T ≤ p.F + 1 →
     (i + 2 ≤ p.F → ∃ w, w < T ∧ (workerOps p T w).count (.soft i) = 1 ∧ (workerOps p T w).count (.dqpsk i) = 1
       ∧ ∀ v, v < T → v ≠ w → Instr.soft i ∉ workerOps p T v ∧ Instr.dqpsk i ∉ workerOps p T v)
     ∧ (p.F < i + 2 → ∀ w, w < T → Instr.soft i ∉ workerOps p T w ∧ Instr.dqpsk i ∉ workerOps p T w))
  ∧ (∀ (p : Params) (T w i n : Nat), 2 ≤ p.F → 1 ≤ p.L → 1 ≤ T → T ≤ p.F + 1 → w < T →
     (workerOps p T w)[n]? = some (.dqpsk i) →
     (∃ m, m < n ∧ (workerOps p T w)[m]? = some (.ldsym i)
       ∧ ∃ m', m < m' ∧ m' < n ∧ (workerOps p T w)[m']? = some (.bflyf (.zf i) p.L))
     ∧ (i + 1 < endOf p T w → ∃ m, m < n ∧ (workerOps p T w)[m]? = some (.ldsym (i + 1))
       ∧ ∃ m', m < m' ∧ m' < n ∧ (workerOps p T w)[m']? = some (.bflyf (.zf (i + 1)) p.L))
     ∧ (i + 1 = endOf p T w → ∃ m, m < n ∧ (workerOps p T w)[m]? = some (.wait (.wf (w + 1)))))

/-- 00_scope R7: the worker ranges are not empty and partition `[0, F + 1)`. -/
def Obligations.WorkerRangesPartitionTheSlots : Prop :=
  ∀ (p : Params) (T : Nat), 1 ≤ T → T ≤ p.F + 1 →
    startOf p T 0 = 0 ∧ endOf p T (T - 1) = p.F + 1
    ∧ (∀ w, w < T → startOf p T w < endOf p T w)
    ∧ ∀ i, i ≤ p.F → ∃ w, w < T ∧ startOf p T w ≤ i ∧ i < endOf p T w
      ∧ ∀ v, v < T → startOf p T v ≤ i → i < endOf p T v → v = w

/-- 10_state R54, 00_scope R5: for a legal parameter set the carriers' bins are below `N`, distinct and never bin 0, and
the carrier numbers run from `−C/2` to `C/2` without 0. -/
def Obligations.CarrierBins : Prop :=
  ∀ p : Params, p.legal = true →
    (∀ j, j < p.C → bin p j < p.N ∧ bin p j ≠ 0 ∧ cprime p j ≠ 0
      ∧ -((p.C / 2 : Nat) : Int) ≤ cprime p j ∧ cprime p j ≤ ((p.C / 2 : Nat) : Int)
      ∧ (bin p j : Int) = ((p.N : Int) + cprime p j) % (p.N : Int))
    ∧ ∀ j k, j < p.C → k < p.C → bin p j = bin p k → j = k

/-! The coordinator (group 0x4_). -/

/-- 44 R241: `REL`; with the flags end what the neighbours and the coordinator saw of them (the model's record, log
entry 14).
44 R242, R243; 10_state R34: `PHAVG`, once the coordinator has seen every `WP` (20_memory R88), and `FFUPD`.
The flags `REL` clears are the spec's decision D22, the order of `PHAVG`'s sum D29, the wrap D17 (log entry 25). -/
def Obligations.CoordinatorResults : Prop :=
  (decode 0x40000000#32 = some .rel ∧
   ∀ s : State, s.cur = .coord →
     ∃ t, exec .rel s = .next t ∧ t = { s with workers := t.workers, coPc := t.coPc } ∧ t.T = s.T
       ∧ ∀ w, w < s.T → t.wk w = { s.wk w with
           wp := false, wf := false, wd := false, ws := true, sawWf := false, sawWp := false })
  ∧ (decode 0x41000000#32 = some .phavg ∧ decode 0x42000000#32 = some .ffupd ∧
   ∀ s : State, s.cur = .coord →
     ((∀ w, w < s.T → (s.wk w).sawWp = true) → ∃ t, exec .phavg s = .next t
       ∧ t = { s with psiAvg := Fp.div ((s.workers.map fun k => k.phSlot).foldl Fp.add Fp.zero) (Fp.ofNat s.par.F),
                      coPc := t.coPc })
     ∧ ∃ t, exec .ffupd s = .next t
       ∧ t = { s with
           fFine := Fp.fmod (Fp.add s.fFine (Fp.neg (Fp.mul s.cfg.fineFreqUpdateBeta
             (Fp.div (Fp.mul s.psiAvg (Fp.div Fp.one (Fp.ofNat s.par.N))) Fp.twoPi))))
             (Fp.div Fp.c0505 (Fp.ofNat s.par.N))
           coPc := t.coPc })

/-- 44 R244; 60 R283: `EMIT` raises `frame_valid` and the notification, stays blocked while the host has not
acknowledged, and completes after; the two steps are the model's (log entry 11).
70 R324: the frame offered is then the `(F − 1)·C·2` soft bits of `OUT`, in order. -/
def Obligations.EmitResult : Prop :=
  (decode 0x43000000#32 = some .emit ∧
   ∀ s : State, s.cur = .coord → s.stop = false →
     (s.emitArmed = false → ∃ t, exec .emit s = .next t ∧ t = { s with frameValid := true, emitArmed := true }
       ∧ t.frameIrq = true)
     ∧ (s.emitArmed = true → s.frameValid = true → exec .emit s = .next s)
     ∧ (s.emitArmed = true → s.frameValid = false → ∃ t, exec .emit s = .next t
       ∧ t = { s with emitArmed := false, coPc := (s.coPc + 1) % (coordOps s.T).length }))
  ∧ ∀ (s t : State) (rest : List Turn), s.turns = .run .coord :: rest → s.nextInstr .coord = some .emit →
     s.en = true → s.coHalted = false → step s = .next t →
     framesOffered 1 s = (if s.stop = false ∧ s.emitArmed = false then
       [(List.range ((s.par.F - 1) * (2 * s.par.C))).map s.out.rd] else [])

/-! Synchronisation (group 0x5_). -/

/-- 45 R261, R266: `SIG x` by the entitled agent sets `x` and no other flag; it never blocks, not even under `stop`. With
`SIG WD[w]` worker `w`'s hold on its slots ends (20_memory R88; the record is the model's, log entry 14). -/
def Obligations.SigResult : Prop :=
  ∀ (x : Barrier) (s : State), agentExists s.T s.cur = true → barrierLegal s.T x = true → maySignal s.cur x = true →
    ∃ t, exec (.sig x) s = .next t
      ∧ t = { s with cs := t.cs, ce := t.ce, workers := t.workers, acqSub := t.acqSub, coPc := t.coPc }
      ∧ t.T = s.T ∧ t.flag x = true ∧ (∀ y, y ≠ x → t.flag y = s.flag y)
      ∧ ∀ v, t.wk v = { s.wk v with pc := (t.wk v).pc, ws := (t.wk v).ws, wp := (t.wk v).wp, wf := (t.wk v).wf,
                                    wd := (t.wk v).wd, holds := ((s.wk v).holds && decide (x ≠ .wd v)) }

/-- 45 R262, R266, R260: `WAIT x` by the entitled agent: under `stop` the flag is left and `HALT` is next, even if it is
set; blocked it changes nothing; passed it clears `x` for `CS`, `CE` and `WS` and leaves it for `WP`, `WF` and `WD`, and moves
its agent's position by one (60 R295). The phase it begins (20_memory R88) is the model's record (log entry 14). -/
def Obligations.WaitResult : Prop :=
  ∀ (x : Barrier) (s : State), agentExists s.T s.cur = true → barrierLegal s.T x = true → mayWait s.cur x = true →
    (s.stop = true → ∃ t, exec (.wait x) s = .next t ∧ (∀ y, t.flag y = s.flag y) ∧ t.nextInstr s.cur = some .halt)
    ∧ (s.stop = false → s.flag x = false → exec (.wait x) s = .next s)
    ∧ (s.stop = false → s.flag x = true → ∃ t, exec (.wait x) s = .next t
      ∧ t = { s with cs := t.cs, ce := t.ce, workers := t.workers, acqSub := t.acqSub, coPc := t.coPc }
      ∧ t.T = s.T
      ∧ t.flag x = (match x with | .cs => false | .ce => false | .ws _ => false | .wp _ => true | .wf _ => true | .wd _ => true)
      ∧ (∀ y, y ≠ x → t.flag y = s.flag y)
      ∧ (∀ v, t.wk v = { s.wk v with
          pc := (t.wk v).pc, ws := (t.wk v).ws
          holds := ((s.wk v).holds || decide (x = .ws v)), sawWf := ((s.wk v).sawWf || decide (x = .wf (v + 1)))
          sawWp := ((s.wk v).sawWp || decide (x = .wp v)) })
      ∧ (s.cur = .ingest → s.acqState = .readSymbols → 1 ≤ s.acqSub → t.acqSub = s.acqSub + 1)
      ∧ (s.cur = .coord → t.coPc = (s.coPc + 1) % (coordOps s.T).length)
      ∧ (∀ w, s.cur = .worker w → (t.wk w).pc = ((s.wk w).pc + 1) % (workerOps s.par s.T w).length)
      ∧ (s.cur ≠ .ingest → t.acqSub = s.acqSub) ∧ (s.cur ≠ .coord → t.coPc = s.coPc)
      ∧ ∀ v, s.cur ≠ .worker v → (t.wk v).pc = (s.wk v).pc)

/-- 45 R263: `SWAP`, while the coordinator is idle at its barrier and no worker holds or is about to take a slot (20_memory
R88, R90): the buffers exchange, no data moves. -/
def Obligations.SwapResult : Prop :=
  decode 0x52000000#32 = some .swap ∧
  ∀ s : State, s.cur = .ingest → s.coPc = 0 → s.cs = false →
    (∀ w, w < s.T → (s.wk w).holds = false ∧ (s.wk w).ws = false) →
    ∃ t, exec .swap s = .next t
      ∧ t = { s with sel := !s.sel, ingLen := 0, fSnap := Fp.add s.fCoarse s.fFine, framesRead := s.framesRead + 1,
                     acqSub := t.acqSub }
      ∧ t.act = s.inact ∧ t.inact = s.act

/-- 45 R264: `HALT` sets the issuing agent's halted bit and nothing else; the agent takes no further step: a turn of a
halted agent changes nothing, and no step but `rst` clears a halted bit. -/
def Obligations.HaltResult : Prop :=
  (∀ (s t : State) (a : Agent), s.isHalted a = true → step s = .next t → (∀ rest, s.turns ≠ .host .rst :: rest) →
    t.isHalted a = true) ∧
  decode 0x53000000#32 = some .halt ∧
  ∀ s : State, agentExists s.T s.cur = true →
    ∃ t, exec .halt s = .next t
      ∧ t = { s with ingHalted := t.ingHalted, coHalted := t.coHalted, workers := t.workers }
      ∧ t.T = s.T ∧ t.isHalted s.cur = true ∧ (∀ a, a ≠ s.cur → t.isHalted a = s.isHalted a)
      ∧ ∀ v, t.wk v = { s.wk v with halted := (t.wk v).halted }
      ∧ ∀ rest, step { t with turns := .run s.cur :: rest } = .next { t with turns := rest }

/-- 45 R265, R262; 60 R284, R285: under `stop` a blocking operation, whatever its flag, sample or acknowledge, has no
effect but that the agent's next operation is `HALT`. -/
def Obligations.StopTurnsBlockingIntoHalt : Prop :=
  ∀ (i : Instr) (s : State), isBlocking i = true → s.stop = true → issueCheck s i = none →
    ∃ t, exec i s = .next t ∧ t.nextInstr s.cur = some .halt
      ∧ t = { s with ingDivert := t.ingDivert, coDivert := t.coDivert, workers := t.workers }
      ∧ t.T = s.T ∧ ∀ v, t.wk v = { s.wk v with divert := (t.wk v).divert }

/-! Who writes what. -/

/-- 10_state R57, R31 to R45: no register or flag of the core is written by an operation outside this list, and `en`,
`stop`, the configuration and the tables by none. -/
def Obligations.WritersOfRegisters : Prop :=
  ∀ (i : Instr) (s t : State), exec i s = .next t →
    t.en = s.en ∧ t.stop = s.stop ∧ t.cfg = s.cfg ∧ t.modes = s.modes ∧ t.impIndex = s.impIndex ∧ t.T = s.T
    ∧ (i ≠ .l1win → i ≠ .ncap → i ≠ .desync → t.nullStart = s.nullStart ∧ t.nullEnd = s.nullEnd)
    ∧ (i ≠ .fcupd → i ≠ .desync → t.isFound = s.isFound)
    ∧ (i ≠ .swap → t.sel = s.sel ∧ t.fSnap = s.fSnap ∧ t.framesRead = s.framesRead)
    ∧ (i ≠ .emit → t.frameValid = s.frameValid)
    ∧ (i ≠ .desync → t.framesDesync = s.framesDesync)
    ∧ ((∀ a, i ≠ .adv a) → i ≠ .desync → t.acqState = s.acqState)
    ∧ (i ≠ .fcupd → i ≠ .fczero → t.fCoarse = s.fCoarse)
    ∧ (i ≠ .fcupd → i ≠ .ffupd → i ≠ .desync → t.fFine = s.fFine)
    ∧ (i ≠ .ftchk → i ≠ .desync → t.fineTimeOffset = s.fineTimeOffset)
    ∧ (i ≠ .phavg → t.psiAvg = s.psiAvg)
    ∧ (i ≠ .peakc → t.peakOff = s.peakOff)
    ∧ (i ≠ .peakw → t.impK = s.impK ∧ t.impW = s.impW ∧ t.impMu = s.impMu)
    ∧ (i ≠ .l1win → t.l1Avg = s.l1Avg ∧ t.l1Last = s.l1Last)
    ∧ (i ≠ .nsamp → i ≠ .l1win → i ≠ .desync → t.l1Acc = s.l1Acc ∧ t.l1Cnt = s.l1Cnt)
    ∧ (i ≠ .l1win → i ≠ .desync → t.l1Win = s.l1Win)
    ∧ (i ≠ .nsamp → t.circWr = s.circWr)
    ∧ (i ≠ .ncap → i ≠ .capp → i ≠ .nullcp → i ≠ .desync → t.corrLen = s.corrLen)
    ∧ (i ≠ .prscp → i ≠ .iapp → i ≠ .swap → t.ingLen = s.ingLen)
    ∧ ((∀ n, i ≠ .cperr n) → i ≠ .phpub → ∀ w, (t.wk w).phAcc = (s.wk w).phAcc)
    ∧ (i ≠ .phpub → ∀ w, (t.wk w).phSlot = (s.wk w).phSlot)
    ∧ ((∀ x, i ≠ .sig x) → (∀ x, i ≠ .wait x) → i ≠ .rel → ∀ x, t.flag x = s.flag x)
    ∧ (i ≠ .halt → ∀ a, t.isHalted a = s.isHalted a)

/-- 20_memory R88: what the agents of each kind may change. A worker changes its own slots of `ACT`, `ZF` and `OUT` and
its own registers; the ingest agent changes nothing of the workers', of `ZF` or of `OUT`, and the active buffer only by
exchanging the two; the coordinator changes no buffer and of the workers only flags and what has been seen of them. -/
def Obligations.AgentsChangeOnlyTheirOwn : Prop :=
  ∀ (i : Instr) (s t : State), exec i s = .next t →
    (∀ w, s.cur = .worker w →
      t = { s with ing0 := t.ing0, ing1 := t.ing1, zf := t.zf, out := t.out, workers := t.workers }
      ∧ sameOthers s t w ∧ t.inact = s.inact
      ∧ (∀ n, n < startOf s.par s.T w * s.par.S ∨ endOf s.par s.T w * s.par.S ≤ n → t.act.rd n = s.act.rd n)
      ∧ (∀ j, j < startOf s.par s.T w ∨ endOf s.par s.T w ≤ j → t.zf.rd j = s.zf.rd j)
      ∧ ∀ a, a < startOf s.par s.T w * (2 * s.par.C) ∨ endOf s.par s.T w * (2 * s.par.C) ≤ a
          ∨ s.par.outLen ≤ a → t.out.rd a = s.out.rd a)
    ∧ (s.cur = .ingest →
      t.workers = s.workers ∧ t.zf = s.zf ∧ t.out = s.out ∧ t.psiAvg = s.psiAvg ∧ t.coPc = s.coPc
      ∧ (i ≠ .swap → t.act = s.act) ∧ (i = .swap → t.act = s.inact ∧ t.inact = s.act))
    ∧ (s.cur = .coord →
      t = { s with coPc := t.coPc, coDivert := t.coDivert, coHalted := t.coHalted, psiAvg := t.psiAvg,
                   fFine := t.fFine, frameValid := t.frameValid, emitArmed := t.emitArmed, cs := t.cs, ce := t.ce,
                   workers := t.workers }
      ∧ ∀ v, v < s.T → t.wk v = { s.wk v with
          ws := (t.wk v).ws, wp := (t.wk v).wp, wf := (t.wk v).wf, wd := (t.wk v).wd, sawWf := (t.wk v).sawWf, sawWp := (t.wk v).sawWp })

/-! Numbers. -/

/-- 00_scope R9: a ratio is rounded once, to the nearest finite pattern, ties to the even one.
00_scope R9, R11: addition, subtraction, multiplication, division and square root of finite operands answer the rounding of
the exact real result. -/
def Obligations.RoundingIsToNearestEven : Prop :=
  (∀ num den : Nat, 0 < den → Fp.roundMag num den < 2139095040 →
    ∀ m : Nat, m < 2139095040 →
      let r := Fp.units (BitVec.ofNat 32 (Fp.roundMag num den))
      let u := Fp.units (BitVec.ofNat 32 m)
      ((r * den : Int) - num).natAbs ≤ ((u * den : Int) - num).natAbs
      ∧ (((r * den : Int) - num).natAbs = ((u * den : Int) - num).natAbs → m ≠ Fp.roundMag num den →
          Fp.roundMag num den % 2 = 0))
  ∧ ∀ a b : NUM, Fp.isFinite a = true → Fp.isFinite b = true →
    Fp.IsRounding (Fp.add a b) ((Fp.value a : ℝ) + (Fp.value b : ℝ))
    ∧ Fp.IsRounding (Fp.sub a b) ((Fp.value a : ℝ) - (Fp.value b : ℝ))
    ∧ Fp.IsRounding (Fp.mul a b) ((Fp.value a : ℝ) * (Fp.value b : ℝ))
    ∧ (Fp.isZero b = false → Fp.IsRounding (Fp.div a b) ((Fp.value a : ℝ) / (Fp.value b : ℝ)))
    ∧ (0 ≤ Fp.value a → Fp.IsRounding (Fp.sqrt a) (Real.sqrt (Fp.value a : ℝ)))

/-- 10_state R34, R58; 00_scope R11: for a legal `N` every finite `v` is wrapped to a magnitude below `B_f` with the
sign of `v`, and to `v − B_f·trunc(v / B_f)` exactly. -/
def Obligations.WrapStaysBelowTheBound : Prop :=
  ∀ (L : Nat) (v : NUM), 1 ≤ L → L < 16 → Fp.isFinite v = true →
    Fp.isFinite (fineBound (2 ^ L)) = true ∧ 0 < Fp.value (fineBound (2 ^ L))
    ∧ Fp.isFinite (wrapF (2 ^ L) v) = true
    ∧ |Fp.value (wrapF (2 ^ L) v)| < Fp.value (fineBound (2 ^ L))
    ∧ Fp.lt (Fp.abs (wrapF (2 ^ L) v)) (fineBound (2 ^ L)) = true
    ∧ (0 ≤ Fp.value v → 0 ≤ Fp.value (wrapF (2 ^ L) v)) ∧ (Fp.value v ≤ 0 → Fp.value (wrapF (2 ^ L) v) ≤ 0)
    ∧ ∃ q : Int, Fp.value v = Fp.value (wrapF (2 ^ L) v) + q * Fp.value (fineBound (2 ^ L))

/-! The host's side. -/

/-- 10_state R50: a write of CTRL: EN, FRAME_ACK, STOP; with a configuration that is not written or not legal EN is refused
(the whole write, log entry 18). Legal is written out: 00_scope R5, R7, R8; 10_state R48, R54. -/
def Obligations.ControlRegister : Prop :=
  ∀ (s : State) (v : BitVec 32),
    let legal : Prop :=
      (∀ n ∈ [0x00#8, 0x10#8, 0x11#8, 0x12#8, 0x13#8, 0x14#8, 0x15#8, 0x16#8, 0x17#8, 0x18#8, 0x19#8, 0x1A#8, 0x1B#8],
        n ∉ s.unset)
      ∧ (∃ L, 1 ≤ L ∧ s.par.N = 2 ^ L) ∧ (1 ≤ s.par.G ∧ s.par.G ≤ s.par.N)
      ∧ (Even s.par.C ∧ 2 ≤ s.par.C ∧ s.par.C + 2 ≤ s.par.N) ∧ 2 ≤ s.par.F
      ∧ s.par.N + s.par.G ≤ s.par.P ∧ s.par.G ≤ s.par.P ∧ (1 ≤ s.T ∧ s.T ≤ s.par.F + 1)
      ∧ s.row.cmap.Perm (List.range s.par.C)
      ∧ (1 ≤ s.cfg.l1NbSamples.toNat ∧ s.cfg.l1NbSamples.toNat ≤ s.par.P) ∧ 1 ≤ s.cfg.l1NbDecimate.toNat
      ∧ (∀ r ∈ [s.cfg.l1UpdateBeta, s.cfg.threshNullStart, s.cfg.threshNullEnd, s.cfg.maxCoarseFreqNorm,
          s.cfg.coarseFreqSlowBeta, s.cfg.impulsePeakThreshDb, s.cfg.impulsePeakDistProb, s.cfg.fineFreqUpdateBeta],
        Fp.isFinite r = true)
      ∧ (0 ≤ Fp.value s.cfg.impulsePeakDistProb ∧ Fp.value s.cfg.impulsePeakDistProb ≤ 1)
      ∧ (1 ≤ s.cfg.softHigh.toInt ∧ s.cfg.softHigh.toInt ≤ 127)
    (∀ n ∈ s.unset, n ∈ cfgNumbers) →
    (v.getLsbD 0 = true → s.en = false → ¬ legal →
      hostStep (.regWrite 0x30#8 v) s = .refused .illegalConfiguration)
    ∧ (v.getLsbD 0 = false ∨ s.en = true ∨ legal →
      hostStep (.regWrite 0x30#8 v) s = .next { s with
        en := s.en || v.getLsbD 0, frameValid := s.frameValid && !v.getLsbD 2, stop := s.stop || v.getLsbD 1 })
    ∧ s.regRead 0x30#8 = 0#32

/-- 10_state R48, R51; 70 R315: a configuration register written before EN reads back with its width, no other
configuration or core register changes; after EN a write changes nothing.
10_state R51: a number that is not listed reads 0 and ignores writes; a read-only register ignores writes.
10_state R49: IMP_INDEX is writable at any time; that it keeps and reads back all 32 bits, values of `N` and above included,
is the model's choice (log entry 16), and so is the record `unset` of the registers not yet written (log entry 5). -/
def Obligations.ConfigurationAndUnlistedRegisters : Prop :=
  (∀ (s : State) (n : BitVec 8) (v : BitVec 32), n ∈ cfgNumbers →
     (s.en = true → hostStep (.regWrite n v) s = .next s)
     ∧ (s.en = false → ∃ t, hostStep (.regWrite n v) s = .next t ∧ t = { s with cfg := t.cfg, unset := t.unset }
       ∧ t.regRead n = v &&& (if n = 0x00#8 then 3#32 else if n = 0x15#8 then 1#32 else if n = 0x1B#8 then 255#32
           else 0xFFFFFFFF#32)
       ∧ (∀ m ∈ cfgNumbers, m ≠ n → t.regRead m = s.regRead m)
       ∧ ∀ m, m ∈ t.unset ↔ m ∈ s.unset ∧ m ≠ n))
  ∧ (∀ (s : State) (n : BitVec 8) (v : BitVec 32), n ∉ cfgNumbers → n ≠ 0x29#8 → n ≠ 0x30#8 →
     (∃ t, hostStep (.regWrite n v) s = .next t ∧ t = { s with unset := t.unset } ∧ ∀ m, t.regRead m = s.regRead m)
     ∧ (n ∉ [0x01#8, 0x02#8, 0x03#8, 0x04#8, 0x05#8, 0x06#8, 0x20#8, 0x21#8, 0x22#8, 0x23#8, 0x24#8, 0x25#8, 0x26#8,
         0x27#8, 0x28#8, 0x2A#8] → s.regRead n = 0#32))
  ∧ (∀ (s : State) (v : BitVec 32),
     ∃ t, hostStep (.regWrite 0x29#8 v) s = .next t ∧ t = { s with impIndex := v } ∧ t.regRead 0x29#8 = v)

/-- 10_state R49; 60 R283, R284: what the status registers show, bit by bit for FLAGS; IMP_DATA in FINE_TIME shows the
element or the one `LMAG` overwrote (93 U8, log entry 17).
44 R244; 70 R320: the frame port shows `OUT` while `frame_valid`; a read, there or at the register port, changes no
register or buffer of the core. -/
def Obligations.StatusRegistersAndReads : Prop :=
  (∀ s : State,
     (s.regRead 0x28#8).getLsbD 0 = s.isFound ∧ (s.regRead 0x28#8).getLsbD 1 = s.nullStart
     ∧ (s.regRead 0x28#8).getLsbD 2 = s.nullEnd ∧ (s.regRead 0x28#8).getLsbD 3 = s.sel
     ∧ (s.regRead 0x28#8).getLsbD 4 = s.frameIrq ∧ (s.regRead 0x28#8).getLsbD 5 = s.stop
     ∧ (s.regRead 0x28#8).getLsbD 6 = s.en
     ∧ ((s.regRead 0x28#8).getLsbD 7 = true ↔ ∀ a, agentExists s.T a = true → s.isHalted a = true)
     ∧ (∀ b, 8 ≤ b → (s.regRead 0x28#8).getLsbD b = false)
     ∧ (s.regRead 0x20#8).toNat = s.acqState.code ∧ s.regRead 0x21#8 = s.framesRead ∧ s.regRead 0x22#8 = s.framesDesync
     ∧ s.regRead 0x23#8 = s.fCoarse ∧ s.regRead 0x24#8 = s.fFine
     ∧ (-2147483648 ≤ s.fineTimeOffset → s.fineTimeOffset < 2147483648 → (s.regRead 0x25#8).toInt = s.fineTimeOffset)
     ∧ (s.regRead 0x01#8, s.regRead 0x02#8, s.regRead 0x03#8) = (BitVec.ofNat 32 s.par.F, BitVec.ofNat 32 s.par.N, BitVec.ofNat 32 s.par.G)
     ∧ (s.regRead 0x04#8, s.regRead 0x05#8, s.regRead 0x06#8) = (BitVec.ofNat 32 s.par.P, BitVec.ofNat 32 s.par.C, BitVec.ofNat 32 s.T)
     ∧ s.regRead 0x26#8 = s.l1Avg ∧ s.regRead 0x27#8 = s.l1Last ∧ s.regRead 0x29#8 = s.impIndex
     ∧ (s.impIndex.toNat < s.par.N →
       (s.acqState ≠ .fineTime ∨ s.impPrev = none → s.regRead 0x2A#8 = s.imp.rd s.impIndex.toNat)
       ∧ (∀ old, s.acqState = .fineTime → s.impPrev = some old →
         s.regRead 0x2A#8 = s.imp.rd s.impIndex.toNat ∨ s.regRead 0x2A#8 = old.rd s.impIndex.toNat)))
  ∧ (∀ (s : State) (a : Nat) (n : BitVec 8),
     (∃ t, hostStep (.readOut a) s = .next t ∧ t = { s with frData := t.frData, tick := t.tick }
       ∧ (s.frameValid = true → a < (s.par.F - 1) * (2 * s.par.C) → t.frData = s.out.rd a))
     ∧ ∃ t, hostStep (.regRead n) s = .next t ∧ t = { s with rdData := s.regRead n, tick := t.tick })

/-- 10_state R56; 70 R310, R311: the state after reset, and the `rst` pin at any moment. Not stated: the configuration
registers, which the spec leaves unspecified (log entry 5). -/
def Obligations.ResetState : Prop :=
  ∀ s : State, s = State.reset ∨ (∃ r, hostStep .rst r = .next s) →
    s.acqState = .findNull ∧ s.acqSub = 0 ∧ s.coPc = 0 ∧ s.fCoarse = Fp.zero ∧ s.fFine = Fp.zero ∧ s.fSnap = Fp.zero
    ∧ s.isFound = false ∧ s.fineTimeOffset = 0 ∧ s.peakOff = 0 ∧ s.impK = 0 ∧ s.impW = Fp.zero ∧ s.impMu = Fp.zero
    ∧ s.psiAvg = Fp.zero ∧ s.l1Avg = Fp.zero ∧ s.l1Acc = Fp.zero ∧ s.l1Last = Fp.zero ∧ s.l1Cnt = 0 ∧ s.l1Win = 0
    ∧ s.circWr = 0 ∧ s.corrLen = 0 ∧ s.ingLen = 0 ∧ s.nullStart = false ∧ s.nullEnd = false ∧ s.sel = false
    ∧ s.framesRead = 0#32 ∧ s.framesDesync = 0#32 ∧ s.en = false ∧ s.stop = false ∧ s.frameValid = false
    ∧ s.cs = false ∧ s.ce = true ∧ s.impIndex = 0#32 ∧ (∀ a, s.isHalted a = false)
    ∧ (∀ w, (s.wk w).pc = 0 ∧ (s.wk w).phAcc = Fp.zero ∧ (s.wk w).phSlot = Fp.zero ∧ (s.wk w).ws = false
        ∧ (s.wk w).wp = false ∧ (s.wk w).wf = false ∧ (s.wk w).wd = false ∧ ∀ n, (s.wk w).nv.rd n = Cplx.zero)
    ∧ (∀ n, s.circ.rd n = Cplx.zero ∧ s.corr.rd n = Cplx.zero ∧ s.ing0.rd n = Cplx.zero ∧ s.ing1.rd n = Cplx.zero
        ∧ s.sa.rd n = Cplx.zero ∧ s.spec.rd n = Fp.zero ∧ s.imp.rd n = Fp.zero ∧ s.out.rd n = 0#8
        ∧ ∀ i, (s.zf.rd i).rd n = Cplx.zero)
    ∧ ∀ n ∈ cfgNumbers, n ∈ s.unset

/-! Invariants and whole-machine rules. -/

/-- 20_memory R97 (log entry 23): every step, of an agent, of a test program or of the host, keeps every buffer in its
canonical form. -/
def Obligations.StepKeepsMemoryCanonical : Prop :=
  ∀ s t : State, Memory.wf s → step s = .next t → Memory.wf t

/-- 10_state R34, R36 to R40, R58: every step, words of test programs included, keeps the registers in their ranges,
`|f_fine|` below `B_f` among them. `l1_cnt` (R37) is bounded by the lists alone: `HardwiredListsAreNeverRefused`. -/
def Obligations.StepKeepsRegistersInRange : Prop :=
  ∀ s t : State, RangeInv s → step s = .next t → RangeInv t

/-- 00_scope R17; 20_memory R88; 60 R282: the hardware's own lists are never refused: from every state in which the
positions, lengths, hand-offs and phases are what the lists leave, every turn of an agent gives a next state of the same
kind; so does every turn of the host but an EN with an illegal configuration. `l1_cnt ≤ K` (10_state R37, 42 R172) is part
of what is kept. -/
def Obligations.HardwiredListsAreNeverRefused : Prop :=
  ∀ s : State, RunInv s → hardwired s →
    (∃ t, step s = .next t ∧ RunInv t) ∨ (step s = .refused .illegalConfiguration ∧ ¬ agentTurn s)

/-- 20_memory R90; 44 R240; 45 R260: every step of the hardware keeps the hand-off discipline: the right to the
pipeline is in exactly one place, and the workers run only between `REL` and their `SIG WD`.
20_memory R90 (items 5 and 6), 10_state R41, 44 R244: whenever the ingest agent is about to `SWAP`, the coordinator is
at `WAIT CS` and every worker is idle at `WAIT WS`; whenever the coordinator is about to `EMIT`, every worker has signalled
done and is at `WAIT WS`. -/
def Obligations.HandoffDiscipline : Prop :=
  (∀ s t : State, modesFit s.modes → s.T ≤ 65536 → HandoffInv s → hardwired s → step s = .next t → HandoffInv t)
  ∧ (∀ s : State, HandoffInv s →
     (s.nextInstr .ingest = some .swap →
       s.coPc = 0 ∧ s.cs = false ∧ ∀ w, w < s.T → (s.wk w).pc = 0 ∧ (s.wk w).ws = false)
     ∧ (s.nextInstr .coord = some .emit →
       ∀ w, w < s.T → (s.wk w).pc = 0 ∧ (s.wk w).ws = false ∧ (s.wk w).wd = true))

/-- 10_state R56, R58: the invariants hold at reset; that each is not empty. -/
def Obligations.InvariantsHoldAtReset : Prop :=
  Memory.wf State.reset ∧ RangeInv State.reset ∧ PlaceInv State.reset ∧ HandoffInv State.reset ∧ PhaseInv State.reset

/-! The lists and the tables. -/

/-- 42 R171, R175, R177, R181, R185; 43 R211, R216; 44 R240; 30_encoding R119: what the hardwired lists hold, position by
position, and that they end there. The numbering of `acq_sub` is the model's (log entry 13). -/
def Obligations.HardwiredListsByPosition : Prop :=
  (∀ s : State, s.ingDivert = .none →
    let L := s.par.L
    let op : Nat → Option Instr := fun n => State.nextInstr { s with acqSub := n } .ingest
    (s.acqState = .findNull →
      (List.range 5).map op = [some .nsamp, some .l1win, some .ncap, some (.adv .readNullPrs), none])
    ∧ (s.acqState = .readNullPrs → (List.range 3).map op = [some .capp, some (.adv .coarseFreq), none])
    ∧ (s.acqState = .coarseFreq → s.cfg.coarseFreqEn = false →
      (List.range 3).map op = [some .fczero, some (.adv .fineTime), none])
    ∧ (s.acqState = .coarseFreq → s.cfg.coarseFreqEn = true →
      op 0 = some .ldprs
      ∧ op 1 = some (.bitrev .sa) ∧ (∀ st, 1 ≤ st → st ≤ L → op (1 + st) = some (.bflyf .sa st))
      ∧ op (L + 2) = some .delta
      ∧ op (L + 3) = some (.bitrev .sa) ∧ (∀ st, 1 ≤ st → st ≤ L → op (L + 3 + st) = some (.bflyi .sa st))
      ∧ op (2 * L + 4) = some (.cmul .prst)
      ∧ op (2 * L + 5) = some (.bitrev .sa) ∧ (∀ st, 1 ≤ st → st ≤ L → op (2 * L + 5 + st) = some (.bflyf .sa st))
      ∧ op (3 * L + 6) = some .mag ∧ op (3 * L + 7) = some .peakc ∧ op (3 * L + 8) = some .fcupd
      ∧ op (3 * L + 9) = some (.adv .fineTime) ∧ ∀ n, 3 * L + 10 ≤ n → op n = none)
    ∧ (s.acqState = .fineTime →
      op 0 = some .ldprs ∧ op 1 = some .pllp
      ∧ op 2 = some (.bitrev .sa) ∧ (∀ st, 1 ≤ st → st ≤ L → op (2 + st) = some (.bflyf .sa st))
      ∧ op (L + 3) = some (.cmul .prsf)
      ∧ op (L + 4) = some (.bitrev .sa) ∧ (∀ st, 1 ≤ st → st ≤ L → op (L + 4 + st) = some (.bflyi .sa st))
      ∧ op (2 * L + 5) = some .lmag ∧ op (2 * L + 6) = some .peakw ∧ op (2 * L + 7) = some .ftchk
      ∧ op (2 * L + 8) = some .prscp ∧ op (2 * L + 9) = some (.adv .readSymbols)
      ∧ ∀ n, 2 * L + 10 ≤ n → op n = none)
    ∧ (s.acqState = .readSymbols →
      (List.range 7).map op
        = [some .iapp, some .nullcp, some (.wait .ce), some .swap, some (.sig .cs), some (.adv .readNullPrs), none]))
  ∧ (∀ s : State, s.coDivert = .none →
    let op : Nat → Option Instr := fun n => State.nextInstr { s with coPc := n } .coord
    op 0 = some (.wait .cs) ∧ op 1 = some .rel ∧ (∀ w, w < s.T → op (2 + w) = some (.wait (.wp w)))
    ∧ op (s.T + 2) = some .phavg ∧ op (s.T + 3) = some .ffupd
    ∧ (∀ w, w < s.T → op (s.T + 4 + w) = some (.wait (.wd w)))
    ∧ op (2 * s.T + 4) = some .emit ∧ op (2 * s.T + 5) = some (.sig .ce) ∧ ∀ n, 2 * s.T + 6 ≤ n → op n = none)
  ∧ ∀ (s : State) (w a e c b d m : Nat), w < s.T → (s.wk w).divert = .none →
    -- the range `[a, e)`, its `CPERR`s, its pairs, and where each part of the list begins
    a = startOf s.par s.T w → e = endOf s.par s.T w → c = min e s.par.F - a → m = min e (s.par.F - 1) - a →
    b = 1 + (e - a) + c → d = b + s.par.L + 5 + (e - a - 1) * (s.par.L + 2) →
    let L := s.par.L
    let op : Nat → Option Instr := fun n => State.nextInstr (s.setWk w fun k => { k with pc := n }) (.worker w)
    op 0 = some (.wait (.ws w))
    ∧ (∀ j, j < e - a → op (1 + j) = some (.derot (a + j)))
    ∧ (∀ j, j < c → op (1 + (e - a) + j) = some (.cperr (a + j)))
    ∧ op b = some .phpub ∧ op (b + 1) = some (.sig (.wp w))
    ∧ op (b + 2) = some (.ldsym a) ∧ op (b + 3) = some (.bitrev (.zf a))
    ∧ (∀ st, 1 ≤ st → st ≤ L → op (b + 3 + st) = some (.bflyf (.zf a) st))
    ∧ op (b + L + 4) = some (.sig (.wf w))
    ∧ (∀ j, j + 1 < e - a →
      op (b + L + 5 + j * (L + 2)) = some (.ldsym (a + 1 + j))
      ∧ op (b + L + 5 + j * (L + 2) + 1) = some (.bitrev (.zf (a + 1 + j)))
      ∧ ∀ st, 1 ≤ st → st ≤ L → op (b + L + 5 + j * (L + 2) + 1 + st) = some (.bflyf (.zf (a + 1 + j)) st))
    ∧ (∀ j, j < m →
      (a + j + 1 ≠ e → op (d + 2 * j) = some (.dqpsk (a + j)) ∧ op (d + 2 * j + 1) = some (.soft (a + j)))
      ∧ (a + j + 1 = e → op (d + 2 * j) = some (.wait (.wf (w + 1))) ∧ op (d + 2 * j + 1) = some (.dqpsk (a + j))
        ∧ op (d + 2 * j + 2) = some (.soft (a + j))))
    ∧ (a < e → ∀ n, n = d + 2 * m + (if e < s.par.F then 1 else 0) →
      op n = some (.sig (.wd w)) ∧ ∀ n', n < n' → op n' = none)

/-- 10_state R55: `TW[0] = (1, 0)`, `TW[N/4] = (0, −1)`, and every entry is the rounding of a number within `2^-100` of
`cis(−2π·t/N)`; that it is the rounding of the exact number rests on log entry 22.
10_state R53, 70 R313: `PRSF` is `conj(PRS_FFT)` and every component of `PRST` the NUM rounding of that of
`conj(IFFT(Delta(PRS_FFT)))`, exactly, for every finite phase-reference symbol; a zero is `+0` (log entry 24).
10_state R54, 70 R311: after reset every row of the mode table is built so, from some finite symbol (log entry 4), with a
permutation. -/
def Obligations.TwiddleAndReferenceTables : Prop :=
  (∀ L, 1 ≤ L → L < 16 →
    Twiddle.tw (2 ^ L) 0 = ⟨0x3F800000#32, 0x00000000#32⟩
    ∧ (2 ≤ L → Twiddle.tw (2 ^ L) (2 ^ L / 4) = ⟨0x00000000#32, 0xBF800000#32⟩)
    ∧ ∀ t, t < 2 ^ L / 2 →
      (Twiddle.tw (2 ^ L) t).NearestWithin (Complex.exp (-(2 * Real.pi * Complex.I * t / (2 ^ L : ℕ)))) (1 / 2 ^ 100))
  ∧ (∀ (L : Nat) (p : Params) (prs : Nat → Cplx) (cmap : List Nat), 1 ≤ L → p.N = 2 ^ L →
    (∀ k, Fp.isFinite (prs k).re = true ∧ Fp.isFinite (prs k).im = true) →
    let r := ModeRow.ofPrs p prs cmap
    r.par = p ∧ r.cmap = cmap
    ∧ ∀ n, n < p.N → r.prsf.getD n default = (prs n).conj
      ∧ let z := (starRingEnd ℂ) (exactIfft p.N (exactDelta p.N fun k => (prs k).value) n)
        let y := r.prst.getD n default
        Fp.IsRounding y.re z.re ∧ Fp.IsRounding y.im z.im
        ∧ (z.re = 0 → y.re = Fp.zero) ∧ (z.im = 0 → y.im = Fp.zero))
  ∧ ∀ r ∈ [State.reset.modes.row0, State.reset.modes.row1, State.reset.modes.row2, State.reset.modes.row3],
    (∃ prs : Nat → Cplx, (∀ k, Fp.isFinite (prs k).re = true ∧ Fp.isFinite (prs k).im = true)
      ∧ r = ModeRow.ofPrs r.par prs r.cmap)
    ∧ r.cmap.Perm (List.range r.par.C)
end

