-- ==== Sys2Proof/Tests/Slice0.lean ====
section
/-! SUPPORT. Tests of the model against the spec's own examples and vectors, and witnesses that the hypotheses of the
statements can be met. Each expected value is the spec's, from the rule or table named. -/

namespace Sys2Proof.Tests

open Sys2Proof.Machine

/- One theorem at a time: many kernel evaluations at once would need more threads than the check allows. -/
set_option Elab.async false

/-! Helpers: small states. -/

/-- A complex number with integer parts. -/
def c (re im : Int) : Cplx := ⟨Fp.ofInt re, Fp.ofInt im⟩

/-- A buffer from its first elements. -/
def buf (l : List Cplx) : Mem Cplx := Mem.fill [] 0 l.length fun n => l.getD n Cplx.zero

/-- A buffer of reals from its first elements. -/
def rbuf (l : List NUM) : Mem NUM := Mem.fill [] 0 l.length fun n => l.getD n Fp.zero

/-- Parameter set T4 of spec/95_test_vectors.md. -/
def parT4 : Params := { F := 3, N := 4, G := 1, P := 6, C := 2 }

/-- Parameter set T8 of spec/95_test_vectors.md. -/
def parT8 : Params := { F := 3, N := 8, G := 2, P := 12, C := 6 }

/-- A mode table with one parameter set in every row; the phase-reference symbol is `j` throughout. -/
def tableOf (p : Params) : Modes :=
  let r := ModeRow.ofPrs p (fun _ => c 0 1) (List.range p.C).reverse
  ⟨r, r, r, r⟩

/-- The phase-reference symbols of T8 and T8b of spec/95_test_vectors.md. -/
def prsT8 (k : Nat) : Cplx := [c 0 0, c 1 0, c 0 1, c (-1) 0, c 0 0, c 1 0, c 0 1, c 1 0].getD k Cplx.zero
def prsT8b (k : Nat) : Cplx := if k = 1 then c 2 0 else prsT8 k

/-- A core with `T = 2` after EN, nothing run yet; `K = 2`, `D = 1`, `SOFT_HIGH = 127`, COARSE_FREQ_EN. -/
def coreOf (p : Params) : State :=
  { State.power (tableOf p) 2 with
    en := true, unset := [],
    cfg := { Cfg.power with l1NbSamples := 2#32, l1NbDecimate := 1#32, l1UpdateBeta := 0x3F000000#32,
                            threshNullStart := 0x3F000000#32, threshNullEnd := 0x3F400000#32, coarseFreqEn := true,
                            impulsePeakThreshDb := 0x41200000#32, impulsePeakDistProb := 0x3E19999A#32,
                            fineFreqUpdateBeta := 0x3F000000#32, softHigh := 127#8 } }

/-- The core with T4. -/
def t4 : State := coreOf parT4

/-- The core with T8. -/
def t8 : State := coreOf parT8

/-- A worker in the frame, past its waits. -/
def atWork : Worker := { Worker.power with holds := true, sawWf := true }

/-- Worker `w` of the T4 core issues, in the frame. -/
def byWorker (w : Nat) : State := { t4 with cur := .worker w, workers := [atWork, atWork] }

/-- A worker whose phase error the coordinator has awaited. -/
def published (x : NUM) : Worker := { Worker.power with phSlot := x, wp := true, sawWp := true }

/-- The coordinator of the T4 core issues, every `WP` awaited. -/
def byCoord : State := { t4 with cur := .coord, workers := [published Fp.zero, published Fp.zero] }

/-- The T4 core in the middle of READ_SYMBOLS with one frame position left. -/
def fillingFrame : State := { t4 with acqState := .readSymbols, ingLen := 20, samples := [c 1 1] }

/-- The T4 core about to `SWAP`: the right to the pipeline is with the ingest agent. -/
def aboutToSwap : State := { t4 with acqState := .readSymbols, acqSub := 3, ce := false, corrLen := 6, ingLen := 21 }

/-- The T4 core about to `EMIT`: every worker has signalled done. -/
def aboutToEmit : State :=
  { t4 with coPc := 8, ce := false, workers := List.replicate 2 { Worker.power with wp := true, wf := true, wd := true, sawWp := true } }

/-- The T4 core with Desync raised. -/
def desyncRaised : State := { t4 with acqState := .fineTime, acqSub := 12, ingDivert := .desync }

/-- The outcome is a next state with property `p`. -/
def nextWith (r : Res) (p : State → Bool) : Bool :=
  match r with
  | .next t => p t
  | .fault _ => false
  | .refused _ => false

/-- The outcome is a next state. -/
def runs (r : Res) : Bool := nextWith r fun _ => true

/-- The outcome is the refusal `x`. -/
def refusedAs (r : Res) (x : Refusal) : Bool :=
  match r with
  | .next _ => false
  | .fault _ => false
  | .refused y => decide (y = x)

theorem not_reservedOperand {r : Res} (h : refusedAs r .reservedOperand = false) : r ≠ .refused .reservedOperand := by
  rintro rfl; revert h; decide

theorem next_of_runs {r : Res} (h : runs r = true) : ∃ t, r = .next t := by
  cases r with
  | next t => exact ⟨t, rfl⟩
  | fault f => cases h
  | refused x => cases h

/-! Well-formedness: one ill-formed term for each check. -/

theorem test_index_of_17_bits_is_ill_formed : (Instr.derot 65536).wf = false := by decide
theorem test_slot_of_17_bits_is_ill_formed : (Instr.bitrev (.zf 65536)).wf = false := by decide
theorem test_worker_of_17_bits_is_ill_formed : (Instr.sig (.wd 65536)).wf = false := by decide
theorem test_stage_0_is_ill_formed : (Instr.bflyf .sa 0).wf = false := by decide
theorem test_stage_16_is_ill_formed : (Instr.bflyi .sa 16).wf = false := by decide
theorem test_adv_find_null_is_ill_formed : (Instr.adv .findNull).wf = false := by decide
theorem test_wait_wf_0_is_ill_formed : (Instr.wait (.wf 0)).wf = false := by decide

/-! Decoding: the words of spec/95_test_vectors.md section 2.1. -/

theorem test_decode_group_1 :
    [0x10400000#32, 0x1070004C#32, 0x11720003#32, 0x114B0000#32, 0x12430000#32, 0x13000000#32, 0x14A00000#32,
      0x14B00000#32, 0x15000000#32, 0x16000000#32, 0x17000000#32, 0x18000000#32].map decode
    = [some (.bitrev .sa), some (.bitrev (.zf 76)), some (.bflyf (.zf 3) 2), some (.bflyf .sa 11), some (.bflyi .sa 3),
       some .delta, some (.cmul .prsf), some (.cmul .prst), some .mag, some .lmag, some .pllp, some .ldprs] := by decide

theorem test_decode_group_2 :
    [0x20000000#32, 0x21000000#32, 0x22000000#32, 0x23000000#32, 0x24000000#32, 0x25000000#32, 0x26000000#32,
      0x27000000#32, 0x28000000#32, 0x29000000#32, 0x2A000000#32, 0x2B000000#32, 0x2C000000#32].map decode
    = [some .nsamp, some .l1win, some .ncap, some .capp, some .fczero, some .peakc, some .fcupd, some .peakw,
       some .ftchk, some .prscp, some .iapp, some .nullcp, some .desync] := by decide

theorem test_decode_adv :
    [0x2D010000#32, 0x2D020000#32, 0x2D030000#32, 0x2D040000#32].map decode
    = [some (.adv .readNullPrs), some (.adv .coarseFreq), some (.adv .fineTime), some (.adv .readSymbols)] := by decide

theorem test_decode_group_3 :
    [0x30000005#32, 0x3000004C#32, 0x3100004B#32, 0x32000000#32, 0x33000002#32, 0x3400004A#32, 0x35000000#32].map decode
    = [some (.derot 5), some (.derot 76), some (.cperr 75), some .phpub, some (.ldsym 2), some (.dqpsk 74),
       some (.soft 0)] := by decide

theorem test_decode_groups_4_and_5 :
    [0x40000000#32, 0x41000000#32, 0x42000000#32, 0x43000000#32, 0x50000000#32, 0x50400001#32, 0x51100000#32,
      0x51300003#32, 0x52000000#32, 0x53000000#32].map decode
    = [some .rel, some .phavg, some .ffupd, some .emit, some (.sig .cs), some (.sig (.wf 1)), some (.wait .ce),
       some (.wait (.wp 3)), some .swap, some .halt] := by decide

theorem test_decode_reserved :
    [0x10400001#32, 0x10500000#32, 0x10410000#32, 0x11400000#32, 0x13000001#32, 0x14C00000#32, 0x19000000#32,
      0x2D000000#32, 0x2D050000#32, 0x2D030001#32, 0x35100000#32, 0x50000001#32, 0x50600000#32, 0x51400000#32,
      0x54000000#32, 0x00000000#32, 0xFFFFFFFF#32].all (fun w => decode w = none) = true := by decide

/-- Mode I ranges: slot 77, stage 12, `CPERR 76`, pair 75, worker 4 are outside. -/
theorem test_operands_outside_mode_I :
    [Instr.bitrev (.zf 77), .bflyf .sa 12, .cperr 76, .dqpsk 75, .sig (.wf 4)].all
      (fun i => operandsLegal Config.modeI 4 i = false) = true := by decide

/-- And their neighbours are inside. -/
theorem test_operands_inside_mode_I :
    [Instr.bitrev (.zf 76), .bflyf .sa 11, .cperr 75, .dqpsk 74, .sig (.wf 3)].all
      (fun i => operandsLegal Config.modeI 4 i) = true := by decide

/-- The bytes a tool stores: least significant first (30_encoding R110). -/
theorem test_decode_bytes : decodeBytes [0x03#8, 0x00#8, 0x72#8, 0x11#8] = some (.bflyf (.zf 3) 2, []) := by decide

/-- `w0: SIG WP[1]` and `in: REL` are refused, `co: SIG WS[1]` is accepted (95 section 2.1, with `T = 2`). -/
theorem test_entitlement :
    refusedAs (exec (.sig (.wp 1)) (byWorker 0)) .notEntitled = true ∧ refusedAs (exec .rel t4) .notEntitled = true
      ∧ runs (exec (.sig (.ws 1)) byCoord) = true := by decide +kernel

/-! Numbers, parameters, registers: spec/95_test_vectors.md section 2.2. -/

theorem test_wrap_mode_I :
    [0x00000000#32, 0x3951B717#32, 0x399D4952#32, 0xB99D4952#32, 0x398147AE#32, 0x3B800000#32].map (wrapF 2048)
    = [0x00000000#32, 0x3951B717#32, 0x38600D20#32, 0xB8600D20#32, 0x00000000#32, 0x3959999C#32] := by decide +kernel

theorem test_slice_ranges :
    (List.range 5).map (fun w => (startOf Config.modeI 5 w, endOf Config.modeI 5 w))
    = [(0, 15), (15, 30), (30, 45), (45, 60), (60, 77)] := by decide

theorem test_bins : (List.range 6).map (bin parT8) = [5, 6, 7, 1, 2, 3] := by decide

theorem test_twiddles_of_8 :
    (List.range 4).map (Twiddle.tw 8)
    = [⟨0x3F800000#32, 0x00000000#32⟩, ⟨0x3F3504F3#32, 0xBF3504F3#32⟩, ⟨0x00000000#32, 0xBF800000#32⟩,
       ⟨0xBF3504F3#32, 0xBF3504F3#32⟩] := by decide +kernel

/-- The derived tables of T8 and T8b (95, section 1): the irrational entries are `∓2 ∓ √2/2` and the like. -/
theorem test_prst_of_T8 :
    (List.range 8).map (Tables.prst 8 prsT8) = [c 0 (-2), c (-2) 0, c (-2) 0, c 2 0, c 0 2, c (-2) 0, c 2 0, c 2 0] := by
  decide +kernel

theorem test_prst_of_T8b :
    (List.range 8).map (Tables.prst 8 prsT8b)
    = [c 0 (-3), ⟨0xC02D413D#32, 0xBF3504F3#32⟩, c (-3) 0, ⟨0x3FA57D86#32, 0x3F3504F3#32⟩, c 0 3,
       ⟨0xBFA57D86#32, 0x3F3504F3#32⟩, c 3 0, ⟨0x402D413D#32, 0xBF3504F3#32⟩] := by decide +kernel

theorem test_prsf_of_T8 : (List.range 4).map (fun k => (Tables.prsf prsT8 k).im) = [Fp.negZero, Fp.negZero, c 0 (-1) |>.im, Fp.negZero] := by
  decide +kernel

theorem test_registers_after_reset :
    [0x20#8, 0x21#8, 0x22#8, 0x23#8, 0x24#8, 0x28#8, 0x30#8, 0x7F#8].map State.reset.regRead
    = [0#32, 0#32, 0#32, 0#32, 0#32, 0#32, 0#32, 0#32] := by decide +kernel

theorem test_par_registers_after_reset :
    [0x01#8, 0x02#8, 0x03#8, 0x04#8, 0x05#8].map State.reset.regRead
    = [76#32, 2048#32, 504#32, 2656#32, 1536#32] := by decide +kernel

theorem test_offset_reads_as_twos_complement : { t4 with fineTimeOffset := -1 }.regRead 0x25#8 = 0xFFFFFFFF#32 := by decide

theorem test_flags_layout : { t4 with isFound := true, sel := true }.regRead 0x28#8 = 0x49#32 := by decide

theorem test_enable_of_unwritten_configuration_is_refused :
    refusedAs (hostStep (.regWrite 0x30#8 1#32) State.reset) .illegalConfiguration = true := by decide +kernel

theorem test_enable_of_legal_configuration :
    nextWith (hostStep (.regWrite 0x30#8 1#32) { t4 with en := false }) (fun t => t.regRead 0x28#8 = 0x40#32) = true := by
  decide +kernel

/-! The operations: each rule's own example. -/

theorem test_bitrev : nextWith (exec (.bitrev .sa) { t4 with sa := buf [c 1 0, c 2 0, c 3 0, c 4 0] })
    (fun t => t.sa = buf [c 1 0, c 3 0, c 2 0, c 4 0]) = true := by decide +kernel

theorem test_bflyf_stage_2 : nextWith (exec (.bflyf .sa 2) { t4 with sa := buf [c 4 0, c (-2) 0, c 6 0, c (-2) 0] })
    (fun t => t.sa = buf [c 10 0, c (-2) 2, c (-2) 0, c (-2) (-2)]) = true := by decide +kernel

theorem test_bflyi_stage_2 : nextWith (exec (.bflyi .sa 2) { t4 with sa := buf [c 8 0, c 12 0, c (-4) 0, c 0 4] })
    (fun t => t.sa = buf [c 4 0, c 8 0, c 12 0, c 16 0]) = true := by decide +kernel

/-- The parts that come out as a zero may carry either sign, so they are compared as numbers. -/
theorem test_delta : nextWith (exec .delta { t4 with sa := buf [c 1 0, c 0 1, c (-1) 0, c 0 (-1)] })
    (fun t => (List.range 3).all (fun k => Fp.isZero (t.sa.rd k).re && decide ((t.sa.rd k).im = Fp.one))
      && decide (t.sa.rd 3 = Cplx.zero)) = true := by decide +kernel

theorem test_cmul : nextWith (exec (.cmul .prsf) { t4 with sa := buf [c 2 0, c 0 1] })
    (fun t => decide ((t.sa.rd 0).im = Fp.ofInt (-2) ∧ (t.sa.rd 1).re = Fp.one)) = true := by decide +kernel

theorem test_mag_of_zero : nextWith (exec .mag t4) (fun t => t.spec = rbuf (List.replicate 4 Fp.negInf)) = true := by
  decide +kernel

theorem test_lmag_of_zero : nextWith (exec .lmag t4) (fun t => t.imp = rbuf (List.replicate 4 Fp.negInf)) = true := by
  decide +kernel

theorem test_pllp_at_frequency_zero : nextWith (exec .pllp { t4 with sa := buf [c 3 0, c 1 2] })
    (fun t => decide ((t.sa.rd 0).re = Fp.ofInt 3 ∧ t.sa.rd 1 = c 1 2)) = true := by decide +kernel

theorem test_ldprs : nextWith (exec .ldprs { t4 with corr := buf ((List.range 11).map fun n => c n 0) })
    (fun t => t.sa = buf [c 6 0, c 7 0, c 8 0, c 9 0]) = true := by decide +kernel

theorem test_nsamp :
    nextWith (exec .nsamp { coreOf { parT4 with P := 4 } with circWr := 3, l1Acc := Fp.ofInt 2, l1Cnt := 1, samples := [c 1 (-1)] })
      (fun t => decide (t.circ.rd 3 = c 1 (-1) ∧ t.circWr = 0 ∧ t.l1Acc = Fp.ofInt 4 ∧ t.l1Cnt = 2 ∧ t.samples = [])) = true := by
  decide +kernel

theorem test_l1win : nextWith (exec .l1win { t4 with l1Acc := 0x3ECCCCCD#32, l1Avg := 0x3FE00000#32 })
    (fun t => decide (t.nullStart = true ∧ t.nullEnd = false ∧ t.l1Last = 0x3E4CCCCD#32 ∧ t.l1Avg = 0x3F79999A#32)) = true := by
  decide +kernel

theorem test_ncap :
    nextWith (exec .ncap { coreOf { parT4 with P := 4 } with circ := buf [c 9 0, c 1 0, c 2 0, c 3 0], circWr := 1 })
      (fun t => decide (t.corr = buf [c 1 0, c 2 0, c 3 0, c 9 0] ∧ t.corrLen = 4)) = true := by decide +kernel

theorem test_capp : nextWith (exec .capp { t4 with corrLen := 6, samples := [c 0 5] })
    (fun t => decide (t.corr.rd 6 = c 0 5 ∧ t.corrLen = 7)) = true := by decide +kernel

theorem test_fczero : nextWith (exec .fczero { t4 with fCoarse := 0x3B7F9724#32, fFine := 0x38D1B717#32 })
    (fun t => decide (t.fCoarse = Fp.zero ∧ t.fFine = 0x38D1B717#32)) = true := by decide +kernel

theorem test_peakc :
    nextWith (exec .peakc { t8 with
        cfg := { t8.cfg with maxCoarseFreqNorm := 0x3E99999A#32 },
        spec := rbuf [Fp.negInf, 0x41907AE1#32, 0x41907AE1#32, Fp.negInf, Fp.negInf, 0x41907AE1#32, 0x41DCCCCD#32, Fp.negInf] })
      (fun t => t.peakOff = 2) = true := by decide +kernel

theorem test_fcupd : nextWith (exec .fcupd { t8 with peakOff := 2 })
    (fun t => decide (t.fCoarse = 0xBE800000#32 ∧ t.fFine = 0x3D7851EC#32 ∧ t.isFound = true)) = true := by decide +kernel

theorem test_peakw :
    nextWith (exec .peakw { t8 with imp := rbuf [0#32, 0#32, Fp.ofInt 10, Fp.ofInt 40, 0#32, 0#32, Fp.ofInt 20, 0#32] })
      (fun t => decide (t.impMu = 0x410C0000#32 ∧ t.impK = 3 ∧ t.impW = 0x42126667#32)) = true := by decide +kernel

theorem test_ftchk_accepts : nextWith (exec .ftchk { t8 with impW := 0x415724DD#32, impMu := 0x3F9708EE#32, impK := 3 })
    (fun t => decide (t.fineTimeOffset = 1 ∧ t.ingDivert = .none)) = true := by decide +kernel

theorem test_ftchk_raises_desync :
    nextWith (exec .ftchk { t8 with
        cfg := { t8.cfg with impulsePeakThreshDb := 0x41500000#32 }, impW := 0x415724DD#32, impMu := 0x3F9708EE#32, impK := 3 })
      (fun t => decide (t.fineTimeOffset = 0 ∧ t.nextInstr .ingest = some .desync)) = true := by decide +kernel

theorem test_prscp :
    nextWith (exec .prscp { t4 with fineTimeOffset := 1, corr := buf ((List.range 11).map fun n => c n 0) })
      (fun t => decide (t.inact = buf [c 7 0, c 8 0, c 9 0, c 10 0] ∧ t.ingLen = 4)) = true := by decide +kernel

theorem test_iapp : nextWith (exec .iapp { t4 with ingLen := 4, samples := [c 5 0] })
    (fun t => decide (t.inact.rd 4 = c 5 0 ∧ t.ingLen = 5)) = true := by decide +kernel

theorem test_nullcp : nextWith (exec .nullcp { t4 with ing1 := buf ((List.range 21).map fun n => c n 0) })
    (fun t => decide (t.corr = buf ((List.range 6).map fun n => c (15 + (n : Int)) 0) ∧ t.corrLen = 6)) = true := by decide +kernel

theorem test_adv : nextWith (exec (.adv .fineTime) t4) (fun t => decide (t.acqState.code = 3 ∧ t.acqSub = 0)) = true := by
  decide +kernel

theorem test_desync :
    nextWith (exec .desync { t4 with framesDesync := 4, fFine := 0x38D1B717#32, isFound := true, acqState := .fineTime })
      (fun t => decide (t.framesDesync = 5 ∧ t.fFine = Fp.zero ∧ t.isFound = false ∧ t.acqState = .findNull)) = true := by
  decide +kernel

theorem test_derot_at_frequency_zero : nextWith (exec (.derot 1) { byWorker 0 with ing0 := buf [c 7 0, c 7 0, c 7 0, c 7 0, c 7 0, c 3 4] })
    (fun t => decide (t.act.rd 5 = c 3 4 ∧ t.act.rd 4 = c 7 0)) = true := by decide +kernel

theorem test_cperr_of_zero_slot : nextWith (exec (.cperr 2) { byWorker 1 with workers := [atWork, { atWork with phAcc := 0x3F400000#32 }] })
    (fun t => (t.wk 1).phAcc = 0x3F400000#32) = true := by decide +kernel

theorem test_cperr_product : prefixProduct { byWorker 0 with ing0 := buf [c 1 0, c 9 9, c 9 9, c 9 9, c 0 1] } 0 = c 0 1 := by
  decide +kernel

theorem test_phpub : nextWith (exec .phpub { byWorker 1 with workers := [Worker.power, { Worker.power with phAcc := 0x3F400000#32 }] })
    (fun t => decide ((t.wk 1).phSlot = 0x3F400000#32 ∧ (t.wk 1).phAcc = Fp.zero ∧ (t.wk 0).phSlot = Fp.zero)) = true := by
  decide +kernel

theorem test_ldsym : nextWith (exec (.ldsym 2) { byWorker 1 with ing0 := buf ((List.range 21).map fun n => c n 0) })
    (fun t => t.zf.rd 2 = buf [c 11 0, c 12 0, c 13 0, c 14 0]) = true := by decide +kernel

theorem test_dqpsk :
    nextWith (exec (.dqpsk 0) { byWorker 0 with
        zf := [(0, buf [c 0 0, c 1 1, c 0 0, c 1 0]), (1, buf [c 0 0, c 0 (-2), c 0 0, c (-1) 1])] })
      (fun t => decide ((t.wk 0).nv.rd 0 = c (-1) 1 ∧ (t.wk 0).nv.rd 1 = c (-1) (-1))) = true := by decide +kernel

theorem test_soft :
    nextWith (exec (.soft 0) { byWorker 0 with workers := [{ atWork with nv := buf [c 1 (-1), c (-1) 1] }, Worker.power] })
      (fun t => (List.range 4).map (fun a => (t.out.rd a).toInt) = [-127, 127, -127, 127]) = true := by decide +kernel

theorem test_soft_conversion :
    [Dsp.soft 127 0x7F800000#32, Dsp.soft 127 0xFF800000#32, Dsp.soft 127 0xBF7FFFFF#32].map BitVec.toInt
    = [127, -127, -126] := by decide +kernel

theorem test_rel :
    nextWith (exec .rel { byCoord with workers := List.replicate 2 { Worker.power with wp := true, wf := true, wd := true } })
      (fun t => t.workers.all fun k => k.ws && !k.wp && !k.wf && !k.wd) = true := by decide +kernel

theorem test_phavg :
    nextWith (exec .phavg { byCoord with
        workers := [published 0x3DCCCCCD#32, published 0x3E4CCCCD#32] })
      (fun t => t.psiAvg = 0x3DCCCCCD#32) = true := by decide +kernel

theorem test_ffupd : nextWith (exec .ffupd { byCoord with psiAvg := 0x3DCCCCCD#32 }) (fun t => t.fFine = 0xBB026136#32) = true := by
  decide +kernel

theorem test_emit_raises : nextWith (exec .emit byCoord) (fun t => decide (t.frameValid = true ∧ t.coPc = 0)) = true := by
  decide +kernel

theorem test_emit_completes :
    nextWith (exec .emit { byCoord with emitArmed := true, coPc := 8 }) (fun t => decide (t.frameValid = false ∧ t.coPc = 9)) = true := by
  decide +kernel

theorem test_sig : nextWith (exec (.sig (.wf 1)) (byWorker 1)) (fun t => decide (t.flag (.wf 1) = true ∧ t.flag (.wf 0) = false)) = true := by
  decide +kernel

theorem test_wait_passes_and_consumes : nextWith (exec (.wait .ce) t4) (fun t => t.ce = false) = true := by decide +kernel

theorem test_wait_under_stop : nextWith (exec (.wait .ce) { t4 with stop := true })
    (fun t => decide (t.ce = true ∧ t.nextInstr .ingest = some .halt)) = true := by decide +kernel

theorem test_swap : nextWith (exec .swap { t4 with ingLen := 21, fCoarse := 0xBE800000#32, fFine := 0x3C23D70A#32 })
    (fun t => decide (t.sel = true ∧ t.ingLen = 0 ∧ t.fSnap = 0xBE75C28F#32 ∧ t.framesRead = 1)) = true := by decide +kernel

theorem test_halt : nextWith (exec .halt (byWorker 1))
    (fun t => decide (t.isHalted (.worker 1) = true ∧ t.isHalted (.worker 0) = false)) = true := by decide +kernel

/-- A word placed by `withFetchWord` runs as the first operation after reset, in the phase it needs. -/
theorem test_placed_words_run :
    [0x2D030000, 0x14B00000, 0x30000013, 0x31000000, 0x32000000, 0x33000013, 0x34000012, 0x35000000, 0x41000000, 0x52000000].all
      (fun w => runs (step (State.reset.withFetchWord 32 w))) = true := by decide +kernel

/-! The phases of 20_memory R88. -/

/-- A worker's word outside `WAIT WS … SIG WD`, `DQPSK 1` before `WAIT WF[1]` (95, P5), `SWAP` in mid-frame, `PHAVG` before
`WAIT WP`. -/
theorem test_out_of_phase :
    refusedAs (exec (.derot 0) { t4 with cur := .worker 0 }) .outOfPhase = true
    ∧ refusedAs (exec (.dqpsk 1) { t4 with cur := .worker 0 }) .outOfPhase = true
    ∧ refusedAs (exec .swap { byWorker 0 with cur := .ingest }) .outOfPhase = true
    ∧ refusedAs (exec .phavg { t4 with cur := .coord }) .outOfPhase = true := by decide +kernel

/-- `WAIT WS[0]` begins worker 0's hold on its slots, `SIG WD[0]` ends it. -/
theorem test_hold_begins_and_ends :
    nextWith (exec (.wait (.ws 0)) { t4 with cur := .worker 0, workers := [{ Worker.power with ws := true }, Worker.power] })
      (fun t => (t.wk 0).holds && !(t.wk 1).holds) = true
    ∧ nextWith (exec (.sig (.wd 0)) (byWorker 0)) (fun t => !(t.wk 0).holds && (t.wk 1).holds) = true := by decide +kernel

/-! The outputs. -/

/-- `s_ready` at `NSAMP`, and not under `stop`. -/
theorem test_s_ready : t4.sReady = true ∧ { t4 with stop := true }.sReady = false := by decide +kernel

/-- The trace reports an operation in the step it takes effect in, not a blocked one, not a refused one. -/
theorem test_trace :
    { t4 with turns := [.run .ingest], samples := [c 1 1] }.traced = some (0, 0x20000000#32)
    ∧ { t4 with turns := [.run .ingest] }.traced = none
    ∧ { t4 with turns := [.issue .coord 0x52000000#32] }.traced = none := by decide +kernel

/-- `EMIT` offers `(F − 1)·2C` soft bits, once. -/
theorem test_frames_offered :
    (framesOffered 2 { aboutToEmit with turns := [.run .coord, .run .coord] }).map List.length = [8] := by decide +kernel

/-! Witnesses: for every statement with hypotheses, a concrete state and operands that meet them all; one per clause,
at a boundary value where there is a range. -/

theorem witness_DecodeOfEncode : (Instr.bflyf (.zf 65535) 15).wf = true ∧ (Instr.wait (.wf 65535)).wf = true := by decide

theorem witness_OnlyTableWordsDecode :
    decode 0x117F0003#32 = some (.bflyf (.zf 3) 15)
    ∧ opcOf 0x2E000000#32 = 0x2E
    ∧ (opcOf 0x10300000#32 = 0x10 ∧ bufOf 0x10300000#32 = 3)
    ∧ (opcOf 0x1040FFFF#32 = 0x10 ∧ bufOf 0x1040FFFF#32 = 4 ∧ idxOf 0x1040FFFF#32 = 65535)
    ∧ (opcOf 0x12700000#32 = 0x12 ∧ auxOf 0x12700000#32 = 0)
    ∧ (opcOf 0x14C00000#32 = 0x14 ∧ bufOf 0x14C00000#32 = 12)
    ∧ (opcOf 0x2D050000#32 = 0x2D ∧ auxOf 0x2D050000#32 = 5)
    ∧ (opcOf 0x50600000#32 = 0x50 ∧ bufOf 0x50600000#32 = 6)
    ∧ (opcOf 0x51100001#32 = 0x51 ∧ bufOf 0x51100001#32 = 1 ∧ idxOf 0x51100001#32 = 1)
    ∧ (opcOf 0x30010000#32 = 0x30 ∧ auxOf 0x30010000#32 = 1)
    ∧ (opcOf 0x2D110000#32 = 0x2D ∧ bufOf 0x2D110000#32 = 1)
    ∧ (opcOf 0x14A00001#32 = 0x14 ∧ idxOf 0x14A00001#32 = 1) := by decide

theorem witness_WordsOfEveryRow : 65535 < 65536 ∧ 1 ≤ 1 ∧ 15 < 16 := by decide

/-- One per clause, at the ends of the ranges of T4 (`F = 3`, `L = 2`, `T = 2`, ranges `[0, 2)` and `[2, 4)`). -/
theorem witness_WrongIssuerOrOperandIsRefused :
    ((byWorker 2).cur = .worker 2 ∧ (byWorker 2).T ≤ 2)
    ∧ (t4.par.F < 4 ∧ t4.par.N = 2 ^ 2 ∧ 2 < 3 ∧ t4.par.F ≤ 3 ∧ t4.par.F ≤ 2 + 1 ∧ t4.T ≤ 2)
    ∧ (exec (.soft 1) t4 ≠ .refused .reservedOperand ∧ ¬ ∃ w, t4.cur = .worker w)
    ∧ ((byWorker 0).cur = .worker 0 ∧ 0 + 1 < (byWorker 0).T ∧ (0 + 1) * ((t4.par.F + 1) / t4.T) ≤ 2
      ∧ exec (.derot 2) (byWorker 0) ≠ .refused .reservedOperand ∧ 1 < 1 * ((t4.par.F + 1) / t4.T))
    ∧ (exec (.bitrev .sa) (byWorker 0) ≠ .refused .reservedOperand ∧ exec (.bflyi (.zf 3) 2) t4 ≠ .refused .reservedOperand)
    ∧ (issuesAsOwner { t4 with cur := .worker 1 } 1 3 ∧ ({ t4 with cur := .worker 1 }.wk 1).holds = false
      ∧ exec (.derot 3) { t4 with cur := .worker 1 } ≠ .refused .reservedOperand)
    ∧ (issuesAsOwner { byWorker 0 with frameValid := true } 0 1 ∧ 1 + 2 ≤ t4.par.F)
    ∧ (issuesAsOwner { t4 with cur := .worker 0 } 0 1 ∧ 1 + 1 = endOf t4.par t4.T 0 ∧ (t4.wk 0).sawWf = false)
    ∧ (let s := { byWorker 1 with workers := [atWork, { atWork with wf := true, wp := true }] }
       issuesAsOwner s 1 2 ∧ 2 = startOf s.par s.T 1 ∧ (s.wk 1).wf = true ∧ (s.wk 1).wp = true
       ∧ exec (.ldsym 2) s ≠ .refused .reservedOperand)
    ∧ (1 < t4.T ∧ (t4.wk 1).sawWp = false)
    ∧ ({ byWorker 0 with cur := .ingest }.cur = .ingest ∧ ((byWorker 0).wk 1).holds = true) := by
  unfold issuesAsOwner
  refine ⟨by decide, by decide, ⟨?_, fun ⟨_, h⟩ => Agent.noConfusion h⟩, ⟨by decide, by decide, by decide, ?_, by decide⟩, ⟨?_, ?_⟩,
    ⟨by decide, by decide, ?_⟩, by decide, by decide, ⟨by decide, by decide, by decide, by decide, ?_⟩, by decide, by decide⟩
  all_goals exact not_reservedOperand (by decide +kernel)

theorem witness_StepRunsTheDecodedWord :
    ∃ rest, { t4 with turns := [.issue .ingest 0x22000000#32] }.turns = .issue .ingest 0x22000000#32 :: rest
      ∧ t4.en = true ∧ t4.isHalted .ingest = false ∧ decode 0x22000000#32 = some .ncap ∧ decode 0x00000000#32 = none :=
  ⟨[], by decide⟩

theorem witness_TurnsOfTheAgents :
    ({ t4 with turns := [.run (.worker 1)] }.en = true ∧ t4.isHalted (.worker 1) = false ∧ agentExists t4.T (.worker 1) = true
      ∧ { t4 with turns := [.run (.worker 1)] }.nextInstr (.worker 1) = some (.wait (.ws 1)) ∧ (Instr.wait (.ws 1)).wf = true)
    ∧ t4.turns = []
    ∧ (State.reset.en = false ∧ { t4 with coHalted := true }.isHalted .coord = true) := by decide +kernel

/-- The end of a run: at `NSAMP` with no sample, and with every agent halted after STOP; a step from each. -/
theorem witness_TurnsOfTheAgents_end :
    (t4.T ≤ 65536 ∧ runEnded { t4 with turns := [.run .coord] } ∧ noMoreInput { t4 with turns := [.run .coord] }
      ∧ ∃ t, step { t4 with turns := [.run .coord] } = .next t)
    ∧ runEnded { t4 with stop := true, ingHalted := true, coHalted := true,
                         workers := List.replicate 2 { Worker.power with halted := true } } := by
  have hm : noMoreInput { t4 with turns := [.run .coord] } := fun x hx => ⟨.coord, by simpa using hx⟩
  refine ⟨⟨by decide, Or.inr ⟨rfl, rfl, hm, ?_, Or.inl ?_, ?_⟩, hm, next_of_runs (by decide +kernel)⟩, Or.inl (by decide)⟩
  · exact ⟨by decide +kernel, rfl⟩
  · decide +kernel
  · unfold restsAt; decide +kernel

theorem witness_PositionsAdvanceByOne :
    (∃ t, exec .ncap { t4 with acqSub := 2 } = .next t) ∧ isPlain .ncap = true
    ∧ (∃ t, exec .phavg { byCoord with coPc := 4 } = .next t) ∧ isPlain .phavg = true
    ∧ (∃ t, exec (.sig (.wd 1)) (byWorker 1) = .next t) ∧ isPlain (.sig (.wd 1)) = true :=
  ⟨next_of_runs (by decide +kernel), by decide, next_of_runs (by decide +kernel), by decide, next_of_runs (by decide +kernel), by decide⟩

theorem witness_AcquisitionLoops :
    (∃ t, exec .nsamp { t4 with samples := [c 1 1] } = .next t)
    ∧ (∃ t, exec .l1win { t4 with acqSub := 1, samples := [c 1 1] } = .next t)
    ∧ (∃ t, exec .capp { t4 with acqState := .readNullPrs, corrLen := 10, samples := [c 1 1] } = .next t)
    ∧ (∃ t, exec .iapp fillingFrame = .next t)
    ∧ fillingFrame.ingDivert = .none ∧ fillingFrame.stop = false ∧ fillingFrame.samples ≠ [] :=
  ⟨next_of_runs (by decide +kernel), next_of_runs (by decide +kernel), next_of_runs (by decide +kernel),
    next_of_runs (by decide +kernel), by decide, by decide, by decide⟩

/-- The transform buffers: `SA` by the ingest agent, the last slot by its owner. -/
theorem witness_holdsXBuf : holdsXBuf t4 .sa ∧ holdsXBuf (byWorker 1) (.zf 3) ∧ t4.par.N = 2 ^ t4.par.L :=
  ⟨rfl, ⟨by decide, 1, by unfold issuesAsOwner mayWriteZf; decide +kernel⟩, by decide +kernel⟩

theorem witness_BitReversalAndBitrev : 7 < 2 ^ 3 ∧ holdsXBuf t4 .sa ∧ holdsXBuf (byWorker 1) (.zf 3) ∧ t4.par.N = 2 ^ t4.par.L :=
  ⟨by decide, witness_holdsXBuf⟩

theorem witness_ForwardButterflyResult :
    (holdsXBuf t4 .sa ∧ holdsXBuf (byWorker 1) (.zf 3) ∧ t4.par.N = 2 ^ t4.par.L)
      ∧ 1 ≤ 2 ∧ 2 ≤ t4.par.L ∧ 1 < 2 ^ (2 - 1) ∧ 0 * 2 ^ 2 + 1 + 2 ^ (2 - 1) < t4.par.N :=
  ⟨witness_holdsXBuf, by decide +kernel⟩

theorem witness_InverseButterflyResults :
    (t4.cur = .ingest ∧ t4.par.N = 2 ^ t4.par.L ∧ 2 ≤ t4.par.L)
      ∧ (agentExists t4.T t4.cur = true ∧ 3 ≤ t4.par.F ∧ 1 ≤ 1 ∧ 1 ≤ t4.par.L)
      ∧ agentExists (byWorker 1).T (byWorker 1).cur = true := by decide +kernel

theorem witness_ingest_operations : t4.cur = .ingest ∧ 1 ≤ t4.par.N ∧ t4.stop = false ∧ t4.par.legal = true := by
  decide +kernel

theorem witness_ScratchBufferResults : t4.cur = .ingest ∧ 1 ≤ t4.par.N ∧ 2 + 1 < t4.par.N := by decide

theorem witness_LogMagnitudeResults :
    t4.cur = .ingest ∧ 3 < t4.par.N ∧ Fp.isZero Fp.negZero = true ∧ Fp.isZero Fp.zero = true := by decide

theorem witness_PllpResult : t4.cur = .ingest ∧ Fp.isZero (Fp.add t4.fCoarse t4.fFine) = true := by decide +kernel

theorem witness_TransformsByTheirWords :
    (holdsXBuf t4 .sa ∧ holdsXBuf (byWorker 1) (.zf 3) ∧ t4.par.N = 2 ^ t4.par.L) ∧ t4.cur = .ingest := ⟨witness_holdsXBuf, by decide⟩

theorem witness_PipelineIsTheFourierTransform : 7 < 2 ^ 3 := by decide

theorem witness_NsampResult :
    (t4.cur = .ingest ∧ t4.stop = false ∧ t4.samples = [])
    ∧ ({ t4 with samples := [c 1 1], circWr := 5 }.samples = c 1 1 :: [] ∧ { t4 with samples := [c 1 1], circWr := 5 }.circWr < t4.par.P) := by
  decide

theorem witness_L1winResult : t4.cur = .ingest ∧ t4.nullStart = false ∧ { t4 with nullStart := true }.nullStart = true := by decide

theorem witness_CorrelationPrefixResults : t4.cur = .ingest ∧ 5 < t4.par.P := by decide

theorem witness_AppendResults :
    (t4.cur = .ingest ∧ t4.stop = false ∧ t4.samples = [])
    ∧ (fillingFrame.samples = c 1 1 :: [] ∧ fillingFrame.ingLen < fillingFrame.par.F * fillingFrame.par.S + fillingFrame.par.P)
    ∧ { t4 with corrLen := 10, samples := [c 1 1] }.corrLen < t4.par.P + t4.par.S := by decide

theorem witness_CoarseUpdateResults : t4.cur = .ingest := by decide

theorem witness_PeakcResults :
    (t8.cur = .ingest ∧ t8.par.legal = true ∧ t8.par.N / 2 - searchHalfWidth t8 ≤ 4 ∧ 4 ≤ t8.par.N / 2 + searchHalfWidth t8)
    ∧ Fp.isFinite (Fp.mul t8.cfg.maxCoarseFreqNorm (Fp.ofNat t8.par.N)) = true := by decide +kernel

theorem witness_PeakwResult : t8.cur = .ingest ∧ 1 ≤ t8.par.N ∧ 7 < t8.par.N := by decide

theorem witness_FtchkRaisesDesync :
    (t8.cur = .ingest ∧ Fp.lt (Fp.sub t8.impW t8.impMu) t8.cfg.impulsePeakThreshDb = true)
    ∧ Fp.lt (Fp.sub (Fp.ofInt 10) t8.impMu) t8.cfg.impulsePeakThreshDb = false
    ∧ (∃ t, step { desyncRaised with turns := [.run .coord] } = .next t) ∧ desyncRaised.ingDivert = .desync
    ∧ (∃ t, step { desyncRaised with turns := [.host (.regWrite 0x30#8 2#32)] } = .next t) :=
  ⟨by decide +kernel, by decide +kernel, next_of_runs (by decide +kernel), by decide, next_of_runs (by decide +kernel)⟩

/-- Both ends of the range of the offset. -/
theorem witness_PrscpResult :
    t8.cur = .ingest ∧ t8.par.legal = true
    ∧ (let s := { t8 with fineTimeOffset := -2 };
       -(s.par.G : Int) ≤ s.fineTimeOffset ∧ s.fineTimeOffset ≤ (s.par.N : Int) - 1 - (s.par.G : Int))
    ∧ (let s := { t8 with fineTimeOffset := 5 };
       -(s.par.G : Int) ≤ s.fineTimeOffset ∧ s.fineTimeOffset ≤ (s.par.N : Int) - 1 - (s.par.G : Int)) := by decide +kernel

theorem witness_AdvAndDesyncResults : t4.cur = .ingest ∧ AcqState.readSymbols ≠ .findNull ∧ AcqState.readNullPrs ≠ .findNull := by
  decide

theorem modesFit_t4 : modesFit t4.modes := by unfold modesFit rowFits; decide

theorem witness_TransitionGraph :
    (let s := { t4 with acqSub := 3, corrLen := 6, turns := [.run .ingest] }
     modesFit s.modes ∧ agentTurn s ∧ (s.ingDivert = .desync → s.acqState = .fineTime)
       ∧ nextWith (step s) (fun t => t.acqState = .readNullPrs) = true)
    ∧ (let s := { desyncRaised with turns := [.run .ingest] }
       modesFit s.modes ∧ agentTurn s ∧ (s.ingDivert = .desync → s.acqState = .fineTime)
         ∧ nextWith (step s) (fun t => t.acqState = .findNull) = true) :=
  ⟨⟨modesFit_t4, rfl, by decide, by decide +kernel⟩,
    ⟨modesFit_t4, rfl, by decide, by decide +kernel⟩⟩

theorem witness_SamplesAreTakenOnce : ∃ t, exec .iapp fillingFrame = .next t := next_of_runs (by decide +kernel)

/-- A worker and a slot it owns, both ends: slot 0 of worker 0, slot `F` of worker 1. -/
theorem witness_DerotResult :
    (issuesAsOwner (byWorker 0) 0 0 ∧ 0 ≤ t4.par.F ∧ ((byWorker 0).wk 0).holds = true)
    ∧ (issuesAsOwner (byWorker 1) 1 3 ∧ 3 ≤ t4.par.F ∧ ((byWorker 1).wk 1).holds = true) := by
  unfold issuesAsOwner; decide +kernel

theorem witness_PhaseErrorResults :
    (issuesAsOwner (byWorker 1) 1 2 ∧ 2 + 1 ≤ t4.par.F ∧ ((byWorker 1).wk 1).holds = true)
    ∧ (byWorker 1).cur = .worker 1 ∧ 1 < t4.T ∧ ((byWorker 1).wk 1).wp = false := by
  unfold issuesAsOwner; decide +kernel

theorem witness_AngleAndNormalisedRanges :
    (Fp.isNaN (c 0 (-1)).re = false ∧ Fp.isNaN (c 0 (-1)).im = false)
    ∧ (Fp.isZero Cplx.zero.re = true ∧ Fp.isZero Cplx.zero.im = true)
    ∧ (Fp.isFinite (c 0 (-1)).re = true ∧ Fp.isFinite (c 0 (-1)).im = true ∧ Fp.isZero (c 0 (-1)).im = false) := by decide +kernel

/-- The first slot of worker 1's range before `SIG WF[1]`, and its last slot. -/
theorem witness_LdsymResult :
    ((byWorker 1).wk 1).holds = true ∧ (issuesAsOwner (byWorker 1) 1 3 ∧ 3 ≤ t4.par.F ∧ mayWriteZf (byWorker 1) 1 3)
    ∧ (issuesAsOwner (byWorker 1) 1 2 ∧ mayWriteZf (byWorker 1) 1 2) := by
  unfold issuesAsOwner mayWriteZf; decide +kernel

theorem witness_DqpskResult :
    issuesAsOwner (byWorker 0) 0 1 ∧ 1 + 2 ≤ t4.par.F ∧ 1 + 1 = endOf t4.par t4.T 0 ∧ ((byWorker 0).wk 0).sawWf = true := by
  unfold issuesAsOwner; decide +kernel

theorem witness_SoftResults :
    (issuesAsOwner (byWorker 0) 0 1 ∧ 1 + 2 ≤ t4.par.F ∧ ((byWorker 0).wk 0).holds = true ∧ (byWorker 0).frameValid = false)
    ∧ (1 : Int) ≤ 127 ∧ (127 : Int) ≤ 127
    ∧ Fp.isInf (Fp.mul (Fp.ofInt 127) Fp.negInf) = true ∧ Fp.isFinite (Fp.mul (Fp.ofInt 127) Fp.one) = true := by
  unfold issuesAsOwner; decide +kernel

theorem witness_PairsAcrossTheWorkerLists :
    (2 ≤ parT4.F ∧ 1 ≤ parT4.L ∧ 1 ≤ 2 ∧ 2 ≤ parT4.F + 1 ∧ 1 + 2 ≤ parT4.F ∧ parT4.F < 2 + 2)
    ∧ (0 < 2 ∧ (workerOps parT4 2 0).getLast? = some (.sig (.wd 0)) ∧ Instr.dqpsk 1 ∈ workerOps parT4 2 0 ∧ 1 + 1 = endOf parT4 2 0)
    ∧ Instr.dqpsk 0 ∈ workerOps parT4 2 0 := by decide +kernel

theorem witness_WorkerRangesPartitionTheSlots : 1 ≤ 77 ∧ 77 ≤ Config.modeI.F + 1 ∧ 76 ≤ Config.modeI.F := by decide

theorem witness_CarrierBins : Config.modeI.legal = true ∧ 1535 < Config.modeI.C ∧ parT4.legal = true := by decide +kernel

theorem witness_CoordinatorResults : byCoord.cur = .coord ∧ 1 < byCoord.T ∧ ∀ w < byCoord.T, (byCoord.wk w).sawWp = true := by
  decide

theorem witness_EmitResult :
    byCoord.cur = .coord ∧ byCoord.stop = false ∧ byCoord.emitArmed = false
    ∧ { byCoord with emitArmed := true, frameValid := true }.frameValid = true
    ∧ { byCoord with emitArmed := true }.frameValid = false := by decide

theorem witness_EmitResult_frame :
    (let s := { aboutToEmit with turns := [.run .coord] }
     s.nextInstr .coord = some .emit ∧ s.en = true ∧ s.coHalted = false ∧ s.stop = false ∧ s.emitArmed = false
       ∧ runs (step s) = true) := by decide +kernel

/-- Each class with an entitled agent, the per-worker ones at the last worker. -/
theorem witness_SigResult :
    maySignal t4.cur .cs = true ∧ maySignal byCoord.cur .ce = true ∧ maySignal byCoord.cur (.ws 1) = true
    ∧ [Barrier.wp 1, .wf 1, .wd 1].all (fun x => maySignal (byWorker 1).cur x && barrierLegal t4.T x) = true
    ∧ agentExists t4.T (.worker 1) = true := by decide

theorem witness_WaitResult :
    (mayWait byCoord.cur .cs = true ∧ byCoord.stop = false ∧ byCoord.flag .cs = false)
    ∧ (mayWait t4.cur .ce = true ∧ t4.flag .ce = true)
    ∧ (mayWait (byWorker 1).cur (.ws 1) = true ∧ mayWait byCoord.cur (.wp 1) = true ∧ mayWait byCoord.cur (.wd 1) = true)
    ∧ (mayWait (byWorker 0).cur (.wf 1) = true ∧ barrierLegal t4.T (.wf 1) = true)
    ∧ { t4 with stop := true }.stop = true := by decide

theorem witness_SwapResult :
    aboutToSwap.cur = .ingest ∧ aboutToSwap.coPc = 0 ∧ aboutToSwap.cs = false
    ∧ ∀ w < aboutToSwap.T, (aboutToSwap.wk w).holds = false ∧ (aboutToSwap.wk w).ws = false := by decide

theorem witness_HaltResult :
    (agentExists t4.T (byWorker 1).cur = true ∧ agentExists t4.T t4.cur = true ∧ agentExists t4.T byCoord.cur = true)
    ∧ (let s := { t4 with coHalted := true, turns := [.run .ingest], samples := [c 1 1] }
       s.isHalted .coord = true ∧ runs (step s) = true) := by decide +kernel

theorem witness_StopTurnsBlockingIntoHalt :
    (let s := { t4 with stop := true }
     [Instr.wait .ce, .nsamp, .capp, .iapp].all (fun i => isBlocking i && decide (issueCheck s i = none)) = true)
    ∧ (let s := { byCoord with stop := true }
       [Instr.wait .cs, .emit].all (fun i => isBlocking i && decide (issueCheck s i = none)) = true)
    ∧ (let s := { byWorker 0 with stop := true }
       [Instr.wait (.ws 0), .wait (.wf 1)].all (fun i => isBlocking i && decide (issueCheck s i = none)) = true) := by
  decide +kernel

theorem witness_WritersOfRegisters : ∃ t, exec .swap aboutToSwap = .next t := next_of_runs (by decide +kernel)

theorem witness_AgentsChangeOnlyTheirOwn :
    ((∃ t, exec (.soft 1) (byWorker 0) = .next t) ∧ (byWorker 0).cur = .worker 0)
    ∧ ((∃ t, exec .swap t4 = .next t) ∧ t4.cur = .ingest)
    ∧ ((∃ t, exec .rel byCoord = .next t) ∧ byCoord.cur = .coord) :=
  ⟨⟨next_of_runs (by decide +kernel), by decide⟩, ⟨next_of_runs (by decide +kernel), by decide⟩,
    ⟨next_of_runs (by decide +kernel), by decide⟩⟩

theorem witness_RoundingIsToNearestEven :
    (0 < 3 ∧ Fp.roundMag 1 3 < 2139095040 ∧ 2139095039 < 2139095040)
    ∧ Fp.isFinite 0xFF7FFFFF#32 = true ∧ Fp.isFinite 0x00000001#32 = true ∧ Fp.isZero 0x00000001#32 = false
    ∧ 0 ≤ Fp.value 0x00000001#32 := by
  refine ⟨by decide +kernel, by decide, by decide, by decide, ?_⟩
  exact div_nonneg (by exact_mod_cast (by decide : (0 : Int) ≤ Fp.sunits 0x00000001#32)) (by positivity)

theorem witness_WrapStaysBelowTheBound : 1 ≤ 15 ∧ 15 < 16 ∧ Fp.isFinite 0xFF7FFFFF#32 = true := by decide

theorem witness_ControlRegister :
    ((1#32).getLsbD 0 = true ∧ State.reset.en = false ∧ 0x00#8 ∈ State.reset.unset ∧ ∀ n ∈ State.reset.unset, n ∈ cfgNumbers)
    ∧ (6#32).getLsbD 0 = false
    ∧ (let s := { t4 with en := false }
       s.unset = [] ∧ s.par.N = 2 ^ 2 ∧ s.par.G = 1 ∧ s.par.C = 2 ∧ s.par.F = 3 ∧ s.par.P = 6 ∧ s.T = 2
       ∧ s.row.cmap = [1, 0] ∧ s.cfg.l1NbSamples.toNat = 2 ∧ s.cfg.l1NbDecimate.toNat = 1 ∧ s.cfg.softHigh.toInt = 127
       ∧ Fp.isFinite s.cfg.impulsePeakDistProb = true ∧ s.configLegal = true) := by decide +kernel

theorem witness_ConfigurationAndUnlistedRegisters :
    0x1B#8 ∈ cfgNumbers ∧ 0x00#8 ∈ cfgNumbers ∧ t4.en = true ∧ State.reset.en = false ∧ 0xFF#8 ∉ cfgNumbers ∧ 0x2A#8 ∉ cfgNumbers := by
  decide +kernel

theorem witness_StatusRegistersAndReads :
    (-2147483648 ≤ t4.fineTimeOffset ∧ t4.fineTimeOffset < 2147483648)
    ∧ (t4.impIndex.toNat < t4.par.N ∧ t4.acqState ≠ .fineTime ∧ t4.impPrev = none)
    ∧ { t4 with acqState := .fineTime, impPrev := some [] }.impPrev = some []
    ∧ ({ t4 with frameValid := true }.frameValid = true ∧ 7 < (t4.par.F - 1) * (2 * t4.par.C)) := by decide +kernel

theorem witness_ResetState : ∃ r, hostStep .rst r = .next (t4.hardReset) := ⟨t4, rfl⟩

theorem wf_fillingFrame : Memory.wf fillingFrame := by unfold Memory.wf Mem.wf; decide +kernel

theorem witness_StepKeepsMemoryCanonical :
    Memory.wf fillingFrame ∧ ∃ t, step { fillingFrame with turns := [.run .ingest] } = .next t :=
  ⟨wf_fillingFrame, next_of_runs (by decide +kernel)⟩

theorem rangeInv_fillingFrame : RangeInv fillingFrame := by
  refine ⟨modesFit_t4, fun _ => ?_, fun h => by cases h⟩
  unfold legalRun rangesHold fineBounded
  decide +kernel

theorem witness_StepKeepsRegistersInRange :
    RangeInv fillingFrame ∧ ∃ t, step { fillingFrame with turns := [.run .ingest] } = .next t :=
  ⟨rangeInv_fillingFrame, next_of_runs (by decide +kernel)⟩

theorem placeInv_fillingFrame : PlaceInv { fillingFrame with turns := [.run .ingest] } := by
  refine ⟨rangeInv_fillingFrame, fun _ => ⟨by decide, ?_, ?_⟩⟩
  · exact ⟨by decide, fun _ => by decide, fun h => absurd h (by decide)⟩
  · unfold pipelinePlaced
    decide +kernel

/-- Worker phases at rest: nothing is held, nothing is on offer. -/
theorem phaseInv_fillingFrame : PhaseInv { fillingFrame with turns := [.run .ingest] } := by
  refine ⟨fun w hw => ?_, fun w _ h => absurd h (Nat.not_lt_zero _), by decide⟩
  have hw' : w = 0 ∨ w = 1 := by
    have : w < 2 := hw
    omega
  obtain rfl | rfl := hw' <;>
    exact ⟨by decide, by decide, fun h => absurd rfl h, fun n h => absurd h (Nat.not_lt_zero n)⟩

/-- The invariants of the hardwired lists in a core that runs, and the refused EN of a core that is not configured. -/
theorem witness_HardwiredListsAreNeverRefused :
    (RunInv { fillingFrame with turns := [.run .ingest] } ∧ hardwired { fillingFrame with turns := [.run .ingest] })
    ∧ refusedAs (step { State.reset with turns := [.host (.regWrite 0x30#8 1#32)] }) .illegalConfiguration = true := by
  refine ⟨⟨⟨placeInv_fillingFrame, ?_, phaseInv_fillingFrame⟩, rfl⟩, by decide +kernel⟩
  unfold HandoffInv idle inFrame
  decide +kernel

/-- A frame in flight meets the phases: worker 1 about to issue `SIG WF[1]`, worker 0 past `WAIT WF[1]`. -/
theorem phases_in_flight :
    let s := { t4 with coPc := 4, ce := false, workers :=
      [{ atWork with pc := 19, wp := true, wf := true, sawWp := true }, { atWork with pc := 10, wp := true, sawWf := false, sawWp := true }] }
    ((workerOps s.par s.T 1)[10]? = some (.sig (.wf 1)) ∧ (s.wk 1).wf = false)
    ∧ ((workerOps s.par s.T 0)[18]? = some (.wait (.wf 1)) ∧ (s.wk 0).sawWf = true)
    ∧ [exec (.sig (.wf 1)) { s with cur := .worker 1 }, exec (.dqpsk 1) { s with cur := .worker 0 }].all runs = true := by
  decide +kernel

theorem handoffInv_aboutToSwap : HandoffInv aboutToSwap := by unfold HandoffInv idle inFrame; decide +kernel

theorem handoffInv_aboutToEmit : HandoffInv aboutToEmit := by unfold HandoffInv idle inFrame; decide +kernel

theorem witness_HandoffDiscipline :
    (modesFit aboutToSwap.modes ∧ aboutToSwap.T ≤ 65536 ∧ HandoffInv aboutToSwap ∧ aboutToSwap.nextInstr .ingest = some .swap)
    ∧ (HandoffInv aboutToEmit ∧ aboutToEmit.nextInstr .coord = some .emit)
    ∧ hardwired aboutToSwap ∧ ∃ t, step { aboutToSwap with turns := [.run .ingest] } = .next t :=
  ⟨⟨modesFit_t4, by decide, handoffInv_aboutToSwap, by decide⟩, ⟨handoffInv_aboutToEmit, by decide +kernel⟩,
    trivial, next_of_runs (by decide +kernel)⟩

/-- The lists of the T4 core: no diversion, `COARSE_FREQ_EN` either way, a worker with a range and pairs. -/
theorem witness_HardwiredListsByPosition :
    t4.ingDivert = .none ∧ t4.coDivert = .none ∧ t4.cfg.coarseFreqEn = true
    ∧ { t4 with cfg := Cfg.power }.cfg.coarseFreqEn = false
    ∧ 0 < t4.T ∧ (t4.wk 0).divert = .none ∧ startOf t4.par t4.T 0 < endOf t4.par t4.T 0 ∧ 1 < min 2 (t4.par.F - 1) - 0 := by
  decide +kernel

/-- Legal sizes, an element of each table, and the finite symbol `j`. -/
theorem witness_TwiddleAndReferenceTables :
    (1 ≤ 15 ∧ 15 < 16 ∧ 16383 < 2 ^ 15 / 2) ∧ parT8.N = 2 ^ 3 ∧ 7 < parT8.N
    ∧ ∀ k, let prs : Nat → Cplx := fun _ => c 0 1
      Fp.isFinite (prs k).re = true ∧ Fp.isFinite (prs k).im = true :=
  ⟨by decide, by decide, by decide, fun _ => by decide +kernel⟩

end Sys2Proof.Tests
end

section
/-! The ingest agent's operations on `SA`: the buffer mapped element by element, then the position moved
(41_dsp_primitives R159, 60 R295). -/

namespace Sys2Proof.Machine

variable {s : State}

/-- Element `n` of `SA` at the end of an operation that replaces its `N` elements. -/
theorem rd_sa_advance_mapXbuf (f : Nat → Cplx) (n : Nat) :
    (s.mapXbuf .sa f).advance.sa.rd n = if n < s.par.N then f n else s.sa.rd n := by
  rw [advance_sa]
  exact rd_mapXbuf s .sa f n

/-- The frame of such an operation, issued by the ingest agent. -/
theorem advance_mapXbuf_sa_frame (h : s.cur = .ingest) (f : Nat → Cplx) :
    (s.mapXbuf .sa f).advance
      = { s with sa := (s.mapXbuf .sa f).advance.sa, acqSub := (s.mapXbuf .sa f).advance.acqSub } := by
  have hcur : (s.mapXbuf .sa f).cur = .ingest := by rw [mapXbuf_cur, h]
  rw [advance_ingest hcur]
  rfl

/-- `PLLP` has no operand and no phase: the ingest agent may always issue it (30_encoding R114). -/
theorem issueCheck_pllp (h : s.cur = .ingest) : issueCheck s .pllp = none := by
  rw [issueCheck_none, h]
  exact ⟨rfl, rfl, rfl, rfl, rfl⟩

/-- `PLLP` issued by the ingest agent completes (41_dsp_primitives R159). -/
theorem exec_pllp_of_ingest (h : s.cur = .ingest) :
    exec .pllp s
      = .next (s.mapXbuf .sa (Dsp.applyPll s.sa.rd (Fp.add s.fCoarse s.fFine) Fp.zero)).advance :=
  execPllp_next.mpr ⟨issueCheck_pllp h, rfl⟩

/-- The rotator's phasor at phase and frequency zero of either sign (41_dsp_primitives R159). -/
theorem rot_eq_one {phase freq : NUM} (hp : Fp.isZero phase = true) (hf : Fp.isZero freq = true) (i : Nat) :
    Cplx.rot phase freq i = Cplx.one := by
  simp [Cplx.rot, hp, hf]

end Sys2Proof.Machine

open Sys2Proof Sys2Proof.Machine

/-- Settles O15: `PLLP` passes the checks and ends as `SA` mapped by `Dsp.applyPll`, whose phasor at frequency zero
is `(1, 0)`. -/
theorem pllpResult : Obligations.PllpResult := by
  refine ⟨by decide, fun s hs => ⟨_, exec_pllp_of_ingest hs, advance_mapXbuf_sa_frame hs _,
    fun i hi => ?rotates, fun hzero i hi => ?atZero, fun n hn => ?beyondN⟩⟩
  case rotates => rw [rd_sa_advance_mapXbuf, if_pos hi, Dsp.applyPll]
  case atZero => rw [rd_sa_advance_mapXbuf, if_pos hi, Dsp.applyPll, rot_eq_one (by decide) hzero]
  case beyondN => rw [rd_sa_advance_mapXbuf, if_neg (Nat.not_lt.mpr hn)]

end

section
/-! `PRSCP`: the phase reference symbol copied to the start of the inactive ingest buffer, for every offset `FTCHK`
can set (42 R183, R184). -/

namespace Sys2Proof

/-- What a legal parameter set says of the guard interval and the frame length (00_scope R5). -/
theorem Params.bounds_of_legal {p : Params} (h : p.legal = true) : p.G ≤ p.N ∧ 2 ≤ p.F ∧ p.G ≤ p.P := by
  simp only [Params.legal, Bool.and_eq_true, decide_eq_true_eq] at h
  omega

namespace Machine

variable {s : State}

/-- `FTCHK`'s range of `fine_time_offset`: `off = imp_k − G` with `imp_k < N` (42 R183). -/
def offsetInRange (s : State) : Prop :=
  -(s.par.G : Int) ≤ s.fineTimeOffset ∧ s.fineTimeOffset ≤ (s.par.N : Int) - 1 - (s.par.G : Int)

/-- `S − off`, the number of samples `PRSCP` copies (42 R184). -/
def prscpLen (s : State) : Nat := ((s.par.S : Int) - s.fineTimeOffset).toNat

/-- The copy of `PRSCP` and the register it writes, the position not yet moved (42 R184). -/
def prsCopied (s : State) : State :=
  { s.setInact (s.inact.fill 0 (prscpLen s) fun n => s.corr.rd (((s.par.P : Int) + s.fineTimeOffset).toNat + n)) with
    ingLen := prscpLen s }

@[simp] theorem ingLen_advance_prsCopied : (prsCopied s).advance.ingLen = prscpLen s := rfl

@[simp] theorem act_advance_prsCopied : (prsCopied s).advance.act = s.act := act_setInact s _

/-- Element `n` of the inactive ingest buffer at the end of `PRSCP` (42 R184). -/
theorem rd_inact_advance_prsCopied (n : Nat) :
    (prsCopied s).advance.inact.rd n
      = if n < prscpLen s then s.corr.rd (((s.par.P : Int) + s.fineTimeOffset).toNat + n) else s.inact.rd n := by
  have hinact : (prsCopied s).advance.inact = _ := inact_setInact s _
  simp [hinact, Mem.rd_fill]

/-- The frame of `PRSCP`, issued by the ingest agent. -/
theorem advance_prsCopied_frame (h : s.cur = .ingest) :
    (prsCopied s).advance
      = { s with ing0 := (prsCopied s).advance.ing0, ing1 := (prsCopied s).advance.ing1,
                 ingLen := (prsCopied s).advance.ingLen, acqSub := (prsCopied s).advance.acqSub } := by
  have hcur : (prsCopied s).cur = .ingest := h
  rw [advance_ingest hcur]
  rfl

/-- `S − off` as a number of samples, with the bounds of R184: `2G + 1 ≤ S − off ≤ S + G`. -/
theorem prscpLen_bounds (hoff : offsetInRange s) :
    (prscpLen s : Int) = (s.par.S : Int) - s.fineTimeOffset ∧ prscpLen s ≤ s.par.S + s.par.G
      ∧ 2 * s.par.G + 1 ≤ prscpLen s := by
  obtain ⟨hlow, hhigh⟩ := hoff
  simp only [prscpLen, Params.S]
  omega

/-- `G ≤ P` keeps the copy inside `CORR`; it fits the ingest buffer, as `S + G ≤ 2·S ≤ F·S + P`
(20_memory R83, 42 R184). -/
theorem prscpFits_of_offsetInRange (hlegal : s.par.legal = true) (hoff : offsetInRange s) : prscpFits s := by
  obtain ⟨hGN, hF, hGP⟩ := Params.bounds_of_legal hlegal
  obtain ⟨hlow, hhigh⟩ := hoff
  have htwoS : 2 * (s.par.N + s.par.G) ≤ s.par.F * (s.par.N + s.par.G) := Nat.mul_le_mul_right _ hF
  refine ⟨?notBeforeCorr, ?notPastWindow, ?inIngestBuffer⟩
  case notBeforeCorr => omega
  case notPastWindow => simp only [Params.S]; omega
  case inIngestBuffer => simp only [Params.S, Params.frameLen]; omega

/-- `PRSCP` has no operand and no phase: the ingest agent may always issue it (30_encoding R114). -/
theorem issueCheck_prscp (h : s.cur = .ingest) : issueCheck s .prscp = none := by
  rw [issueCheck_none, h]
  exact ⟨rfl, rfl, rfl, rfl, rfl⟩

/-- `PRSCP` issued by the ingest agent completes for every offset in range (42 R184). -/
theorem exec_prscp_of_ingest (h : s.cur = .ingest) (hlegal : s.par.legal = true) (hoff : offsetInRange s) :
    exec .prscp s = .next (prsCopied s).advance :=
  execPrscp_next.mpr ⟨issueCheck_prscp h, prscpFits_of_offsetInRange hlegal hoff, rfl⟩

end Machine

end Sys2Proof

open Sys2Proof Sys2Proof.Machine

/-- Settles O26: legal parameters keep the copy inside its buffers at every offset in range, so `PRSCP` completes; each
element is then read through the fill of the inactive buffer. -/
theorem prscpResult : Obligations.PrscpResult := by
  refine ⟨by decide, fun s hs hlegal hlow hhigh => ?_⟩
  have hoff : offsetInRange s := ⟨hlow, hhigh⟩
  obtain ⟨hlen, hmax, hmin⟩ := prscpLen_bounds hoff
  obtain ⟨hstart, -, -⟩ := prscpFits_of_offsetInRange hlegal hoff
  refine ⟨_, exec_prscp_of_ingest hs hlegal hoff, advance_prsCopied_frame hs, hlen, hmax, hmin,
    fun n k hn hk => ?copied, fun n hn => ?beyond, act_advance_prsCopied⟩
  case copied =>
    have hindex : ((s.par.P : Int) + s.fineTimeOffset).toNat + n = k := by omega
    rw [ingLen_advance_prsCopied] at hn
    rw [rd_inact_advance_prsCopied, if_pos hn, hindex]
  case beyond =>
    rw [ingLen_advance_prsCopied] at hn
    rw [rd_inact_advance_prsCopied, if_neg (Nat.not_lt.mpr hn)]

end

section
/-! `HALT` and the halted bits: of the operations only `HALT` writes one, of the host's actions only `rst`, and a halted
agent's turn is empty (10_state R43, 45_synchronisation R264). -/

namespace Sys2Proof.Machine

variable {s t : State}

/-! The named writes that leave every halted bit. -/

theorem isHalted_setWk (w : Nat) (f : Worker → Worker) (hf : ∀ k, (f k).halted = k.halted) (a : Agent) :
    (s.setWk w f).isHalted a = s.isHalted a := by
  refine isHalted_congr (by simp) (by simp) (fun v => ?_) a
  rw [wk_setWk]
  split
  · next h => rw [hf, h.1]
  · rfl

@[simp] theorem isHalted_mapXbuf (b : XBuf) (f : Nat → Cplx) (a : Agent) : (s.mapXbuf b f).isHalted a = s.isHalted a :=
  isHalted_congr (by simp) (by simp) (fun w => congrArg Worker.halted (wk_congr (mapXbuf_workers s b f) w)) a

@[simp] theorem isHalted_setFlag (x : Barrier) (v : Bool) (a : Agent) : (s.setFlag x v).isHalted a = s.isHalted a :=
  isHalted_congr (by simp) (by simp) (fun w => by rw [wk_setFlag]) a

@[simp] theorem isHalted_leavePhase (x : Barrier) (a : Agent) : (s.leavePhase x).isHalted a = s.isHalted a :=
  isHalted_congr (by simp) (by simp) (fun w => by rw [wk_leavePhase]) a

@[simp] theorem isHalted_enterPhase (x : Barrier) (a : Agent) : (s.enterPhase x).isHalted a = s.isHalted a :=
  isHalted_congr (by simp) (by simp) (fun w => by rw [wk_enterPhase]) a

/-- `REL` releases the workers that exist, and none of them from its halt (44 R241). -/
theorem isHalted_released (a : Agent) :
    { s with workers := s.workers.map Worker.released }.isHalted a = s.isHalted a := by
  refine isHalted_congr (s := s) ?ingest ?coord (fun w => ?worker) a
  case ingest | coord => rfl
  simp only [State.wk, List.getD_eq_getElem?_getD, List.getElem?_map]
  cases s.workers[w]? <;> rfl

/-- An operation other than `HALT` writes no halted bit (10_state R43, R57): the cases are grouped by what is written before
the position moves, a transform buffer, fields of the state, one worker's registers, or a sample's effect. -/
theorem exec_leaves_isHalted {i : Instr} (h : exec i s = .next t) (hi : i ≠ .halt) (a : Agent) :
    t.isHalted a = s.isHalted a := by
  cases i
  case halt => exact absurd rfl hi
  case bitrev | bflyf | bflyi | delta | cmul | pllp | ldprs | ldsym =>
    simp only [exec, execBitrev_next, execBflyf_next, execBflyi_next, execDelta_next, execCmul_next, execPllp_next,
      execLdprs_next, execLdsym_next] at h
    rw [h.2, isHalted_advance, isHalted_mapXbuf]
  case mag | lmag | l1win | ncap | fczero | peakc | fcupd | peakw | nullcp | derot | soft | phavg | ffupd | swap =>
    simp only [exec, execMag_next, execLmag_next, execL1win_next, execNcap_next, execFczero_next, execPeakc_next,
      execFcupd_next, execPeakw_next, execNullcp_next, execDerot_next, execSoft_next, execPhavg_next,
      execFfupd_next, execSwap_next] at h
    rw [h.2, isHalted_advance]
    rfl
  case cperr | phpub | dqpsk =>
    simp only [exec, execCperr_next, execPhpub_next, execDqpsk_next] at h
    rw [h.2, isHalted_advance, isHalted_setWk]
    exact fun _ => rfl
  case nsamp | capp | iapp =>
    simp only [exec, execNsamp_next, execCapp_next, execIapp_next] at h
    obtain ⟨-, ⟨-, rfl⟩ | ⟨-, -, rfl⟩ | ⟨_, _, -, -, -, rfl⟩⟩ := h
    · rw [isHalted_setStopped]
    · rfl
    · rw [isHalted_advance]
      rfl
  case prscp =>
    obtain ⟨-, -, rfl⟩ := execPrscp_next.mp h
    rw [isHalted_advance]
    rfl
  case rel => rw [(execRel_next.mp h).2, isHalted_advance, isHalted_released]
  case sig x => rw [((execSig_next x).mp h).2, isHalted_advance, isHalted_leavePhase, isHalted_setFlag]
  case desync =>
    rw [(execDesync_next.mp h).2]
    rfl
  case adv =>
    rw [((execAdv_next _).mp h).2]
    rfl
  case ftchk =>
    obtain ⟨-, ⟨-, rfl⟩ | ⟨-, rfl⟩⟩ := execFtchk_next.mp h
    · rfl
    · rw [isHalted_advance]
      rfl
  case emit =>
    obtain ⟨-, ⟨-, rfl⟩ | ⟨-, -, rfl⟩ | ⟨-, -, -, rfl⟩ | ⟨-, -, -, rfl⟩⟩ := execEmit_next.mp h
    · rw [isHalted_setStopped]
    · rfl
    · rfl
    · rw [isHalted_advance]
      rfl
  case wait x =>
    obtain ⟨-, ⟨-, rfl⟩ | ⟨-, -, rfl⟩ | ⟨-, -, rfl⟩⟩ := (execWait_next x).mp h
    · rw [isHalted_setStopped]
    · rfl
    · rw [isHalted_advance, isHalted_enterPhase]
      split
      · rw [isHalted_setFlag]
      · rfl

/-! What `HALT` writes (45 R264). -/

/-- `HALT` has no operand and no phase, and every agent is entitled to it (30_encoding R114). -/
theorem issueCheck_halt (h : agentExists s.T s.cur = true) : issueCheck s .halt = none :=
  issueCheck_none.mpr ⟨h, rfl, rfl, rfl, rfl⟩

/-- `HALT` completes for every agent there is. -/
theorem exec_halt (h : agentExists s.T s.cur = true) : exec .halt s = .next s.setHalted :=
  execHalt_next.mpr ⟨issueCheck_halt h, rfl⟩

/-- `HALT` writes halted bits only: the two of the state and the workers'. -/
theorem setHalted_frame :
    s.setHalted = { s with ingHalted := s.setHalted.ingHalted, coHalted := s.setHalted.coHalted,
                           workers := s.setHalted.workers } := by
  unfold State.setHalted
  split <;> rfl

/-- Of a worker's registers `HALT` writes the halted bit only. -/
theorem wk_setHalted (v : Nat) : s.setHalted.wk v = { s.wk v with halted := (s.setHalted.wk v).halted } := by
  unfold State.setHalted
  split
  · rfl
  · rfl
  · rw [wk_setWk]
    split
    · next h => rw [h.1]
    · rfl

/-- `HALT` leaves the halted bits of the other agents. -/
theorem isHalted_setHalted_of_ne {a : Agent} (h : a ≠ s.cur) : s.setHalted.isHalted a = s.isHalted a := by
  unfold State.setHalted
  split
  next hc =>
    cases a with
    | ingest => exact absurd hc.symm h
    | coord | worker => rfl
  next hc =>
    cases a with
    | coord => exact absurd hc.symm h
    | ingest | worker => rfl
  next w hc =>
    cases a with
    | ingest | coord => rfl
    | worker v =>
      have hv : v ≠ w := fun e => h (by rw [e, hc])
      simp [State.isHalted, wk_setWk, hv]

/-! A halted bit that is set stays set, up to `rst` (10_state R43, 45 R264). -/

/-- No operation clears a halted bit. -/
theorem exec_keeps_halted {i : Instr} {a : Agent} (h : exec i s = .next t) (ha : s.isHalted a = true) :
    t.isHalted a = true := by
  by_cases hi : i = .halt
  · subst hi
    obtain ⟨hcheck, rfl⟩ := execHalt_next.mp h
    by_cases hcur : a = s.cur
    · rw [hcur, isHalted_setHalted (issueCheck_none.mp hcheck).1]
    · rw [isHalted_setHalted_of_ne hcur, ha]
  · rw [exec_leaves_isHalted h hi, ha]

/-- No word's turn clears a halted bit. -/
theorem issueWord_keeps_halted {a b : Agent} {w : Word} (h : issueWord b w s = .next t) (ha : s.isHalted a = true) :
    t.isHalted a = true := by
  obtain ⟨-, heq⟩ | ⟨-, -, ⟨-, heq⟩ | ⟨i, -, heq⟩⟩ := issueWord_cases b w s <;> rw [heq] at h
  · cases h
    exact ha
  · cases h
  · exact exec_keeps_halted h ha

/-- An agent's own turn that is not refused is empty or the turn of a word. -/
theorem runAgent_next {b : Agent} (h : runAgent b s = .next t) : t = s ∨ ∃ w, issueWord b w s = .next t := by
  unfold runAgent at h
  split at h
  · cases h
    exact .inl rfl
  · split at h
    · cases h
    · split at h
      · cases h
      · exact .inr ⟨_, h⟩

/-- No agent's own turn clears a halted bit. -/
theorem runAgent_keeps_halted {a b : Agent} (h : runAgent b s = .next t) (ha : s.isHalted a = true) :
    t.isHalted a = true := by
  obtain rfl | ⟨w, hw⟩ := runAgent_next h
  · exact ha
  · exact issueWord_keeps_halted hw ha

@[simp] theorem isHalted_ctrlEn (v : BitVec 32) (a : Agent) : (s.ctrlEn v).isHalted a = s.isHalted a := by
  unfold State.ctrlEn
  split <;> rfl

@[simp] theorem isHalted_ctrlAck (v : BitVec 32) (a : Agent) : (s.ctrlAck v).isHalted a = s.isHalted a := by
  unfold State.ctrlAck
  split <;> rfl

@[simp] theorem isHalted_ctrlStop (v : BitVec 32) (a : Agent) : (s.ctrlStop v).isHalted a = s.isHalted a := by
  unfold State.ctrlStop
  split <;> rfl

/-- A write of CTRL leaves every halted bit (10_state R50). -/
theorem writeCtrl_leaves_isHalted {v : BitVec 32} (h : s.writeCtrl v = .next t) (a : Agent) : t.isHalted a = s.isHalted a := by
  unfold State.writeCtrl at h
  split at h
  · cases h
  · cases h
    rw [isHalted_ctrlStop, isHalted_ctrlAck, isHalted_ctrlEn]

/-- A write of a host register leaves every halted bit (10_state R48 to R51). -/
theorem regWrite_leaves_isHalted {n : BitVec 8} {v : BitVec 32} (h : s.regWrite n v = .next t) (a : Agent) :
    t.isHalted a = s.isHalted a := by
  unfold State.regWrite at h
  split_ifs at h
  · exact writeCtrl_leaves_isHalted h a
  all_goals
    cases h
    rfl

/-- Of the host's actions only `rst` writes a halted bit (10_state R43, R56). -/
theorem hostStep_leaves_isHalted {x : HostAct} (h : hostStep x s = .next t) (hx : x ≠ .rst) (a : Agent) :
    t.isHalted a = s.isHalted a := by
  cases x with
  | rst => exact absurd rfl hx
  | regWrite n v => exact regWrite_leaves_isHalted h a
  | regRead n => cases h; rfl
  | offer d => cases h; rfl
  | readOut k => cases h; rfl

/-- No step but `rst` clears a halted bit. -/
theorem step_keeps_halted {a : Agent} (h : step s = .next t) (hrst : ∀ rest, s.turns ≠ .host .rst :: rest)
    (ha : s.isHalted a = true) : t.isHalted a = true := by
  unfold step takeTurn at h
  split at h
  next => exact runAgent_keeps_halted h ha
  next => exact runAgent_keeps_halted h ha
  next => exact issueWord_keeps_halted h ha
  next x rest hturns =>
    have hx : x ≠ .rst := fun e => hrst rest (e ▸ hturns)
    rw [hostStep_leaves_isHalted h hx]
    exact ha

/-- The turn of a halted agent changes nothing but the turn list (45 R264). -/
theorem step_run_of_isHalted {a : Agent} (ha : s.isHalted a = true) (rest : List Turn) :
    step { s with turns := .run a :: rest } = .next { s with turns := rest } := by
  have hrest : { s with turns := rest }.isHalted a = true := ha
  simp [step, takeTurn, runAgent, hrest]

end Sys2Proof.Machine

open Sys2Proof Sys2Proof.Machine

/-- Settles O44: `HALT` passes the checks and ends as `State.setHalted`; every operation and every action of the host but
`rst` keeps the halted bits that are set. -/
theorem haltResult : Obligations.HaltResult := by
  refine ⟨fun s t a ha hstep hrst => step_keeps_halted hstep hrst ha, by decide, fun s hs => ?_⟩
  have hcur : s.setHalted.isHalted s.cur = true := isHalted_setHalted hs
  exact ⟨s.setHalted, exec_halt hs, setHalted_frame, setHalted_T s, hcur,
    fun _ => isHalted_setHalted_of_ne, fun v => ⟨wk_setHalted v, step_run_of_isHalted hcur⟩⟩

end

section
/-! The decoder and the encoder are inverse to each other, format by format (30_encoding R111 to R115). -/

namespace Sys2Proof

open Laws

/-! The operands read back from their fields. -/

/-- A word is made of its four fields (30_encoding R111). -/
theorem mkWord_fields (w : Word) : mkWord (opcOf w) (bufOf w) (auxOf w) (idxOf w) = w := by
  have hw : w.toNat < 2 ^ 32 := w.isLt
  apply BitVec.eq_of_toNat_eq
  rw [mkWord, BitVec.toNat_ofNat, opcOf, bufOf, auxOf, idxOf]
  omega

theorem idxOf_lt (w : Word) : idxOf w < 65536 := Nat.mod_lt _ (by decide)

theorem auxOf_lt (w : Word) : auxOf w < 16 := Nat.mod_lt _ (by decide)

/-- A transform buffer is read back from `BUF` and `IDX` (30_encoding R113). -/
theorem decodeXBuf_mkWord {o a : Nat} {b : XBuf} (ho : o < 256) (ha : a < 16) (hb : b.fits = true) :
    decodeXBuf (mkWord o b.fields.1 a b.fields.2) = some b := by
  obtain ⟨hbuf, hidx⟩ := xbuf_fields_lt hb
  rw [decodeXBuf, bufOf_mkWord ho hbuf ha hidx, idxOf_mkWord ho hbuf ha hidx]
  cases b <;> simp [XBuf.fields]

/-- A barrier is read back from `BUF` and `IDX` (30_encoding R113). -/
theorem decodeBarrier_mkWord {o a : Nat} {x : Barrier} (ho : o < 256) (ha : a < 16) (hx : x.fits = true) :
    decodeBarrier (mkWord o x.fields.1 a x.fields.2) = some x := by
  obtain ⟨hbuf, hidx⟩ := barrier_fields_lt hx
  rw [decodeBarrier, bufOf_mkWord ho hbuf ha hidx, idxOf_mkWord ho hbuf ha hidx]
  cases x <;> simp [Barrier.fields]

/-- A decoded transform buffer fits its fields, which are those of the word. -/
theorem fields_of_decodeXBuf {w : Word} {b : XBuf} (h : decodeXBuf w = some b) :
    b.fits = true ∧ b.fields = (bufOf w, idxOf w) := by
  have hidx := idxOf_lt w
  unfold decodeXBuf at h
  split_ifs at h with hsa hzf <;> cases h
  · simp [XBuf.fits, XBuf.fields, hsa.1, hsa.2]
  · simp [XBuf.fits, XBuf.fields, idxFits, hzf, hidx]

/-- A decoded barrier fits its fields, which are those of the word. -/
theorem fields_of_decodeBarrier {w : Word} {x : Barrier} (h : decodeBarrier w = some x) :
    x.fits = true ∧ x.fields = (bufOf w, idxOf w) := by
  have hidx := idxOf_lt w
  unfold decodeBarrier at h
  split at h
  case h_1 hb | h_2 hb =>
    split_ifs at h with hi
    cases h
    simp [Barrier.fits, Barrier.fields, hb, hi]
  case h_3 hb | h_4 hb | h_5 hb | h_6 hb =>
    cases h
    simp [Barrier.fits, Barrier.fields, idxFits, hb, hidx]
  case h_7 => cases h

/-- The code of a state is read back (10_state R31). -/
theorem code_of_acqStateOf {n : Nat} {a : AcqState} (h : acqStateOf n = some a) : a.code = n := by
  unfold acqStateOf at h
  split at h <;> cases h <;> rfl

/-! Each format: a word that is decoded is the word of a well-formed operation. -/

section
variable {w : Word} {i : Instr} {o : Nat}

theorem encode_of_fmtZ {j : Instr} (hwf : j.wf = true) (he : encode j = mkWord o 0 0 0) (ho : opcOf w = o)
    (h : fmtZ w j = some i) : i.wf = true ∧ encode i = w := by
  unfold fmtZ at h
  split_ifs at h with hz
  obtain ⟨hb, ha, hi⟩ := hz
  cases h
  exact ⟨hwf, by rw [he, ← mkWord_fields w, ho, hb, ha, hi]⟩

theorem encode_of_fmtX {c : Nat → Instr} (hwf : ∀ n, (c n).wf = idxFits n) (he : ∀ n, encode (c n) = mkWord o 0 0 n)
    (ho : opcOf w = o) (h : fmtX w c = some i) : i.wf = true ∧ encode i = w := by
  unfold fmtX at h
  split_ifs at h with hz
  obtain ⟨hb, ha⟩ := hz
  cases h
  refine ⟨by simp [hwf, idxFits, idxOf_lt], ?_⟩
  conv_rhs => rw [← mkWord_fields w, ho, hb, ha]
  exact he _

theorem encode_of_fmtV {c : XBuf → Instr} (hwf : ∀ b, (c b).wf = b.fits)
    (he : ∀ b, encode (c b) = mkWord o b.fields.1 0 b.fields.2) (ho : opcOf w = o) (h : fmtV w c = some i) :
    i.wf = true ∧ encode i = w := by
  unfold fmtV at h
  split_ifs at h with ha
  obtain ⟨b, hb, rfl⟩ := Option.map_eq_some_iff.mp h
  obtain ⟨hfits, hfields⟩ := fields_of_decodeXBuf hb
  exact ⟨by rw [hwf, hfits], by rw [he, hfields, ← ho, ← ha, mkWord_fields]⟩

theorem encode_of_fmtK {c : XBuf → Nat → Instr} (hwf : ∀ b n, (c b n).wf = (b.fits && stageFits n))
    (he : ∀ b n, encode (c b n) = mkWord o b.fields.1 n b.fields.2) (ho : opcOf w = o) (h : fmtK w c = some i) :
    i.wf = true ∧ encode i = w := by
  unfold fmtK at h
  split_ifs at h with ha
  obtain ⟨b, hb, rfl⟩ := Option.map_eq_some_iff.mp h
  obtain ⟨hfits, hfields⟩ := fields_of_decodeXBuf hb
  have hstage : stageFits (auxOf w) = true := by
    have := auxOf_lt w
    simp only [stageFits, decide_eq_true_eq]
    omega
  exact ⟨by rw [hwf, hfits, hstage]; rfl, by rw [he, hfields, ← ho, mkWord_fields]⟩

theorem encode_of_fmtR (ho : opcOf w = 0x14) (h : fmtR w .cmul = some i) : i.wf = true ∧ encode i = w := by
  unfold fmtR at h
  split_ifs at h with hz hb hb <;> cases h <;> obtain ⟨ha, hi⟩ := hz
  all_goals exact ⟨rfl, by rw [← mkWord_fields w, ho, hb, ha, hi]; rfl⟩

theorem encode_of_fmtS (ho : opcOf w = 0x2D) (h : fmtS w .adv = some i) : i.wf = true ∧ encode i = w := by
  unfold fmtS at h
  split_ifs at h with hz
  obtain ⟨hb, hi, hne⟩ := hz
  obtain ⟨a, ha, rfl⟩ := Option.map_eq_some_iff.mp h
  have hcode := code_of_acqStateOf ha
  refine ⟨?_, ?_⟩
  · have hnull : a ≠ .findNull := fun e => hne (by rw [← hcode, e]; rfl)
    simp [Instr.wf, hnull]
  · conv_rhs => rw [← mkWord_fields w, ho, hb, hi, ← hcode]
    rfl

theorem encode_of_fmtB {c : Barrier → Instr} (he : ∀ x, encode (c x) = mkWord o x.fields.1 0 x.fields.2)
    (ho : opcOf w = o) (h : fmtB w c = some i) : ∃ x : Barrier, x.fits = true ∧ i = c x ∧ encode i = w := by
  unfold fmtB at h
  split_ifs at h with ha
  obtain ⟨x, hx, rfl⟩ := Option.map_eq_some_iff.mp h
  obtain ⟨hfits, hfields⟩ := fields_of_decodeBarrier hx
  exact ⟨x, hfits, rfl, by rw [he, hfields, ← ho, ← ha, mkWord_fields]⟩

/-- The decoder takes `WAIT WF[0]` out of the waits and nothing else (45_synchronisation R266). -/
theorem notWaitWf0_eq_some {j : Instr} : notWaitWf0 j = some i ↔ i = j ∧ j ≠ .wait (.wf 0) := by
  unfold notWaitWf0
  split
  · simp
  · next h => exact ⟨fun e => ⟨(Option.some.inj e).symm, h⟩, fun e => e.1 ▸ rfl⟩

end

/-- What is decoded is well formed and encodes to the word (30_encoding R115). -/
theorem encode_of_decode {w : Word} {i : Instr} (h : decode w = some i) : i.wf = true ∧ encode i = w := by
  unfold decode at h
  split at h
  case h_1 ho => exact encode_of_fmtV (fun _ => rfl) (fun _ => rfl) ho h
  case h_2 ho | h_3 ho => exact encode_of_fmtK (fun _ _ => rfl) (fun _ _ => rfl) ho h
  case h_5 ho => exact encode_of_fmtR ho h
  case h_23 ho => exact encode_of_fmtS ho h
  case h_24 ho | h_25 ho | h_27 ho | h_28 ho | h_29 ho =>
    exact encode_of_fmtX (fun _ => rfl) (fun _ => rfl) ho h
  case h_34 ho =>
    obtain ⟨x, hx, rfl, hw⟩ := encode_of_fmtB (fun _ => rfl) ho h
    exact ⟨hx, hw⟩
  case h_35 ho =>
    obtain ⟨j, hj, hn⟩ := Option.bind_eq_some_iff.mp h
    obtain ⟨rfl, hne⟩ := notWaitWf0_eq_some.mp hn
    obtain ⟨x, hx, rfl, hw⟩ := encode_of_fmtB (fun _ => rfl) ho hj
    have hx0 : x ≠ .wf 0 := fun e => hne (e ▸ rfl)
    exact ⟨by simp [Instr.wf, hx, hx0], hw⟩
  case h_38 => cases h
  all_goals
    next ho => exact encode_of_fmtZ rfl rfl ho h

/-! Each format: the word of a well-formed operation is decoded. -/

section
variable {o : Nat}

theorem fmtX_mkWord (c : Nat → Instr) {n : Nat} (ho : o < 256) (hn : n < 65536) :
    fmtX (mkWord o 0 0 n) c = some (c n) := by
  simp [fmtX, bufOf_mkWord, auxOf_mkWord, idxOf_mkWord, ho, hn]

theorem fmtV_mkWord (c : XBuf → Instr) {b : XBuf} (ho : o < 256) (hb : b.fits = true) :
    fmtV (mkWord o b.fields.1 0 b.fields.2) c = some (c b) := by
  obtain ⟨hbuf, hidx⟩ := xbuf_fields_lt hb
  simp [fmtV, auxOf_mkWord ho hbuf _ hidx, decodeXBuf_mkWord ho _ hb]

theorem fmtK_mkWord (c : XBuf → Nat → Instr) {b : XBuf} {n : Nat} (ho : o < 256) (hb : b.fits = true)
    (hn : 1 ≤ n ∧ n < 16) : fmtK (mkWord o b.fields.1 n b.fields.2) c = some (c b n) := by
  obtain ⟨hbuf, hidx⟩ := xbuf_fields_lt hb
  have hne : n ≠ 0 := by omega
  simp [fmtK, auxOf_mkWord ho hbuf hn.2 hidx, decodeXBuf_mkWord ho hn.2 hb, hne]

theorem fmtB_mkWord (c : Barrier → Instr) {x : Barrier} (ho : o < 256) (hx : x.fits = true) :
    fmtB (mkWord o x.fields.1 0 x.fields.2) c = some (c x) := by
  obtain ⟨hbuf, hidx⟩ := barrier_fields_lt hx
  simp [fmtB, auxOf_mkWord ho hbuf _ hidx, decodeBarrier_mkWord ho _ hx]

end

/-- The word of an operation carries its opcode (30_encoding R114). -/
theorem opcOf_encode {i : Instr} (h : i.wf = true) : opcOf (encode i) = i.row.1 := by
  cases i with
  | bitrev b => exact (TableRow.bitrev b h).1
  | bflyf b k => exact (TableRow.bflyf b k h).1
  | bflyi b k => exact (TableRow.bflyi b k h).1
  | cmul t => exact (TableRow.cmul t h).1
  | adv t => exact (TableRow.adv t h).1
  | derot i => exact (TableRow.derot i h).1
  | cperr i => exact (TableRow.cperr i h).1
  | ldsym i => exact (TableRow.ldsym i h).1
  | dqpsk i => exact (TableRow.dqpsk i h).1
  | soft i => exact (TableRow.soft i h).1
  | sig x => exact (TableRow.sig x h).1
  | wait x => exact (TableRow.wait x h).1
  | _ => decide

/-- The decoder takes the format from the opcode (30_encoding R114). -/
theorem decode_of_encode {i : Instr} (h : i.wf = true) : decode (encode i) = some i := by
  have hopc := opcOf_encode h
  cases i with
  | bitrev b =>
    simp only [decode, hopc, Instr.row]
    exact fmtV_mkWord .bitrev (by decide) h
  | bflyf b k =>
    simp only [decode, hopc, Instr.row]
    have hw : b.fits = true ∧ 1 ≤ k ∧ k < 16 := by simpa [Instr.wf, stageFits] using h
    exact fmtK_mkWord .bflyf (by decide) hw.1 hw.2
  | bflyi b k =>
    simp only [decode, hopc, Instr.row]
    have hw : b.fits = true ∧ 1 ≤ k ∧ k < 16 := by simpa [Instr.wf, stageFits] using h
    exact fmtK_mkWord .bflyi (by decide) hw.1 hw.2
  | cmul t => cases t <;> decide
  | adv t =>
    cases t with
    | findNull => cases h
    | _ => decide
  | derot n | cperr n | ldsym n | dqpsk n | soft n =>
    simp only [decode, hopc, Instr.row]
    exact fmtX_mkWord _ (by decide) (of_decide_eq_true h)
  | sig x =>
    simp only [decode, hopc, Instr.row]
    exact fmtB_mkWord .sig (by decide) h
  | wait x =>
    simp only [decode, hopc, Instr.row]
    have hw : x.fits = true ∧ x ≠ .wf 0 := by simpa [Instr.wf] using h
    have hne : Instr.wait x ≠ .wait (.wf 0) := fun e => hw.2 (Instr.wait.inj e)
    exact Option.bind_eq_some_iff.mpr
      ⟨_, fmtB_mkWord .wait (by decide) hw.1, notWaitWf0_eq_some.mpr ⟨rfl, hne⟩⟩
  | _ => decide

/-- A word whose four fields are those of an operation's word decodes to it. -/
theorem decode_eq_of_encode_eq {w : Word} {i : Instr} (hwf : i.wf = true) (h : encode i = w) : decode w = some i :=
  h ▸ decode_of_encode hwf

end Sys2Proof

open Sys2Proof

/-- Settles O1: format by format, the fields of the word give the operands back. -/
theorem decodeOfEncode : Obligations.DecodeOfEncode := fun _ h => decode_of_encode h

end

section
/-! The reserved words and the words of every row (30_encoding R114, R115). -/

namespace Sys2Proof

/-- The opcode of every operation is one of the map (30_encoding R114). -/
theorem row_mem_opcodes (i : Instr) :
    i.row.1 ∈ [0x10, 0x11, 0x12, 0x13, 0x14, 0x15, 0x16, 0x17, 0x18, 0x20, 0x21, 0x22, 0x23, 0x24, 0x25,
       0x26, 0x27, 0x28, 0x29, 0x2A, 0x2B, 0x2C, 0x2D, 0x30, 0x31, 0x32, 0x33, 0x34, 0x35, 0x40, 0x41, 0x42, 0x43,
       0x50, 0x51, 0x52, 0x53] := by
  cases i <;> simp [Instr.row]

theorem decode_none_of_opcode {w : Word}
    (h : opcOf w ∉ [0x10, 0x11, 0x12, 0x13, 0x14, 0x15, 0x16, 0x17, 0x18, 0x20, 0x21, 0x22, 0x23, 0x24, 0x25,
       0x26, 0x27, 0x28, 0x29, 0x2A, 0x2B, 0x2C, 0x2D, 0x30, 0x31, 0x32, 0x33, 0x34, 0x35, 0x40, 0x41, 0x42, 0x43,
       0x50, 0x51, 0x52, 0x53]) : decode w = none := by
  refine Option.eq_none_iff_forall_ne_some.mpr fun i hi => h ?_
  obtain ⟨hwf, rfl⟩ := encode_of_decode hi
  rw [opcOf_encode hwf]
  exact row_mem_opcodes i

/-! What each format does not accept (30_encoding R112, R113). -/

section
variable {w : Word}

theorem decodeXBuf_none_of_buf (h4 : bufOf w ≠ 4) (h7 : bufOf w ≠ 7) : decodeXBuf w = none := by
  simp [decodeXBuf, h4, h7]

theorem decodeXBuf_none_of_idx (h4 : bufOf w = 4) (hi : idxOf w ≠ 0) : decodeXBuf w = none := by
  simp [decodeXBuf, h4, hi]

theorem fmtV_none_of_xbuf (c : XBuf → Instr) (h : decodeXBuf w = none) : fmtV w c = none := by simp [fmtV, h]

theorem fmtK_none_of_xbuf (c : XBuf → Nat → Instr) (h : decodeXBuf w = none) : fmtK w c = none := by simp [fmtK, h]

/-- The three operations on a transform buffer need one (30_encoding R113). -/
theorem decode_none_of_xbuf (ho : opcOf w ∈ [0x10, 0x11, 0x12]) (h : decodeXBuf w = none) : decode w = none := by
  simp only [List.mem_cons, List.not_mem_nil, or_false] at ho
  obtain ho | ho | ho := ho <;> simp only [decode, ho]
  · exact fmtV_none_of_xbuf _ h
  · exact fmtK_none_of_xbuf _ h
  · exact fmtK_none_of_xbuf _ h

theorem decodeBarrier_none_of_class (h : 6 ≤ bufOf w) : decodeBarrier w = none := by
  unfold decodeBarrier
  split
  case h_7 => rfl
  all_goals omega

theorem decodeBarrier_none_of_idx (hb : bufOf w ≤ 1) (hi : idxOf w ≠ 0) : decodeBarrier w = none := by
  obtain hb | hb : bufOf w = 0 ∨ bufOf w = 1 := by omega
  all_goals simp [decodeBarrier, hb, hi]

theorem fmtB_none_of_barrier (c : Barrier → Instr) (h : decodeBarrier w = none) : fmtB w c = none := by simp [fmtB, h]

/-- `SIG` and `WAIT` need a barrier (30_encoding R113). -/
theorem decode_none_of_barrier (ho : opcOf w ∈ [0x50, 0x51]) (h : decodeBarrier w = none) : decode w = none := by
  simp only [List.mem_cons, List.not_mem_nil, or_false] at ho
  obtain ho | ho := ho <;> simp [decode, ho, fmtB_none_of_barrier _ h]

/-- The formats V, R, X and B leave `AUX` zero (30_encoding R112). -/
theorem decode_none_of_aux (ho : opcOf w ∈ [0x10, 0x14, 0x30, 0x31, 0x33, 0x34, 0x35, 0x50, 0x51]) (h : auxOf w ≠ 0) :
    decode w = none := by
  simp only [List.mem_cons, List.not_mem_nil, or_false] at ho
  obtain ho | ho | ho | ho | ho | ho | ho | ho | ho := ho <;> simp [decode, ho, fmtV, fmtR, fmtX, fmtB, h]

/-- The formats X and S leave `BUF` zero (30_encoding R112). -/
theorem decode_none_of_buf (ho : opcOf w ∈ [0x30, 0x31, 0x33, 0x34, 0x35, 0x2D]) (h : bufOf w ≠ 0) :
    decode w = none := by
  simp only [List.mem_cons, List.not_mem_nil, or_false] at ho
  obtain ho | ho | ho | ho | ho | ho := ho <;> simp [decode, ho, fmtX, fmtS, h]

/-- The formats R and S leave `IDX` zero (30_encoding R112). -/
theorem decode_none_of_idx (ho : opcOf w ∈ [0x14, 0x2D]) (h : idxOf w ≠ 0) : decode w = none := by
  simp only [List.mem_cons, List.not_mem_nil, or_false] at ho
  obtain ho | ho := ho <;> simp [decode, ho, fmtR, fmtS, h]

/-- Stage 0 is reserved (30_encoding R115). -/
theorem decode_none_of_stage (ho : opcOf w ∈ [0x11, 0x12]) (h : auxOf w = 0) : decode w = none := by
  simp only [List.mem_cons, List.not_mem_nil, or_false] at ho
  obtain ho | ho := ho <;> simp [decode, ho, fmtK, h]

/-- `CMUL` names one of the two reference tables (30_encoding R113). -/
theorem decode_none_of_table (ho : opcOf w = 0x14) (h10 : bufOf w ≠ 10) (h11 : bufOf w ≠ 11) : decode w = none := by
  simp [decode, ho, fmtR, h10, h11]

/-- `ADV` names one of the states 1 to 4 (30_encoding R113, R115). -/
theorem decode_none_of_target (ho : opcOf w = 0x2D) (h : auxOf w = 0 ∨ 4 < auxOf w) : decode w = none := by
  have hnone : auxOf w ≠ 0 → acqStateOf (auxOf w) = none := by
    intro h0
    unfold acqStateOf
    split
    case h_6 => rfl
    all_goals omega
  by_cases h0 : auxOf w = 0
  · simp [decode, ho, fmtS, h0]
  · simp [decode, ho, fmtS, hnone h0]

end

/-! The words of the rows, as numbers (30_encoding R114). -/

/-- The operation of a word without `AUX`, written as its upper half and an index. -/
theorem decode_add_idx (o b : Nat) {n : Nat} {i : Instr} (hwf : i.wf = true) (he : encode i = mkWord o b 0 n) :
    decode (BitVec.ofNat 32 (o * 16777216 + b * 1048576) + BitVec.ofNat 32 n) = some i := by
  refine decode_eq_of_encode_eq hwf ?_
  rw [he, mkWord, ← BitVec.ofNat_add, Nat.zero_mul, Nat.add_zero]

/-- The operation of a word with a stage, written as its upper half and the stage and the index as one number. -/
theorem decode_add_stage (o b : Nat) {n st : Nat} {i : Instr} (hwf : i.wf = true) (he : encode i = mkWord o b st n) :
    decode (BitVec.ofNat 32 (o * 16777216 + b * 1048576) + BitVec.ofNat 32 (65536 * st + n)) = some i := by
  refine decode_eq_of_encode_eq hwf ?_
  rw [he, mkWord, ← BitVec.ofNat_add, Nat.mul_comm 65536 st, Nat.add_assoc]

/-- A stage 1 to 15 fits `AUX` (30_encoding R113). -/
theorem stageFits_of_bounds {n : Nat} (h1 : 1 ≤ n) (h16 : n < 16) : stageFits n = true := decide_eq_true ⟨h1, h16⟩

/-- A wait is well formed if its barrier fits and is not `WF[0]` (45_synchronisation R266). -/
theorem wf_wait {x : Barrier} (hx : x.fits = true) (h0 : x ≠ .wf 0) : (Instr.wait x).wf = true := by
  rw [Instr.wf, hx, decide_eq_true h0]
  rfl

end Sys2Proof

open Sys2Proof

/-- Settles O2: a decoded word is the word of its operation, and each class of reserved words fails its format. -/
theorem onlyTableWordsDecode : Obligations.OnlyTableWordsDecode :=
  ⟨fun _ _ h => encode_of_decode h, fun _ h => decode_none_of_opcode h,
    fun _ ho h4 h7 => decode_none_of_xbuf ho (decodeXBuf_none_of_buf h4 h7),
    fun _ ho h4 hi => decode_none_of_xbuf ho (decodeXBuf_none_of_idx h4 hi),
    fun _ ho h => decode_none_of_stage ho h, fun _ ho h10 h11 => decode_none_of_table ho h10 h11,
    fun _ ho h => decode_none_of_target ho h,
    fun _ ho h => decode_none_of_barrier ho (decodeBarrier_none_of_class h),
    fun _ ho hb hi => decode_none_of_barrier ho (decodeBarrier_none_of_idx hb hi),
    fun _ ho h => decode_none_of_aux ho h, fun _ ho h => decode_none_of_buf ho h,
    fun _ ho h => decode_none_of_idx ho h, by decide, by decide, by decide⟩

/-- Settles O3: each word is the one its row encodes to, so it decodes to the row's operation. -/
theorem wordsOfEveryRow : Obligations.WordsOfEveryRow := by
  refine ⟨fun i hi => ?indexed, fun st h1 h16 => ?stages, by decide, by decide, by decide⟩
  case indexed =>
    have hfit : idxFits i = true := decide_eq_true hi
    refine ⟨decode_add_idx 0x10 7 hfit rfl, decode_add_idx 0x30 0 hfit rfl, decode_add_idx 0x31 0 hfit rfl,
      decode_add_idx 0x33 0 hfit rfl, decode_add_idx 0x34 0 hfit rfl, decode_add_idx 0x35 0 hfit rfl,
      decode_add_idx 0x50 2 hfit rfl, decode_add_idx 0x50 3 hfit rfl, decode_add_idx 0x50 4 hfit rfl,
      decode_add_idx 0x50 5 hfit rfl, decode_add_idx 0x51 2 (wf_wait hfit nofun) rfl,
      decode_add_idx 0x51 3 (wf_wait hfit nofun) rfl, ?waitWf, decode_add_idx 0x51 5 (wf_wait hfit nofun) rfl,
      fun st h1 h16 => ?stage⟩
    case waitWf =>
      split_ifs with h0
      · subst h0
        decide
      · exact decode_add_idx 0x51 4 (wf_wait hfit fun e => h0 (Barrier.wf.inj e)) rfl
    case stage =>
      have hwf : (idxFits i && stageFits st) = true := by rw [hfit, stageFits_of_bounds h1 h16]; rfl
      exact ⟨decode_add_stage 0x11 7 hwf rfl, decode_add_stage 0x12 7 hwf rfl⟩
  case stages =>
    have hstage := stageFits_of_bounds h1 h16
    exact ⟨decode_add_stage 0x11 4 (n := 0) (i := .bflyf .sa st) hstage rfl,
      decode_add_stage 0x12 4 (n := 0) (i := .bflyi .sa st) hstage rfl⟩

/-- Settles O4: the six words are decoded by evaluation. -/
theorem exampleWordsDecode : Obligations.ExampleWordsDecode := by
  refine ⟨?_, ?_, ?_, ?_, ?_, ?_⟩ <;> decide

end

section
/-! What a step of an operation can do, said once: the outcomes an operation can have, and what it writes where it
completes (00_scope R16, R17; 60 R295). -/

namespace Sys2Proof.Machine

/-- What an operation has written when only its agent's position is still to move: the effect of an operation that
completes. `ADV`, `DESYNC` and `HALT` do not end so. -/
def written (s : State) : Instr → State
  | .bitrev b => s.mapXbuf b fun n => (s.xbuf b).rd (Dsp.rev s.par.L n)
  | .bflyf b k => s.mapXbuf b (Dsp.stage Dsp.num (2 ^ (k - 1)) (Dsp.twF s.par.N k) (s.xbuf b).rd)
  | .bflyi b k => s.mapXbuf b (Dsp.stage Dsp.num (2 ^ (k - 1)) (Dsp.twI s.par.N k) (s.xbuf b).rd)
  | .delta => s.mapXbuf .sa (Dsp.delta s.par.N s.sa.rd)
  | .cmul r => s.mapXbuf .sa fun k => (s.sa.rd k).mul (s.refElem r k)
  | .mag => { s with spec := s.spec.fill 0 s.par.N (Dsp.magnitude s.par.N s.sa.rd) }
  | .lmag => { s with imp := s.imp.fill 0 s.par.N (Dsp.logMag s.sa.rd), impPrev := some s.imp }
  | .pllp => s.mapXbuf .sa (Dsp.applyPll s.sa.rd (Fp.add s.fCoarse s.fFine) Fp.zero)
  | .ldprs => s.mapXbuf .sa fun n => s.corr.rd (s.par.P + n)
  | .nsamp => { s with
      samples := s.samples.tail, circ := s.circ.put s.circWr (s.samples.headD default)
      circWr := (s.circWr + 1) % s.par.P, l1Acc := Fp.add s.l1Acc (s.samples.headD default).l1, l1Cnt := s.l1Cnt + 1 }
  | .l1win => { s with
      l1Last := windowL1 s, l1Acc := Fp.zero, l1Cnt := 0, nullStart := nullStartAfter s (windowL1 s)
      nullEnd := nullEndAfter s (windowL1 s), l1Avg := l1AvgAfter s (windowL1 s), l1Win := (s.l1Win + 1) % s.D }
  | .ncap => { s with
      corr := s.corr.fill 0 s.par.P fun n => s.circ.rd ((s.circWr + n) % s.par.P)
      corrLen := s.par.P, nullStart := false, nullEnd := false }
  | .capp => { s with
      samples := s.samples.tail, corr := s.corr.put s.corrLen (s.samples.headD default), corrLen := s.corrLen + 1 }
  | .fczero => { s with fCoarse := Fp.zero }
  | .peakc => { s with peakOff := (coarsePeak s : Int) - ((s.par.N / 2 : Nat) : Int) }
  | .fcupd => { s with
      fCoarse := Fp.add s.fCoarse (coarseStep s), fFine := wrapF s.par.N (Fp.sub s.fFine (coarseStep s)), isFound := true }
  | .peakw => { s with
      impMu := Fp.div (Dsp.sum s.par.N s.imp.rd) (Fp.ofNat s.par.N), impK := impulsePeak s
      impW := weightedPeak s (impulsePeak s) }
  | .ftchk => { s with fineTimeOffset := (s.impK : Int) - (s.par.G : Int) }
  | .prscp => prsCopied s
  | .iapp => { s.setInact (s.inact.put s.ingLen (s.samples.headD default)) with
      samples := s.samples.tail, ingLen := s.ingLen + 1 }
  | .nullcp => { s with
      corr := s.corr.fill 0 s.par.P fun n => s.inact.rd (s.par.F * s.par.S + n), corrLen := s.par.P }
  | .desync => s
  | .adv _ => s
  | .derot i => s.setAct (s.act.fill (i * s.par.S) s.par.S fun k =>
      (s.act.rd (i * s.par.S + k)).mul (Cplx.rot Fp.zero s.fSnap (i * s.par.S + k)))
  | .cperr i => s.setWk s.curW fun k => { k with phAcc := Fp.add k.phAcc (prefixProduct s i).arg }
  | .phpub => s.setWk s.curW fun k => { k with phSlot := k.phAcc, phAcc := Fp.zero }
  | .ldsym i => s.mapXbuf (.zf i) fun n => s.act.rd (i * s.par.S + s.par.G + n)
  | .dqpsk i => s.setWk s.curW fun k => { k with nv := k.nv.fill 0 s.par.C fun j => normalise (differential s i j) }
  | .soft i => { s with out := s.out.fill (i * (2 * s.par.C)) (2 * s.par.C) (softBit s) }
  | .rel => { s with workers := s.workers.map Worker.released }
  | .phavg => { s with psiAvg := Fp.div (Dsp.sum s.T fun w => (s.wk w).phSlot) (Fp.ofNat s.par.F) }
  | .ffupd => { s with fFine := wrapF s.par.N (Fp.add s.fFine (fineStep s)) }
  | .emit => { s with emitArmed := false }
  | .sig x => (s.setFlag x true).leavePhase x
  | .wait x => (if isConsumed x then s.setFlag x false else s).enterPhase x
  | .swap => { s with
      sel := !s.sel, ingLen := 0, fSnap := Fp.add s.fCoarse s.fFine, framesRead := s.framesRead + 1 }
  | .halt => s

/-- What an operation needs beside the checks in order to complete and move its agent's position. -/
def completes (s : State) : Instr → Prop
  | .nsamp => s.stop = false ∧ s.samples ≠ [] ∧ s.circWr < s.par.P
  | .capp => s.stop = false ∧ s.samples ≠ [] ∧ s.corrLen < s.par.P + s.par.S
  | .iapp => s.stop = false ∧ s.samples ≠ [] ∧ s.ingLen < s.par.frameLen
  | .ftchk => desyncTest s = false
  | .prscp => prscpFits s
  | .emit => s.stop = false ∧ s.emitArmed = true ∧ s.frameValid = false
  | .wait x => s.stop = false ∧ s.flag x = true
  | .desync => False
  | .adv _ => False
  | .halt => False
  | _ => True

/-- The operation is blocked: no sample, no flag, no acknowledge (42 R170, 44 R244, 45 R262). -/
def isBlockedAt (s : State) : Instr → Prop
  | .nsamp => s.samples = []
  | .capp => s.samples = []
  | .iapp => s.samples = []
  | .emit => s.emitArmed = true ∧ s.frameValid = true
  | .wait x => s.flag x = false
  | _ => False

/-- The ways an operation that passes the checks can end, with the state it ends in. -/
inductive Ends (s : State) : Instr → State → Prop
  | completed {i : Instr} (h : completes s i) : Ends s i (written s i).advance
  | stopped {i : Instr} (h : isBlocking i = true) (hstop : s.stop = true) : Ends s i s.setStopped
  | blocked {i : Instr} (h : isBlockedAt s i) (hstop : s.stop = false) : Ends s i s
  | armed (hstop : s.stop = false) (h : s.emitArmed = false) : Ends s .emit { s with frameValid := true, emitArmed := true }
  | raised (h : desyncTest s = true) : Ends s .ftchk s.raiseDesync
  | handled : Ends s .desync s.handleDesync
  | advanced (a : AcqState) : Ends s (.adv a) { s with acqState := a, acqSub := 0, impPrev := none }
  | halted : Ends s .halt s.setHalted

variable {s t : State} {i : Instr}

/-- An operation that gives a next state has passed the checks and ends in one of the eight ways. -/
theorem ends_of_exec_next (h : exec i s = .next t) : Ends s i t := by
  cases i
  case nsamp =>
    obtain ⟨-, ⟨hs, rfl⟩ | ⟨hs, hq, rfl⟩ | ⟨x, rest, hs, hq, hlt, rfl⟩⟩ := execNsamp_next.mp h
    · exact .stopped rfl hs
    · exact .blocked hq hs
    · have hw : Ends s .nsamp _ := .completed ⟨hs, by simp [hq], hlt⟩
      simpa [written, hq] using hw
  case capp =>
    obtain ⟨-, ⟨hs, rfl⟩ | ⟨hs, hq, rfl⟩ | ⟨x, rest, hs, hq, hlt, rfl⟩⟩ := execCapp_next.mp h
    · exact .stopped rfl hs
    · exact .blocked hq hs
    · have hw : Ends s .capp _ := .completed ⟨hs, by simp [hq], hlt⟩
      simpa [written, hq] using hw
  case iapp =>
    obtain ⟨-, ⟨hs, rfl⟩ | ⟨hs, hq, rfl⟩ | ⟨x, rest, hs, hq, hlt, rfl⟩⟩ := execIapp_next.mp h
    · exact .stopped rfl hs
    · exact .blocked hq hs
    · have hw : Ends s .iapp _ := .completed ⟨hs, by simp [hq], hlt⟩
      simpa [written, hq] using hw
  case ftchk =>
    obtain ⟨-, ⟨hd, rfl⟩ | ⟨hd, rfl⟩⟩ := execFtchk_next.mp h
    · exact .raised hd
    · exact .completed (i := .ftchk) hd
  case prscp =>
    obtain ⟨-, hfits, rfl⟩ := execPrscp_next.mp h
    exact .completed (i := .prscp) hfits
  case emit =>
    obtain ⟨-, ⟨hs, rfl⟩ | ⟨hs, ha, rfl⟩ | ⟨hs, ha, hv, rfl⟩ | ⟨hs, ha, hv, rfl⟩⟩ := execEmit_next.mp h
    · exact .stopped rfl hs
    · exact .armed hs ha
    · exact .blocked (i := .emit) ⟨ha, hv⟩ hs
    · exact .completed (i := .emit) ⟨hs, ha, hv⟩
  case wait x =>
    obtain ⟨-, ⟨hs, rfl⟩ | ⟨hs, hf, rfl⟩ | ⟨hs, hf, rfl⟩⟩ := (execWait_next x).mp h
    · exact .stopped rfl hs
    · exact .blocked (i := .wait x) hf hs
    · exact .completed (i := .wait x) ⟨hs, hf⟩
  case desync => exact (execDesync_next.mp h).2 ▸ .handled
  case adv a => exact ((execAdv_next a).mp h).2 ▸ .advanced a
  case halt => exact (execHalt_next.mp h).2 ▸ .halted
  all_goals
    simp only [exec, execBitrev_next, execBflyf_next, execBflyi_next, execDelta_next, execCmul_next, execMag_next,
      execLmag_next, execPllp_next, execLdprs_next, execL1win_next, execNcap_next, execFczero_next, execPeakc_next,
      execFcupd_next, execPeakw_next, execNullcp_next, execDerot_next, execCperr_next, execPhpub_next,
      execLdsym_next, execDqpsk_next, execSoft_next, execRel_next, execPhavg_next, execFfupd_next, execSig_next,
      execSwap_next] at h
    obtain ⟨-, rfl⟩ := h
    exact .completed trivial

/-- An operation that passes the checks and completes gives the state it has written, the position moved. -/
theorem exec_of_completes (hc : issueCheck s i = none) (h : completes s i) : exec i s = .next (written s i).advance := by
  cases i
  case nsamp =>
    obtain ⟨hs, hq, hlt⟩ := h
    obtain ⟨x, rest, hq⟩ := List.exists_cons_of_ne_nil hq
    exact execNsamp_next.mpr ⟨hc, .inr (.inr ⟨x, rest, hs, hq, hlt, by simp [written, hq]⟩)⟩
  case capp =>
    obtain ⟨hs, hq, hlt⟩ := h
    obtain ⟨x, rest, hq⟩ := List.exists_cons_of_ne_nil hq
    exact execCapp_next.mpr ⟨hc, .inr (.inr ⟨x, rest, hs, hq, hlt, by simp [written, hq]⟩)⟩
  case iapp =>
    obtain ⟨hs, hq, hlt⟩ := h
    obtain ⟨x, rest, hq⟩ := List.exists_cons_of_ne_nil hq
    exact execIapp_next.mpr ⟨hc, .inr (.inr ⟨x, rest, hs, hq, hlt, by simp [written, hq]⟩)⟩
  case ftchk => exact execFtchk_next.mpr ⟨hc, .inr ⟨h, rfl⟩⟩
  case prscp => exact execPrscp_next.mpr ⟨hc, h, rfl⟩
  case emit => exact execEmit_next.mpr ⟨hc, .inr (.inr (.inr ⟨h.1, h.2.1, h.2.2, rfl⟩))⟩
  case wait x => exact (execWait_next x).mpr ⟨hc, .inr (.inr ⟨h.1, h.2, rfl⟩)⟩
  case desync | adv | halt => exact h.elim
  all_goals exact checked_ok _ hc

/-- A blocking operation under `stop` is stopped (45 R265). -/
theorem exec_of_stop (hc : issueCheck s i = none) (hb : isBlocking i = true) (h : s.stop = true) :
    exec i s = .next s.setStopped := by
  cases i
  case nsamp => exact execNsamp_next.mpr ⟨hc, .inl ⟨h, rfl⟩⟩
  case capp => exact execCapp_next.mpr ⟨hc, .inl ⟨h, rfl⟩⟩
  case iapp => exact execIapp_next.mpr ⟨hc, .inl ⟨h, rfl⟩⟩
  case emit => exact execEmit_next.mpr ⟨hc, .inl ⟨h, rfl⟩⟩
  case wait x => exact (execWait_next x).mpr ⟨hc, .inl ⟨h, rfl⟩⟩
  all_goals cases hb

/-- A blocked operation changes nothing (45 R262; log entry 10). -/
theorem exec_of_isBlockedAt (hc : issueCheck s i = none) (hs : s.stop = false) (h : isBlockedAt s i) :
    exec i s = .next s := by
  cases i
  case nsamp => exact execNsamp_next.mpr ⟨hc, .inr (.inl ⟨hs, h, rfl⟩)⟩
  case capp => exact execCapp_next.mpr ⟨hc, .inr (.inl ⟨hs, h, rfl⟩)⟩
  case iapp => exact execIapp_next.mpr ⟨hc, .inr (.inl ⟨hs, h, rfl⟩)⟩
  case emit => exact execEmit_next.mpr ⟨hc, .inr (.inr (.inl ⟨hs, h.1, h.2, rfl⟩))⟩
  case wait x => exact (execWait_next x).mpr ⟨hc, .inr (.inl ⟨hs, h, rfl⟩)⟩
  all_goals exact h.elim

/-! What no operation writes before the position moves. -/

section
variable (s : State) (i : Instr)

/-- The fields an operation that completes can write, the position apart; all others stay. -/
theorem written_frame : written s i = { s with
    workers := (written s i).workers, fCoarse := (written s i).fCoarse, fFine := (written s i).fFine
    fSnap := (written s i).fSnap, isFound := (written s i).isFound, fineTimeOffset := (written s i).fineTimeOffset
    l1Avg := (written s i).l1Avg, l1Acc := (written s i).l1Acc, l1Cnt := (written s i).l1Cnt
    l1Win := (written s i).l1Win, l1Last := (written s i).l1Last, nullStart := (written s i).nullStart
    nullEnd := (written s i).nullEnd, circWr := (written s i).circWr, corrLen := (written s i).corrLen
    ingLen := (written s i).ingLen, peakOff := (written s i).peakOff, impK := (written s i).impK
    impW := (written s i).impW, impMu := (written s i).impMu, sel := (written s i).sel
    framesRead := (written s i).framesRead, psiAvg := (written s i).psiAvg, emitArmed := (written s i).emitArmed
    cs := (written s i).cs, ce := (written s i).ce, circ := (written s i).circ, corr := (written s i).corr
    ing0 := (written s i).ing0, ing1 := (written s i).ing1, sa := (written s i).sa, spec := (written s i).spec
    imp := (written s i).imp, impPrev := (written s i).impPrev, zf := (written s i).zf, out := (written s i).out
    samples := (written s i).samples } := by
  cases i
  case bitrev b | bflyf b _ | bflyi b _ => cases b <;> rfl
  case sig x => cases x <;> rfl
  case wait x => cases x <;> rfl
  all_goals rfl

@[simp] theorem written_modes : (written s i).modes = s.modes := by rw [written_frame]
@[simp] theorem written_acqState : (written s i).acqState = s.acqState := by rw [written_frame]
@[simp] theorem written_acqSub : (written s i).acqSub = s.acqSub := by rw [written_frame]
@[simp] theorem written_coPc : (written s i).coPc = s.coPc := by rw [written_frame]
@[simp] theorem written_ingDivert : (written s i).ingDivert = s.ingDivert := by rw [written_frame]
@[simp] theorem written_coDivert : (written s i).coDivert = s.coDivert := by rw [written_frame]
@[simp] theorem written_framesDesync : (written s i).framesDesync = s.framesDesync := by rw [written_frame]
@[simp] theorem written_en : (written s i).en = s.en := by rw [written_frame]
@[simp] theorem written_stop : (written s i).stop = s.stop := by rw [written_frame]
@[simp] theorem written_ingHalted : (written s i).ingHalted = s.ingHalted := by rw [written_frame]
@[simp] theorem written_coHalted : (written s i).coHalted = s.coHalted := by rw [written_frame]
@[simp] theorem written_frameValid : (written s i).frameValid = s.frameValid := by rw [written_frame]
@[simp] theorem written_cfg : (written s i).cfg = s.cfg := by rw [written_frame]
@[simp] theorem written_unset : (written s i).unset = s.unset := by rw [written_frame]
@[simp] theorem written_impIndex : (written s i).impIndex = s.impIndex := by rw [written_frame]
@[simp] theorem written_cur : (written s i).cur = s.cur := by rw [written_frame]
@[simp] theorem written_turns : (written s i).turns = s.turns := by rw [written_frame]
@[simp] theorem written_tick : (written s i).tick = s.tick := by rw [written_frame]
@[simp] theorem written_row : (written s i).row = s.row := by
  simp only [State.row, written_cfg, written_modes]
@[simp] theorem written_par : (written s i).par = s.par := by rw [State.par, written_row]
@[simp] theorem written_K : (written s i).K = s.K := by rw [written_frame]
@[simp] theorem written_D : (written s i).D = s.D := by rw [written_frame]

/-- No operation makes or removes a worker. -/
@[simp] theorem written_T : (written s i).T = s.T := by
  cases i
  case rel => exact List.length_map _
  case wait x =>
    simp only [written, enterPhase_T]
    split <;> simp
  all_goals simp [written, prsCopied]

end

end Sys2Proof.Machine
end

section
/-! The hardwired lists, position by position (42, 43 R211, 44 R240; 30_encoding R119). -/

namespace Sys2Proof.Machine

/-! A list that stands in another from a position on. -/

section
variable {α : Type} {l xs ys zs : List α} {n k : Nat}

/-- The list `ys` stands in `l` from position `n` on. -/
def StandsAt (l : List α) (n : Nat) (ys : List α) : Prop := ∀ k, k < ys.length → l[n + k]? = ys[k]?

theorem standsAt_append_right (h : n = xs.length) : StandsAt (xs ++ ys) n ys := fun k _ => by
  rw [h, List.getElem?_append_right (Nat.le_add_right _ _), Nat.add_sub_cancel_left]

theorem StandsAt.append (h : StandsAt xs n ys) (zs : List α) : StandsAt (xs ++ zs) n ys := fun k hk => by
  have hget := h k hk
  rw [List.getElem?_eq_getElem hk] at hget
  obtain ⟨hlt, -⟩ := List.getElem?_eq_some_iff.mp hget
  rw [List.getElem?_append_left hlt, h k hk]

theorem StandsAt.get (h : StandsAt l n ys) {a : α} (ha : ys[k]? = some a) : l[n + k]? = some a := by
  obtain ⟨hk, -⟩ := List.getElem?_eq_some_iff.mp ha
  rw [h k hk, ha]

theorem StandsAt.trans (h : StandsAt l n ys) (h' : StandsAt ys k zs) : StandsAt l (n + k) zs := fun j hj => by
  have hget := h' j hj
  rw [List.getElem?_eq_getElem hj] at hget
  rw [Nat.add_assoc, h.get hget, ← h' j hj, hget]

/-- In a concatenation of lists of one length `m`, the list of the `j`-th element begins at `j·m`. -/
theorem standsAt_flatMap {β : Type} {f : β → List α} {m : Nat} (hm : ∀ b, (f b).length = m) {l : List β} {j : Nat} {b : β}
    (hb : l[j]? = some b) : StandsAt (l.flatMap f) (j * m) (f b) := by
  induction l generalizing j with
  | nil => cases hb
  | cons c l ih =>
    rw [List.flatMap_cons]
    cases j with
    | zero =>
      obtain rfl : c = b := by simpa using hb
      rw [Nat.zero_mul]
      exact StandsAt.append (fun k _ => by rw [Nat.zero_add]) _
    | succ j =>
      have hrest : StandsAt (l.flatMap f) (j * m) (f b) := ih (by simpa using hb)
      have hhere : StandsAt (f c ++ l.flatMap f) m (l.flatMap f) := standsAt_append_right (hm c).symm
      rw [Nat.succ_mul, Nat.add_comm]
      exact hhere.trans hrest

theorem length_flatMap_of_const {β : Type} {f : β → List α} {m : Nat} (hm : ∀ b, (f b).length = m) (l : List β) :
    (l.flatMap f).length = l.length * m := by
  induction l with
  | nil => simp
  | cons c l ih => rw [List.flatMap_cons, List.length_append, hm, ih, List.length_cons, Nat.succ_mul, Nat.add_comm]

end

/-! The pieces of the lists. -/

@[simp] theorem length_fftOps (L : Nat) (b : XBuf) : (fftOps L b).length = L + 1 := by simp [fftOps]
@[simp] theorem length_ifftOps (L : Nat) : (ifftOps L).length = L + 1 := by simp [ifftOps]
@[simp] theorem length_fftsOps (L i : Nat) : (fftsOps L i).length = L + 2 := by simp [fftsOps]
@[simp] theorem length_slots (a b : Nat) : (slots a b).length = b - a := by simp [slots]

theorem fftOps_zero (L : Nat) (b : XBuf) : (fftOps L b)[0]? = some (.bitrev b) := rfl
theorem fftOps_stage {L st : Nat} (b : XBuf) (h1 : 1 ≤ st) (hL : st ≤ L) : (fftOps L b)[st]? = some (.bflyf b st) := by
  obtain ⟨k, rfl⟩ := Nat.exists_eq_add_of_le' h1
  simp [fftOps, List.getElem?_range (show k < L by omega)]

theorem ifftOps_zero (L : Nat) : (ifftOps L)[0]? = some (.bitrev .sa) := rfl
theorem ifftOps_stage {L st : Nat} (h1 : 1 ≤ st) (hL : st ≤ L) : (ifftOps L)[st]? = some (.bflyi .sa st) := by
  obtain ⟨k, rfl⟩ := Nat.exists_eq_add_of_le' h1
  simp [ifftOps, List.getElem?_range (show k < L by omega)]

theorem fftsOps_zero (L i : Nat) : (fftsOps L i)[0]? = some (.ldsym i) := rfl
theorem fftsOps_one (L i : Nat) : (fftsOps L i)[1]? = some (.bitrev (.zf i)) := rfl
theorem fftsOps_stage {L i st : Nat} (h1 : 1 ≤ st) (hL : st ≤ L) : (fftsOps L i)[1 + st]? = some (.bflyf (.zf i) st) := by
  rw [fftsOps, Nat.add_comm, List.getElem?_cons_succ, fftOps_stage _ h1 hL]

theorem slots_get {a b j : Nat} (h : j < b - a) : (slots a b)[j]? = some (a + j) := by
  simp [slots, List.getElem?_range h]

theorem mem_slots {a b i : Nat} : i ∈ slots a b ↔ a ≤ i ∧ i < b := by
  simp only [slots, List.mem_map, List.mem_range]
  constructor
  · rintro ⟨j, hj, rfl⟩; omega
  · rintro ⟨h1, h2⟩; exact ⟨i - a, by omega, by omega⟩

/-! The coordinator's list (44 R240). -/

section
variable {T w : Nat}

@[simp] theorem length_coordOps (T : Nat) : (coordOps T).length = 2 * T + 6 := by
  simp only [coordOps, List.length_append, List.length_map, List.length_range, List.length_cons, List.length_nil]
  omega

theorem coordOps_waitCs (T : Nat) : (coordOps T)[0]? = some (.wait .cs) := rfl
theorem coordOps_rel (T : Nat) : (coordOps T)[1]? = some .rel := rfl

theorem coordOps_waitWp (h : w < T) : (coordOps T)[2 + w]? = some (.wait (.wp w)) := by
  have hmap : ((List.range T).map fun w => Instr.wait (.wp w))[w]? = some (.wait (.wp w)) := by
    simp [List.getElem?_range h]
  exact ((((standsAt_append_right rfl).append _).append _).append _ : StandsAt (coordOps T) 2 _).get hmap

theorem coordOps_phavg (T : Nat) : StandsAt (coordOps T) (T + 2) [.phavg, .ffupd] :=
  (((standsAt_append_right (by simp)).append _).append _)

theorem coordOps_waitWd (h : w < T) : (coordOps T)[T + 4 + w]? = some (.wait (.wd w)) := by
  have hmap : ((List.range T).map fun w => Instr.wait (.wd w))[w]? = some (.wait (.wd w)) := by
    simp [List.getElem?_range h]
  have hat : StandsAt (coordOps T) (T + 4) ((List.range T).map fun w => Instr.wait (.wd w)) :=
    (standsAt_append_right (by simp)).append _
  exact hat.get hmap

theorem coordOps_emit (T : Nat) : StandsAt (coordOps T) (2 * T + 4) [.emit, .sig .ce] :=
  standsAt_append_right (by simp; omega)

end

/-! A worker's list (43 R211). -/

section
variable {F L w a e : Nat}

theorem length_pairOps (w e i : Nat) : (pairOps w e i).length = if i + 1 = e then 3 else 2 := by
  unfold pairOps
  split <;> rfl

theorem pairOps_of_ne {i : Nat} (h : i + 1 ≠ e) : pairOps w e i = [.dqpsk i, .soft i] := by simp [pairOps, h]

theorem pairOps_last {i : Nat} (h : i + 1 = e) : pairOps w e i = [.wait (.wf (w + 1)), .dqpsk i, .soft i] := by
  simp [pairOps, h]

/-- The pairs of a range stand two by two; the last one of the range begins with its wait (43 R219). -/
theorem standsAt_pairs {m j : Nat} (hj : j < m) (hm : a + m ≤ e) :
    StandsAt ((slots a (a + m)).flatMap (pairOps w e)) (2 * j) (pairOps w e (a + j)) := by
  induction m with
  | zero => omega
  | succ m ih =>
    have hslots : slots a (a + (m + 1)) = slots a (a + m) ++ [a + m] := by
      simp [slots, List.range_succ]
    rw [hslots, List.flatMap_append, List.flatMap_singleton]
    obtain hlt | rfl : j < m ∨ j = m := by omega
    · exact (ih hlt (by omega)).append _
    · refine standsAt_append_right ?_
      have hpairs : (slots a (a + j)).flatMap (pairOps w e) = (slots a (a + j)).flatMap fun i => [.dqpsk i, .soft i] := by
        refine List.flatMap_congr fun i hi => ?_
        have := mem_slots.mp hi
        exact pairOps_of_ne (by omega)
      rw [hpairs, length_flatMap_of_const (m := 2) (fun _ => rfl), length_slots]
      omega

theorem length_pairs {m : Nat} (hm : a + m ≤ e) :
    ((slots a (a + m)).flatMap (pairOps w e)).length = 2 * m + if 0 < m ∧ a + m = e then 1 else 0 := by
  cases m with
  | zero => simp [slots]
  | succ m =>
    have hslots : slots a (a + (m + 1)) = slots a (a + m) ++ [a + m] := by
      simp [slots, List.range_succ]
    have hpairs : (slots a (a + m)).flatMap (pairOps w e) = (slots a (a + m)).flatMap fun i => [.dqpsk i, .soft i] := by
      refine List.flatMap_congr fun i hi => ?_
      have := mem_slots.mp hi
      exact pairOps_of_ne (by omega)
    rw [hslots, List.flatMap_append, List.flatMap_singleton, List.length_append, hpairs,
      length_flatMap_of_const (m := 2) (fun _ => rfl), length_slots, length_pairOps]
    split <;> split <;> omega

/-! Where each part of a worker's list begins: `b` the publication, `d` the pairs, after the waits and the slots. -/

/-- The position of `PHPUB`: after the wait, the rotations and the phase errors. -/
def phpubAt (F a e : Nat) : Nat := 1 + (e - a) + (min e F - a)

/-- The position of the first pair: after the publications and the slots' transforms. -/
def pairsAt (F L a e : Nat) : Nat := phpubAt F a e + L + 5 + (e - (a + 1)) * (L + 2)

/-- The position of `SIG WD`, the last. -/
def sigWdAt (F L w a e : Nat) : Nat :=
  pairsAt F L a e + ((slots a (min e (F - 1))).flatMap (pairOps w e)).length

theorem workerOps_waitWs : (workerOpsOn F L w a e)[0]? = some (.wait (.ws w)) := rfl

theorem workerOps_derots : StandsAt (workerOpsOn F L w a e) 1 ((slots a e).map Instr.derot) :=
  (((((((standsAt_append_right rfl).append _).append _).append _).append _).append _).append _).append _

theorem workerOps_cperrs : StandsAt (workerOpsOn F L w a e) (1 + (e - a)) ((slots a (min e F)).map Instr.cperr) :=
  ((((((standsAt_append_right (by simp; omega)).append _).append _).append _).append _).append _).append _

theorem workerOps_phpub : StandsAt (workerOpsOn F L w a e) (phpubAt F a e) [.phpub, .sig (.wp w)] :=
  (((((standsAt_append_right (by simp [phpubAt]; omega)).append _).append _).append _).append _).append _

theorem workerOps_first : StandsAt (workerOpsOn F L w a e) (phpubAt F a e + 2) (fftsOps L a) :=
  ((((standsAt_append_right (by simp [phpubAt]; omega)).append _).append _).append _).append _

theorem workerOps_sigWf : StandsAt (workerOpsOn F L w a e) (phpubAt F a e + L + 4) [.sig (.wf w)] :=
  (((standsAt_append_right (by simp [phpubAt]; omega)).append _).append _).append _

theorem workerOps_further :
    StandsAt (workerOpsOn F L w a e) (phpubAt F a e + L + 5) ((slots (a + 1) e).flatMap (fftsOps L)) :=
  ((standsAt_append_right (by simp [phpubAt]; omega)).append _).append _

theorem workerOps_pairs :
    StandsAt (workerOpsOn F L w a e) (pairsAt F L a e) ((slots a (min e (F - 1))).flatMap (pairOps w e)) := by
  refine (standsAt_append_right ?_).append _
  simp only [pairsAt, phpubAt, List.length_append, List.length_map, length_slots, List.length_cons, List.length_nil,
    length_fftsOps, length_flatMap_of_const (length_fftsOps L)]
  omega

theorem length_workerOpsOn : (workerOpsOn F L w a e).length = sigWdAt F L w a e + 1 := by
  simp only [workerOpsOn, sigWdAt, pairsAt, phpubAt, List.length_append, List.length_map, length_slots, List.length_cons,
    List.length_nil, length_fftsOps, length_flatMap_of_const (length_fftsOps L)]
  omega

theorem workerOps_sigWd : (workerOpsOn F L w a e)[sigWdAt F L w a e]? = some (.sig (.wd w)) := by
  have hlast : (workerOpsOn F L w a e).getLast? = some (.sig (.wd w)) := by
    rw [workerOpsOn, List.getLast?_append]
    rfl
  rw [List.getLast?_eq_getElem?, length_workerOpsOn] at hlast
  exact hlast

end

end Sys2Proof.Machine
end

section
/-! The ingest agent's lists, and what each agent's next operation is (42 R171 to R185; 60 R295). -/

namespace Sys2Proof.Machine

/-! The lists with transforms, piece by piece. -/

section
variable {L : Nat}

theorem coarseFreqOps_ldprs : (coarseFreqOps L true)[0]? = some .ldprs := rfl

theorem coarseFreqOps_fft : StandsAt (coarseFreqOps L true) 1 (fftOps L .sa) :=
  ((((((standsAt_append_right rfl).append _).append _).append _).append _).append _ : StandsAt
    ([.ldprs] ++ fftOps L .sa ++ [.delta] ++ ifftOps L ++ [.cmul .prst] ++ fftOps L .sa
      ++ [.mag, .peakc, .fcupd, .adv .fineTime]) 1 _)

theorem coarseFreqOps_delta : StandsAt (coarseFreqOps L true) (L + 2) [.delta] :=
  (((((standsAt_append_right (by simp)).append _).append _).append _).append _)

theorem coarseFreqOps_ifft : StandsAt (coarseFreqOps L true) (L + 3) (ifftOps L) :=
  ((((standsAt_append_right (by simp)).append _).append _).append _)

theorem coarseFreqOps_cmul : StandsAt (coarseFreqOps L true) (2 * L + 4) [.cmul .prst] :=
  (((standsAt_append_right (by simp; omega)).append _).append _)

theorem coarseFreqOps_fft2 : StandsAt (coarseFreqOps L true) (2 * L + 5) (fftOps L .sa) :=
  ((standsAt_append_right (by simp; omega)).append _)

theorem coarseFreqOps_end : StandsAt (coarseFreqOps L true) (3 * L + 6) [.mag, .peakc, .fcupd, .adv .fineTime] :=
  standsAt_append_right (by simp; omega)

theorem length_coarseFreqOps (L : Nat) (en : Bool) :
    (coarseFreqOps L en).length = if en then 3 * L + 10 else 2 := by
  cases en
  · rfl
  · simp [coarseFreqOps]
    omega

theorem fineTimeOps_begin : StandsAt (fineTimeOps L) 0 [.ldprs, .pllp] :=
  ((((standsAt_append_right (xs := []) rfl).append _).append _).append _).append _

theorem fineTimeOps_fft : StandsAt (fineTimeOps L) 2 (fftOps L .sa) :=
  (((standsAt_append_right rfl).append _).append _).append _

theorem fineTimeOps_cmul : StandsAt (fineTimeOps L) (L + 3) [.cmul .prsf] :=
  ((standsAt_append_right (by simp)).append _).append _

theorem fineTimeOps_ifft : StandsAt (fineTimeOps L) (L + 4) (ifftOps L) :=
  (standsAt_append_right (by simp)).append _

theorem fineTimeOps_end :
    StandsAt (fineTimeOps L) (2 * L + 5) [.lmag, .peakw, .ftchk, .prscp, .adv .readSymbols] :=
  standsAt_append_right (by simp; omega)

@[simp] theorem length_fineTimeOps (L : Nat) : (fineTimeOps L).length = 2 * L + 10 := by
  simp [fineTimeOps]
  omega

end

/-! The next operation of an agent with no diversion pending is the one at its position. -/

theorem nextInstr_ingest_of_none {s : State} (h : s.ingDivert = .none) (n : Nat) :
    State.nextInstr { s with acqSub := n } .ingest = (ingestOps s)[n]? := by
  simp only [State.nextInstr, nextIngest, h]
  rfl

theorem nextInstr_coord_of_none {s : State} (h : s.coDivert = .none) (n : Nat) :
    State.nextInstr { s with coPc := n } .coord = (coordOps s.T)[n]? := by
  simp only [State.nextInstr, nextCoord, h]

theorem nextInstr_worker_of_none {s : State} {w : Nat} (hw : w < s.T) (h : (s.wk w).divert = .none) (n : Nat) :
    State.nextInstr (s.setWk w fun k => { k with pc := n }) (.worker w) = (workerOps s.par s.T w)[n]? := by
  rw [wk_eq_getElem _ _ hw] at h
  simp [State.nextInstr, nextWorker, hw, h]

end Sys2Proof.Machine

open Sys2Proof Sys2Proof.Machine

/-- Settles O59: each list is cut into its pieces, and each piece stands at its position. -/
theorem hardwiredListsByPosition : Obligations.HardwiredListsByPosition := by
  refine ⟨fun s hs => ?ingest, fun s hs => ?coord, fun s w a e c b d m hw hs ha he hc hm hb hd => ?worker⟩
  case ingest =>
    simp only [nextInstr_ingest_of_none hs]
    refine ⟨fun h => ?_, fun h => ?_, fun h hen => ?_, fun h hen => ?_, fun h => ?_, fun h => ?_⟩
    case refine_1 | refine_2 | refine_6 =>
      rw [ingestOps, h]
      rfl
    case refine_3 =>
      rw [ingestOps, h, hen]
      rfl
    case refine_4 =>
      have hops : ingestOps s = coarseFreqOps s.par.L true := by rw [ingestOps, h, hen]
      rw [hops]
      exact ⟨coarseFreqOps_ldprs, coarseFreqOps_fft.get (fftOps_zero _ _),
        fun st h1 hL => coarseFreqOps_fft.get (fftOps_stage _ h1 hL), coarseFreqOps_delta.get (k := 0) rfl,
        coarseFreqOps_ifft.get (ifftOps_zero _), fun st h1 hL => coarseFreqOps_ifft.get (ifftOps_stage h1 hL),
        coarseFreqOps_cmul.get (k := 0) rfl, coarseFreqOps_fft2.get (fftOps_zero _ _),
        fun st h1 hL => coarseFreqOps_fft2.get (fftOps_stage _ h1 hL), coarseFreqOps_end.get (k := 0) rfl,
        coarseFreqOps_end.get (k := 1) rfl, coarseFreqOps_end.get (k := 2) rfl, coarseFreqOps_end.get (k := 3) rfl,
        fun n hn => List.getElem?_eq_none (by rw [length_coarseFreqOps]; exact hn)⟩
    case refine_5 =>
      have hops : ingestOps s = fineTimeOps s.par.L := by rw [ingestOps, h]
      rw [hops]
      exact ⟨fineTimeOps_begin.get (k := 0) rfl, fineTimeOps_begin.get (k := 1) rfl, fineTimeOps_fft.get (fftOps_zero _ _),
        fun st h1 hL => fineTimeOps_fft.get (fftOps_stage _ h1 hL), fineTimeOps_cmul.get (k := 0) rfl,
        fineTimeOps_ifft.get (ifftOps_zero _), fun st h1 hL => fineTimeOps_ifft.get (ifftOps_stage h1 hL),
        fineTimeOps_end.get (k := 0) rfl, fineTimeOps_end.get (k := 1) rfl, fineTimeOps_end.get (k := 2) rfl,
        fineTimeOps_end.get (k := 3) rfl, fineTimeOps_end.get (k := 4) rfl,
        fun n hn => List.getElem?_eq_none (by rw [length_fineTimeOps]; exact hn)⟩
  case coord =>
    simp only [nextInstr_coord_of_none hs]
    exact ⟨coordOps_waitCs _, coordOps_rel _, fun w => coordOps_waitWp, (coordOps_phavg _).get (k := 0) rfl,
      (coordOps_phavg _).get (k := 1) rfl, fun w => coordOps_waitWd, (coordOps_emit _).get (k := 0) rfl,
      (coordOps_emit _).get (k := 1) rfl, fun n hn => List.getElem?_eq_none (by rw [length_coordOps]; exact hn)⟩
  case worker =>
    simp only [nextInstr_worker_of_none hw hs, workerOps, ← ha, ← he]
    obtain rfl : b = phpubAt s.par.F a e := by rw [hb, hc, phpubAt]
    obtain rfl : d = pairsAt s.par.F s.par.L a e := by rw [hd, pairsAt, Nat.sub_sub]
    have hmin : slots a (min e (s.par.F - 1)) = slots a (a + m) := by simp [slots, hm]
    refine ⟨workerOps_waitWs, fun j hj => ?derot, fun j hj => ?cperr, workerOps_phpub.get (k := 0) rfl,
      workerOps_phpub.get (k := 1) rfl, workerOps_first.get (fftsOps_zero _ _), workerOps_first.get (fftsOps_one _ _),
      fun st h1 hL => ?first, workerOps_sigWf.get (k := 0) rfl, fun j hj => ?further, fun j hj => ?pairs,
      fun hae n hn => ?last⟩
    case derot => exact workerOps_derots.get (by rw [List.getElem?_map, slots_get hj]; rfl)
    case cperr => exact workerOps_cperrs.get (by rw [List.getElem?_map, slots_get (hc ▸ hj)]; rfl)
    case first =>
      rw [show phpubAt s.par.F a e + 3 + st = phpubAt s.par.F a e + 2 + (1 + st) by omega]
      exact workerOps_first.get (fftsOps_stage h1 hL)
    case further =>
      have hat := (workerOps_further (F := s.par.F) (w := w)).trans (standsAt_flatMap (f := fftsOps s.par.L) (length_fftsOps _)
        (slots_get (show j < e - (a + 1) by omega)))
      refine ⟨hat.get (k := 0) (fftsOps_zero _ _), hat.get (fftsOps_one _ _), fun st h1 hL => ?_⟩
      rw [Nat.add_assoc _ 1 st]
      exact hat.get (fftsOps_stage h1 hL)
    case pairs =>
      have hat := workerOps_pairs (F := s.par.F) (L := s.par.L) (w := w) (a := a) (e := e)
      rw [hmin] at hat
      have hpair := hat.trans (standsAt_pairs (w := w) (e := e) hj (by omega))
      refine ⟨fun hne => ?_, fun hlast => ?_⟩
      · rw [pairOps_of_ne hne] at hpair
        exact ⟨hpair.get (k := 0) rfl, hpair.get (k := 1) rfl⟩
      · rw [pairOps_last hlast] at hpair
        exact ⟨hpair.get (k := 0) rfl, hpair.get (k := 1) rfl, hpair.get (k := 2) rfl⟩
    case last =>
      have hlen : n = sigWdAt s.par.F s.par.L w a e := by
        rw [hn, sigWdAt, hmin, length_pairs (by omega), Nat.add_assoc]
        split_ifs <;> omega
      rw [hlen]
      exact ⟨workerOps_sigWd, fun n' hn' => List.getElem?_eq_none (by rw [length_workerOpsOn]; omega)⟩

end

section
/-! The workers' slots and the pairs across their lists (00_scope R7, 43 R211, R216, R219, R220). -/

namespace Sys2Proof

section
variable {p : Params} {T w v i : Nat}

/-- No worker is without a slot (00_scope R7). -/
theorem sliceLen_pos (h1 : 1 ≤ T) (hT : T ≤ p.F + 1) : 0 < sliceLen p T := Nat.div_pos hT h1

theorem mul_sliceLen_le (p : Params) (T : Nat) : T * sliceLen p T ≤ p.F + 1 := Nat.mul_div_le _ _

theorem succ_mul_sliceLen_le (hw : w < T) : (w + 1) * sliceLen p T ≤ p.F + 1 :=
  (Nat.mul_le_mul_right _ hw).trans (mul_sliceLen_le p T)

theorem endOf_of_lt (h : w + 1 < T) : endOf p T w = (w + 1) * sliceLen p T := if_pos h

theorem endOf_last (h : w + 1 = T) : endOf p T w = p.F + 1 := if_neg (by omega)

/-- A worker's range ends where the next one begins (00_scope R7). -/
theorem startOf_succ (h : w + 1 < T) : startOf p T (w + 1) = endOf p T w := (endOf_of_lt h).symm

theorem endOf_le (hw : w < T) : endOf p T w ≤ p.F + 1 := by
  unfold endOf
  split
  · exact succ_mul_sliceLen_le hw
  · exact le_rfl

/-- No range is empty (00_scope R7). -/
theorem startOf_lt_endOf (h1 : 1 ≤ T) (hT : T ≤ p.F + 1) (hw : w < T) : startOf p T w < endOf p T w := by
  have hpos := sliceLen_pos h1 hT
  have hle : (w + 1) * sliceLen p T ≤ p.F + 1 := succ_mul_sliceLen_le hw
  rw [Nat.succ_mul] at hle
  unfold startOf endOf
  split
  · rw [Nat.succ_mul]
    omega
  · omega

/-- The ranges are in the order of the workers. -/
theorem endOf_le_startOf (hwv : w < v) (hv : v < T) : endOf p T w ≤ startOf p T v := by
  rw [endOf_of_lt (by omega)]
  exact Nat.mul_le_mul_right _ hwv

/-- A slot is in one range only (00_scope R7). -/
theorem eq_of_slot_mem (hw : w < T) (hv : v < T) (hwi : startOf p T w ≤ i ∧ i < endOf p T w)
    (hvi : startOf p T v ≤ i ∧ i < endOf p T v) : v = w := by
  rcases Nat.lt_trichotomy v w with h | h | h
  · have := endOf_le_startOf (p := p) h hw
    omega
  · exact h
  · have := endOf_le_startOf (p := p) h hv
    omega

/-- Every slot is in a range: that of worker `i / q`, or of the last (00_scope R7). -/
theorem exists_slot_mem (h1 : 1 ≤ T) (hT : T ≤ p.F + 1) (hi : i ≤ p.F) :
    ∃ w, w < T ∧ startOf p T w ≤ i ∧ i < endOf p T w := by
  have hpos := sliceLen_pos h1 hT
  by_cases hq : i / sliceLen p T + 1 < T
  · refine ⟨i / sliceLen p T, by omega, Nat.div_mul_le_self _ _, ?_⟩
    rw [endOf_of_lt hq, Nat.succ_mul]
    exact Nat.lt_div_mul_add hpos
  · refine ⟨T - 1, by omega, ?_, ?_⟩
    · exact (Nat.mul_le_mul_right _ (by omega : T - 1 ≤ i / sliceLen p T)).trans (Nat.div_mul_le_self _ _)
    · rw [endOf_last (by omega)]
      omega

end

namespace Machine

section
variable {α : Type} {xs ys : List α} {x : α} {n : Nat}

/-- An element that is not in the first part stands in the second. -/
theorem length_le_of_getElem?_append (h : (xs ++ ys)[n]? = some x) (hx : x ∉ xs) : xs.length ≤ n := by
  by_contra hn
  rw [List.getElem?_append_left (Nat.lt_of_not_le hn)] at h
  exact hx (List.mem_of_getElem? h)

/-- An element that is not in the second part stands in the first. -/
theorem lt_length_of_getElem?_append (h : (xs ++ ys)[n]? = some x) (hy : x ∉ ys) : n < xs.length := by
  by_contra hn
  rw [List.getElem?_append_right (Nat.le_of_not_lt hn)] at h
  exact hy (List.mem_of_getElem? h)

/-- An element in neither neighbour stands between them. -/
theorem eq_length_of_getElem?_append (h : (xs ++ [x] ++ ys)[n]? = some x) (hx : x ∉ xs) (hy : x ∉ ys) : n = xs.length := by
  have hlt := lt_length_of_getElem?_append h hy
  rw [List.append_assoc] at h
  have hle := length_le_of_getElem?_append h hx
  rw [List.length_append, List.length_singleton] at hlt
  omega

end

section
variable {F L w a e i n : Nat}

theorem count_soft_pairs (l : List Nat) : (l.flatMap (pairOps w e)).count (.soft i) = l.count i := by
  induction l with
  | nil => rfl
  | cons j l ih =>
    have hpair : (pairOps w e j).count (.soft i) = if j = i then 1 else 0 := by
      unfold pairOps
      split <;> simp [List.count_cons]
    rw [List.flatMap_cons, List.count_append, ih, hpair, List.count_cons, Nat.add_comm]
    simp

theorem count_dqpsk_pairs (l : List Nat) : (l.flatMap (pairOps w e)).count (.dqpsk i) = l.count i := by
  induction l with
  | nil => rfl
  | cons j l ih =>
    have hpair : (pairOps w e j).count (.dqpsk i) = if j = i then 1 else 0 := by
      unfold pairOps
      split <;> simp [List.count_cons]
    rw [List.flatMap_cons, List.count_append, ih, hpair, List.count_cons, Nat.add_comm]
    simp

/-- A worker's list up to its pairs. -/
def beforePairs (F L w a e : Nat) : List Instr :=
  [Instr.wait (.ws w)] ++ (slots a e).map Instr.derot ++ (slots a (min e F)).map Instr.cperr ++ [Instr.phpub, Instr.sig (.wp w)]
    ++ fftsOps L a ++ [Instr.sig (.wf w)] ++ (slots (a + 1) e).flatMap (fftsOps L)

theorem workerOpsOn_eq_pairs : workerOpsOn F L w a e
    = beforePairs F L w a e ++ ((slots a (min e (F - 1))).flatMap (pairOps w e) ++ [Instr.sig (.wd w)]) :=
  List.append_assoc _ _ _

theorem length_beforePairs : (beforePairs F L w a e).length = pairsAt F L a e := by
  simp only [beforePairs, pairsAt, phpubAt, List.length_append, List.length_map, length_slots, List.length_cons,
    List.length_nil, length_fftsOps, length_flatMap_of_const (length_fftsOps L)]
  omega

theorem soft_not_mem_beforePairs : Instr.soft i ∉ beforePairs F L w a e := by
  simp [beforePairs, fftsOps, fftOps]

theorem dqpsk_not_mem_beforePairs : Instr.dqpsk i ∉ beforePairs F L w a e := by
  simp [beforePairs, fftsOps, fftOps]

theorem nodup_slots (a b : Nat) : (slots a b).Nodup :=
  List.Nodup.map (fun _ _ h => Nat.add_left_cancel h) List.nodup_range

/-- A pair of the range is written once (43 R220). -/
theorem count_soft_workerOpsOn : (workerOpsOn F L w a e).count (.soft i) = (slots a (min e (F - 1))).count i := by
  rw [workerOpsOn_eq_pairs, List.count_append, List.count_append, List.count_eq_zero.mpr soft_not_mem_beforePairs,
    count_soft_pairs, List.count_eq_zero.mpr (by simp : Instr.soft i ∉ [Instr.sig (.wd w)]), Nat.zero_add, Nat.add_zero]

/-- A pair of the range is demodulated once (43 R220). -/
theorem count_dqpsk_workerOpsOn : (workerOpsOn F L w a e).count (.dqpsk i) = (slots a (min e (F - 1))).count i := by
  rw [workerOpsOn_eq_pairs, List.count_append, List.count_append, List.count_eq_zero.mpr dqpsk_not_mem_beforePairs,
    count_dqpsk_pairs, List.count_eq_zero.mpr (by simp : Instr.dqpsk i ∉ [Instr.sig (.wd w)]), Nat.zero_add, Nat.add_zero]

theorem soft_mem_workerOpsOn : Instr.soft i ∈ workerOpsOn F L w a e ↔ a ≤ i ∧ i < min e (F - 1) := by
  rw [← List.count_pos_iff, count_soft_workerOpsOn, List.count_pos_iff, mem_slots]

theorem dqpsk_mem_workerOpsOn : Instr.dqpsk i ∈ workerOpsOn F L w a e ↔ a ≤ i ∧ i < min e (F - 1) := by
  rw [← List.count_pos_iff, count_dqpsk_workerOpsOn, List.count_pos_iff, mem_slots]

/-- Where `DQPSK` stands the pairs have begun. -/
theorem pairsAt_le_of_dqpsk (h : (workerOpsOn F L w a e)[n]? = some (.dqpsk i)) : pairsAt F L a e ≤ n := by
  rw [workerOpsOn_eq_pairs] at h
  rw [← length_beforePairs (w := w)]
  exact length_le_of_getElem?_append h dqpsk_not_mem_beforePairs

/-- Every slot of the range is loaded and, behind it, transformed, before the pairs begin (43 R216). -/
theorem ldsym_before_pairs (hL : 1 ≤ L) (ha : a ≤ i) (he : i < e) :
    ∃ m m', m < m' ∧ m' < pairsAt F L a e ∧ (workerOpsOn F L w a e)[m]? = some (.ldsym i)
      ∧ (workerOpsOn F L w a e)[m']? = some (.bflyf (.zf i) L) := by
  obtain rfl | hlt := Nat.eq_or_lt_of_le ha
  · refine ⟨_, phpubAt F a e + 2 + (1 + L), ?_, ?_, workerOps_first.get (k := 0) (fftsOps_zero _ _),
      workerOps_first.get (fftsOps_stage hL le_rfl)⟩
    · omega
    · unfold pairsAt
      omega
  · obtain ⟨j, rfl⟩ := Nat.exists_eq_add_of_le hlt
    have hj : j < e - (a + 1) := by omega
    have hat := (workerOps_further (F := F) (w := w)).trans (standsAt_flatMap (length_fftsOps L) (slots_get hj))
    have hfit : (j + 1) * (L + 2) ≤ (e - (a + 1)) * (L + 2) := Nat.mul_le_mul_right _ hj
    rw [Nat.succ_mul] at hfit
    refine ⟨_, _, ?_, ?_, hat.get (k := 0) (fftsOps_zero _ _), hat.get (fftsOps_stage hL le_rfl)⟩
    · omega
    · unfold pairsAt
      omega

/-- The pair at the end of the range stands behind its wait (43 R219). -/
theorem waitWf_before_dqpsk (h : (workerOpsOn F L w a e)[n]? = some (.dqpsk i)) (hi : i + 1 = e) :
    ∃ m, m < n ∧ (workerOpsOn F L w a e)[m]? = some (.wait (.wf (w + 1))) := by
  obtain ⟨hai, hmin⟩ := dqpsk_mem_workerOpsOn.mp (List.mem_of_getElem? h)
  have hslots : slots a (min e (F - 1)) = slots a i ++ [i] := by
    obtain ⟨j, rfl⟩ := Nat.exists_eq_add_of_le hai
    rw [show min e (F - 1) = a + (j + 1) by omega]
    simp [slots, List.range_succ]
  have hlist : workerOpsOn F L w a e = (beforePairs F L w a e ++ (slots a i).flatMap (pairOps w e))
      ++ ([.wait (.wf (w + 1))] ++ ([.dqpsk i, .soft i] ++ [.sig (.wd w)])) := by
    rw [workerOpsOn_eq_pairs, hslots, List.flatMap_append, List.flatMap_singleton, pairOps_last hi]
    simp
  have hearlier : Instr.dqpsk i ∉ beforePairs F L w a e ++ (slots a i).flatMap (pairOps w e) := by
    rw [List.mem_append, not_or, ← List.count_pos_iff (l := List.flatMap _ _), count_dqpsk_pairs, List.count_pos_iff, mem_slots]
    exact ⟨dqpsk_not_mem_beforePairs, by omega⟩
  have hle : (beforePairs F L w a e ++ (slots a i).flatMap (pairOps w e)).length + 1 ≤ n := by
    have hget := h
    rw [hlist, ← List.append_assoc] at hget
    have hlen := length_le_of_getElem?_append hget (by
      rw [List.mem_append, not_or]
      exact ⟨hearlier, by simp⟩)
    rwa [List.length_append, List.length_singleton] at hlen
  refine ⟨_, hle, ?_⟩
  rw [hlist, List.getElem?_append_right le_rfl, Nat.sub_self]
  rfl

end

end Machine

end Sys2Proof

open Sys2Proof Sys2Proof.Machine

/-- Settles O37: with `q = ⌊(F + 1) / T⌋` positive the ranges follow each other from 0 to `F + 1`. -/
theorem workerRangesPartitionTheSlots : Obligations.WorkerRangesPartitionTheSlots := by
  intro p T h1 hT
  refine ⟨Nat.zero_mul _, endOf_last (by omega), fun w hw => startOf_lt_endOf h1 hT hw, fun i hi => ?_⟩
  obtain ⟨w, hw, hwi⟩ := exists_slot_mem h1 hT hi
  exact ⟨w, hw, hwi.1, hwi.2, fun v hv hs he => eq_of_slot_mem hw hv hwi ⟨hs, he⟩⟩

/-- Settles O36: a pair is in the list of the owner of its slot and in no other, once; its slots are loaded before
the pairs begin. -/
theorem pairsAcrossTheWorkerLists : Obligations.PairsAcrossTheWorkerLists := by
  refine ⟨fun p T i hF h1 hT => ⟨fun hi => ?written, fun hi w hw => ?beyond⟩, fun p T w i n hF hL h1 hT hw h => ?order⟩
  case written =>
    obtain ⟨w, hw, hs, he⟩ := exists_slot_mem h1 hT (show i ≤ p.F by omega)
    have hmem : i ∈ slots (startOf p T w) (min (endOf p T w) (p.F - 1)) := mem_slots.mpr ⟨hs, by omega⟩
    have hone := List.count_eq_one_of_mem (nodup_slots _ _) hmem
    refine ⟨w, hw, count_soft_workerOpsOn.trans hone, count_dqpsk_workerOpsOn.trans hone, fun v hv hne => ?_⟩
    have hnot : ¬ (startOf p T v ≤ i ∧ i < min (endOf p T v) (p.F - 1)) := fun hvi =>
      hne (eq_of_slot_mem hw hv ⟨hs, he⟩ ⟨hvi.1, by omega⟩)
    exact ⟨fun hm => hnot (soft_mem_workerOpsOn.mp hm), fun hm => hnot (dqpsk_mem_workerOpsOn.mp hm)⟩
  case beyond =>
    have hnot : ¬ (startOf p T w ≤ i ∧ i < min (endOf p T w) (p.F - 1)) := by omega
    exact ⟨fun hm => hnot (soft_mem_workerOpsOn.mp hm), fun hm => hnot (dqpsk_mem_workerOpsOn.mp hm)⟩
  case order =>
    have hpairs := pairsAt_le_of_dqpsk h
    obtain ⟨hs, hmin⟩ := dqpsk_mem_workerOpsOn.mp (List.mem_of_getElem? h)
    have hloaded : ∀ j, startOf p T w ≤ j → j < endOf p T w →
        ∃ m, m < n ∧ (workerOps p T w)[m]? = some (.ldsym j)
          ∧ ∃ m', m < m' ∧ m' < n ∧ (workerOps p T w)[m']? = some (.bflyf (.zf j) p.L) := by
      intro j hsj hej
      obtain ⟨m, m', hmm, hm', hld, hst⟩ := ldsym_before_pairs (F := p.F) (w := w) hL hsj hej
      exact ⟨m, by omega, hld, m', hmm, by omega, hst⟩
    exact ⟨hloaded i hs (by omega), hloaded (i + 1) (by omega),
      waitWf_before_dqpsk h⟩

end

section
/-! What a turn does, and what the trace reports of it (00_scope R15, R16; 30_encoding R120; 70 R324). -/

namespace Sys2Proof.Machine

variable {s t : State} {a : Agent} {i : Instr} {w : Word}

/-! A turn of an agent. -/

/-- An operation that passes the checks gives each state it can end in. -/
theorem exec_of_ends (hc : issueCheck s i = none) (h : Ends s i t) : exec i s = .next t := by
  cases h with
  | completed h => exact exec_of_completes hc h
  | stopped hb hs => exact exec_of_stop hc hb hs
  | blocked hb hs => exact exec_of_isBlockedAt hc hs hb
  | armed hs ha => exact execEmit_next.mpr ⟨hc, .inr (.inl ⟨hs, ha, rfl⟩)⟩
  | raised hd => exact execFtchk_next.mpr ⟨hc, .inl ⟨hd, rfl⟩⟩
  | handled => exact execDesync_next.mpr ⟨hc, rfl⟩
  | advanced a => exact (execAdv_next a).mpr ⟨hc, rfl⟩
  | halted => exact execHalt_next.mpr ⟨hc, rfl⟩

/-- The state with other turns to come and another count of free values, neither of which an operation reads. -/
def State.withTurns (s : State) (r : List Turn) (k : Nat) : State := { s with turns := r, tick := k }

/-- Whether an operation gives a next state does not depend on the turns to come. -/
theorem exec_next_withTurns (r : List Turn) (k : Nat) (h : exec i s = .next t) :
    ∃ t', exec i (s.withTurns r k) = .next t' := by
  have hcheck := check_of_exec_next h
  have hc : issueCheck (s.withTurns r k) i = none := hcheck
  cases ends_of_exec_next h with
  | completed hd => exact ⟨_, exec_of_completes hc (by cases i <;> exact hd)⟩
  | stopped hb hs => exact ⟨_, exec_of_stop hc hb hs⟩
  | blocked hb hs => exact ⟨_, exec_of_isBlockedAt hc hs (by cases i <;> exact hb)⟩
  | armed hs ha => exact ⟨_, exec_of_ends hc (.armed hs ha)⟩
  | raised hd => exact ⟨_, exec_of_ends hc (.raised hd)⟩
  | handled => exact ⟨_, exec_of_ends hc .handled⟩
  | advanced a => exact ⟨_, exec_of_ends hc (.advanced a)⟩
  | halted => exact ⟨_, exec_of_ends hc .halted⟩

/-- An operation gives a next state or is refused: the core has no fault (00_scope R17). -/
theorem exec_next_or_refused (i : Instr) (s : State) : (∃ t, exec i s = .next t) ∨ ∃ r, exec i s = .refused r :=
  match h : exec i s with
  | .next t => .inl ⟨t, rfl⟩
  | .refused r => .inr ⟨r, rfl⟩
  | .fault f => absurd h (exec_ne_fault i s f)

theorem exec_refused_withTurns {r : Refusal} (ts : List Turn) (k : Nat) (h : exec i s = .refused r) :
    ∃ r', exec i (s.withTurns ts k) = .refused r' := by
  obtain ⟨t, ht⟩ | hr := exec_next_or_refused i (s.withTurns ts k)
  · obtain ⟨t', ht'⟩ := exec_next_withTurns s.turns s.tick ht
    have hback : (s.withTurns ts k).withTurns s.turns s.tick = s := rfl
    rw [hback, h] at ht'
    cases ht'
  · exact hr

/-- A turn that does nothing: the core is not enabled, or the agent has halted (10_state R43, 45 R264). -/
theorem runAgent_of_disabled (h : s.en = false ∨ s.isHalted a = true) : runAgent a s = .next s := by
  obtain h | h := h <;> simp [runAgent, h]

theorem issueWord_of_disabled (h : s.en = false ∨ s.isHalted a = true) : issueWord a w s = .next s := by
  obtain h | h := h <;> simp [issueWord, h]

/-- An issued word runs the operation it decodes to. -/
theorem issueWord_of_decode (he : s.en = true) (hh : s.isHalted a = false) (hd : decode w = some i) :
    issueWord a w s = exec i { s with cur := a } := by
  simp [issueWord, he, hh, hd]

/-- A reserved word is refused (30_encoding R115). -/
theorem issueWord_of_reserved (he : s.en = true) (hh : s.isHalted a = false) (hd : decode w = none) :
    issueWord a w s = .refused .reservedWord := by
  simp [issueWord, he, hh, hd]

/-- An agent's own turn runs the operation at its position. -/
theorem runAgent_of_nextInstr (he : s.en = true) (hh : s.isHalted a = false) (ha : agentExists s.T a = true)
    (hi : s.nextInstr a = some i) (hwf : i.wf = true) : runAgent a s = exec i { s with cur := a } := by
  rw [← issueWord_of_decode he hh (decode_of_encode hwf)]
  simp [runAgent, he, hh, ha, hi]

/-- What an agent's own turn that gives a next state did. -/
theorem runAgent_next_cases (h : runAgent a s = .next t) :
    ((s.en = false ∨ s.isHalted a = true) ∧ t = s)
      ∨ s.en = true ∧ s.isHalted a = false ∧ agentExists s.T a = true
        ∧ ∃ i, s.nextInstr a = some i ∧ issueWord a (encode i) s = .next t := by
  by_cases hd : s.en = false ∨ s.isHalted a = true
  · rw [runAgent_of_disabled hd] at h
    cases h
    exact .inl ⟨hd, rfl⟩
  · simp only [not_or, Bool.not_eq_false, Bool.not_eq_true] at hd
    refine .inr ⟨hd.1, hd.2, ?_⟩
    simp only [runAgent, hd.1, hd.2] at h
    cases ha : agentExists s.T a <;> simp only [ha] at h
    · cases h
    · cases hi : s.nextInstr a <;> simp only [hi] at h
      · cases h
      · exact ⟨rfl, _, rfl, h⟩

theorem agentExists_agentNumbered (T n : Nat) : agentExists T (agentNumbered T n) = true := by
  have hlt : n % (T + 2) < T + 2 := Nat.mod_lt _ (by omega)
  unfold agentNumbered
  split
  · rfl
  · rfl
  · next k hk => exact decide_eq_true (by omega)

theorem step_of_run {rest : List Turn} (h : s.turns = .run a :: rest) : step s = runAgent a { s with turns := rest } := by
  simp [step, takeTurn, h]

theorem step_of_issue {rest : List Turn} (h : s.turns = .issue a w :: rest) :
    step s = issueWord a w { s with turns := rest } := by
  simp [step, takeTurn, h]

theorem step_of_host {x : HostAct} {rest : List Turn} (h : s.turns = .host x :: rest) :
    step s = hostStep x { s with turns := rest } := by
  simp [step, takeTurn, h]

theorem step_of_nil (h : s.turns = []) :
    step s = runAgent (agentNumbered s.T (Config.freeAgent s.tick)) (s.withTurns [] (s.tick + 1)) := by
  simp [step, takeTurn, State.withTurns, h]

/-- A turn of the hardware's own is the own turn of an agent there is. -/
theorem step_of_agentTurn (h : agentTurn s) :
    ∃ a r k, agentExists s.T a = true ∧ step s = runAgent a (s.withTurns r k) := by
  unfold agentTurn at h
  split at h
  next hturns => exact ⟨_, _, _, agentExists_agentNumbered _ _, step_of_nil hturns⟩
  next a r hturns => exact ⟨a, r, s.tick, h, step_of_run hturns⟩
  next => exact h.elim
  next => exact h.elim

/-- A turn of the hardware is an agent's own or the host's. -/
theorem agentTurn_or_host (h : hardwired s) : agentTurn s ∨ ∃ x r, s.turns = .host x :: r := by
  unfold hardwired at h
  split at h
  next hturns => exact .inl (by simp [agentTurn, hturns])
  next a r hturns => exact .inl (by simpa [agentTurn, hturns] using h)
  next => exact h.elim
  next x r hturns => exact .inr ⟨x, r, hturns⟩

/-! The trace. -/

theorem pendingWord_of_run {rest : List Turn} (h : s.turns = .run a :: rest) (hi : s.nextInstr a = some i) :
    s.pendingWord = some (a, encode i) := by
  simp [State.pendingWord, h, hi]

theorem pendingWord_of_issue {rest : List Turn} (h : s.turns = .issue a w :: rest) : s.pendingWord = some (a, w) := by
  simp [State.pendingWord, h]

theorem takesEffect_of_next (h : exec i { s with cur := a } = .next t) : s.takesEffect a i = !s.waits i := by
  simp [State.takesEffect, h]

theorem takesEffect_of_refused {r : Refusal} (h : exec i { s with cur := a } = .refused r) : s.takesEffect a i = false := by
  simp [State.takesEffect, h]

theorem traced_of_decode (hp : s.pendingWord = some (a, w)) (hd : decode w = some i) :
    s.traced = if s.en && !s.isHalted a && s.takesEffect a i then some (a.number, w) else none := by
  simp only [State.traced, hp, hd]

theorem traced_of_reserved (hp : s.pendingWord = some (a, w)) (hd : decode w = none) : s.traced = none := by
  simp only [State.traced, hp, hd]

/-- Whether an operation takes effect does not depend on the turns to come. -/
theorem takesEffect_withTurns (r : List Turn) (k : Nat) (a : Agent) (i : Instr) :
    (s.withTurns r k).takesEffect a i = s.takesEffect a i := by
  have hwaits : (s.withTurns r k).waits i = s.waits i := by cases i <;> rfl
  obtain ⟨t, ht⟩ | ⟨f, hf⟩ := exec_next_or_refused i { s with cur := a }
  · obtain ⟨t', ht'⟩ := exec_next_withTurns r k ht
    rw [takesEffect_of_next ht, takesEffect_of_next (s := s.withTurns r k) ht', hwaits]
  · obtain ⟨f', hf'⟩ := exec_refused_withTurns r k hf
    rw [takesEffect_of_refused hf, takesEffect_of_refused (s := s.withTurns r k) hf']

/-- The trace is that of the word to come. -/
theorem traced_withTurns {r : List Turn} {k : Nat} (h : (s.withTurns r k).pendingWord = s.pendingWord) :
    (s.withTurns r k).traced = s.traced := by
  cases hp : s.pendingWord with
  | none => simp only [State.traced, h, hp]
  | some bv =>
    obtain ⟨b, v⟩ := bv
    cases hd : decode v with
    | none => rw [traced_of_reserved hp hd, traced_of_reserved (h.trans hp) hd]
    | some i =>
      rw [traced_of_decode hp hd, traced_of_decode (h.trans hp) hd, takesEffect_withTurns]
      rfl

/-- The agent that takes the next turn when none is laid down (00_scope R15, U2). -/
def freeChoice (s : State) : Agent := agentNumbered s.T (Config.freeAgent s.tick)

/-- The state with that agent's turn laid down. -/
def freeTurn (s : State) : State := s.withTurns [.run (freeChoice s)] (s.tick + 1)

theorem pendingWord_freeTurn (h : s.turns = []) : (freeTurn s).pendingWord = s.pendingWord := by
  simp only [State.pendingWord, h]
  rfl

/-- While `en = 0`, and of a halted agent, nothing is reported. -/
theorem traced_of_disabled {j : Option (Agent × Word)} (hp : s.pendingWord = j) (hj : ∀ b v, j = some (b, v) → b = a)
    (h : s.en = false ∨ s.isHalted a = true) : s.traced = none := by
  cases j with
  | none => simp only [State.traced, hp]
  | some bv =>
    obtain ⟨b, v⟩ := bv
    obtain rfl := hj b v rfl
    cases hd : decode v with
    | none => exact traced_of_reserved hp hd
    | some i =>
      rw [traced_of_decode hp hd]
      obtain h | h := h <;> simp [h]

theorem pendingWord_agent_of_run {rest : List Turn} {b : Agent} {v : Word} (h : s.turns = .run a :: rest)
    (hp : s.pendingWord = some (b, v)) : b = a := by
  simp only [State.pendingWord, h, Option.map_eq_some_iff, Prod.mk.injEq] at hp
  obtain ⟨_, -, rfl, -⟩ := hp
  rfl

/-- What the trace reports of an operation that is issued (30_encoding R120; log entry 27). -/
theorem traced_of_issued {rest : List Turn} (hp : s.pendingWord = some (a, w)) (hd : decode w = some i) (he : s.en = true)
    (hh : s.isHalted a = false) (hstep : step s = exec i { s with turns := rest, cur := a }) :
    (∀ t, step s = .next t → s.traced = if s.waits i = true then none else some (a.number, w))
      ∧ ∀ r, step s = .refused r → s.traced = none := by
  have htrace := traced_of_decode hp hd
  simp only [he, hh] at htrace
  refine ⟨fun t ht => ?_, fun r hr => ?_⟩
  · rw [hstep] at ht
    obtain ⟨t', ht'⟩ := exec_next_withTurns s.turns s.tick ht
    rw [htrace, takesEffect_of_next (a := a) ht']
    cases s.waits i <;> rfl
  · rw [hstep] at hr
    obtain ⟨r', hr'⟩ := exec_refused_withTurns s.turns s.tick hr
    rw [htrace, takesEffect_of_refused (a := a) hr']
    rfl

/-! The end of a run (70 R324). -/

/-- A blocked agent's operation is blocked. -/
theorem isBlockedAt_of_restsAt (hT : s.T ≤ 65536) (ha : agentExists s.T a = true) (h : restsAt s a) :
    ∃ i, s.nextInstr a = some i ∧ i.wf = true ∧ isBlockedAt s i := by
  cases a with
  | ingest =>
    obtain ⟨hc, hq⟩ := h
    cases hn : s.nextInstr .ingest with
    | none => rw [hn] at hc; cases hc
    | some i =>
      rw [hn] at hc
      cases i
      case nsamp | capp | iapp => exact ⟨_, rfl, rfl, hq⟩
      all_goals cases hc
  | coord =>
    obtain ⟨hn, hcs⟩ | ⟨hn, ha, hv⟩ := h
    · exact ⟨_, hn, rfl, hcs⟩
    · exact ⟨_, hn, rfl, ha, hv⟩
  | worker w =>
    obtain ⟨hn, hws⟩ := h
    have hw : w < s.T := of_decide_eq_true ha
    exact ⟨_, hn, wf_wait (decide_eq_true (by omega)) nofun, hws⟩

/-- A blocked operation that gives a next state gives the state it found. -/
theorem eq_of_isBlockedAt (hs : s.stop = false) (hbl : isBlockedAt s i) (h : exec i s = .next t) :
    t = s := by
  rw [exec_of_isBlockedAt (check_of_exec_next h) hs hbl] at h
  cases h
  rfl

/-- The end of a run is a matter of the registers, not of the turns to come but for their kind. -/
theorem runEnded_withTurns (r : List Turn) (k : Nat) (h : runEnded s) (hr : ∀ x ∈ r, ∃ a, x = .run a) :
    runEnded (s.withTurns r k) :=
  h.imp id fun ⟨he, hs, _, hrest⟩ => ⟨he, hs, hr, hrest⟩

theorem all_halted_iff : s.allHalted = true ↔ ∀ a, agentExists s.T a = true → s.isHalted a = true := by
  simp only [State.allHalted, Bool.and_eq_true, List.all_eq_true]
  constructor
  · rintro ⟨⟨hi, hc⟩, hw⟩ a ha
    cases a with
    | ingest => exact hi
    | coord => exact hc
    | worker w =>
      have hlt : w < s.workers.length := of_decide_eq_true ha
      rw [State.isHalted, wk_eq_getElem s w hlt]
      exact hw _ (List.getElem_mem hlt)
  · intro h
    refine ⟨⟨h .ingest rfl, h .coord rfl⟩, fun k hk => ?_⟩
    obtain ⟨w, hw, rfl⟩ := List.mem_iff_getElem.mp hk
    have := h (.worker w) (decide_eq_true hw)
    rwa [State.isHalted, wk_eq_getElem s w hw] at this

/-- At the end of a run an agent's own turn changes no register, flag or buffer. -/
theorem runAgent_of_runEnded (hT : s.T ≤ 65536) (h : runEnded s) (hstep : runAgent a s = .next t) :
    t = s ∨ t = { s with cur := a } := by
  obtain ⟨-, rfl⟩ | ⟨he, hh, ha, i, hi, hissue⟩ := runAgent_next_cases hstep
  · exact .inl rfl
  · obtain ⟨-, hall⟩ | ⟨-, hs, -, hing, hco, hwk⟩ := h
    · rw [all_halted_iff.mp hall a ha] at hh
      cases hh
    · have hrest : restsAt s a := by
        cases a with
        | ingest => exact hing
        | coord => exact hco
        | worker w => exact hwk w (of_decide_eq_true ha)
      obtain ⟨j, hj, hwf, hbl⟩ := isBlockedAt_of_restsAt hT ha hrest
      obtain rfl : i = j := Option.some.inj (hi.symm.trans hj)
      rw [issueWord_of_decode he hh (decode_of_encode hwf)] at hissue
      exact .inr (eq_of_isBlockedAt (s := { s with cur := a }) hs (by cases i <;> exact hbl) hissue)

end Sys2Proof.Machine

open Sys2Proof Sys2Proof.Machine

/-- Settles O6: a turn that issues a word is the turn of the operation it decodes to. -/
theorem stepRunsTheDecodedWord : Obligations.StepRunsTheDecodedWord := fun _ _ _ _ hturns hen hhalt =>
  ⟨fun _ hd => (step_of_issue hturns).trans (issueWord_of_decode hen hhalt hd),
    fun hd => (step_of_issue hturns).trans (issueWord_of_reserved hen hhalt hd)⟩

/-- Settles O7: a turn and its trace come from the same pending word; whether an operation is refused does not depend on
the turns to come, and at the end of a run every agent's operation is blocked. -/
theorem turnsOfTheAgents : Obligations.TurnsOfTheAgents := by
  refine ⟨fun s a i w rest hturn hen hhalt => ?runs, fun s hturns => ?free, fun s a w rest => ⟨fun hoff => ?off,
    fun hturns hd => traced_of_reserved (pendingWord_of_issue hturns) hd, fun h hturns => ?host⟩,
    fun s t hT hend hin hstep => ?ends⟩
  case runs =>
    obtain ⟨hturns, hex, hi, hwf, rfl⟩ | ⟨hturns, hd⟩ := hturn
    · have hstep : step s = exec i { s with turns := rest, cur := a } :=
        (step_of_run hturns).trans (runAgent_of_nextInstr hen hhalt hex hi hwf)
      exact ⟨hstep, traced_of_issued (pendingWord_of_run hturns hi) (decode_of_encode hwf) hen hhalt hstep⟩
    · have hstep : step s = exec i { s with turns := rest, cur := a } :=
        (step_of_issue hturns).trans (issueWord_of_decode hen hhalt hd)
      exact ⟨hstep, traced_of_issued (pendingWord_of_issue hturns) hd hen hhalt hstep⟩
  case free =>
    exact ⟨freeChoice s, agentExists_agentNumbered _ _,
      (step_of_nil hturns).trans (step_of_run (a := freeChoice s) (s := freeTurn s) rfl).symm,
      (traced_withTurns (pendingWord_freeTurn hturns)).symm⟩
  case off =>
    refine ⟨fun hturns => ⟨(step_of_run hturns).trans (runAgent_of_disabled hoff), ?_⟩,
      fun hturns => ⟨(step_of_issue hturns).trans (issueWord_of_disabled hoff), ?_⟩⟩
    · exact traced_of_disabled rfl (fun b v => pendingWord_agent_of_run hturns) hoff
    · refine traced_of_disabled (pendingWord_of_issue hturns) (fun b v hbv => ?_) hoff
      cases hbv
      rfl
  case host => simp [State.traced, State.pendingWord, hturns]
  case ends =>
    have hagent : ∃ a r k, (∀ x ∈ r, ∃ a, x = Turn.run a) ∧ step s = runAgent a (s.withTurns r k) := by
      cases hturns : s.turns with
      | nil => exact ⟨_, [], _, fun x hx => absurd hx List.not_mem_nil, step_of_nil hturns⟩
      | cons x r =>
        obtain ⟨a, rfl⟩ := hin x (by simp [hturns])
        exact ⟨a, r, s.tick, fun x hx => hin x (by simp [hturns, hx]), step_of_run hturns⟩
    obtain ⟨a, r, k, hr, heq⟩ := hagent
    rw [heq] at hstep
    have hend' := runEnded_withTurns r k hend hr
    obtain rfl | rfl := runAgent_of_runEnded (s := s.withTurns r k) hT hend' hstep
    · exact ⟨rfl, hend', hr⟩
    · exact ⟨rfl, hend', hr⟩

end

section
/-! Who writes what: registers, flags and buffers that an operation leaves (10_state R57, 20_memory R88). -/

namespace Sys2Proof.Machine

variable {s t : State} {i : Instr}

/-! The workers. -/

/-- Worker `v` after `REL`: released, if there is such a worker (44 R241). -/
theorem wk_map_released (s : State) (v : Nat) :
    { s with workers := s.workers.map Worker.released }.wk v = if v < s.T then (s.wk v).released else s.wk v := by
  simp only [State.wk, List.getD_eq_getElem?_getD, List.getElem?_map]
  split
  · next h => simp [h]
  · next h => simp [List.getElem?_eq_none (Nat.le_of_not_lt h)]

/-- A worker after a change of one worker's registers that leaves what `f` reads. -/
theorem wk_setWk_keeps {β : Type} (f : Worker → β) (w v : Nat) {g : Worker → Worker} (hg : ∀ k, f (g k) = f k) :
    f ((s.setWk w g).wk v) = f (s.wk v) := by
  rw [wk_setWk]
  split
  · next h => rw [hg, h.1]
  · rfl

/-- A change of one worker's registers that leaves its flags leaves every flag. -/
theorem flag_setWk (w : Nat) {g : Worker → Worker}
    (hg : ∀ k, (g k).ws = k.ws ∧ (g k).wp = k.wp ∧ (g k).wf = k.wf ∧ (g k).wd = k.wd) (x : Barrier) :
    (s.setWk w g).flag x = s.flag x :=
  flag_congr (setWk_cs s w g) (setWk_ce s w g) (fun v => ⟨wk_setWk_keeps Worker.ws w v fun k => (hg k).1,
    wk_setWk_keeps Worker.wp w v fun k => (hg k).2.1, wk_setWk_keeps Worker.wf w v fun k => (hg k).2.2.1,
    wk_setWk_keeps Worker.wd w v fun k => (hg k).2.2.2⟩) x

/-- Of a worker's registers an operation that completes writes, the position apart, only those named here. -/
theorem wk_written_frame (s : State) (i : Instr) (v : Nat) : (written s i).wk v = { s.wk v with
    phAcc := ((written s i).wk v).phAcc, phSlot := ((written s i).wk v).phSlot, ws := ((written s i).wk v).ws
    wp := ((written s i).wk v).wp, wf := ((written s i).wk v).wf, wd := ((written s i).wk v).wd
    holds := ((written s i).wk v).holds, sawWf := ((written s i).wk v).sawWf, sawWp := ((written s i).wk v).sawWp
    nv := ((written s i).wk v).nv } := by
  cases i
  case cperr | phpub | dqpsk =>
    simp only [written, wk_setWk]
    split
    · next h => rw [h.1]
    · rfl
  case rel =>
    simp only [written, wk_map_released]
    split <;> rfl
  case sig x => rw [written, wk_leavePhase, wk_setFlag]
  case wait x =>
    rw [written, wk_enterPhase]
    split
    · rw [wk_setFlag]
    · rfl
  case bitrev b | bflyf b _ | bflyi b _ => cases b <;> rfl
  all_goals rfl

@[simp] theorem wk_written_pc (s : State) (i : Instr) (v : Nat) : ((written s i).wk v).pc = (s.wk v).pc := by
  rw [wk_written_frame]

@[simp] theorem wk_written_halted (s : State) (i : Instr) (v : Nat) : ((written s i).wk v).halted = (s.wk v).halted := by
  rw [wk_written_frame]

@[simp] theorem wk_written_divert (s : State) (i : Instr) (v : Nat) : ((written s i).wk v).divert = (s.wk v).divert := by
  rw [wk_written_frame]

@[simp] theorem flag_setHalted (s : State) (x : Barrier) : s.setHalted.flag x = s.flag x :=
  flag_congr (by unfold State.setHalted; split <;> rfl) (by unfold State.setHalted; split <;> rfl)
    (fun w => by rw [wk_setHalted]; exact ⟨rfl, rfl, rfl, rfl⟩) x

/-! What an operation that completes leaves of each register (10_state R57). -/

section
variable (s : State)

theorem written_nullStart (h1 : i ≠ .l1win) (h2 : i ≠ .ncap) : (written s i).nullStart = s.nullStart := by
  cases i <;> simp_all [written, prsCopied, apply_ite State.nullStart]

theorem written_nullEnd (h1 : i ≠ .l1win) (h2 : i ≠ .ncap) : (written s i).nullEnd = s.nullEnd := by
  cases i <;> simp_all [written, prsCopied, apply_ite State.nullEnd]

theorem written_isFound (h : i ≠ .fcupd) : (written s i).isFound = s.isFound := by
  cases i <;> simp_all [written, prsCopied, apply_ite State.isFound]

theorem written_sel (h : i ≠ .swap) : (written s i).sel = s.sel := by
  cases i <;> simp_all [written, prsCopied, apply_ite State.sel]

theorem written_fSnap (h : i ≠ .swap) : (written s i).fSnap = s.fSnap := by
  cases i <;> simp_all [written, prsCopied, apply_ite State.fSnap]

theorem written_framesRead (h : i ≠ .swap) : (written s i).framesRead = s.framesRead := by
  cases i <;> simp_all [written, prsCopied, apply_ite State.framesRead]

theorem written_fCoarse (h1 : i ≠ .fcupd) (h2 : i ≠ .fczero) : (written s i).fCoarse = s.fCoarse := by
  cases i <;> simp_all [written, prsCopied, apply_ite State.fCoarse]

theorem written_fFine (h1 : i ≠ .fcupd) (h2 : i ≠ .ffupd) : (written s i).fFine = s.fFine := by
  cases i <;> simp_all [written, prsCopied, apply_ite State.fFine]

theorem written_fineTimeOffset (h : i ≠ .ftchk) : (written s i).fineTimeOffset = s.fineTimeOffset := by
  cases i <;> simp_all [written, prsCopied, apply_ite State.fineTimeOffset]

theorem written_psiAvg (h : i ≠ .phavg) : (written s i).psiAvg = s.psiAvg := by
  cases i <;> simp_all [written, prsCopied, apply_ite State.psiAvg]

theorem written_peakOff (h : i ≠ .peakc) : (written s i).peakOff = s.peakOff := by
  cases i <;> simp_all [written, prsCopied, apply_ite State.peakOff]

theorem written_impK (h : i ≠ .peakw) : (written s i).impK = s.impK := by
  cases i <;> simp_all [written, prsCopied, apply_ite State.impK]

theorem written_impW (h : i ≠ .peakw) : (written s i).impW = s.impW := by
  cases i <;> simp_all [written, prsCopied, apply_ite State.impW]

theorem written_impMu (h : i ≠ .peakw) : (written s i).impMu = s.impMu := by
  cases i <;> simp_all [written, prsCopied, apply_ite State.impMu]

theorem written_l1Avg (h : i ≠ .l1win) : (written s i).l1Avg = s.l1Avg := by
  cases i <;> simp_all [written, prsCopied, apply_ite State.l1Avg]

theorem written_l1Last (h : i ≠ .l1win) : (written s i).l1Last = s.l1Last := by
  cases i <;> simp_all [written, prsCopied, apply_ite State.l1Last]

theorem written_l1Acc (h1 : i ≠ .nsamp) (h2 : i ≠ .l1win) : (written s i).l1Acc = s.l1Acc := by
  cases i <;> simp_all [written, prsCopied, apply_ite State.l1Acc]

theorem written_l1Cnt (h1 : i ≠ .nsamp) (h2 : i ≠ .l1win) : (written s i).l1Cnt = s.l1Cnt := by
  cases i <;> simp_all [written, prsCopied, apply_ite State.l1Cnt]

theorem written_l1Win (h : i ≠ .l1win) : (written s i).l1Win = s.l1Win := by
  cases i <;> simp_all [written, prsCopied, apply_ite State.l1Win]

theorem written_circWr (h : i ≠ .nsamp) : (written s i).circWr = s.circWr := by
  cases i <;> simp_all [written, prsCopied, apply_ite State.circWr]

theorem written_corrLen (h1 : i ≠ .ncap) (h2 : i ≠ .capp) (h3 : i ≠ .nullcp) : (written s i).corrLen = s.corrLen := by
  cases i <;> simp_all [written, prsCopied, apply_ite State.corrLen]

theorem written_ingLen (h1 : i ≠ .prscp) (h2 : i ≠ .iapp) (h3 : i ≠ .swap) : (written s i).ingLen = s.ingLen := by
  cases i <;> simp_all [written, apply_ite State.ingLen]

theorem written_samples (h1 : i ≠ .nsamp) (h2 : i ≠ .capp) (h3 : i ≠ .iapp) : (written s i).samples = s.samples := by
  cases i <;> simp_all [written, prsCopied, apply_ite State.samples]

theorem wk_written_phAcc (h1 : ∀ n, i ≠ .cperr n) (h2 : i ≠ .phpub) (v : Nat) :
    ((written s i).wk v).phAcc = (s.wk v).phAcc := by
  cases i
  case cperr n => exact absurd rfl (h1 n)
  case phpub => exact absurd rfl h2
  case dqpsk => exact wk_setWk_keeps Worker.phAcc _ _ fun _ => rfl
  case rel => rw [written, wk_map_released]; split <;> rfl
  case sig x => rw [written, wk_leavePhase, wk_setFlag]
  case wait x => rw [written, wk_enterPhase]; split <;> [rw [wk_setFlag]; rfl]
  case bitrev b | bflyf b _ | bflyi b _ => cases b <;> rfl
  all_goals rfl

theorem wk_written_phSlot (h : i ≠ .phpub) (v : Nat) : ((written s i).wk v).phSlot = (s.wk v).phSlot := by
  cases i
  case phpub => exact absurd rfl h
  case dqpsk | cperr => exact wk_setWk_keeps Worker.phSlot _ _ fun _ => rfl
  case rel => rw [written, wk_map_released]; split <;> rfl
  case sig x => rw [written, wk_leavePhase, wk_setFlag]
  case wait x => rw [written, wk_enterPhase]; split <;> [rw [wk_setFlag]; rfl]
  case bitrev b | bflyf b _ | bflyi b _ => cases b <;> rfl
  all_goals rfl

theorem flag_written (h1 : ∀ x, i ≠ .sig x) (h2 : ∀ x, i ≠ .wait x) (h3 : i ≠ .rel) (x : Barrier) :
    (written s i).flag x = s.flag x := by
  cases i
  case sig x => exact absurd rfl (h1 x)
  case wait x => exact absurd rfl (h2 x)
  case rel => exact absurd rfl h3
  case cperr | phpub | dqpsk =>
    rw [written, flag_setWk]
    exact fun _ => ⟨rfl, rfl, rfl, rfl⟩
  case bitrev b | bflyf b _ | bflyi b _ => cases b <;> cases x <;> rfl
  all_goals cases x <;> rfl

end

/-- What no way of ending an operation but writing and handling Desync changes. -/
theorem keeps_of_ends {β : Type} (f : State → β) (h : Ends s i t) (hwritten : f (written s i) = f s)
    (hdesync : i = .desync → f s.handleDesync = f s)
    (hadvance : f (written s i).advance = f (written s i) := by simp)
    (hstopped : f s.setStopped = f s := by simp)
    (hhalted : f s.setHalted = f s := by simp)
    (harmed : f { s with frameValid := true, emitArmed := true } = f s := by rfl)
    (hraised : f s.raiseDesync = f s := by rfl)
    (hadv : ∀ a : AcqState, f { s with acqState := a, acqSub := 0, impPrev := none } = f s := by intro a; rfl) :
    f t = f s := by
  cases h with
  | completed => rw [hadvance, hwritten]
  | stopped => exact hstopped
  | blocked => rfl
  | armed => exact harmed
  | raised => exact hraised
  | handled => exact hdesync rfl
  | advanced a => exact hadv a
  | halted => exact hhalted

end Sys2Proof.Machine

open Sys2Proof Sys2Proof.Machine

/-- Settles O46: each register through the ways an operation can end. -/
theorem writersOfRegisters : Obligations.WritersOfRegisters := by
  intro i s t h
  have he := ends_of_exec_next h
  refine ⟨keeps_of_ends State.en he (by simp) fun _ => rfl, keeps_of_ends State.stop he (by simp) fun _ => rfl,
    keeps_of_ends State.cfg he (by simp) fun _ => rfl, keeps_of_ends State.modes he (by simp) fun _ => rfl,
    keeps_of_ends State.impIndex he (by simp) fun _ => rfl, keeps_of_ends State.T he (by simp) fun _ => rfl,
    fun h1 h2 hd => ⟨keeps_of_ends State.nullStart he (written_nullStart s h1 h2) (absurd · hd),
      keeps_of_ends State.nullEnd he (written_nullEnd s h1 h2) (absurd · hd)⟩,
    fun h1 hd => keeps_of_ends State.isFound he (written_isFound s h1) (absurd · hd),
    fun h1 => ⟨keeps_of_ends State.sel he (written_sel s h1) fun _ => rfl,
      keeps_of_ends State.fSnap he (written_fSnap s h1) fun _ => rfl,
      keeps_of_ends State.framesRead he (written_framesRead s h1) fun _ => rfl⟩, fun hemit => ?frameValid,
    fun hd => keeps_of_ends State.framesDesync he (by simp) (absurd · hd), fun ha hd => ?acqState,
    fun h1 h2 => keeps_of_ends State.fCoarse he (written_fCoarse s h1 h2) fun _ => rfl,
    fun h1 h2 hd => keeps_of_ends State.fFine he (written_fFine s h1 h2) (absurd · hd),
    fun h1 hd => keeps_of_ends State.fineTimeOffset he (written_fineTimeOffset s h1) (absurd · hd),
    fun h1 => keeps_of_ends State.psiAvg he (written_psiAvg s h1) fun _ => rfl,
    fun h1 => keeps_of_ends State.peakOff he (written_peakOff s h1) fun _ => rfl,
    fun h1 => ⟨keeps_of_ends State.impK he (written_impK s h1) fun _ => rfl,
      keeps_of_ends State.impW he (written_impW s h1) fun _ => rfl,
      keeps_of_ends State.impMu he (written_impMu s h1) fun _ => rfl⟩,
    fun h1 => ⟨keeps_of_ends State.l1Avg he (written_l1Avg s h1) fun _ => rfl,
      keeps_of_ends State.l1Last he (written_l1Last s h1) fun _ => rfl⟩,
    fun h1 h2 hd => ⟨keeps_of_ends State.l1Acc he (written_l1Acc s h1 h2) (absurd · hd),
      keeps_of_ends State.l1Cnt he (written_l1Cnt s h1 h2) (absurd · hd)⟩,
    fun h1 hd => keeps_of_ends State.l1Win he (written_l1Win s h1) (absurd · hd),
    fun h1 => keeps_of_ends State.circWr he (written_circWr s h1) fun _ => rfl,
    fun h1 h2 h3 hd => keeps_of_ends State.corrLen he (written_corrLen s h1 h2 h3) (absurd · hd),
    fun h1 h2 h3 => keeps_of_ends State.ingLen he (written_ingLen s h1 h2 h3) fun _ => rfl,
    fun h1 h2 w => ?phAcc, fun h1 w => ?phSlot, fun h1 h2 h3 x => ?flags, fun hh a => exec_leaves_isHalted h hh a⟩
  case frameValid =>
    cases he with
    | armed => exact absurd rfl hemit
    | handled | advanced | blocked | raised => rfl
    | completed | stopped | halted => simp
  case acqState =>
    cases he with
    | advanced a => exact absurd rfl (ha a)
    | handled => exact absurd rfl hd
    | armed | blocked | raised => rfl
    | completed | stopped | halted => simp
  case phAcc =>
    exact keeps_of_ends (fun s => (s.wk w).phAcc) he (wk_written_phAcc s h1 h2 w) (fun _ => rfl)
      (hadvance := by rw [wk_advance_pc]) (hstopped := by rw [wk_setStopped])
      (hhalted := by rw [wk_setHalted])
  case phSlot =>
    exact keeps_of_ends (fun s => (s.wk w).phSlot) he (wk_written_phSlot s h1 w) (fun _ => rfl)
      (hadvance := by rw [wk_advance_pc]) (hstopped := by rw [wk_setStopped])
      (hhalted := by rw [wk_setHalted])
  case flags =>
    exact keeps_of_ends (fun s => s.flag x) he (flag_written s h1 h2 h3 x) (fun _ => by cases x <;> rfl)
      (harmed := by cases x <;> rfl) (hraised := by cases x <;> rfl) (hadv := fun a => by cases x <;> rfl)

/-- Settles O45: a blocking operation that passes the checks under `stop` ends as `State.setStopped`. -/
theorem stopTurnsBlockingIntoHalt : Obligations.StopTurnsBlockingIntoHalt := by
  intro i s hb hs hc
  refine ⟨_, exec_of_stop hc hb hs, next_of_setStopped (issueCheck_none.mp hc).1, ?_, setStopped_T s, wk_setStopped s⟩
  unfold State.setStopped
  split <;> rfl

/-- Settles O29: of the ways an operation can end only the completion of a sample operation takes a sample. -/
theorem samplesAreTakenOnce : Obligations.SamplesAreTakenOnce := by
  refine ⟨fun i s t h => ?taken, fun s d => ⟨Cplx.ofBits d, fun b => ?re, fun b => ?im, rfl⟩⟩
  case taken =>
    have he := ends_of_exec_next h
    by_cases hi : i = .nsamp ∨ i = .capp ∨ i = .iapp
    · cases he with
      | completed hc =>
        obtain rfl | rfl | rfl := hi
        all_goals
          obtain ⟨hs, hq, -⟩ := hc
          obtain ⟨x, rest, hq⟩ := List.exists_cons_of_ne_nil hq
          exact .inr ⟨by simp, hs, x, by simp [written, hq]⟩
      | stopped => exact .inl (by simp)
      | blocked => exact .inl rfl
      | armed | raised | handled | advanced | halted => simp at hi
    · simp only [not_or] at hi
      exact .inl (keeps_of_ends State.samples he (written_samples s hi.1 hi.2.1 hi.2.2) fun _ => rfl)
  case re => simp [Cplx.ofBits, BitVec.getLsbD_extractLsb']
  case im => simp [Cplx.ofBits, BitVec.getLsbD_extractLsb', Nat.add_comm]

/-- Settles O8: an operation that only advances completes, and the position moved is that of the state it has written. -/
theorem positionsAdvanceByOne : Obligations.PositionsAdvanceByOne := by
  intro i s t h hplain
  have hcheck := check_of_exec_next h
  cases ends_of_exec_next h with
  | armed | raised | handled | advanced | halted => cases hplain
  | stopped hb => cases i <;> simp_all [isPlain, isBlocking]
  | blocked hb => cases i <;> simp_all [isPlain, isBlocking, isBlockedAt]
  | completed _ =>
    refine ⟨fun hc h1 h2 h3 => ?ingest, fun hc => ?coord, fun w hc => ?worker, fun hc => by simp [hc],
      fun hc => by simp [hc], fun w hc => by simp [wk_advance, hc], by simp⟩
    case ingest =>
      rw [advance_acqSub, if_pos (by simp [hc]), nextSub_eq_succ _ (by simp [h1, h2, h3]), written_acqSub]
    case coord => simp [hc, nextCoPc]
    case worker =>
      have hw : w < s.T := by simpa [agentExists, hc] using (issueCheck_none.mp hcheck).1
      simp [wk_advance, hc, hw, nextWkPc]

end

section
/-! What the agents of each kind may change (20_memory R88). -/

namespace Sys2Proof.Machine

variable {s t : State} {i : Instr}

/-! The coordinator: no buffer, and of the workers only flags and what has been seen of them. -/

/-- The state with what the coordinator may change blanked out. -/
def exceptCoord (s : State) : State :=
  { s with coPc := 0, coDivert := .none, coHalted := false, psiAvg := Fp.zero, fFine := Fp.zero, frameValid := false
           emitArmed := false, cs := false, ce := false, workers := [] }

/-- A worker with what the coordinator may change blanked out. -/
def Worker.exceptFlags (k : Worker) : Worker :=
  { k with ws := false, wp := false, wf := false, wd := false, sawWf := false, sawWp := false }

theorem exceptCoord_written (he : entitled .coord i = true) : exceptCoord (written s i) = exceptCoord s := by
  cases i
  case rel | phavg | ffupd | emit | halt => rfl
  case sig x | wait x => cases x <;> rfl
  all_goals cases he

theorem exceptFlags_setWk {w v : Nat} {g : Worker → Worker} (hg : ∀ k, (g k).exceptFlags = k.exceptFlags) :
    ((s.setWk w g).wk v).exceptFlags = (s.wk v).exceptFlags := wk_setWk_keeps Worker.exceptFlags w v hg

theorem exceptFlags_written (he : entitled .coord i = true) (v : Nat) :
    ((written s i).wk v).exceptFlags = (s.wk v).exceptFlags := by
  cases i
  case rel =>
    rw [written, wk_map_released]
    split <;> rfl
  case phavg | ffupd | emit | halt => rfl
  case sig x =>
    cases x with
    | ce => rfl
    | ws w => exact exceptFlags_setWk fun _ => rfl
    | cs | wp _ | wf _ | wd _ => simp [entitled, maySignal, isIngest] at he
  case wait x =>
    cases x with
    | cs | wd w => rfl
    | wp w => exact exceptFlags_setWk fun _ => rfl
    | ce | ws _ | wf _ => simp [entitled, mayWait, isIngest] at he
  all_goals cases he

/-- An operation of the coordinator changes only what is the coordinator's, and of the workers flags. -/
theorem coord_changes (hc : s.cur = .coord) (he : entitled .coord i = true) (h : Ends s i t) :
    exceptCoord t = exceptCoord s ∧ ∀ v, (t.wk v).exceptFlags = (s.wk v).exceptFlags := by
  have hadv : ∀ u : State, u.cur = .coord → u.advance = { u with coPc := nextCoPc u } := fun _ => advance_coord
  have hstop : s.setStopped = { s with coDivert := .stopped } := by simp [State.setStopped, hc]
  have hhalt : s.setHalted = { s with coHalted := true } := by simp [State.setHalted, hc]
  have hdesync : i ≠ .desync := by rintro rfl; cases he
  refine ⟨?state, fun v => ?worker⟩
  case state =>
    cases h with
    | completed =>
      rw [hadv _ (by simp [hc])]
      exact exceptCoord_written he
    | stopped => rw [hstop]; rfl
    | halted => rw [hhalt]; rfl
    | handled | raised | advanced => cases he
    | blocked | armed => rfl
  case worker =>
    cases h with
    | completed =>
      rw [hadv _ (by simp [hc])]
      exact exceptFlags_written he v
    | stopped => rw [hstop]; rfl
    | halted => rw [hhalt]; rfl
    | handled | raised | advanced => cases he
    | blocked | armed => rfl

/-! A worker: its own slots and its own registers. -/

theorem sameOthers.trans {u : State} {w : Nat} (h : sameOthers s t w) (h' : sameOthers t u w) : sameOthers s u w :=
  ⟨h'.1.trans h.1, fun v hv => (h'.2 v hv).trans (h.2 v hv)⟩

/-- The state with what a worker may change blanked out. -/
def exceptWorker (s : State) : State := { s with ing0 := [], ing1 := [], zf := [], out := [], workers := [] }

/-- What stays outside the slots of worker `w` (20_memory R88). -/
def outsideKept (s t : State) (w : Nat) : Prop :=
  t.inact = s.inact
    ∧ (∀ n, n < startOf s.par s.T w * s.par.S ∨ endOf s.par s.T w * s.par.S ≤ n → t.act.rd n = s.act.rd n)
    ∧ (∀ j, j < startOf s.par s.T w ∨ endOf s.par s.T w ≤ j → t.zf.rd j = s.zf.rd j)
    ∧ ∀ a, a < startOf s.par s.T w * (2 * s.par.C) ∨ endOf s.par s.T w * (2 * s.par.C) ≤ a ∨ s.par.outLen ≤ a →
      t.out.rd a = s.out.rd a

theorem outsideKept_refl (s : State) (w : Nat) : outsideKept s s w :=
  ⟨rfl, fun _ _ => rfl, fun _ _ => rfl, fun _ _ => rfl⟩

theorem outsideKept_zf {w n : Nat} (m : Mem Cplx) (hn : startOf s.par s.T w ≤ n ∧ n < endOf s.par s.T w) :
    outsideKept s { s with zf := s.zf.put n m } w := by
  refine ⟨rfl, fun _ _ => rfl, fun j hj => ?_, fun _ _ => rfl⟩
  rw [Mem.rd_put, if_neg (by omega)]

/-- A range of `S` elements of an own slot of `ACT` (43 R212). -/
theorem outsideKept_act {w n : Nat} (f : Nat → Cplx) (hn : startOf s.par s.T w ≤ n ∧ n < endOf s.par s.T w) :
    outsideKept s (s.setAct (s.act.fill (n * s.par.S) s.par.S f)) w := by
  refine ⟨inact_setAct s _, fun k hk => ?_, fun _ _ => rfl, fun _ _ => rfl⟩
  have hlow : startOf s.par s.T w * s.par.S ≤ n * s.par.S := Nat.mul_le_mul_right _ hn.1
  have hhigh : (n + 1) * s.par.S ≤ endOf s.par s.T w * s.par.S := Nat.mul_le_mul_right _ hn.2
  rw [Nat.succ_mul] at hhigh
  rw [act_setAct, Mem.rd_fill, if_neg (by omega)]

/-- The soft bits of an own pair (43 R218). -/
theorem outsideKept_out {w n : Nat} (f : Nat → Soft) (hn : startOf s.par s.T w ≤ n ∧ n < endOf s.par s.T w)
    (hF : n + 2 ≤ s.par.F) :
    outsideKept s { s with out := s.out.fill (n * (2 * s.par.C)) (2 * s.par.C) f } w := by
  refine ⟨rfl, fun _ _ => rfl, fun _ _ => rfl, fun a ha => ?_⟩
  have hlow : startOf s.par s.T w * (2 * s.par.C) ≤ n * (2 * s.par.C) := Nat.mul_le_mul_right _ hn.1
  have hhigh : (n + 1) * (2 * s.par.C) ≤ endOf s.par s.T w * (2 * s.par.C) := Nat.mul_le_mul_right _ hn.2
  have hlen : (n + 1) * (2 * s.par.C) ≤ s.par.outLen := Nat.mul_le_mul_right _ (by omega)
  rw [Nat.succ_mul] at hhigh hlen
  show (s.out.fill _ _ f).rd a = _
  rw [Mem.rd_fill, if_neg (by omega)]

theorem sameOthers_setWk {w : Nat} (g : Worker → Worker) : sameOthers s (s.setWk w g) w :=
  ⟨by simp, fun v hv => by rw [wk_setWk, if_neg (fun h => hv h.1)]⟩

theorem ownsSlot_worker {p : Params} {T w n : Nat} :
    ownsSlot p T (.worker w) n = true ↔ startOf p T w ≤ n ∧ n < endOf p T w := by
  simp [ownsSlot]

/-- What worker `w` writes: nothing outside its slots and registers. -/
theorem worker_writes {w : Nat} (hc : s.cur = .worker w) (hcheck : issueCheck s i = none) :
    exceptWorker (written s i) = exceptWorker s ∧ sameOthers s (written s i) w ∧ outsideKept s (written s i) w := by
  have hw : s.curW = w := by simp [State.curW, hc]
  obtain ⟨-, hlegal, he, ho, -⟩ := issueCheck_none.mp hcheck
  rw [hc] at he ho
  cases i
  case bitrev b | bflyf b _ =>
    cases b with
    | sa => cases ho
    | zf n => exact ⟨rfl, ⟨rfl, fun _ _ => rfl⟩, outsideKept_zf _ (ownsSlot_worker.mp ho)⟩
  case ldsym n => exact ⟨rfl, ⟨rfl, fun _ _ => rfl⟩, outsideKept_zf _ (ownsSlot_worker.mp ho)⟩
  case derot n => exact ⟨rfl, ⟨rfl, fun _ _ => rfl⟩, outsideKept_act _ (ownsSlot_worker.mp ho)⟩
  case soft n =>
    exact ⟨rfl, ⟨rfl, fun _ _ => rfl⟩, outsideKept_out _ (ownsSlot_worker.mp ho) (of_decide_eq_true hlegal)⟩
  case cperr | phpub | dqpsk => exact ⟨rfl, hw ▸ sameOthers_setWk _, outsideKept_refl s w⟩
  case halt => exact ⟨rfl, ⟨rfl, fun _ _ => rfl⟩, outsideKept_refl s w⟩
  case sig x =>
    cases x with
    | cs | ce | ws v => cases he
    | wp v | wf v =>
      obtain rfl : w = v := Agent.worker.inj (of_decide_eq_true he)
      exact ⟨rfl, sameOthers_setWk _, outsideKept_refl s w⟩
    | wd v =>
      obtain rfl : w = v := Agent.worker.inj (of_decide_eq_true he)
      exact ⟨rfl, (sameOthers_setWk _).trans (sameOthers_setWk _), outsideKept_refl s w⟩
  case wait x =>
    cases x with
    | cs | ce | wp v | wd v => cases he
    | ws v =>
      obtain rfl : w = v := Agent.worker.inj (of_decide_eq_true he)
      exact ⟨rfl, (sameOthers_setWk _).trans (sameOthers_setWk _), outsideKept_refl s w⟩
    | wf v =>
      obtain rfl : w = v - 1 := Agent.worker.inj (of_decide_eq_true he).2
      exact ⟨rfl, sameOthers_setWk _, outsideKept_refl s _⟩
  all_goals cases he

/-- An operation of worker `w` changes only what is its own. -/
theorem worker_changes {w : Nat} (hc : s.cur = .worker w) (hcheck : issueCheck s i = none) (h : Ends s i t) :
    exceptWorker t = exceptWorker s ∧ sameOthers s t w ∧ outsideKept s t w := by
  have hself : exceptWorker s = exceptWorker s ∧ sameOthers s s w ∧ outsideKept s s w :=
    ⟨rfl, ⟨rfl, fun _ _ => rfl⟩, outsideKept_refl s w⟩
  have he := (issueCheck_none.mp hcheck).2.2.1
  rw [hc] at he
  cases h with
  | completed =>
    obtain ⟨hstate, hothers, hout⟩ := worker_writes hc hcheck
    rw [advance_worker (by simp [hc] : (written s i).cur = .worker w)]
    exact ⟨hstate, hothers.trans (sameOthers_setWk _), hout⟩
  | stopped =>
    simp only [State.setStopped, hc]
    exact ⟨rfl, sameOthers_setWk _, outsideKept_refl s w⟩
  | halted =>
    simp only [State.setHalted, hc]
    exact ⟨rfl, sameOthers_setWk _, outsideKept_refl s w⟩
  | blocked => exact hself
  | armed | raised | handled | advanced => cases he

/-! The ingest agent: nothing of the workers, and the active buffer only by the exchange. -/

/-- What the ingest agent leaves (20_memory R88). -/
def pipelineSide (s : State) : List Worker × Mem (Mem Cplx) × Mem Soft × NUM × Nat :=
  (s.workers, s.zf, s.out, s.psiAvg, s.coPc)

theorem ingest_writes (he : entitled .ingest i = true) (ho : owned s.par s.T .ingest i = true) :
    pipelineSide (written s i) = pipelineSide s ∧ (i ≠ .swap → (written s i).act = s.act) := by
  cases i
  case bitrev b | bflyf b _ | bflyi b _ =>
    cases b with
    | sa => exact ⟨rfl, fun _ => rfl⟩
    | zf => cases ho
  case sig x | wait x =>
    cases x with
    | cs | ce => exact ⟨rfl, fun _ => rfl⟩
    | ws _ | wp _ | wf _ | wd _ => simp [entitled, maySignal, mayWait, isCoord] at he
  case swap => exact ⟨rfl, fun h => absurd rfl h⟩
  case prscp | iapp => exact ⟨rfl, fun _ => act_setInact s _⟩
  case derot | cperr | phpub | ldsym | dqpsk | soft | rel | phavg | ffupd | emit => cases he
  all_goals exact ⟨rfl, fun _ => rfl⟩

/-- An operation of the ingest agent leaves the pipeline's side, and the active buffer but for `SWAP`. -/
theorem ingest_changes (hc : s.cur = .ingest) (hcheck : issueCheck s i = none) (h : Ends s i t) :
    pipelineSide t = pipelineSide s ∧ (i ≠ .swap → t.act = s.act) := by
  obtain ⟨-, -, he, ho, -⟩ := issueCheck_none.mp hcheck
  rw [hc] at he ho
  cases h with
  | completed =>
    rw [advance_ingest (by simp [hc] : (written s i).cur = .ingest)]
    exact ingest_writes he ho
  | stopped =>
    simp only [State.setStopped, hc]
    exact ⟨rfl, fun _ => rfl⟩
  | halted =>
    simp only [State.setHalted, hc]
    exact ⟨rfl, fun _ => rfl⟩
  | blocked | raised | handled | advanced => exact ⟨rfl, fun _ => rfl⟩
  | armed => cases he

/-- `SWAP` exchanges the two ingest buffers (45 R263). -/
theorem swap_exchanges (h : Ends s .swap t) : t.act = s.inact ∧ t.inact = s.act := by
  cases h with
  | completed =>
    cases hsel : s.sel <;> simp [State.act, State.inact, written, hsel]
  | stopped hb => cases hb
  | blocked hb => exact hb.elim

end Sys2Proof.Machine

open Sys2Proof Sys2Proof.Machine

/-- Settles O47: what each kind of agent writes is blanked out of both states, which then agree. -/
theorem agentsChangeOnlyTheirOwn : Obligations.AgentsChangeOnlyTheirOwn := by
  intro i s t h
  have hcheck := check_of_exec_next h
  have he := ends_of_exec_next h
  refine ⟨fun w hc => ?worker, fun hc => ?ingest, fun hc => ?coord⟩
  case worker =>
    obtain ⟨hstate, hothers, hinact, hact, hzf, hout⟩ := worker_changes hc hcheck he
    exact ⟨congrArg (fun u : State => { u with
      ing0 := t.ing0, ing1 := t.ing1, zf := t.zf, out := t.out, workers := t.workers }) hstate,
      hothers, hinact, hact, hzf, hout⟩
  case ingest =>
    obtain ⟨hside, hact⟩ := ingest_changes hc hcheck he
    simp only [pipelineSide, Prod.mk.injEq] at hside
    obtain ⟨hwk, hzf, hout, hpsi, hpc⟩ := hside
    exact ⟨hwk, hzf, hout, hpsi, hpc, hact, fun e => swap_exchanges (e ▸ he)⟩
  case coord =>
    have hen := (issueCheck_none.mp hcheck).2.2.1
    rw [hc] at hen
    obtain ⟨hstate, hwk⟩ := coord_changes hc hen he
    refine ⟨congrArg (fun u : State => { u with
      coPc := t.coPc, coDivert := t.coDivert, coHalted := t.coHalted, psiAvg := t.psiAvg, fFine := t.fFine
      frameValid := t.frameValid, emitArmed := t.emitArmed, cs := t.cs, ce := t.ce, workers := t.workers }) hstate,
      fun v _ => congrArg (fun k : Worker => { k with
        ws := (t.wk v).ws, wp := (t.wk v).wp, wf := (t.wk v).wf, wd := (t.wk v).wd
        sawWf := (t.wk v).sawWf, sawWp := (t.wk v).sawWp }) (hwk v)⟩

end

section
/-! The canonical form of the buffers is kept by every step (20_memory R97; log entry 23). -/

namespace Sys2Proof.Machine

variable {s t : State} {i : Instr}

/-! The named writes. -/

theorem Memory.wf_setWk (h : Memory.wf s) (w : Nat) {g : Worker → Worker} (hg : ∀ k, k.nv.wf → (g k).nv.wf) :
    Memory.wf (s.setWk w g) := by
  obtain ⟨hcirc, hcorr, h0, h1, hsa, hspec, himp, hout, hzf, hrow, hnv, hprev⟩ := h
  refine ⟨hcirc, hcorr, h0, h1, hsa, hspec, himp, hout, hzf, hrow, fun k hk => ?_, hprev⟩
  rw [setWk_workers, List.mem_iff_getElem?] at hk
  obtain ⟨v, hv⟩ := hk
  rw [List.getElem?_modify] at hv
  obtain ⟨k', hk', rfl⟩ := Option.map_eq_some_iff.mp hv
  have hwf := hnv k' (List.mem_of_getElem? hk')
  split
  · exact hg k' hwf
  · exact hwf

/-- A write of fields that are no buffers. -/
theorem Memory.wf_setFlag (h : Memory.wf s) (x : Barrier) (v : Bool) : Memory.wf (s.setFlag x v) := by
  cases x with
  | cs | ce => exact h
  | ws _ | wp _ | wf _ | wd _ => exact Memory.wf_setWk h _ fun _ hk => hk

theorem Memory.wf_leavePhase (h : Memory.wf s) (x : Barrier) : Memory.wf (s.leavePhase x) := by
  cases x with
  | wd _ => exact Memory.wf_setWk h _ fun _ hk => hk
  | cs | ce | ws _ | wp _ | wf _ => exact h

theorem Memory.wf_enterPhase (h : Memory.wf s) (x : Barrier) : Memory.wf (s.enterPhase x) := by
  cases x with
  | ws _ | wp _ | wf _ => exact Memory.wf_setWk h _ fun _ hk => hk
  | cs | ce | wd _ => exact h

theorem Memory.wf_advance (h : Memory.wf s) : Memory.wf s.advance := by
  cases hc : s.cur with
  | ingest => rw [advance_ingest hc]; exact h
  | coord => rw [advance_coord hc]; exact h
  | worker w => rw [advance_worker hc]; exact Memory.wf_setWk h w fun _ hk => hk

theorem Memory.wf_setStopped (h : Memory.wf s) : Memory.wf s.setStopped := by
  unfold State.setStopped
  split
  · exact h
  · exact h
  · exact Memory.wf_setWk h _ fun _ hk => hk

theorem Memory.wf_setHalted (h : Memory.wf s) : Memory.wf s.setHalted := by
  unfold State.setHalted
  split
  · exact h
  · exact h
  · exact Memory.wf_setWk h _ fun _ hk => hk

/-- A row of `ZF` is canonical, the unlisted one too. -/
theorem Memory.wf_zf_rd (h : Memory.wf s) (n : Nat) : (s.zf.rd n).wf := by
  obtain ⟨-, -, -, -, -, -, -, -, -, hrow, -⟩ := h
  obtain hd | hm := Mem.rd_mem s.zf n
  · rw [hd]
    exact Mem.wf_nil
  · exact hrow _ hm

/-- A transform buffer written (20_memory R97). -/
theorem Memory.wf_mapXbuf (h : Memory.wf s) (b : XBuf) (f : Nat → Cplx) : Memory.wf (s.mapXbuf b f) := by
  have hrd := Memory.wf_zf_rd h
  obtain ⟨hcirc, hcorr, h0, h1, hsa, hspec, himp, hout, hzf, hrow, hnv, hprev⟩ := h
  cases b with
  | sa => exact ⟨hcirc, hcorr, h0, h1, Mem.fill_wf hsa _ _ _, hspec, himp, hout, hzf, hrow, hnv, hprev⟩
  | zf n =>
    refine ⟨hcirc, hcorr, h0, h1, hsa, hspec, himp, hout, Mem.put_wf hzf _ _, fun r hr => ?_, hnv, hprev⟩
    obtain hold | ⟨j, -, rfl⟩ := Mem.mem_fill hr
    · exact hrow r hold
    · exact Mem.fill_wf (hrd n) _ _ _

theorem Memory.wf_act (h : Memory.wf s) : s.act.wf := by
  obtain ⟨-, -, h0, h1, -⟩ := h
  unfold State.act
  split <;> assumption

theorem Memory.wf_inact (h : Memory.wf s) : s.inact.wf := by
  obtain ⟨-, -, h0, h1, -⟩ := h
  unfold State.inact
  split <;> assumption

/-- An ingest buffer written. -/
theorem Memory.wf_setAct (h : Memory.wf s) {m : Mem Cplx} (hm : m.wf) : Memory.wf (s.setAct m) := by
  obtain ⟨hcirc, hcorr, h0, h1, hrest⟩ := h
  refine ⟨hcirc, hcorr, ?_, ?_, hrest⟩
  · rw [setAct_ing0]; split <;> assumption
  · rw [setAct_ing1]; split <;> assumption

theorem Memory.wf_setInact (h : Memory.wf s) {m : Mem Cplx} (hm : m.wf) : Memory.wf (s.setInact m) := by
  obtain ⟨hcirc, hcorr, h0, h1, hrest⟩ := h
  refine ⟨hcirc, hcorr, ?_, ?_, hrest⟩
  · rw [setInact_ing0]; split <;> assumption
  · rw [setInact_ing1]; split <;> assumption

/-- What an operation writes is canonical: every buffer is written by a range write. -/
theorem Memory.wf_written (h : Memory.wf s) (i : Instr) : Memory.wf (written s i) := by
  have hact := Memory.wf_act h
  have hinact := Memory.wf_inact h
  have hall := h
  obtain ⟨hcirc, hcorr, h0, h1, hsa, hspec, himp, hout, hzf, hrow, hnv, hprev⟩ := h
  cases i
  case bitrev | bflyf | bflyi | delta | cmul | pllp | ldprs | ldsym => exact Memory.wf_mapXbuf hall _ _
  case mag => exact ⟨hcirc, hcorr, h0, h1, hsa, Mem.fill_wf hspec _ _ _, himp, hout, hzf, hrow, hnv, hprev⟩
  case lmag =>
    refine ⟨hcirc, hcorr, h0, h1, hsa, hspec, Mem.fill_wf himp _ _ _, hout, hzf, hrow, hnv, fun m hm => ?_⟩
    obtain rfl : m = s.imp := by simpa [written] using hm
    exact himp
  case nsamp => exact ⟨Mem.put_wf hcirc _ _, hcorr, h0, h1, hsa, hspec, himp, hout, hzf, hrow, hnv, hprev⟩
  case ncap | nullcp => exact ⟨hcirc, Mem.fill_wf hcorr _ _ _, h0, h1, hsa, hspec, himp, hout, hzf, hrow, hnv, hprev⟩
  case capp => exact ⟨hcirc, Mem.put_wf hcorr _ _, h0, h1, hsa, hspec, himp, hout, hzf, hrow, hnv, hprev⟩
  case prscp => exact Memory.wf_setInact hall (Mem.fill_wf hinact _ _ _)
  case iapp => exact Memory.wf_setInact hall (Mem.put_wf hinact _ _)
  case derot => exact Memory.wf_setAct hall (Mem.fill_wf hact _ _ _)
  case cperr | phpub => exact Memory.wf_setWk hall _ fun _ hk => hk
  case dqpsk => exact Memory.wf_setWk hall _ fun _ hk => Mem.fill_wf hk _ _ _
  case soft => exact ⟨hcirc, hcorr, h0, h1, hsa, hspec, himp, Mem.fill_wf hout _ _ _, hzf, hrow, hnv, hprev⟩
  case rel =>
    refine ⟨hcirc, hcorr, h0, h1, hsa, hspec, himp, hout, hzf, hrow, fun k hk => ?_, hprev⟩
    obtain ⟨k', hk', rfl⟩ := List.mem_map.mp hk
    exact hnv k' hk'
  case sig x => exact Memory.wf_leavePhase (Memory.wf_setFlag hall x true) x
  case wait x =>
    refine Memory.wf_enterPhase ?_ x
    split
    · exact Memory.wf_setFlag hall x false
    · exact hall
  all_goals exact hall

/-- Every operation keeps the canonical form. -/
theorem Memory.wf_of_ends (h : Memory.wf s) (he : Ends s i t) : Memory.wf t := by
  have hprev : Memory.wf { s with impPrev := none } := by
    obtain ⟨hcirc, hcorr, h0, h1, hsa, hspec, himp, hout, hzf, hrow, hnv, -⟩ := h
    exact ⟨hcirc, hcorr, h0, h1, hsa, hspec, himp, hout, hzf, hrow, hnv, nofun⟩
  cases he with
  | completed => exact Memory.wf_advance (Memory.wf_written h i)
  | stopped => exact Memory.wf_setStopped h
  | halted => exact Memory.wf_setHalted h
  | blocked | armed | raised => exact h
  | handled | advanced => exact hprev

/-! A step of any kind. -/

/-- What an operation of any agent of an enabled core keeps, a turn of an agent keeps, its own or one of a test program. -/
theorem issueWord_keeps {P : State → Prop}
    (hexec : ∀ (s t : State) (i : Instr), P s → s.en = true → exec i s = .next t → P t)
    {a : Agent} {w : Word} (hcur : P s → P { s with cur := a }) (h : P s) (hstep : issueWord a w s = .next t) : P t := by
  obtain ⟨-, heq⟩ | ⟨hen, -, ⟨-, heq⟩ | ⟨i, -, heq⟩⟩ := issueWord_cases a w s <;> rw [heq] at hstep
  · cases hstep
    exact h
  · cases hstep
  · exact hexec _ _ i (hcur h) hen hstep

/-- A property kept by every operation of an enabled core and by every action of the host, that does not speak of the
turns to come, the count of free values and the issuing agent, is kept by every step (00_scope R15). -/
theorem step_keeps {P : State → Prop}
    (hexec : ∀ (s t : State) (i : Instr), P s → s.en = true → exec i s = .next t → P t)
    (hhost : ∀ (s t : State) (x : HostAct), P s → hostStep x s = .next t → P t)
    (hcur : ∀ (s : State) (a : Agent), P s → P { s with cur := a })
    (hturns : ∀ (s : State) (r : List Turn) (k : Nat), P s → P (s.withTurns r k)) (h : P s) (hstep : step s = .next t) :
    P t := by
  have hagent : ∀ {a : Agent} {u : State}, P u → runAgent a u = .next t → P t := by
    intro a u hu hrun
    obtain rfl | ⟨w, hw⟩ := runAgent_next hrun
    · exact hu
    · exact issueWord_keeps hexec (hcur u a) hu hw
  unfold step takeTurn at hstep
  split at hstep
  next => exact hagent (hturns s s.turns _ h) hstep
  next a r hr => exact hagent (hturns s r s.tick h) hstep
  next a w r hr => exact issueWord_keeps hexec (hcur _ a) (hturns s r s.tick h) hstep
  next x r hr => exact hhost _ _ x (hturns s r s.tick h) hstep

/-- The worker after reset has an empty `NV` (10_state R56). -/
theorem Memory.wf_power (m : Modes) (T : Nat) : Memory.wf (State.power m T) :=
  ⟨Mem.wf_nil, Mem.wf_nil, Mem.wf_nil, Mem.wf_nil, Mem.wf_nil, Mem.wf_nil, Mem.wf_nil, Mem.wf_nil, Mem.wf_nil, nofun,
    fun k hk => by rw [List.eq_of_mem_replicate hk]; exact Mem.wf_nil, nofun⟩

/-- What a write of CTRL that is not refused gives (10_state R50). -/
theorem writeCtrl_next {v : BitVec 32} (h : s.writeCtrl v = .next t) :
    (v.getLsbD 0 = true → s.en = false → s.configLegal = true)
      ∧ t = { s with
          en := s.en || v.getLsbD 0, frameValid := s.frameValid && !v.getLsbD 2, stop := s.stop || v.getLsbD 1 } := by
  unfold State.writeCtrl at h
  split_ifs at h with hbad
  cases h
  refine ⟨fun hv he => by simpa [hv, he] using hbad, ?_⟩
  unfold State.ctrlStop State.ctrlAck State.ctrlEn
  cases v.getLsbD 0 <;> cases v.getLsbD 1 <;> cases v.getLsbD 2 <;> simp

/-- What a register write that is not refused changes (10_state R48 to R51). -/
theorem regWrite_next {n : BitVec 8} {v : BitVec 32} (h : s.regWrite n v = .next t) :
    (n = 0x30#8 ∧ s.writeCtrl v = .next t) ∨ (n = 0x29#8 ∧ t = { s with impIndex := v })
      ∨ (s.en = true ∧ t = s)
      ∨ (s.en = false ∧ t = { s with cfg := s.cfg.write n v, unset := s.unset.filter fun m => decide (m ≠ n) }) := by
  unfold State.regWrite at h
  split_ifs at h with h30 h29 hen
  · exact .inl ⟨h30, h⟩
  · cases h
    exact .inr (.inl ⟨h29, rfl⟩)
  · cases h
    exact .inr (.inr (.inl ⟨hen, rfl⟩))
  · cases h
    exact .inr (.inr (.inr ⟨by simpa using hen, rfl⟩))

/-- No action of the host writes a buffer but `rst`, which empties them. -/
theorem Memory.wf_hostStep (x : HostAct) (h : Memory.wf s) (hstep : hostStep x s = .next t) : Memory.wf t := by
  cases x with
  | rst => cases hstep; exact Memory.wf_power s.modes s.T
  | regRead _ | offer _ | readOut _ => cases hstep; exact h
  | regWrite n v =>
    obtain ⟨-, hc⟩ | ⟨-, rfl⟩ | ⟨-, rfl⟩ | ⟨-, rfl⟩ := regWrite_next hstep
    · rw [(writeCtrl_next hc).2]
      exact h
    all_goals exact h

end Sys2Proof.Machine

open Sys2Proof Sys2Proof.Machine

/-- Settles O54: buffers are written by range writes alone, which keep the form, and emptied by `rst`. -/
theorem stepKeepsMemoryCanonical : Obligations.StepKeepsMemoryCanonical := fun _ _ h hstep =>
  step_keeps (fun _ _ _ hs _ he => Memory.wf_of_ends hs (ends_of_exec_next he))
    (fun _ _ x hs hx => Memory.wf_hostStep x hs hx) (fun _ _ hs => hs) (fun _ _ _ hs => hs) h hstep

end

section
/-! The ingest agent's operations that complete: what each leaves (41 R155 to R160, 42 R172 to R189). -/

namespace Sys2Proof

variable {α : Type} [Inhabited α] [DecidableEq α]

/-- An element of a range written from the start on. -/
theorem Mem.rd_fill_of_lt (m : Mem α) {n k : Nat} (f : Nat → α) (h : k < n) : (m.fill 0 n f).rd k = f k := by
  simp [Mem.rd_fill, h]

/-- An element behind a range written from the start on. -/
theorem Mem.rd_fill_of_le (m : Mem α) {n k : Nat} (f : Nat → α) (h : n ≤ k) : (m.fill 0 n f).rd k = m.rd k := by
  simp [Mem.rd_fill, Nat.not_lt.mpr h]

theorem Mem.rd_put_of_ne (m : Mem α) {n k : Nat} (v : α) (h : k ≠ n) : (m.put n v).rd k = m.rd k := by
  rw [Mem.rd_put, if_neg h]

namespace Machine

variable {s t : State} {i : Instr}

/-- What a completed operation of the ingest agent leaves: what it wrote, and its position moved. -/
def ingestDone (s : State) (i : Instr) : State := { written s i with acqSub := nextSub (written s i) }

/-- An operation the ingest agent may issue, and that completes. -/
theorem exec_of_ingest (h : s.cur = .ingest) (hc : completes s i)
    (hl : operandsLegal s.par s.T i = true := by rfl) (he : entitled .ingest i = true := by rfl)
    (ho : owned s.par s.T .ingest i = true := by rfl) (hp : inPhase s i = true := by rfl) :
    exec i s = .next (ingestDone s i) := by
  have hcheck : issueCheck s i = none := issueCheck_none.mpr (by rw [h]; exact ⟨rfl, hl, he, ho, hp⟩)
  rw [exec_of_completes hcheck hc, advance_ingest (by rw [written_cur, h])]
  rfl

/-- A blocking operation of the ingest agent with no sample offered changes nothing. -/
theorem exec_blocked_of_ingest (h : s.cur = .ingest) (hs : s.stop = false) (hb : isBlockedAt s i)
    (hl : operandsLegal s.par s.T i = true := by rfl) (he : entitled .ingest i = true := by rfl)
    (ho : owned s.par s.T .ingest i = true := by rfl) (hp : inPhase s i = true := by rfl) :
    exec i s = .next s :=
  exec_of_isBlockedAt (issueCheck_none.mpr (by rw [h]; exact ⟨rfl, hl, he, ho, hp⟩)) hs hb

/-- There are two zeros (00_scope R9). -/
theorem eq_zero_or_negZero {x : NUM} (h : Fp.isZero x = true) : x = Fp.zero ∨ x = Fp.negZero := by
  have hmag : x.toNat % 2147483648 = 0 := of_decide_eq_true h
  have hlt := x.isLt
  obtain h0 | h1 : x.toNat = 0 ∨ x.toNat = 2147483648 := by omega
  · exact .inl (BitVec.eq_of_toNat_eq h0)
  · exact .inr (BitVec.eq_of_toNat_eq h1)

/-- The square of either zero is `+0`. -/
theorem mul_self_of_isZero {x : NUM} (h : Fp.isZero x = true) : Fp.mul x x = Fp.zero := by
  obtain rfl | rfl := eq_zero_or_negZero h <;> decide

/-- The logarithm of the modulus of a zero is `−∞` (00_scope R11). -/
theorem dB_of_isZero {a : Cplx} (hre : Fp.isZero a.re = true) (him : Fp.isZero a.im = true) : a.dB = Fp.negInf := by
  have hmod : a.modulus = Fp.zero := by
    rw [Cplx.modulus, mul_self_of_isZero hre, mul_self_of_isZero him]
    decide
  rw [Cplx.dB, hmod]
  decide

theorem eq_ingest_of_isIngest {a : Agent} (h : isIngest a = true) : a = .ingest := by
  cases a with
  | ingest => rfl
  | coord | worker _ => cases h

/-- An operation of the ingest agent that completes leaves what it wrote, the position moved. -/
theorem eq_ingestDone (h : exec i s = .next t) (hcur : s.cur = .ingest) (hc : completes s i) : t = ingestDone s i := by
  rw [exec_of_completes (check_of_exec_next h) hc, advance_ingest (by rw [written_cur, hcur])] at h
  cases h
  rfl

/-- A sample operation that gives a next state with a sample offered and `stop` clear has completed. -/
theorem eq_ingestDone_of_sample (h : exec i s = .next t) (hi : consumesSample (some i) = true) (hs : s.stop = false)
    (hq : s.samples ≠ []) : t = ingestDone s i := by
  obtain ⟨-, -, hent, -⟩ := issueCheck_none.mp (check_of_exec_next h)
  have hcur : s.cur = .ingest := by
    cases i
    case nsamp | capp | iapp => exact eq_ingest_of_isIngest hent
    all_goals cases hi
  cases ends_of_exec_next h with
  | completed hc => exact eq_ingestDone h hcur hc
  | stopped _ hstop => exact absurd hstop (by simp [hs])
  | blocked hb =>
    cases i
    case nsamp | capp | iapp => exact absurd hb hq
    all_goals cases hi
  | armed | raised | handled | advanced | halted => cases hi

theorem eq_ingestDone_of_l1win (h : exec .l1win s = .next t) : t = ingestDone s .l1win := by
  obtain ⟨-, -, hent, -⟩ := issueCheck_none.mp (check_of_exec_next h)
  exact eq_ingestDone h (eq_ingest_of_isIngest hent) trivial

/-- The operation after a completed one is the one at the next position. -/
theorem nextInstr_ingestDone (hd : s.ingDivert = .none) :
    (ingestDone s i).nextInstr .ingest = (ingestOps (written s i))[nextSub (written s i)]? := by
  have hd' : (written s i).ingDivert = .none := by rw [written_ingDivert, hd]
  exact nextInstr_ingest_of_none hd' _

end Machine
end Sys2Proof

open Sys2Proof Sys2Proof.Machine

/-- Settles O13: each of the three operations replaces the `N` elements of `SA`. -/
theorem scratchBufferResults : Obligations.ScratchBufferResults := by
  refine ⟨⟨by decide, fun s hs hN => ⟨_, exec_of_ingest hs trivial, rfl, fun k hk => ?deltaAt, ?deltaLast,
    fun n hn => Mem.rd_fill_of_le _ _ hn⟩⟩, ⟨by decide, by decide, fun r s hs => ⟨_, exec_of_ingest hs trivial, rfl,
    fun k hk => Mem.rd_fill_of_lt _ _ hk, fun n hn => Mem.rd_fill_of_le _ _ hn⟩⟩, by decide, fun s hs =>
    ⟨_, exec_of_ingest hs trivial, rfl, fun k hk => Mem.rd_fill_of_lt _ _ hk, fun n hn => Mem.rd_fill_of_le _ _ hn⟩⟩
  case deltaAt => exact (Mem.rd_fill_of_lt _ _ (by omega)).trans (if_pos hk)
  case deltaLast => exact (Mem.rd_fill_of_lt _ _ (by omega)).trans (if_neg (by omega))

/-- Settles O14: each of the two operations replaces the `N` elements of its buffer. -/
theorem logMagnitudeResults : Obligations.LogMagnitudeResults := by
  refine ⟨by decide, by decide, fun a => ⟨rfl, dB_of_isZero⟩, fun s hs => ⟨⟨_, exec_of_ingest (i := .mag) hs trivial, rfl,
    fun k hk => Mem.rd_fill_of_lt _ _ hk, fun n hn => Mem.rd_fill_of_le _ _ hn⟩,
    ⟨_, exec_of_ingest (i := .lmag) hs trivial, rfl,
    fun k hk => Mem.rd_fill_of_lt _ _ hk, fun n hn => Mem.rd_fill_of_le _ _ hn⟩⟩⟩

/-- Settles O18: a sample offered completes `NSAMP`, none blocks it. -/
theorem nsampResult : Obligations.NsampResult := by
  refine ⟨by decide, fun s hs hstop => ⟨fun hq => exec_blocked_of_ingest hs hstop hq, fun x rest hq hlt =>
    ⟨_, exec_of_ingest hs ⟨hstop, by simp [hq], hlt⟩, ?_, ?_, fun n hn => Mem.rd_put_of_ne _ _ hn⟩⟩⟩
  · simp only [ingestDone, written, hq]
    rfl
  · simp [ingestDone, written, hq]

/-- Settles O19: the tests of the window are `nullStartAfter` and `nullEndAfter`. -/
theorem l1winResult : Obligations.L1winResult := by
  refine ⟨by decide, fun s hs => ⟨_, exec_of_ingest hs trivial, rfl, rfl, fun h => ?clear, fun h => ?set, rfl⟩⟩
  all_goals simp [ingestDone, written, windowL1, nullStartAfter, nullEndAfter, h]

/-- Settles O20: both operations replace the first `P` elements of `CORR`. -/
theorem correlationPrefixResults : Obligations.CorrelationPrefixResults :=
  ⟨by decide, by decide, fun _ hs => ⟨⟨_, exec_of_ingest (i := .ncap) hs trivial, rfl,
    fun _ hk => Mem.rd_fill_of_lt _ _ hk, fun _ hn => Mem.rd_fill_of_le _ _ hn⟩,
    ⟨_, exec_of_ingest (i := .nullcp) hs trivial, rfl,
    fun _ hk => Mem.rd_fill_of_lt _ _ hk, fun _ hn => Mem.rd_fill_of_le _ _ hn⟩⟩⟩

/-- Settles O21: a sample offered is put behind the last one, none blocks. -/
theorem appendResults : Obligations.AppendResults := by
  refine ⟨by decide, by decide, fun s hs hstop => ⟨fun hq => ⟨exec_blocked_of_ingest hs hstop hq,
    exec_blocked_of_ingest hs hstop hq⟩, fun x rest hq => ⟨fun hlt => ⟨_, exec_of_ingest (i := .capp) hs
    ⟨hstop, by simp [hq], hlt⟩, ?_, ?_, fun n hn => Mem.rd_put_of_ne _ _ hn⟩, fun hlt => ⟨_, exec_of_ingest (i := .iapp) hs
    ⟨hstop, by simp [hq], hlt⟩, ?_, act_setInact s _, ?_, fun n hn => ?_⟩⟩⟩⟩
  · simp only [ingestDone, written, hq]
    rfl
  · simp [ingestDone, written, hq]
  · simp only [ingestDone, written, hq]
    rfl
  · have hinact : (ingestDone s .iapp).inact = s.inact.put s.ingLen x := by
      rw [show x = s.samples.headD default by rw [hq]; rfl]
      exact inact_setInact s _
    rw [hinact, Mem.rd_put_same]
  · exact (congrArg (Mem.rd · n) (inact_setInact s _)).trans (Mem.rd_put_of_ne _ _ hn)

/-- Settles O22: both operations complete; the loop's step is `coarseStep`. -/
theorem coarseUpdateResults : Obligations.CoarseUpdateResults := by
  refine ⟨by decide, by decide, fun s hs => ⟨⟨_, exec_of_ingest (i := .fczero) hs trivial, rfl⟩,
    ⟨_, exec_of_ingest (i := .fcupd) hs trivial, rfl, ?_⟩⟩⟩
  have hstep : coarseStep s = Fp.mul (if Fp.lt (Fp.div Fp.oneHalf3 (Fp.ofNat s.par.N)) (Fp.abs (coarseError s)) = true
      ∨ s.isFound = false then Fp.one else s.cfg.coarseFreqSlowBeta) (coarseError s) := by
    simp only [coarseStep, coarseBeta, Bool.or_eq_true, Bool.not_eq_true']
  exact ⟨congrArg (Fp.add s.fCoarse) hstep, congrArg (fun x => wrapF s.par.N (Fp.sub s.fFine x)) hstep⟩

/-- Settles O27: neither operation moves a position further, both set it. -/
theorem advAndDesyncResults : Obligations.AdvAndDesyncResults := by
  refine ⟨fun a s hs ha => (execAdv_next a).mpr ⟨?_, rfl⟩, by decide,
    fun s hs => ⟨_, execDesync_next.mpr ⟨?_, rfl⟩, rfl, rfl⟩⟩
  · exact issueCheck_none.mpr (by rw [hs]; exact ⟨rfl, decide_eq_true ha, rfl, rfl, rfl⟩)
  · exact issueCheck_none.mpr (by rw [hs]; exact ⟨rfl, rfl, rfl, rfl, rfl⟩)

/-- Settles O9: a completed operation leaves what it wrote, and the next operation is the one at the position it moved to. -/
theorem acquisitionLoops : Obligations.AcquisitionLoops := by
  intro s t hd
  refine ⟨fun hst hsub h => ?l1win, fun hs hq => ⟨fun hst hsub h => ?nsamp, fun hst hsub h => ?capp, fun hst hsub h => ?iapp⟩⟩
  case l1win =>
    rw [eq_ingestDone_of_l1win h, nextInstr_ingestDone hd]
    simp only [ingestOps, nextSub, written_acqState, written_acqSub, hst, hsub, ingestDone]
    split <;> rfl
  case nsamp =>
    rw [eq_ingestDone_of_sample h rfl hs hq, nextInstr_ingestDone hd]
    simp only [ingestOps, nextSub, written_acqState, written_acqSub, hst, hsub, ingestDone]
    show _ = some (if (written s .nsamp).l1Cnt = (written s .nsamp).K then Instr.l1win else _)
    split
    · rfl
    · split <;> rfl
  case capp =>
    rw [eq_ingestDone_of_sample h rfl hs hq, nextInstr_ingestDone hd]
    simp only [ingestOps, nextSub, written_acqState, written_acqSub, hst, hsub, ingestDone]
    show _ = some (if (written s .capp).corrLen = (written s .capp).par.P + (written s .capp).par.S then _ else _)
    split <;> rfl
  case iapp =>
    rw [eq_ingestDone_of_sample h rfl hs hq, nextInstr_ingestDone hd]
    simp only [ingestOps, nextSub, written_acqState, written_acqSub, hst, hsub, ingestDone]
    show _ = some (if (written s .iapp).ingLen = (written s .iapp).par.frameLen then _ else _)
    split <;> rfl

end

section
/-! The transform steps: bit reversal, one butterfly stage, and the whole transform word by word (41 R142, R143, R150 to
R154). -/

namespace Sys2Proof.Dsp

/-! The bit reversal (41 R142). -/

theorem rev_lt (L n : Nat) : rev L n < 2 ^ L := by
  induction L generalizing n with
  | zero => simp [rev]
  | succ L ih =>
    have hlow := ih (n / 2)
    have hbit : n % 2 * 2 ^ L ≤ 1 * 2 ^ L := Nat.mul_le_mul_right _ (by omega)
    rw [rev, Nat.pow_succ]
    omega

/-- `rev_L` reverses the `L` lowest digits. -/
theorem testBit_rev {L b : Nat} (n : Nat) (hb : b < L) : (rev L n).testBit (L - 1 - b) = n.testBit b := by
  induction L generalizing n b with
  | zero => omega
  | succ L ih =>
    rw [rev, Nat.mul_comm, Nat.testBit_two_pow_mul_add _ (rev_lt L _)]
    cases b with
    | zero => simp
    | succ b =>
      rw [if_pos (by omega), show L + 1 - 1 - (b + 1) = L - 1 - b by omega, ih _ (by omega), Nat.testBit_succ]

/-- `rev_L` is its own inverse. -/
theorem rev_rev {L n : Nat} (hn : n < 2 ^ L) : rev L (rev L n) = n := by
  refine Nat.eq_of_testBit_eq fun j => ?_
  by_cases hj : j < L
  · have h1 := testBit_rev (rev L n) (show L - 1 - j < L by omega)
    have h2 := testBit_rev n hj
    rw [show L - 1 - (L - 1 - j) = j by omega] at h1
    rw [h1, h2]
  · have hpow : 2 ^ L ≤ 2 ^ j := Nat.pow_le_pow_right (by decide) (by omega)
    rw [Nat.testBit_lt_two_pow ((rev_lt L _).trans_le hpow), Nat.testBit_lt_two_pow (hn.trans_le hpow)]

/-! One butterfly stage (41 R143). -/

section
variable {α : Type} (A : Arith α) {h n : Nat} (w x : Nat → α)

/-- The pair of a butterfly: its elements are `h` apart. -/
theorem stage_pair (k : Nat) {j : Nat} (hj : j < h) :
    stage A h w x (k * (2 * h) + j) = A.add (x (k * (2 * h) + j)) (A.mul (w j) (x (k * (2 * h) + j + h)))
      ∧ stage A h w x (k * (2 * h) + j + h) = A.sub (x (k * (2 * h) + j)) (A.mul (w j) (x (k * (2 * h) + j + h))) := by
  have hlow : (k * (2 * h) + j) % (2 * h) = j := by
    rw [Nat.add_comm, Nat.add_mul_mod_self_right, Nat.mod_eq_of_lt (by omega)]
  have hhigh : (k * (2 * h) + j + h) % (2 * h) = j + h := by
    rw [Nat.add_assoc, Nat.add_comm, Nat.add_mul_mod_self_right, Nat.mod_eq_of_lt (by omega)]
  refine ⟨by rw [stage, hlow, if_pos hj], ?_⟩
  rw [stage, hhigh, if_neg (by omega), Nat.add_sub_cancel, Nat.add_sub_cancel]

/-- A stage on the first `N` elements reads only these. -/
theorem stage_congr {N : Nat} {x y : Nat → α} (hN : 2 * h ∣ N) (hxy : ∀ m, m < N → x m = y m) (hn : n < N) :
    stage A h w x n = stage A h w y n := by
  obtain ⟨c, rfl⟩ := hN
  unfold stage
  split
  · next hlt =>
    have hdiv := Nat.div_add_mod n (2 * h)
    have hq : n / (2 * h) + 1 ≤ c := Nat.div_lt_of_lt_mul hn
    have hmul : 2 * h * (n / (2 * h) + 1) ≤ 2 * h * c := Nat.mul_le_mul_left _ hq
    rw [Nat.mul_succ] at hmul
    rw [hxy n hn, hxy (n + h) (by omega)]
  · rw [hxy n hn, hxy (n - h) (by omega)]

end

end Sys2Proof.Dsp

namespace Sys2Proof.Machine

variable {s t : State} {b : XBuf}

/-! The steps on a transform buffer. -/

theorem xbuf_advance (s : State) (b : XBuf) : s.advance.xbuf b = s.xbuf b := by
  cases b <;> rfl

/-- A transform step writes its buffer and moves its agent's position. -/
theorem onlyXBuf_advance_mapXbuf (h : holdsXBuf s b) (f : Nat → Cplx) : onlyXBuf s (s.mapXbuf b f).advance b := by
  refine ⟨?frame, ⟨by simp, fun v => ?worker⟩, fun n hn => ?beyond, fun b' hb' => ?others⟩
  case frame =>
    cases b with
    | sa =>
      have hc : (s.mapXbuf .sa f).cur = .ingest := by rw [mapXbuf_cur]; exact h
      rw [advance_ingest hc]
      rfl
    | zf i =>
      obtain ⟨-, w, ⟨hc, -⟩, -⟩ := h
      rw [advance_worker (w := w) (by simp [hc])]
      rfl
  case worker => rw [wk_advance_pc, wk_congr (mapXbuf_workers s b f)]
  case beyond => rw [xbuf_advance, rd_mapXbuf, if_neg (Nat.not_lt.mpr hn)]
  case others => rw [xbuf_advance, xbuf_mapXbuf_of_ne _ _ _ _ hb']

/-- Element `n` of a transform buffer after a step on it. -/
theorem rd_xbuf_advance_mapXbuf (f : Nat → Cplx) {n : Nat} (hn : n < s.par.N) :
    ((s.mapXbuf b f).advance.xbuf b).rd n = f n := by
  rw [xbuf_advance, rd_mapXbuf, if_pos hn]

/-- Who may work on a transform buffer may issue the forward steps on it (30_encoding R114, 20_memory R88). -/
theorem checks_of_holdsXBuf (h : holdsXBuf s b) :
    agentExists s.T s.cur = true ∧ xbufLegal s.par b = true ∧ (isIngest s.cur || isWorker s.cur) = true
      ∧ ownsXBuf s.par s.T s.cur b = true ∧ xbufInPhase s b = true := by
  cases b with
  | sa =>
    have hc : s.cur = .ingest := h
    rw [hc]
    exact ⟨rfl, rfl, rfl, rfl, rfl⟩
  | zf i =>
    obtain ⟨hF, w, ⟨hc, hw, hstart, hend⟩, hmay⟩ := h
    refine ⟨by rw [hc]; exact decide_eq_true hw, decide_eq_true hF, by rw [hc]; rfl, ?_, ?_⟩
    · rw [hc]
      exact decide_eq_true ⟨hstart, hend⟩
    · have hcurW : s.curW = w := by simp [State.curW, hc]
      obtain rfl | hne | hwf := hmay
      · simp [xbufInPhase, hcurW]
      · simp [xbufInPhase, hcurW, hne]
      · simp [xbufInPhase, hcurW, hwf]

theorem exec_bitrev_of_holds (h : holdsXBuf s b) :
    exec (.bitrev b) s = .next (s.mapXbuf b fun n => (s.xbuf b).rd (Dsp.rev s.par.L n)).advance :=
  (execBitrev_next b).mpr ⟨issueCheck_none.mpr (checks_of_holdsXBuf h), rfl⟩

theorem exec_bflyf_of_holds (h : holdsXBuf s b) {st : Nat} (h1 : 1 ≤ st) (hL : st ≤ s.par.L) :
    exec (.bflyf b st) s = .next
      (s.mapXbuf b (Dsp.stage Dsp.num (2 ^ (st - 1)) (Dsp.twF s.par.N st) (s.xbuf b).rd)).advance := by
  obtain ⟨ha, hl, he, ho, hp⟩ := checks_of_holdsXBuf h
  refine (execBflyf_next b st).mpr ⟨issueCheck_none.mpr ⟨ha, ?_, he, ho, hp⟩, rfl⟩
  simp [operandsLegal, hl, stageLegal, h1, hL]

theorem exec_bflyi_of_ingest (h : s.cur = .ingest) {st : Nat} (h1 : 1 ≤ st) (hL : st ≤ s.par.L) :
    exec (.bflyi .sa st) s = .next
      (s.mapXbuf .sa (Dsp.stage Dsp.num (2 ^ (st - 1)) (Dsp.twI s.par.N st) (s.xbuf .sa).rd)).advance := by
  refine (execBflyi_next .sa st).mpr ⟨issueCheck_none.mpr ?_, rfl⟩
  rw [h]
  exact ⟨rfl, by simp [operandsLegal, xbufLegal, stageLegal, h1, hL], rfl, rfl, rfl⟩

/-- The pair of a butterfly of stage `st`, read after the stage (41 R151, R152). -/
theorem rd_stage_pair (w : Nat → Cplx) {st k j : Nat} (h1 : 1 ≤ st) (hj : j < 2 ^ (st - 1))
    (hN : k * 2 ^ st + j + 2 ^ (st - 1) < s.par.N) :
    let t := (s.mapXbuf b (Dsp.stage Dsp.num (2 ^ (st - 1)) w (s.xbuf b).rd)).advance
    let p := (w j).mul ((s.xbuf b).rd (k * 2 ^ st + j + 2 ^ (st - 1)))
    let u := (s.xbuf b).rd (k * 2 ^ st + j)
    (t.xbuf b).rd (k * 2 ^ st + j) = u.add p ∧ (t.xbuf b).rd (k * 2 ^ st + j + 2 ^ (st - 1)) = u.sub p := by
  have hpow : 2 ^ st = 2 * 2 ^ (st - 1) := by
    obtain ⟨m, rfl⟩ := Nat.exists_eq_add_of_le' h1
    rw [Nat.add_sub_cancel, Nat.pow_succ, Nat.mul_comm]
  have hpair := Dsp.stage_pair Dsp.num w (s.xbuf b).rd k hj
  rw [← hpow] at hpair
  refine ⟨?_, ?_⟩
  · rw [rd_xbuf_advance_mapXbuf _ (by omega)]
    exact hpair.1
  · rw [rd_xbuf_advance_mapXbuf _ hN]
    exact hpair.2

/-! The transforms, operation by operation (41 R153, R154). -/

theorem holdsXBuf_of_onlyXBuf (h : holdsXBuf s b) (hst : onlyXBuf s t b) : holdsXBuf t b := by
  obtain ⟨hframe, ⟨hT, hwk⟩, -⟩ := hst
  have hcur : t.cur = s.cur := by rw [hframe]
  have hpar : t.par = s.par := by rw [hframe]; rfl
  cases b with
  | sa => exact hcur.trans h
  | zf i =>
    obtain ⟨hF, w, ⟨hc, hw, hslot⟩, hmay⟩ := h
    have hwf : (t.wk w).wf = (s.wk w).wf := by rw [hwk w]
    refine ⟨by rw [hpar]; exact hF, w, ⟨hcur.trans hc, hT ▸ hw, ?_⟩, ?_⟩
    · rw [hpar, hT]
      exact hslot
    · rw [mayWriteZf, hpar, hT, hwf]
      exact hmay

theorem onlyXBuf.trans {u : State} (h : onlyXBuf s t b) (h' : onlyXBuf t u b) : onlyXBuf s u b := by
  obtain ⟨hframe, ⟨hT, hwk⟩, hbeyond, hothers⟩ := h
  obtain ⟨hframe', ⟨hT', hwk'⟩, hbeyond', hothers'⟩ := h'
  have hpar : t.par = s.par := by rw [hframe]; rfl
  refine ⟨?_, ⟨hT'.trans hT, fun v => ?_⟩, fun n hn => ?_, fun b' hb' => (hothers' b' hb').trans (hothers b' hb')⟩
  · rw [hframe', hframe]
  · rw [hwk' v, hwk v]
  · rw [hbeyond' n (hpar ▸ hn), hbeyond n hn]

theorem execAll_append (l m : List Instr) (s : State) :
    execAll (l ++ m) s = match execAll l s with
      | .next t => execAll m t
      | .fault f => .fault f
      | .refused r => .refused r := by
  induction l generalizing s with
  | nil => rfl
  | cons i l ih =>
    rw [List.cons_append, execAll, execAll]
    cases exec i s with
    | next t => exact ih t
    | fault _ => rfl
    | refused _ => rfl

/-- The bit reversal and the first `k` stages, one operation after the other, for the stages' operations `op` with the
twiddles `tw`. -/
theorem execAll_transform {op : Nat → Instr} {tw : Nat → Nat → Nat → Cplx}
    (hop : ∀ (s : State) (st : Nat), holdsXBuf s b → 1 ≤ st → st ≤ s.par.L → exec (op st) s = .next
      (s.mapXbuf b (Dsp.stage Dsp.num (2 ^ (st - 1)) (tw s.par.N st) (s.xbuf b).rd)).advance)
    (h : holdsXBuf s b) (hN : s.par.N = 2 ^ s.par.L) {k : Nat} (hk : k ≤ s.par.L) :
    ∃ t, execAll (.bitrev b :: (List.range k).map fun j => op (j + 1)) s = .next t ∧ onlyXBuf s t b
      ∧ ∀ n, n < s.par.N →
        (t.xbuf b).rd n = Dsp.stages Dsp.num (tw s.par.N) (fun n => (s.xbuf b).rd (Dsp.rev s.par.L n)) k n := by
  induction k with
  | zero =>
    refine ⟨_, ?_, onlyXBuf_advance_mapXbuf h _, fun n hn => rd_xbuf_advance_mapXbuf _ hn⟩
    rw [List.range_zero, List.map_nil, execAll, exec_bitrev_of_holds h]
    rfl
  | succ k ih =>
    obtain ⟨t, hrun, honly, hrd⟩ := ih (by omega)
    have hpar : t.par = s.par := by rw [honly.1]; rfl
    have hheld := holdsXBuf_of_onlyXBuf h honly
    have hstep := hop t (k + 1) hheld (by omega) (by rw [hpar]; exact hk)
    refine ⟨(t.mapXbuf b (Dsp.stage Dsp.num (2 ^ k) (tw t.par.N (k + 1)) (t.xbuf b).rd)).advance, ?_,
      honly.trans (onlyXBuf_advance_mapXbuf hheld _), fun n hn => ?_⟩
    · rw [List.range_succ, List.map_append, ← List.cons_append, execAll_append, hrun]
      simp only [List.map_cons, List.map_nil, execAll, hstep, Nat.add_sub_cancel]
    · rw [rd_xbuf_advance_mapXbuf _ (hpar ▸ hn), hpar]
      refine Dsp.stage_congr _ _ ?_ hrd hn
      rw [hN, ← Nat.pow_succ']
      exact Nat.pow_dvd_pow 2 hk

end Sys2Proof.Machine

open Sys2Proof Sys2Proof.Machine

/-- Settles O10: the digits of `rev_L`, and the buffer mapped through it. -/
theorem bitReversalAndBitrev : Obligations.BitReversalAndBitrev := by
  refine ⟨fun L n hn => ⟨Dsp.rev_lt L n, Dsp.rev_rev hn, fun b hb => Dsp.testBit_rev n hb⟩, fun b s h hN =>
    ⟨_, exec_bitrev_of_holds h, onlyXBuf_advance_mapXbuf h _, fun n hn => ?_⟩⟩
  rw [rd_xbuf_advance_mapXbuf _ (hN ▸ Dsp.rev_lt _ n), Dsp.rev_rev (hN ▸ hn)]

/-- Settles O11: the buffer mapped through one stage, pair by pair. -/
theorem forwardButterflyResult : Obligations.ForwardButterflyResult := fun _ _ _ h _ h1 hL =>
  ⟨_, exec_bflyf_of_holds h h1 hL, onlyXBuf_advance_mapXbuf h _, fun _ _ hj hlt => rd_stage_pair _ h1 hj hlt⟩

/-- Settles O12: the same on `SA`; on a slot no agent passes both the check of the table and that of the owner. -/
theorem inverseButterflyResults : Obligations.InverseButterflyResults := by
  refine ⟨fun st s h _ h1 hL => ⟨_, exec_bflyi_of_ingest h h1 hL, onlyXBuf_advance_mapXbuf (b := .sa) h _,
    fun k j hj hlt => rd_stage_pair (b := .sa) _ h1 hj hlt⟩, fun i st s ha hi h1 hL => exec_refused_of_check ?_⟩
  have hlegal : operandsLegal s.par s.T (.bflyi (.zf i) st) = true := by
    simp [operandsLegal, xbufLegal, stageLegal, hi, h1, hL]
  simp only [issueCheck, ha, hlegal]
  cases s.cur <;> rfl

/-- Settles O16: by induction on the stages, each of which reads only the first `N` elements. -/
theorem transformsByTheirWords : Obligations.TransformsByTheirWords :=
  ⟨fun _ _ h hN => execAll_transform (fun _ _ h h1 hL => exec_bflyf_of_holds h h1 hL) h hN le_rfl,
    fun _ h hN => execAll_transform (b := .sa) (fun _ _ h h1 hL => exec_bflyi_of_ingest h h1 hL) h hN le_rfl⟩

end

section
/-! The workers' operations (43 R212 to R218). -/

namespace Sys2Proof

variable {α : Type} [Inhabited α] [DecidableEq α]

/-- An element of a range written from `base` on. -/
theorem Mem.rd_fill_add (m : Mem α) {base n k : Nat} (f : Nat → α) (h : k < n) : (m.fill base n f).rd (base + k) = f k := by
  rw [Mem.rd_fill, if_pos (by omega), Nat.add_sub_cancel_left]

/-- An element outside the range written. -/
theorem Mem.rd_fill_outside (m : Mem α) {base n k : Nat} (f : Nat → α) (h : k < base ∨ base + n ≤ k) :
    (m.fill base n f).rd k = m.rd k := by
  rw [Mem.rd_fill, if_neg (by omega)]

namespace Machine

variable {s t : State} {i : Instr} {w : Nat}

/-- What a completed operation of worker `w` leaves: what it wrote, and its position moved. -/
def workerDone (s : State) (w : Nat) (i : Instr) : State :=
  (written s i).setWk w fun k => { k with pc := nextWkPc (written s i) w k }

/-- An operation worker `w` may issue, and that completes. -/
theorem exec_of_worker (h : s.cur = .worker w) (hw : w < s.T) (hl : operandsLegal s.par s.T i = true)
    (ho : owned s.par s.T (.worker w) i = true) (hp : inPhase s i = true)
    (he : entitled (.worker w) i = true := by rfl) (hc : completes s i := by trivial) :
    exec i s = .next (workerDone s w i) := by
  have hcheck : issueCheck s i = none := issueCheck_none.mpr (by rw [h]; exact ⟨decide_eq_true hw, hl, he, ho, hp⟩)
  rw [exec_of_completes hcheck hc, advance_worker (by rw [written_cur, h])]
  rfl

theorem curW_of_worker (h : s.cur = .worker w) : s.curW = w := by simp [State.curW, h]

theorem owned_of_issuesAsOwner {n : Nat} (h : issuesAsOwner s w n) : ownsSlot s.par s.T (.worker w) n = true :=
  decide_eq_true ⟨h.2.2.1, h.2.2.2⟩

/-- An operation that writes no worker moves its worker's position alone. -/
theorem sameWorkersButPcOf_workerDone (h : (written s i).workers = s.workers) :
    sameWorkersButPcOf s (workerDone s w i) w := by
  have hsame := sameOthers_setWk (s := written s i) (w := w) fun k => { k with pc := nextWkPc (written s i) w k }
  refine ⟨⟨by rw [← written_T s i]; exact hsame.1, fun v hv => (hsame.2 v hv).trans (wk_congr h v)⟩, ?_⟩
  rw [workerDone, wk_setWk, wk_congr h w]
  split <;> rfl

/-- Worker `w` after an operation that writes its registers. -/
theorem wk_workerDone_of_setWk {g : Worker → Worker} (hw : w < s.T) (h : written s i = s.setWk w g) :
    sameOthers s (workerDone s w i) w
      ∧ (workerDone s w i).wk w = { g (s.wk w) with pc := ((workerDone s w i).wk w).pc } := by
  have hT : w < (s.setWk w g).workers.length := hw.trans_eq (setWk_T s w g).symm
  constructor
  · rw [workerDone, h]
    exact (sameOthers_setWk g).trans (sameOthers_setWk _)
  · simp only [workerDone, h, wk_setWk, hT]
    simp [hw]

/-- The samples of `ACT` after `DEROT` (43 R212). -/
theorem act_workerDone_derot (n : Nat) : (workerDone s w (.derot n)).act = s.act.fill (n * s.par.S) s.par.S fun k =>
    (s.act.rd (n * s.par.S + k)).mul (Cplx.rot Fp.zero s.fSnap (n * s.par.S + k)) := act_setAct s _

/-- A slot operation's moment: the worker holds its slots (20_memory R88). -/
theorem holds_curW (h : s.cur = .worker w) (hh : (s.wk w).holds = true) : (s.wk s.curW).holds = true := by
  rwa [curW_of_worker h]

end Machine

/-! The conversion to a soft bit (43 R218). -/

/-- Truncation of a quotient toward zero (43 R218). -/
theorem truncInt_eq (y : NUM) : Fp.truncInt y = if Fp.value y < 0 then ⌈Fp.value y⌉ else ⌊Fp.value y⌋ := by
  have hpos : (0 : ℚ) < 2 ^ 149 := by positivity
  have hfloor : ∀ a : Int, ⌊(a : ℚ) / 2 ^ 149⌋ = a / 2 ^ 149 := fun a => by
    have := Rat.floor_intCast_div_natCast a (2 ^ 149)
    push_cast at this
    exact this
  rw [Fp.truncInt, Fp.value]
  split
  · next h =>
    have hneg : Fp.sunits y < 0 := by
      rw [div_lt_iff₀ hpos, zero_mul] at h
      exact_mod_cast h
    have hval : ((Fp.sunits y : Int) : ℚ) / 2 ^ 149 = -(((-Fp.sunits y : Int) : ℚ) / 2 ^ 149) := by push_cast; ring
    rw [hval, Int.ceil_neg, hfloor, ← Int.tdiv_eq_ediv_of_nonneg (by omega), Int.neg_tdiv, neg_neg]
  · next h =>
    have hnonneg : 0 ≤ Fp.sunits y := by
      rw [not_lt, le_div_iff₀ hpos, zero_mul] at h
      exact_mod_cast h
    rw [hfloor, Int.tdiv_eq_ediv_of_nonneg hnonneg]

/-- A number of a soft bit's range is one. -/
theorem toInt_ofInt_soft {z : Int} (h1 : -127 ≤ z) (h2 : z ≤ 127) : (BitVec.ofInt 8 z).toInt = z := by
  rw [BitVec.toInt_ofInt]
  exact Int.bmod_eq_of_le (by norm_num; omega) (by norm_num; omega)

end Sys2Proof

open Sys2Proof Sys2Proof.Machine

/-- Settles O30: the slot is a range of `ACT`, written element by element. -/
theorem derotResult : Obligations.DerotResult := by
  intro i w s h hF hholds
  refine ⟨_, exec_of_worker h.1 h.2.1 (decide_eq_true hF) (owned_of_issuesAsOwner h) (holds_curW h.1 hholds), rfl,
    sameWorkersButPcOf_workerDone rfl, inact_setAct s _, fun k hk => ?rotated, fun hzero k hk => ?atZero,
    fun n hn => ?outside⟩
  case rotated => rw [act_workerDone_derot, Mem.rd_fill_add _ _ hk]
  case atZero => rw [act_workerDone_derot, Mem.rd_fill_add _ _ hk, rot_eq_one (by decide) hzero]
  case outside =>
    rw [Nat.succ_mul] at hn
    rw [act_workerDone_derot, Mem.rd_fill_outside _ _ hn]

/-- Settles O31: both operations write registers of their own worker alone. -/
theorem phaseErrorResults : Obligations.PhaseErrorResults := by
  refine ⟨by decide, fun i w s h hF hholds => ?cperr, fun w s hc hw hwp => ?phpub⟩
  case cperr =>
    have hwritten : written s (.cperr i) = s.setWk w fun k => { k with phAcc := Fp.add k.phAcc (prefixProduct s i).arg } := by
      rw [written, curW_of_worker h.1]
    obtain ⟨hothers, hself⟩ := wk_workerDone_of_setWk h.2.1 hwritten
    refine ⟨_, exec_of_worker h.1 h.2.1 (decide_eq_true hF) (owned_of_issuesAsOwner h) (holds_curW h.1 hholds), rfl,
      hothers, hself.trans ?_⟩
    simp only [prefixProduct, Dsp.conjMulSum, Nat.add_assoc]
  case phpub =>
    have hwritten : written s .phpub = s.setWk w fun k => { k with phSlot := k.phAcc, phAcc := Fp.zero } := by
      rw [written, curW_of_worker hc]
    obtain ⟨hothers, hself⟩ := wk_workerDone_of_setWk hw hwritten
    exact ⟨_, exec_of_worker hc hw rfl rfl (by simp [inPhase, curW_of_worker hc, hwp]), rfl, hothers, hself⟩

/-- Settles O33: the row of the slot is replaced by the block. -/
theorem ldsymResult : Obligations.LdsymResult := by
  intro i w s h hF hholds hmay
  obtain ⟨-, -, -, -, hphase⟩ := checks_of_holdsXBuf (s := s) (b := .zf i) ⟨hF, w, h, hmay⟩
  refine ⟨_, exec_of_worker h.1 h.2.1 (decide_eq_true hF) (owned_of_issuesAsOwner h)
    (by simp [inPhase, holds_curW h.1 hholds, hphase]), rfl, sameWorkersButPcOf_workerDone rfl, fun n hn => ?_, fun n hn => ?_,
    fun j hj => Mem.rd_put_of_ne _ _ hj⟩
  · exact (rd_mapXbuf s (.zf i) _ n).trans (if_pos hn)
  · exact (rd_mapXbuf s (.zf i) _ n).trans (if_neg (Nat.not_lt.mpr hn))

/-- Settles O34: the worker's vector is replaced by the normalised products. -/
theorem dqpskResult : Obligations.DqpskResult := by
  intro i w s h hF hsaw
  have hwritten : written s (.dqpsk i) = s.setWk w fun k =>
      { k with nv := k.nv.fill 0 s.par.C fun j => normalise (differential s i j) } := by
    rw [written, curW_of_worker h.1]
  obtain ⟨hothers, hself⟩ := wk_workerDone_of_setWk h.2.1 hwritten
  have hnv : ((workerDone s w (.dqpsk i)).wk w).nv = (s.wk w).nv.fill 0 s.par.C fun j => normalise (differential s i j) := by
    rw [hself]
  refine ⟨_, exec_of_worker h.1 h.2.1 (decide_eq_true hF) (owned_of_issuesAsOwner h) ?_, rfl, hothers, ?_, fun j hj => ?_,
    fun j hj => by rw [hnv, Mem.rd_fill_of_le _ _ hj]⟩
  · simpa [inPhase, curW_of_worker h.1, or_iff_not_imp_left] using hsaw
  · rw [hnv]
    exact hself
  · rw [hnv, Mem.rd_fill_of_lt _ _ hj]
    rfl

/-- Settles O35: the pair is a range of `OUT`, its two halves the real and the imaginary parts. -/
theorem softResults : Obligations.SoftResults := by
  refine ⟨fun i w s h hF hholds hvalid => ?pair, fun h x h1 h127 => ⟨fun hnan => ?nan, fun hinf => ?inf, fun hfin => ?fin⟩⟩
  case pair =>
    refine ⟨_, exec_of_worker h.1 h.2.1 (decide_eq_true hF) (owned_of_issuesAsOwner h)
      (by simp [inPhase, holds_curW h.1 hholds, hvalid]), rfl, sameWorkersButPcOf_workerDone rfl,
      fun c hc => ⟨?_, ?_⟩, fun a ha => ?_⟩
    · refine (Mem.rd_fill_add _ _ (by omega)).trans ?_
      rw [softBit, if_pos hc, curW_of_worker h.1]
    · rw [Nat.add_assoc]
      refine (Mem.rd_fill_add _ _ (by omega)).trans ?_
      rw [softBit, if_neg (by omega), curW_of_worker h.1, Nat.add_sub_cancel_left]
    · rw [Nat.succ_mul i] at ha
      exact Mem.rd_fill_outside _ _ ha
  case nan => simp [Dsp.soft, hnan]
  case inf =>
    have hnot : Fp.isNaN (Fp.mul (Fp.ofInt h) x) = false := by
      have hmag := of_decide_eq_true hinf
      simp [Fp.isNaN, hmag]
    simp only [Dsp.soft, hnot, hinf]
    exact toInt_ofInt_soft (by split <;> omega) (by split <;> omega)
  case fin =>
    have hmag := of_decide_eq_true hfin
    have hnot : Fp.isNaN (Fp.mul (Fp.ofInt h) x) = false := by simp [Fp.isNaN, hmag.le]
    have hnotInf : Fp.isInf (Fp.mul (Fp.ofInt h) x) = false := by simp [Fp.isInf, hmag.ne]
    simp only [Dsp.soft, hnot, hnotInf, ← truncInt_eq]
    exact toInt_ofInt_soft (by omega) (by omega)

end

section
/-! The coordinator's operations, the barriers and the exchange of the ingest buffers (44 R241 to R244, 45 R261 to R263). -/

namespace Sys2Proof.Machine

variable {s t : State} {i : Instr}

/-- What a completed operation of the coordinator leaves: what it wrote, and its position moved. -/
def coordDone (s : State) (i : Instr) : State := { written s i with coPc := nextCoPc (written s i) }

/-- An operation the coordinator may issue, and that completes. -/
theorem exec_of_coord (h : s.cur = .coord) (hc : completes s i)
    (hl : operandsLegal s.par s.T i = true := by rfl) (he : entitled .coord i = true := by rfl)
    (ho : owned s.par s.T .coord i = true := by rfl) (hp : inPhase s i = true := by rfl) :
    exec i s = .next (coordDone s i) := by
  have hcheck : issueCheck s i = none := issueCheck_none.mpr (by rw [h]; exact ⟨rfl, hl, he, ho, hp⟩)
  rw [exec_of_completes hcheck hc, advance_coord (by rw [written_cur, h])]
  rfl

/-- The sum over the workers, ascending, is the sum over the list of the workers (44 R242). -/
theorem sum_phSlot (s : State) :
    Dsp.sum s.T (fun w => (s.wk w).phSlot) = (s.workers.map fun k => k.phSlot).foldl Fp.add Fp.zero := by
  have hmap : (List.range s.T).map (fun w => (s.wk w).phSlot) = s.workers.map fun k => k.phSlot := by
    refine List.ext_getElem (by simp) fun w h1 h2 => ?_
    have hw : w < s.workers.length := by simpa using h2
    simp [wk_eq_getElem s w hw]
  rw [← hmap, List.foldl_map, Dsp.sum]

/-! What the barriers write of a worker (20_memory R88). -/

/-- Every worker there is has a property of its registers. -/
theorem workers_all {p : Worker → Bool} (h : ∀ w, w < s.T → p (s.wk w) = true) : s.workers.all p = true := by
  refine List.all_eq_true.mpr fun k hk => ?_
  obtain ⟨w, hw, rfl⟩ := List.mem_iff_getElem.mp hk
  rw [← wk_eq_getElem s w hw]
  exact h w hw

/-- `SIG WD[v]` alone ends worker `v`'s hold on its slots. -/
theorem holds_leavePhase {x : Barrier} (hx : barrierLegal s.T x = true) (v : Nat) :
    ((s.leavePhase x).wk v).holds = ((s.wk v).holds && decide (x ≠ .wd v)) := by
  cases x with
  | wd w =>
    have hw : w < s.workers.length := of_decide_eq_true hx
    rw [State.leavePhase, wk_setWk]
    by_cases hv : v = w
    · simp [hv, hw]
    · simp [hv, Ne.symm hv]
  | cs | ce | ws _ | wp _ | wf _ => simp [State.leavePhase]

/-- `WAIT WS[v]` alone gives worker `v` its slots. -/
theorem holds_enterPhase {x : Barrier} (hx : barrierLegal s.T x = true) (v : Nat) :
    ((s.enterPhase x).wk v).holds = ((s.wk v).holds || decide (x = .ws v)) := by
  cases x with
  | ws w =>
    have hw : w < s.workers.length := of_decide_eq_true hx
    rw [State.enterPhase, wk_setWk]
    by_cases hv : v = w
    · simp [hv, hw]
    · simp [hv, Ne.symm hv]
  | wp w => rw [State.enterPhase, wk_setWk_keeps Worker.holds] <;> simp
  | wf w => rw [State.enterPhase, wk_setWk_keeps Worker.holds] <;> simp
  | cs | ce | wd _ => simp [State.enterPhase]

/-- `WAIT WF[v + 1]` alone lets worker `v` read its neighbour's first row. -/
theorem sawWf_enterPhase {x : Barrier} (hx : barrierLegal s.T x = true) (h0 : x ≠ .wf 0) (v : Nat) :
    ((s.enterPhase x).wk v).sawWf = ((s.wk v).sawWf || decide (x = .wf (v + 1))) := by
  cases x with
  | wf w =>
    have hw : w < s.workers.length := of_decide_eq_true hx
    obtain ⟨u, rfl⟩ := Nat.exists_eq_succ_of_ne_zero (fun e => h0 (e ▸ rfl) : w ≠ 0)
    rw [State.enterPhase, wk_setWk]
    by_cases hv : v = u
    · simp [hv, Nat.lt_of_succ_lt hw]
    · simp [hv, Ne.symm hv]
  | wp w => rw [State.enterPhase, wk_setWk_keeps Worker.sawWf] <;> simp
  | ws w => rw [State.enterPhase, wk_setWk_keeps Worker.sawWf] <;> simp
  | cs | ce | wd _ => simp [State.enterPhase]

/-- `WAIT WP[v]` alone lets the coordinator read worker `v`'s sum. -/
theorem sawWp_enterPhase {x : Barrier} (hx : barrierLegal s.T x = true) (v : Nat) :
    ((s.enterPhase x).wk v).sawWp = ((s.wk v).sawWp || decide (x = .wp v)) := by
  cases x with
  | wp w =>
    have hw : w < s.workers.length := of_decide_eq_true hx
    rw [State.enterPhase, wk_setWk]
    by_cases hv : v = w
    · simp [hv, hw]
    · simp [hv, Ne.symm hv]
  | ws w => rw [State.enterPhase, wk_setWk_keeps Worker.sawWp] <;> simp
  | wf w => rw [State.enterPhase, wk_setWk_keeps Worker.sawWp] <;> simp
  | cs | ce | wd _ => simp [State.enterPhase]

/-- A passed `WAIT` writes its own flag alone: the consumed classes are cleared (45 R262). -/
theorem flag_written_wait {x : Barrier} (y : Barrier) (hx : barrierLegal s.T x = true) (hf : s.flag x = true) :
    (written s (.wait x)).flag y = if y = x then !isConsumed x else s.flag y := by
  rw [written, flag_enterPhase]
  by_cases hy : y = x
  · rw [if_pos hy, hy]
    cases isConsumed x
    · exact hf
    · exact flag_setFlag_same s x false hx
  · rw [if_neg hy]
    split
    · exact flag_setFlag_of_ne s x y false hy
    · rfl

/-- Of a worker's registers a passed `WAIT` writes the flags it consumes and the phases it begins. -/
theorem wk_written_wait {x : Barrier} (hx : barrierLegal s.T x = true) (h0 : x ≠ .wf 0) (v : Nat) :
    (written s (.wait x)).wk v = { s.wk v with
      ws := ((written s (.wait x)).wk v).ws
      holds := ((s.wk v).holds || decide (x = .ws v)), sawWf := ((s.wk v).sawWf || decide (x = .wf (v + 1)))
      sawWp := ((s.wk v).sawWp || decide (x = .wp v)) } := by
  have hcleared : ∀ w, (if isConsumed x then s.setFlag x false else s).wk w
      = { s.wk w with ws := ((if isConsumed x then s.setFlag x false else s).wk w).ws } := fun w => by
    cases x with
    | ws u => simp only [isConsumed, State.setFlag, if_true, wk_setWk]; split <;> simp_all
    | cs | ce | wp _ | wf _ | wd _ => rfl
  have hT : (if isConsumed x then s.setFlag x false else s).T = s.T := by split <;> simp
  rw [← hT] at hx
  rw [written, wk_enterPhase, holds_enterPhase hx, sawWf_enterPhase hx h0, sawWp_enterPhase hx, hcleared v]

/-- The state a passed `WAIT` or a `SIG` leaves differs in flags, workers and positions alone. -/
theorem advance_written_wait_frame (s : State) (x : Barrier) :
    (written s (.wait x)).advance = { s with
      cs := (written s (.wait x)).advance.cs, ce := (written s (.wait x)).advance.ce
      workers := (written s (.wait x)).advance.workers, acqSub := (written s (.wait x)).advance.acqSub
      coPc := (written s (.wait x)).advance.coPc } := by
  rw [advance_frame]
  cases x <;> rfl

theorem advance_written_sig_frame (s : State) (x : Barrier) :
    (written s (.sig x)).advance = { s with
      cs := (written s (.sig x)).advance.cs, ce := (written s (.sig x)).advance.ce
      workers := (written s (.sig x)).advance.workers, acqSub := (written s (.sig x)).advance.acqSub
      coPc := (written s (.sig x)).advance.coPc } := by
  rw [advance_frame]
  cases x <;> rfl

end Sys2Proof.Machine

open Sys2Proof Sys2Proof.Machine

/-- Settles O39: the three operations complete; the sum over the workers is the sum over their list. -/
theorem coordinatorResults : Obligations.CoordinatorResults := by
  refine ⟨⟨by decide, fun s hs => ⟨_, exec_of_coord (i := .rel) hs trivial, rfl, List.length_map _, fun w hw => ?rel⟩⟩,
    by decide, by decide, fun s hs => ⟨fun hsaw => ⟨_, exec_of_coord (i := .phavg) hs trivial
    (hp := workers_all hsaw), ?phavg⟩, _, exec_of_coord (i := .ffupd) hs trivial, rfl⟩⟩
  case rel => exact (wk_map_released s w).trans (if_pos hw)
  case phavg =>
    rw [← sum_phSlot]
    rfl

/-- Settles O43: `SWAP` completes in its phase, and the buffers' names are exchanged. -/
theorem swapResult : Obligations.SwapResult := by
  refine ⟨by decide, fun s hs hpc hcs hidle => ⟨_, exec_of_ingest (i := .swap) hs trivial (hp := ?_), rfl, ?_, ?_⟩⟩
  · have hall : (s.workers.all fun k => !k.holds && !k.ws) = true :=
      workers_all fun w hw => by simp [(hidle w hw).1, (hidle w hw).2]
    simp [inPhase, hpc, hcs, hall]
  · exact (swap_exchanges (s := s) (.completed trivial)).1
  · exact (swap_exchanges (s := s) (.completed trivial)).2

/-- Settles O41: `SIG` has no condition but the entitlement; it writes its flag and ends its phase. -/
theorem sigResult : Obligations.SigResult := by
  intro x s ha hx hmay
  have hx' : barrierLegal (s.setFlag x true).T x = true := by rwa [setFlag_T]
  refine ⟨_, exec_of_completes (i := .sig x) (issueCheck_none.mpr ⟨ha, hx, hmay, rfl, rfl⟩) trivial,
    advance_written_sig_frame s x, by simp, ?same, fun y hy => ?other, fun v => ?worker⟩
  case same => rw [flag_advance, written, flag_leavePhase, flag_setFlag_same s x true hx]
  case other => rw [flag_advance, written, flag_leavePhase, flag_setFlag_of_ne s x y true hy]
  case worker => rw [wk_advance_pc, written, wk_leavePhase, holds_leavePhase hx', wk_setFlag]


/-- Settles O42: under `stop` the agent is stopped, with the flag clear it is blocked, with the flag set it passes. -/
theorem waitResult : Obligations.WaitResult := by
  intro x s ha hx hmay
  have h0 : x ≠ .wf 0 := by
    rintro rfl
    simp [mayWait] at hmay
  have hcheck : issueCheck s (.wait x) = none :=
    issueCheck_none.mpr ⟨ha, by simp [operandsLegal, hx, h0], hmay, rfl, rfl⟩
  refine ⟨fun hstop => ⟨_, exec_of_stop hcheck rfl hstop, flag_setStopped s, next_of_setStopped ha⟩,
    fun hs hf => exec_of_isBlockedAt hcheck hs hf, fun hs hf => ⟨_, exec_of_completes (i := .wait x) hcheck ⟨hs, hf⟩,
    advance_written_wait_frame s x, by simp, ?flag, fun y hy => ?others, fun v => ?worker, fun hc hst hsub => ?ingest,
    fun hc => ?coord, fun w hc => ?pc, fun hc => ?_, fun hc => ?_, fun v hc => ?_⟩⟩
  case flag =>
    rw [flag_advance, flag_written_wait x hx hf, if_pos rfl]
    cases x <;> rfl
  case others => rw [flag_advance, flag_written_wait y hx hf, if_neg hy]
  case worker => rw [wk_advance_pc, wk_written_wait hx h0]
  case ingest =>
    rw [advance_acqSub, if_pos (by simp [hc]), nextSub_eq_succ _ (by simp [hst]; omega), written_acqSub]
  case coord => simp [hc, nextCoPc]
  case pc =>
    have hw : w < s.T := by simpa [agentExists, hc] using ha
    simp [wk_advance, hc, hw, nextWkPc]
  all_goals simp [hc, wk_advance]

/-- Settles O40: the four outcomes of `EMIT`, of which the one that raises `frame_valid` offers the frame. -/
theorem emitResult : Obligations.EmitResult := by
  refine ⟨⟨by decide, fun s hc hs => ?outcomes⟩, fun s t rest hturns hnext hen hhalt hstep => ?frames⟩
  case outcomes =>
    have hcheck : issueCheck s .emit = none := issueCheck_none.mpr (by rw [hc]; exact ⟨rfl, rfl, rfl, rfl, rfl⟩)
    exact ⟨fun ha => ⟨_, exec_of_ends hcheck (.armed hs ha), rfl, rfl⟩,
      fun ha hv => exec_of_isBlockedAt (i := .emit) hcheck hs ⟨ha, hv⟩,
      fun ha hv => ⟨_, exec_of_coord (i := .emit) hc ⟨hs, ha, hv⟩, rfl⟩⟩
  case frames =>
    have hrun : exec .emit { s with turns := rest, cur := .coord } = .next t := by
      rw [← runAgent_of_nextInstr (s := { s with turns := rest }) (a := .coord) hen hhalt rfl hnext rfl, ← step_of_run hturns]
      exact hstep
    have htake : takeTurn s = .next t := hstep
    simp only [framesOffered, htake]
    cases ends_of_exec_next hrun with
    | completed hc =>
      obtain ⟨-, harmed, -⟩ := hc
      have harmed : s.emitArmed = true := harmed
      simp [harmed]
    | stopped _ hstop =>
      have hstop : s.stop = true := hstop
      simp [hstop]
    | blocked hb _ =>
      have harmed : s.emitArmed = true := hb.1
      simp [harmed]
    | armed hs ha =>
      have hs : s.stop = false := hs
      have ha : s.emitArmed = false := ha
      simp [hs, ha]
      rfl

end

section
/-! The values of NUM: patterns, magnitudes and their order (00_scope R9, R11). -/

namespace Sys2Proof.Fp

/-- The magnitude that a magnitude pattern stands for, in units of `2^-149`; the pattern of `+∞` and those behind it go on
as if the exponent were longer. -/
def magValue (m : Nat) : Nat := if m < 8388608 then m else (m % 8388608 + 8388608) * 2 ^ (m / 8388608 - 1)

theorem units_eq (x : NUM) : units x = magValue (magBits x) := rfl

/-- A significand `m` at scale `2^k` has the pattern `k·2^23 + m`, that of the next power of two included. -/
theorem magValue_pattern {k m : Nat} (hlow : k = 0 ∨ 8388608 ≤ m) (hhigh : m ≤ 16777216) :
    magValue (k * 8388608 + m) = m * 2 ^ k := by
  unfold magValue
  by_cases hsub : m < 8388608
  · obtain rfl : k = 0 := by omega
    rw [if_pos (by omega)]
    simp
  · rw [if_neg (by omega)]
    obtain hlt | rfl : m < 16777216 ∨ m = 16777216 := by omega
    · rw [show (k * 8388608 + m) % 8388608 = m - 8388608 by omega, show (k * 8388608 + m) / 8388608 - 1 = k by omega,
        show m - 8388608 + 8388608 = m by omega]
    · rw [show (k * 8388608 + 16777216) % 8388608 = 0 by omega,
        show (k * 8388608 + 16777216) / 8388608 - 1 = k + 1 by omega, Nat.pow_succ]
      omega

/-- Every pattern is one of a significand below `2^24`. -/
theorem exists_pattern (n : Nat) : ∃ k m, n = k * 8388608 + m ∧ (k = 0 ∨ 8388608 ≤ m) ∧ m < 16777216 := by
  by_cases h : n < 16777216
  · exact ⟨0, n, by omega, .inl rfl, h⟩
  · exact ⟨n / 8388608 - 1, n % 8388608 + 8388608, by omega, by omega, by omega⟩

/-- The step from one magnitude to the next is the scale. -/
theorem magValue_succ {k m : Nat} (hlow : k = 0 ∨ 8388608 ≤ m) (hhigh : m < 16777216) :
    magValue (k * 8388608 + m + 1) = magValue (k * 8388608 + m) + 2 ^ k := by
  rw [Nat.add_assoc, magValue_pattern (by omega) (by omega), magValue_pattern hlow (by omega), Nat.succ_mul]

theorem magValue_strictMono : StrictMono magValue := by
  refine strictMono_nat_of_lt_succ fun n => ?_
  obtain ⟨k, m, rfl, hlow, hhigh⟩ := exists_pattern n
  rw [magValue_succ hlow hhigh]
  exact Nat.lt_add_of_pos_right (Nat.two_pow_pos k)

@[simp] theorem magValue_zero : magValue 0 = 0 := rfl

/-- A number of at most 24 bits at any scale is a magnitude. -/
theorem exists_magValue (j : Nat) {c : Nat} (hc : c < 16777216) : ∃ n, magValue n = c * 2 ^ j := by
  induction j generalizing c with
  | zero => exact ⟨0 * 8388608 + c, magValue_pattern (.inl rfl) hc.le⟩
  | succ j ih =>
    by_cases hsmall : c < 8388608
    · obtain ⟨n, hn⟩ := ih (c := 2 * c) (by omega)
      exact ⟨n, by rw [hn, Nat.pow_succ]; ring⟩
    · exact ⟨(j + 1) * 8388608 + c, magValue_pattern (.inr (by omega)) hc.le⟩

/-! Patterns with a sign. -/

theorem magBits_lt (x : NUM) : magBits x < 2147483648 := Nat.mod_lt _ (by decide)

theorem toNat_eq (x : NUM) : x.toNat = (if neg? x then 2147483648 else 0) + magBits x := by
  have hlt := x.isLt
  unfold magBits neg?
  by_cases h : 2147483648 ≤ x.toNat
  · simp only [h, decide_true, if_true]
    omega
  · simp only [h, decide_false]
    simp
    omega

/-- A pattern is its sign and its magnitude. -/
theorem ext {x y : NUM} (hneg : neg? x = neg? y) (hmag : magBits x = magBits y) : x = y := by
  refine BitVec.eq_of_toNat_eq ?_
  rw [toNat_eq x, toNat_eq y, hneg, hmag]

theorem toNat_pack (neg : Bool) {m : Nat} (hm : m < 2147483648) :
    (pack neg m).toNat = (if neg then 2147483648 else 0) + m := by
  rw [pack, BitVec.toNat_ofNat]
  cases neg
  · simp
    omega
  · simp
    omega

@[simp] theorem magBits_pack (neg : Bool) {m : Nat} (hm : m < 2147483648) : magBits (pack neg m) = m := by
  rw [magBits, toNat_pack neg hm]
  cases neg
  · simpa using hm
  · simpa using hm

@[simp] theorem neg?_pack (neg : Bool) {m : Nat} (hm : m < 2147483648) : neg? (pack neg m) = neg := by
  rw [neg?, toNat_pack neg hm]
  cases neg
  · simpa using hm
  · simp

theorem neg?_eq_msb (x : NUM) : neg? x = x.msb := (BitVec.msb_eq_decide x).symm

@[simp] theorem magBits_neg (x : NUM) : magBits (neg x) = magBits x := by
  show (x ^^^ 0x80000000#32).toNat % 2 ^ 31 = x.toNat % 2 ^ 31
  rw [BitVec.toNat_xor, Nat.xor_mod_two_pow]
  exact Nat.xor_zero _

@[simp] theorem neg?_neg (x : NUM) : neg? (neg x) = !neg? x := by
  have hmask : (0x80000000#32).msb = true := by decide
  rw [neg?_eq_msb, neg?_eq_msb, neg, BitVec.msb_xor, hmask, Bool.xor_true]

@[simp] theorem magBits_abs (x : NUM) : magBits (abs x) = magBits x := by
  have hand : (abs x).toNat = magBits x := by
    rw [abs, BitVec.toNat_and]
    exact Nat.and_two_pow_sub_one_eq_mod x.toNat 31
  rw [magBits, hand, Nat.mod_eq_of_lt (magBits_lt x)]

@[simp] theorem neg?_abs (x : NUM) : neg? (abs x) = false := by
  have hmask : (0x7FFFFFFF#32).msb = false := by decide
  rw [neg?_eq_msb, abs, BitVec.msb_and, hmask, Bool.and_false]

/-- A number without a sign is its own magnitude. -/
theorem abs_pack {m : Nat} (neg : Bool) (hm : m < 2147483648) : abs (pack neg m) = pack false m :=
  ext (by simp [hm]) (by simp [hm])

/-! The order (00_scope R11). -/

section
variable {a b c : NUM}

theorem lt_iff : lt a b = true ↔ isNaN a = false ∧ isNaN b = false ∧ key a < key b := by
  simp [lt, and_assoc]

theorem le_iff : le a b = true ↔ isNaN a = false ∧ isNaN b = false ∧ key a ≤ key b := by
  simp [le, and_assoc]

theorem isNaN_of_isFinite (h : isFinite a = true) : isNaN a = false := by
  have hmag := of_decide_eq_true h
  simp only [isNaN, decide_eq_false_iff_not]
  omega

theorem isInf_of_isFinite (h : isFinite a = true) : isInf a = false := by
  have hmag := of_decide_eq_true h
  simp only [isInf, decide_eq_false_iff_not]
  omega

theorem sunits_eq (a : NUM) : sunits a = if neg? a then -(magValue (magBits a) : Int) else (magValue (magBits a) : Int) := rfl

theorem natAbs_sunits (a : NUM) : (sunits a).natAbs = magValue (magBits a) := by
  rw [sunits_eq]
  split <;> simp

/-- The order of the patterns is that of the values. -/
theorem key_lt_iff : key a < key b ↔ sunits a < sunits b := by
  have hmono {m n : Nat} : magValue m < magValue n ↔ m < n := magValue_strictMono.lt_iff_lt
  have hpos {m : Nat} : 0 < magValue m ↔ 0 < m := hmono (m := 0)
  have h1 := hmono (m := magBits a) (n := magBits b)
  have h2 := hmono (m := magBits b) (n := magBits a)
  have h3 := hpos (m := magBits a)
  have h4 := hpos (m := magBits b)
  simp only [key, sunits_eq]
  split <;> split <;> omega

theorem key_le_iff : key a ≤ key b ↔ sunits a ≤ sunits b := by
  rw [← not_lt, key_lt_iff, not_lt]

theorem value_lt_iff : value a < value b ↔ sunits a < sunits b := by
  rw [value, value, div_lt_div_iff_of_pos_right (by positivity), Int.cast_lt]

theorem value_le_iff : value a ≤ value b ↔ sunits a ≤ sunits b := by
  rw [← not_lt, value_lt_iff, not_lt]

/-- `lt` is the order of the values of finite operands. -/
theorem lt_iff_value (ha : isFinite a = true) (hb : isFinite b = true) : lt a b = true ↔ value a < value b := by
  rw [lt_iff, value_lt_iff, key_lt_iff]
  simp [isNaN_of_isFinite ha, isNaN_of_isFinite hb]

theorem le_iff_value (ha : isFinite a = true) (hb : isFinite b = true) : le a b = true ↔ value a ≤ value b := by
  rw [le_iff, value_le_iff, key_le_iff]
  simp [isNaN_of_isFinite ha, isNaN_of_isFinite hb]

/-- A value between two finite ones is finite. -/
theorem isFinite_of_le_of_le (hb : isFinite b = true) (hc : isFinite c = true) (h1 : le b a = true) (h2 : le a c = true) :
    isFinite a = true := by
  have hmb := of_decide_eq_true hb
  have hmc := of_decide_eq_true hc
  obtain ⟨-, -, h1⟩ := le_iff.mp h1
  obtain ⟨-, -, h2⟩ := le_iff.mp h2
  simp only [key] at h1 h2
  refine decide_eq_true ?_
  split_ifs at h1 h2 <;> omega

end

end Sys2Proof.Fp
end

section
/-! Rounding: `roundQ` answers the nearest value, ties to even, and every operation of finite operands is a rounding of the
exact result (00_scope R9, R11). -/

namespace Sys2Proof.Fp

/-- `R` is the pattern of the nearer of two neighbouring magnitudes around `ρ`, of the even one if they are as near. -/
def RoundsTo (ρ : ℝ) (R : Nat) : Prop :=
  ∃ M : Nat, (magValue M : ℝ) ≤ ρ ∧ ρ ≤ magValue (M + 1)
    ∧ ((R = M ∧ (2 * ρ < magValue M + magValue (M + 1) ∨ 2 * ρ = magValue M + magValue (M + 1) ∧ M % 2 = 0))
      ∨ (R = M + 1 ∧ (magValue M + magValue (M + 1) < 2 * ρ ∨ 2 * ρ = magValue M + magValue (M + 1) ∧ M % 2 = 1)))

variable {ρ : ℝ} {R n : Nat}

/-- No magnitude is nearer, and if another is as near the pattern is even. -/
theorem RoundsTo.nearest (h : RoundsTo ρ R) (n : Nat) :
    |(magValue R : ℝ) - ρ| ≤ |(magValue n : ℝ) - ρ|
      ∧ (|(magValue n : ℝ) - ρ| = |(magValue R : ℝ) - ρ| → n ≠ R → R % 2 = 0) := by
  obtain ⟨M, hlow, hhigh, hR⟩ := h
  have hbelow : n < M → (magValue n : ℝ) < magValue M := fun hn => by exact_mod_cast magValue_strictMono hn
  have habove : M + 1 < n → (magValue (M + 1) : ℝ) < magValue n := fun hn => by exact_mod_cast magValue_strictMono hn
  have hcases : n < M ∨ n = M ∨ n = M + 1 ∨ M + 1 < n := by omega
  obtain ⟨rfl, hside⟩ | ⟨rfl, hside⟩ := hR
  · have hmid : 2 * ρ ≤ magValue R + magValue (R + 1) := hside.elim le_of_lt fun h => h.1.le
    have htie : 2 * ρ = magValue R + magValue (R + 1) → R % 2 = 0 := fun h => hside.elim (fun h' => absurd h h'.ne) (·.2)
    rw [abs_of_nonpos (by linarith : (magValue R : ℝ) - ρ ≤ 0)]
    obtain hn | rfl | rfl | hn := hcases
    · have := hbelow hn
      rw [abs_of_nonpos (by linarith)]
      exact ⟨by linarith, fun h => by linarith⟩
    · rw [abs_of_nonpos (by linarith)]
      exact ⟨le_rfl, by simp⟩
    · rw [abs_of_nonneg (by linarith)]
      exact ⟨by linarith, fun h _ => htie (by linarith)⟩
    · have := habove hn
      rw [abs_of_nonneg (by linarith)]
      exact ⟨by linarith, fun h => by linarith⟩
  · have hmid : (magValue M : ℝ) + magValue (M + 1) ≤ 2 * ρ := hside.elim le_of_lt fun h => h.1.ge
    have htie : 2 * ρ = magValue M + magValue (M + 1) → M % 2 = 1 := fun h => hside.elim (fun h' => absurd h h'.ne') (·.2)
    rw [abs_of_nonneg (by linarith : (0 : ℝ) ≤ magValue (M + 1) - ρ)]
    obtain hn | rfl | rfl | hn := hcases
    · have := hbelow hn
      rw [abs_of_nonpos (by linarith)]
      exact ⟨by linarith, fun h => by linarith⟩
    · rw [abs_of_nonpos (by linarith)]
      exact ⟨by linarith, fun h _ => by have := htie (by linarith); omega⟩
    · rw [abs_of_nonneg (by linarith)]
      exact ⟨le_rfl, by simp⟩
    · have := habove hn
      rw [abs_of_nonneg (by linarith)]
      exact ⟨by linarith, fun h => by linarith⟩

/-- A magnitude is its own rounding. -/
theorem RoundsTo.eq_of_exact (h : RoundsTo (magValue n) R) : R = n := by
  have hdist := (h.nearest n).1
  rw [sub_self, abs_zero] at hdist
  have hzero := abs_eq_zero.mp (le_antisymm hdist (abs_nonneg _))
  exact magValue_strictMono.injective (by exact_mod_cast sub_eq_zero.mp hzero)

/-- Rounding keeps an upper bound that is a magnitude. -/
theorem RoundsTo.le_of_le (h : RoundsTo ρ R) (hn : ρ ≤ magValue n) : R ≤ n := by
  by_contra hlt
  have hgt : (magValue n : ℝ) < magValue R := by exact_mod_cast magValue_strictMono (by omega : n < R)
  have hdist := (h.nearest n).1
  rw [abs_of_nonneg (by linarith), abs_of_nonneg (by linarith)] at hdist
  linarith

/-- Rounding keeps a lower bound that is a magnitude. -/
theorem RoundsTo.le_of_ge (h : RoundsTo ρ R) (hn : (magValue n : ℝ) ≤ ρ) : n ≤ R := by
  by_contra hlt
  have hgt : (magValue R : ℝ) < magValue n := by exact_mod_cast magValue_strictMono (by omega : R < n)
  have hdist := (h.nearest n).1
  rw [abs_of_nonpos (by linarith), abs_of_nonpos (by linarith)] at hdist
  linarith

/-! Overflow. -/

theorem magValue_inf : magValue 2139095040 = 33554432 * 2 ^ 252 :=
  (magValue_pattern (k := 253) (m := 16777216) (.inr (by decide)) le_rfl).trans (by rw [Nat.pow_succ 2 252]; ring)

theorem magValue_max : magValue 2139095039 = 33554430 * 2 ^ 252 :=
  (magValue_pattern (k := 253) (m := 16777215) (.inr (by decide)) (by decide)).trans (by rw [Nat.pow_succ 2 252]; ring)

/-- The pattern is that of `+∞` or one behind it from the middle between the last finite magnitude and the next on. -/
theorem RoundsTo.overflow_iff (h : RoundsTo ρ R) : 2139095040 ≤ R ↔ (33554431 * 2 ^ 252 : ℝ) ≤ ρ := by
  have hinf : (magValue 2139095040 : ℝ) = 33554432 * 2 ^ 252 := by rw [magValue_inf]; norm_num
  have hmax : (magValue 2139095039 : ℝ) = 33554430 * 2 ^ 252 := by rw [magValue_max]; norm_num
  have hu : (0 : ℝ) < 2 ^ 252 := by positivity
  constructor
  · intro hR
    by_contra hlt
    have hge : (magValue 2139095040 : ℝ) ≤ magValue R := by exact_mod_cast magValue_strictMono.monotone hR
    have hdist := (h.nearest 2139095039).1
    rw [hinf] at hge
    rw [hmax, abs_of_nonneg (by linarith)] at hdist
    obtain habs | habs := abs_cases ((33554430 * 2 ^ 252 : ℝ) - ρ)
    · linarith
    · linarith
  · intro hρ
    by_contra hlt
    have hle : (magValue R : ℝ) ≤ magValue 2139095039 := by
      exact_mod_cast magValue_strictMono.monotone (by omega : R ≤ 2139095039)
    obtain ⟨hdist, htie⟩ := h.nearest 2139095040
    rw [hmax] at hle
    rw [hinf, abs_of_nonpos (by linarith : (magValue R : ℝ) - ρ ≤ 0)] at hdist htie
    have heq : |(33554432 * 2 ^ 252 : ℝ) - ρ| = -((magValue R : ℝ) - ρ) ∧ (magValue R : ℝ) = 33554430 * 2 ^ 252 := by
      obtain habs | habs := abs_cases ((33554432 * 2 ^ 252 : ℝ) - ρ)
      · exact ⟨by linarith, by linarith⟩
      · linarith
    have hR : R = 2139095039 := magValue_strictMono.injective (by rw [← hmax] at heq; exact_mod_cast heq.2)
    have := htie heq.1 (by omega)
    omega

/-! The rounding of a ratio. -/

/-- The pattern `roundMag` finds before it is cut off at that of `+∞`. -/
def roundPat (num den : Nat) : Nat :=
  let k := if num / den < 16777216 then 0 else Nat.log2 (num / den) - 23
  let d := den * 2 ^ k
  let m := num / d
  let r := num % d
  k * 8388608 + if d < 2 * r ∨ (2 * r = d ∧ m % 2 = 1) then m + 1 else m

theorem roundMag_eq (num den : Nat) : roundMag num den = min (roundPat num den) 2139095040 := rfl

/-- The scale of a ratio leaves a significand of at most 24 bits, of exactly 24 unless the scale is 0. -/
theorem significand_bounds (num : Nat) {den k : Nat}
    (hk : k = if num / den < 16777216 then 0 else Nat.log2 (num / den) - 23) :
    (k = 0 ∨ 8388608 ≤ num / (den * 2 ^ k)) ∧ num / (den * 2 ^ k) < 16777216 := by
  rw [← Nat.div_div_eq_div_mul]
  split at hk
  · next hsmall =>
    subst hk
    simpa using hsmall
  · next hbig =>
    have hne : num / den ≠ 0 := by omega
    have hlog : 24 ≤ Nat.log2 (num / den) := (Nat.le_log2 hne).mpr (by omega)
    have hlow : 2 ^ Nat.log2 (num / den) ≤ num / den := Nat.log2_self_le hne
    have hhigh : num / den < 2 ^ (Nat.log2 (num / den) + 1) := Nat.lt_log2_self
    have hl : Nat.log2 (num / den) = 23 + k := by omega
    rw [hl, Nat.pow_add] at hlow
    rw [hl, show 23 + k + 1 = 24 + k by omega, Nat.pow_add] at hhigh
    exact ⟨.inr ((Nat.le_div_iff_mul_le (Nat.two_pow_pos k)).mpr hlow), (Nat.div_lt_iff_lt_mul (Nat.two_pow_pos k)).mpr hhigh⟩

/-- `roundMag` rounds its ratio. -/
theorem roundsTo_roundPat (num : Nat) {den : Nat} (hden : 0 < den) : RoundsTo ((num : ℝ) / den) (roundPat num den) := by
  obtain ⟨k, hk⟩ : ∃ k, k = if num / den < 16777216 then 0 else Nat.log2 (num / den) - 23 := ⟨_, rfl⟩
  obtain ⟨hlow, hhigh⟩ := significand_bounds num hk
  obtain ⟨d, hd⟩ : ∃ d, d = den * 2 ^ k := ⟨_, rfl⟩
  have hpat : roundPat num den = k * 8388608 + if d < 2 * (num % d) ∨ (2 * (num % d) = d ∧ num / d % 2 = 1)
      then num / d + 1 else num / d := by
    rw [roundPat, ← hk, ← hd]
  rw [← hd] at hlow hhigh
  have hdpos : 0 < d := hd ▸ Nat.mul_pos hden (Nat.two_pow_pos k)
  have hM := magValue_pattern hlow hhigh.le
  have hM1 := magValue_succ hlow hhigh
  have hdiv := Nat.div_add_mod num d
  have hmod := Nat.mod_lt num hdpos
  generalize num / d = m at *
  generalize num % d = r at *
  have hden' : (0 : ℝ) < den := by exact_mod_cast hden
  have hscaled : m * 2 ^ k * den + r = num := by rw [← hdiv, hd]; ring
  have hstep : 2 ^ k * den = d := by rw [hd]; ring
  have hnum : (num : ℝ) = m * 2 ^ k * den + r := by exact_mod_cast hscaled.symm
  have hd' : (2 : ℝ) ^ k * den = d := by exact_mod_cast hstep
  have hr : (r : ℝ) < d := by exact_mod_cast hmod
  have hlower : (magValue (k * 8388608 + m) : ℝ) = m * 2 ^ k := by rw [hM]; push_cast; ring
  have hupper : (magValue (k * 8388608 + m + 1) : ℝ) = m * 2 ^ k + 2 ^ k := by rw [hM1, hM]; push_cast; ring
  refine ⟨k * 8388608 + m, ?_, ?_, ?_⟩
  · rw [hlower, le_div_iff₀ hden', hnum]
    linarith [Nat.cast_nonneg (α := ℝ) r]
  · rw [hupper, div_le_iff₀ hden', hnum]
    linarith
  · rw [hlower, hupper, hpat, show 2 * ((num : ℝ) / den) = 2 * num / den by ring, div_lt_iff₀ hden', lt_div_iff₀ hden',
      div_eq_iff hden'.ne', hnum]
    split
    · next hup =>
      refine .inr ⟨by omega, ?_⟩
      obtain hgt | ⟨htie, hodd⟩ := hup
      · have hgt' : (d : ℝ) < 2 * r := by exact_mod_cast hgt
        exact .inl (by linarith)
      · have htie' : (2 * r : ℝ) = d := by exact_mod_cast htie
        exact .inr ⟨by linarith, by omega⟩
    · next hdown =>
      refine .inl ⟨rfl, ?_⟩
      obtain hlt | heq | hgt := Nat.lt_trichotomy (2 * r) d
      · have hlt' : (2 * r : ℝ) < d := by exact_mod_cast hlt
        exact .inl (by linarith)
      · have heq' : (2 * r : ℝ) = d := by exact_mod_cast heq
        exact .inr ⟨by linarith, by omega⟩
      · exact absurd (.inl hgt) hdown

end Sys2Proof.Fp
end

section
/-! The operations of NUM answer roundings of their exact results (00_scope R9, R11; 10_state R34). -/

namespace Sys2Proof.Fp

variable {ρ r : ℝ} {R n : Nat} {a b x y : NUM}

/-! Values with a sign. -/

/-- A magnitude with a sign. -/
def signed (neg : Bool) (ρ : ℝ) : ℝ := if neg then -ρ else ρ

theorem abs_signed (neg : Bool) (ρ : ℝ) : |signed neg ρ| = |ρ| := by
  unfold signed
  split <;> simp

theorem value_eq (x : NUM) : (value x : ℝ) = signed (neg? x) (magValue (magBits x)) / 2 ^ 149 := by
  rw [value, sunits_eq, signed]
  split <;> push_cast <;> rfl

theorem signed_div (neg : Bool) (ρ c : ℝ) : signed neg ρ / c = signed neg (ρ / c) := by
  unfold signed
  split <;> ring

/-- The distance of two magnitudes with the same sign; that of two with different signs is at least the second. -/
theorem dist_signed (p q : Bool) {u : ℝ} (hu : 0 ≤ u) (hρ : 0 ≤ ρ) :
    |signed p u - signed q ρ| = if p = q then |u - ρ| else u + ρ := by
  cases p <;> cases q <;> simp only [signed, if_true, Bool.false_eq_true, if_false, reduceCtorEq]
  · rw [sub_neg_eq_add, abs_of_nonneg (by linarith)]
  · rw [← neg_add', abs_neg, abs_of_nonneg (by linarith)]
  · rw [neg_sub_neg, abs_sub_comm]

/-- A pattern's distance from a number of sign `neg`, in units. -/
theorem abs_value_sub (x : NUM) (neg : Bool) (hρ : 0 ≤ ρ) :
    |(value x : ℝ) - signed neg ρ / 2 ^ 149|
      = (if neg? x = neg then |(magValue (magBits x) : ℝ) - ρ| else magValue (magBits x) + ρ) / 2 ^ 149 := by
  rw [value_eq, ← sub_div, abs_div, dist_signed _ _ (Nat.cast_nonneg _) hρ, abs_of_pos (by positivity : (0 : ℝ) < 2 ^ 149)]

/-- A rounded magnitude with a sign, cut off at infinity, is the rounding of the number with that sign. -/
theorem isRounding_pack (neg : Bool) (h : RoundsTo ρ R) (hρ : 0 ≤ ρ) :
    IsRounding (pack neg (min R 2139095040)) (signed neg ρ / 2 ^ 149) := by
  have hu : (0 : ℝ) < 2 ^ 149 := by positivity
  have hlt : min R 2139095040 < 2147483648 := by omega
  have hmag : magBits (pack neg (min R 2139095040)) = min R 2139095040 := magBits_pack neg hlt
  have hneg : neg? (pack neg (min R 2139095040)) = neg := neg?_pack neg hlt
  have habs : |signed neg ρ / 2 ^ 149| = ρ / 2 ^ 149 := by
    rw [abs_div, abs_signed, abs_of_nonneg hρ, abs_of_pos hu]
  have hbound : (2 ^ 128 - 2 ^ 103 : ℝ) = 33554431 * 2 ^ 252 / 2 ^ 149 := by norm_num
  refine ⟨fun hover => ?infinite, fun hfinite => ⟨⟨?finite, fun y _ => ?nearest⟩, fun y _ heq hne => ?even⟩,
    fun hr => ?negative, fun hr => ?positive⟩
  case infinite =>
    rw [habs, hbound, div_le_div_iff_of_pos_right hu] at hover
    have := h.overflow_iff.mpr hover
    exact decide_eq_true (by omega)
  case negative =>
    rw [hneg]
    cases neg
    · exact absurd hr (not_lt.mpr (div_nonneg hρ hu.le))
    · rfl
  case positive =>
    rw [hneg]
    cases neg
    · rfl
    · exact absurd hr (not_lt.mpr (div_nonpos_of_nonpos_of_nonneg (neg_nonpos.mpr hρ) hu.le))
  all_goals
    have hR : R < 2139095040 := by
      rw [habs, hbound, div_lt_div_iff_of_pos_right hu] at hfinite
      exact not_le.mp fun hge => absurd (h.overflow_iff.mp hge) (not_le.mpr hfinite)
    rw [min_eq_left hR.le] at *
  case finite => exact decide_eq_true (by omega)
  case nearest =>
    rw [abs_value_sub _ _ hρ, abs_value_sub _ _ hρ, hneg, hmag, if_pos rfl, div_le_div_iff_of_pos_right hu]
    split
    · exact (h.nearest _).1
    · have hzero := (h.nearest 0).1
      rw [magValue_zero, Nat.cast_zero, zero_sub, abs_neg, abs_of_nonneg hρ] at hzero
      exact hzero.trans (by linarith [Nat.cast_nonneg (α := ℝ) (magValue (magBits y))])
  case even =>
    rw [abs_value_sub _ _ hρ, abs_value_sub _ _ hρ, hneg, hmag, if_pos rfl, div_left_inj' hu.ne'] at heq
    rw [hmag]
    split at heq
    · next hsame =>
      refine (h.nearest (magBits y)).2 heq fun hm => hne ?_
      rw [ext (hsame.trans hneg.symm) (hm.trans hmag.symm)]
    · have hzero := (h.nearest 0).1
      have htie := (h.nearest 0).2
      rw [magValue_zero, Nat.cast_zero, zero_sub, abs_neg, abs_of_nonneg hρ] at hzero htie
      have hy : (magValue (magBits y) : ℝ) = 0 := by linarith [Nat.cast_nonneg (α := ℝ) (magValue (magBits y))]
      refine htie (by linarith) fun hR0 => hne ?_
      rify
      rw [value_eq, value_eq, hy, hmag, ← hR0, magValue_zero, Nat.cast_zero, signed, signed]
      simp

/-- `roundQ` answers the rounding of its ratio. -/
theorem isRounding_roundQ (neg : Bool) (num : Nat) {den : Nat} (hden : 0 < den) (hr : r = signed neg (num / den) / 2 ^ 149) :
    IsRounding (roundQ neg num den) r := by
  rw [hr]
  exact isRounding_pack neg (roundsTo_roundPat num hden) (by positivity)

/-- A zero of either sign is the rounding of zero. -/
theorem isRounding_zero (h : isZero x = true) : IsRounding x 0 := by
  have hpack : x = pack (neg? x) (min 0 2139095040) :=
    ext (by simp) (by rw [magBits_pack _ (by decide)]; exact of_decide_eq_true h)
  have hzero : RoundsTo 0 0 := by simpa [roundPat] using roundsTo_roundPat 0 (den := 1) (by decide)
  have hr := isRounding_pack (neg? x) hzero le_rfl
  rw [← hpack] at hr
  simpa [signed] using hr

/-! The five operations. -/

theorem value_cast (x : NUM) : (value x : ℝ) = (sunits x : ℝ) / 2 ^ 149 := by
  rw [value]
  push_cast
  rfl

theorem isFinite_neg (h : isFinite a = true) : isFinite (neg a) = true := by
  simpa [isFinite] using h

theorem value_neg (a : NUM) : value (neg a) = -value a := by
  rw [value, value, sunits_eq, sunits_eq, neg?_neg, magBits_neg]
  cases neg? a <;> simp [neg_div]

theorem isRounding_add (ha : isFinite a = true) (hb : isFinite b = true) :
    IsRounding (add a b) ((value a : ℝ) + value b) := by
  have hsum : (value a : ℝ) + value b = ((sunits a + sunits b : Int) : ℝ) / 2 ^ 149 := by
    rw [value_cast, value_cast]
    push_cast
    ring
  simp only [add, isNaN_of_isFinite ha, isNaN_of_isFinite hb, isInf_of_isFinite ha, isInf_of_isFinite hb, Bool.or_self,
    Bool.false_eq_true, if_false]
  rw [hsum]
  split
  · next hzero =>
    rw [hzero, Int.cast_zero, zero_div]
    split
    · exact isRounding_zero rfl
    · exact isRounding_zero rfl
  · refine isRounding_roundQ _ _ one_pos ?_
    have habs := Int.natCast_natAbs (sunits a + sunits b)
    have hcast : (((sunits a + sunits b).natAbs : Nat) : ℝ) = ((|sunits a + sunits b| : Int) : ℝ) := by
      rw [← habs, Int.cast_natCast]
    rw [hcast, Nat.cast_one, div_one, signed]
    by_cases hneg : sunits a + sunits b < 0
    · rw [abs_of_neg hneg]
      simp [hneg]
    · rw [abs_of_nonneg (not_lt.mp hneg)]
      simp [hneg]

theorem isRounding_sub (ha : isFinite a = true) (hb : isFinite b = true) :
    IsRounding (sub a b) ((value a : ℝ) - value b) := by
  have hadd := isRounding_add ha (isFinite_neg hb)
  rw [value_neg] at hadd
  push_cast at hadd
  exact hadd

/-- A product of signs. -/
theorem signed_mul (p q : Bool) (u v : ℝ) : signed p u * signed q v = signed (p != q) (u * v) := by
  cases p <;> cases q <;> simp [signed]

theorem isRounding_mul (ha : isFinite a = true) (hb : isFinite b = true) :
    IsRounding (mul a b) ((value a : ℝ) * value b) := by
  simp only [mul, isNaN_of_isFinite ha, isNaN_of_isFinite hb, isInf_of_isFinite ha, isInf_of_isFinite hb, Bool.or_self,
    Bool.false_eq_true, if_false]
  refine isRounding_roundQ _ _ (by positivity) ?_
  rw [value_eq, value_eq, div_mul_div_comm, signed_mul, ← div_div, signed_div, units_eq, units_eq,
    Nat.cast_mul, Nat.cast_pow, Nat.cast_ofNat]

/-- A quotient of signs. -/
theorem signed_div_signed (p q : Bool) (u v : ℝ) : signed p u / signed q v = signed (p != q) (u / v) := by
  cases p <;> cases q <;> simp [signed, div_neg, neg_div]

theorem magValue_pos_of_isZero (h : isZero b = false) : 0 < magValue (magBits b) := by
  have hne : magBits b ≠ 0 := of_decide_eq_false h
  exact magValue_strictMono (by omega : 0 < magBits b)

theorem isRounding_div (ha : isFinite a = true) (hb : isFinite b = true) (hz : isZero b = false) :
    IsRounding (div a b) ((value a : ℝ) / value b) := by
  simp only [div, isNaN_of_isFinite ha, isNaN_of_isFinite hb, isInf_of_isFinite ha, isInf_of_isFinite hb, hz, Bool.or_self,
    Bool.false_eq_true, if_false]
  refine isRounding_roundQ _ _ (magValue_pos_of_isZero hz) ?_
  rw [value_eq, value_eq, div_div_div_cancel_right₀ (by positivity), signed_div_signed, signed_div, units_eq, units_eq]
  congr 1
  rw [Nat.cast_mul, Nat.cast_pow, Nat.cast_ofNat]
  ring

/-! The square root (00_scope R10). -/

/-- The root by bits: the greatest number whose square is at most `n`. -/
theorem isqrtFrom_spec (n k : Nat) {acc : Nat} (hlow : acc * acc ≤ n) (hhigh : n < (acc + 2 ^ k) * (acc + 2 ^ k)) :
    isqrtFrom n k acc * isqrtFrom n k acc ≤ n ∧ n < (isqrtFrom n k acc + 1) * (isqrtFrom n k acc + 1) := by
  induction k generalizing acc with
  | zero => exact ⟨hlow, hhigh⟩
  | succ k ih =>
    rw [isqrtFrom]
    split
    · next h => exact ih h (by rw [Nat.add_assoc, ← Nat.two_mul, ← Nat.pow_succ']; exact hhigh)
    · next h => exact ih hlow (not_le.mp h)

/-- Two numbers strictly between the same neighbouring integers round alike where the magnitudes are even integers. -/
theorem RoundsTo.of_between {ρ' : ℝ} {q : Nat} (h : RoundsTo ρ R) (h1 : (q : ℝ) < ρ) (h2 : ρ < q + 1) (h1' : (q : ℝ) < ρ')
    (h2' : ρ' < q + 1) (hq : 16777216 ≤ q) : RoundsTo ρ' R := by
  have hle : ∀ c : Nat, ρ ≤ c → ρ' < c := fun c hc => by
    have hqc : q < c := by exact_mod_cast h1.trans_le hc
    exact h2'.trans_le (by exact_mod_cast hqc)
  have hge : ∀ c : Nat, (c : ℝ) ≤ ρ → (c : ℝ) < ρ' := fun c hc => by
    have hqc : c < q + 1 := by exact_mod_cast hc.trans_lt h2
    exact (by exact_mod_cast Nat.le_of_lt_succ hqc : (c : ℝ) ≤ q).trans_lt h1'
  obtain ⟨M, hlow, hhigh, hR⟩ := h
  obtain ⟨k, m, hpat, hk, hm⟩ := exists_pattern M
  have hval : magValue M = m * 2 ^ k := by rw [hpat, magValue_pattern hk hm.le]
  have hsucc : magValue (M + 1) = magValue M + 2 ^ k := by rw [hpat, magValue_succ hk hm]
  have hk1 : k ≠ 0 := by
    rintro rfl
    have hqM : q < magValue (M + 1) := by exact_mod_cast h1.trans_le hhigh
    rw [hsucc, hval] at hqM
    omega
  obtain ⟨j, rfl⟩ := Nat.exists_eq_succ_of_ne_zero hk1
  have hmid : (magValue M : ℝ) + magValue (M + 1) = 2 * ((magValue M + 2 ^ j : Nat) : ℝ) := by
    rw [hsucc]
    push_cast [Nat.pow_succ]
    ring
  refine ⟨M, (hge _ hlow).le, (hle _ hhigh).le, ?_⟩
  rw [hmid] at hR ⊢
  obtain ⟨rfl, hside⟩ | ⟨rfl, hside⟩ := hR
  · have hmid' := hle _ (by linarith [hside.elim le_of_lt fun h => h.1.le] : ρ ≤ ((magValue R + 2 ^ j : Nat) : ℝ))
    exact .inl ⟨rfl, .inl (by linarith)⟩
  · have hmid' := hge _ (by linarith [hside.elim le_of_lt fun h => h.1.ge] : ((magValue M + 2 ^ j : Nat) : ℝ) ≤ ρ)
    exact .inr ⟨rfl, .inl (by linarith)⟩

/-- The half unit in place of an inexact remainder rounds as the root does. -/
theorem roundsTo_sqrt {N q : Nat} (hlow : q * q ≤ N) (hhigh : N < (q + 1) * (q + 1)) (hq : 16777216 ≤ q) :
    RoundsTo (Real.sqrt N) (roundPat (if q * q = N then 2 * q else 2 * q + 1) 2) := by
  have hround := roundsTo_roundPat (if q * q = N then 2 * q else 2 * q + 1) (den := 2) (by decide)
  split at hround
  · next heq =>
    rw [if_pos heq]
    have hroot : Real.sqrt N = ((2 * q : Nat) : ℝ) / (2 : Nat) := by
      rw [← heq]
      push_cast
      rw [Real.sqrt_mul_self (Nat.cast_nonneg _)]
      ring
    rwa [hroot]
  · next hne =>
    rw [if_neg hne]
    have hlt : q * q < N := by omega
    have h1 : (q : ℝ) < Real.sqrt N := Real.lt_sqrt_of_sq_lt (by rw [sq]; exact_mod_cast hlt)
    have h2 : Real.sqrt N < q + 1 := by
      rw [Real.sqrt_lt' (by positivity), sq]
      exact_mod_cast hhigh
    refine hround.of_between ?_ ?_ h1 h2 hq
    · push_cast
      linarith
    · push_cast
      linarith

theorem isRounding_sqrt (ha : isFinite a = true) (hnonneg : 0 ≤ value a) :
    IsRounding (sqrt a) (Real.sqrt (value a : ℝ)) := by
  simp only [sqrt, isNaN_of_isFinite ha, isInf_of_isFinite ha, Bool.false_eq_true, if_false]
  cases hz : isZero a
  · have hpos := magValue_pos_of_isZero hz
    have hneg : neg? a = false := by
      by_contra h
      rw [value, sunits_eq, if_pos (by simpa using h)] at hnonneg
      have : (0 : ℚ) < magValue (magBits a) := by exact_mod_cast hpos
      rw [le_div_iff₀ (by positivity)] at hnonneg
      push_cast at hnonneg
      linarith
    simp only [hneg, Bool.false_eq_true, if_false]
    have hN : 2 ^ 149 ≤ units a * 2 ^ 149 := Nat.le_mul_of_pos_left _ hpos
    have hmax : units a < 2 ^ 253 * 2 ^ 24 := by
      have := magValue_strictMono (of_decide_eq_true ha)
      rw [magValue_inf] at this
      exact this.trans_le (by norm_num)
    obtain ⟨hlow, hhigh⟩ := isqrtFrom_spec (units a * 2 ^ 149) 214 (acc := 0) (Nat.zero_le _) (by
      rw [Nat.zero_add]
      calc units a * 2 ^ 149 < 2 ^ 253 * 2 ^ 24 * 2 ^ 149 := Nat.mul_lt_mul_of_pos_right hmax (by positivity)
        _ ≤ 2 ^ 214 * 2 ^ 214 := by norm_num)
    generalize isqrtFrom (units a * 2 ^ 149) 214 0 = q at *
    have hq : 16777216 ≤ q := by
      by_contra hsmall
      have : (q + 1) * (q + 1) ≤ 16777216 * 16777216 := Nat.mul_le_mul (by omega) (by omega)
      have hnum : (16777216 * 16777216 : Nat) ≤ 2 ^ 149 := by norm_num
      omega
    have hround := isRounding_pack false (roundsTo_sqrt hlow hhigh hq) (Real.sqrt_nonneg _)
    have hroot : Real.sqrt (value a : ℝ) = signed false (Real.sqrt ((units a * 2 ^ 149 : Nat) : ℝ)) / 2 ^ 149 := by
      rw [signed, if_neg (by simp), value_eq, hneg, signed, if_neg (by simp), ← units_eq]
      have hsq : ((units a * 2 ^ 149 : Nat) : ℝ) = (units a : ℝ) / 2 ^ 149 * (2 ^ 149) ^ 2 := by
        rw [Nat.cast_mul, Nat.cast_pow, Nat.cast_ofNat]
        field_simp
      rw [hsq, Real.sqrt_mul (by positivity), Real.sqrt_sq (by positivity)]
      field_simp
    rw [hroot]
    exact hround
  · have hval : value a = 0 := by
      rw [value, sunits_eq, of_decide_eq_true hz, magValue_zero]
      simp
    rw [if_pos rfl, hval]
    simpa using isRounding_zero hz

end Sys2Proof.Fp

open Sys2Proof Sys2Proof.Machine

/-- Settles O48: the pattern found is that of the nearer of two neighbouring magnitudes, so no other is nearer; each
operation hands `roundQ` its exact result, and the square root a number that rounds as it does. -/
theorem roundingIsToNearestEven : Obligations.RoundingIsToNearestEven := by
  refine ⟨fun num den hden hfin m hm => ?ratio, fun a b ha hb => ⟨Fp.isRounding_add ha hb, Fp.isRounding_sub ha hb,
    Fp.isRounding_mul ha hb, Fp.isRounding_div ha hb, Fp.isRounding_sqrt ha⟩⟩
  have hpat : Fp.roundMag num den = Fp.roundPat num den := by
    rw [Fp.roundMag_eq] at hfin ⊢
    omega
  have hunits : ∀ n, n < 2139095040 → Fp.units (BitVec.ofNat 32 n) = Fp.magValue n := fun n hn => by
    have hpack : BitVec.ofNat 32 n = Fp.pack false n := rfl
    rw [hpack, Fp.units_eq, Fp.magBits_pack false (by omega)]
  have hscale : ∀ n : Nat, ((((Fp.magValue n * den : Int) - num).natAbs : Nat) : ℝ)
      = |(Fp.magValue n : ℝ) - num / den| * den := fun n => by
    have hpos : (0 : ℝ) < den := by exact_mod_cast hden
    rw [← abs_of_pos hpos, ← abs_mul, abs_of_pos hpos, sub_mul, div_mul_cancel₀ _ hpos.ne', Nat.cast_natAbs]
    push_cast
    rfl
  have hpos : (0 : ℝ) < den := by exact_mod_cast hden
  obtain ⟨hnear, htie⟩ := (Fp.roundsTo_roundPat num hden).nearest m
  rw [hunits _ hfin, hunits m hm, hpat]
  refine ⟨?_, fun heq hne => htie ?_ hne⟩
  · have := mul_le_mul_of_nonneg_right hnear hpos.le
    rw [← hscale, ← hscale] at this
    exact_mod_cast this
  · have : ((((Fp.magValue m * den : Int) - num).natAbs : Nat) : ℝ)
        = (((Fp.magValue (Fp.roundPat num den) * den : Int) - num).natAbs : Nat) := by exact_mod_cast heq.symm
    rw [hscale, hscale] at this
    exact mul_right_cancel₀ hpos.ne' this

end

section
/-! The remainder and the wrap of `f_fine` (00_scope R11, 10_state R34), and the ranges of angles and normalised products
(00_scope R11, 43 R217). -/

namespace Sys2Proof.Fp

variable {a b : NUM}

/-- The remainder of two magnitudes is a magnitude: it is a multiple of the smaller scale and below both. -/
theorem exists_magValue_mod (m : Nat) {n : Nat} (hn : 0 < magValue n) : ∃ p, magValue p = magValue m % magValue n := by
  obtain ⟨i, c, rfl, hi, hc⟩ := exists_pattern m
  obtain ⟨j, d, rfl, hj, hd⟩ := exists_pattern n
  rw [magValue_pattern hj hd.le] at hn ⊢
  rw [magValue_pattern hi hc.le]
  have hdpos : 0 < d := Nat.pos_of_mul_pos_right hn
  obtain hij | hij := Nat.le_total j i
  · obtain ⟨e, rfl⟩ := Nat.exists_eq_add_of_le hij
    rw [show c * 2 ^ (j + e) = c * 2 ^ e * 2 ^ j by rw [Nat.pow_add]; ring, Nat.mul_mod_mul_right]
    exact exists_magValue j ((Nat.mod_lt _ hdpos).trans hd)
  · obtain ⟨e, rfl⟩ := Nat.exists_eq_add_of_le hij
    rw [show d * 2 ^ (i + e) = d * 2 ^ e * 2 ^ i by rw [Nat.pow_add]; ring, Nat.mul_mod_mul_right]
    exact exists_magValue i ((Nat.mod_le _ _).trans_lt hc)

/-- `fmod` is exact: the remainder of the magnitudes with the sign of the first operand (00_scope R11). -/
theorem fmod_eq (ha : isFinite a = true) (hb : isFinite b = true) (hz : isZero b = false) :
    ∃ p, p < magBits b ∧ magValue p = magValue (magBits a) % magValue (magBits b) ∧ fmod a b = pack (neg? a) p := by
  have hpos := magValue_pos_of_isZero hz
  obtain ⟨p, hp⟩ := exists_magValue_mod (magBits a) hpos
  have hlt : p < magBits b := magValue_strictMono.lt_iff_lt.mp (hp ▸ Nat.mod_lt _ hpos)
  have hfin : magBits b < 2139095040 := of_decide_eq_true hb
  have hexact : RoundsTo (magValue p) (roundPat (magValue p) 1) := by
    simpa using roundsTo_roundPat (magValue p) one_pos
  refine ⟨p, hlt, hp, ?_⟩
  simp only [fmod, isNaN_of_isFinite ha, isNaN_of_isFinite hb, isInf_of_isFinite ha, isInf_of_isFinite hb, hz, Bool.or_self,
    Bool.false_eq_true, if_false]
  rw [units_eq, units_eq, ← hp, roundQ, roundMag_eq, hexact.eq_of_exact, min_eq_left (by omega)]

/-- The exact value of a pattern. -/
theorem value_pack (neg : Bool) {m : Nat} (hm : m < 2147483648) :
    value (pack neg m) = (if neg then -(magValue m : ℚ) else magValue m) / 2 ^ 149 := by
  rw [value, sunits_eq, neg?_pack neg hm, magBits_pack neg hm]
  cases neg <;> simp

theorem value_of_not_neg (h : neg? a = false) : value a = magValue (magBits a) / 2 ^ 149 := by
  rw [value, sunits_eq, h]
  simp

/-- The sign of a finite value. -/
theorem neg?_of_value_neg (h : value a < 0) : neg? a = true := by
  by_contra hneg
  rw [value_of_not_neg (by simpa using hneg)] at h
  exact absurd h (not_lt.mpr (by positivity))

end Sys2Proof.Fp

namespace Sys2Proof.Machine

/-- `B_f` of every legal `N` is finite and positive (10_state R34). -/
theorem fineBound_finite {L : Nat} (h1 : 1 ≤ L) (h2 : L < 16) :
    Fp.isFinite (fineBound (2 ^ L)) = true ∧ Fp.neg? (fineBound (2 ^ L)) = false ∧ Fp.isZero (fineBound (2 ^ L)) = false := by
  interval_cases L <;> decide

/-- The wrap of a finite value: an exact remainder below `B_f` (10_state R34). -/
theorem wrapF_eq {L : Nat} (h1 : 1 ≤ L) (h2 : L < 16) {v : NUM} (hv : Fp.isFinite v = true) :
    ∃ p, p < Fp.magBits (fineBound (2 ^ L))
      ∧ Fp.magValue p = Fp.magValue (Fp.magBits v) % Fp.magValue (Fp.magBits (fineBound (2 ^ L)))
      ∧ wrapF (2 ^ L) v = Fp.pack (Fp.neg? v) p := by
  obtain ⟨hfin, -, hz⟩ := fineBound_finite h1 h2
  exact Fp.fmod_eq hv hfin hz

end Sys2Proof.Machine

open Sys2Proof Sys2Proof.Machine

/-- Settles O49: the remainder of two magnitudes is a magnitude, so the wrap is exact. -/
theorem wrapStaysBelowTheBound : Obligations.WrapStaysBelowTheBound := by
  intro L v h1 h2 hv
  obtain ⟨hfin, hneg, hz⟩ := fineBound_finite h1 h2
  obtain ⟨p, hlt, hp, hwrap⟩ := wrapF_eq h1 h2 hv
  have hmax : Fp.magBits (fineBound (2 ^ L)) < 2139095040 := of_decide_eq_true hfin
  have hpos := Fp.magValue_pos_of_isZero hz
  have hp31 : p < 2147483648 := by omega
  have hmag : Fp.magBits (wrapF (2 ^ L) v) = p := by rw [hwrap, Fp.magBits_pack _ hp31]
  have hsign : Fp.neg? (wrapF (2 ^ L) v) = Fp.neg? v := by rw [hwrap, Fp.neg?_pack _ hp31]
  have hvalue := Fp.value_pack (Fp.neg? v) hp31
  rw [← hwrap] at hvalue
  have hbound := Fp.value_of_not_neg hneg
  have hfinW : Fp.isFinite (wrapF (2 ^ L) v) = true := decide_eq_true (by omega)
  have hltv : (Fp.magValue p : ℚ) / 2 ^ 149 < Fp.value (fineBound (2 ^ L)) := by
    rw [hbound, div_lt_div_iff_of_pos_right (by positivity)]
    exact_mod_cast Fp.magValue_strictMono hlt
  refine ⟨hfin, by rw [hbound]; positivity, hfinW, ?magnitude, ?order, fun hnonneg => ?nonneg, fun hnonpos => ?nonpos, ?multiple⟩
  case magnitude =>
    refine lt_of_eq_of_lt ?_ hltv
    rw [hvalue]
    split
    · rw [neg_div, abs_neg, abs_of_nonneg (by positivity)]
    · rw [abs_of_nonneg (by positivity)]
  case order =>
    refine (Fp.lt_iff_value (decide_eq_true (by rw [Fp.magBits_abs]; omega)) hfin).mpr ?_
    rw [Fp.value_of_not_neg (Fp.neg?_abs _), Fp.magBits_abs, hmag]
    exact hltv
  case nonneg =>
    rw [hvalue]
    split
    · next hneg' =>
      have hzero : Fp.magValue (Fp.magBits v) = 0 := by
        rw [Fp.value, Fp.sunits_eq, if_pos hneg', le_div_iff₀ (by positivity), zero_mul] at hnonneg
        have : (0 : Int) ≤ -(Fp.magValue (Fp.magBits v) : Int) := by exact_mod_cast hnonneg
        omega
      rw [hp, hzero]
      simp
    · positivity
  case nonpos =>
    rw [hvalue]
    split
    · exact div_nonpos_of_nonpos_of_nonneg (neg_nonpos.mpr (by positivity)) (by positivity)
    · next hpos' =>
      have hzero : Fp.magValue (Fp.magBits v) = 0 := by
        rw [Fp.value_of_not_neg (by simpa using hpos'), div_le_iff₀ (by positivity), zero_mul] at hnonpos
        exact_mod_cast hnonpos.antisymm (by positivity)
      rw [hp, hzero]
      simp
  case multiple =>
    have hdiv := Nat.div_add_mod (Fp.magValue (Fp.magBits v)) (Fp.magValue (Fp.magBits (fineBound (2 ^ L))))
    rw [← hp] at hdiv
    have hcast : (Fp.magValue (Fp.magBits v) : ℚ) = Fp.magValue (Fp.magBits (fineBound (2 ^ L)))
        * ((Fp.magValue (Fp.magBits v) / Fp.magValue (Fp.magBits (fineBound (2 ^ L))) : Nat) : ℚ) + Fp.magValue p := by
      exact_mod_cast hdiv.symm
    generalize ((Fp.magValue (Fp.magBits v) / Fp.magValue (Fp.magBits (fineBound (2 ^ L))) : Nat)) = q at hcast
    refine ⟨if Fp.neg? v then -(q : Int) else q, ?_⟩
    rw [hvalue, hbound, Fp.value, Fp.sunits_eq]
    split
    · push_cast
      rw [hcast]
      ring
    · push_cast
      rw [hcast]
      ring

end

section
/-! The ranges of angles and of normalised products (00_scope R11, 43 R217). -/

namespace Sys2Proof.Fp

variable {a b : NUM}

/-- An angle that is no zero's lies in `(−π, π]` by its numbering (00_scope R11). -/
theorem angleOf_range (i : Fin 2157060023) : lt (neg pi) (angleOf i) = true ∧ le (angleOf i) pi = true := by
  have hpi : magBits pi = 1078530011 ∧ neg? pi = false := by decide
  have hnpi : magBits (neg pi) = 1078530011 ∧ neg? (neg pi) = true := by simp [hpi]
  have hi := i.isLt
  unfold angleOf
  split
  · next hlt =>
    have hp31 : i.val < 2147483648 := by omega
    refine ⟨lt_iff.mpr ⟨?_, ?_, ?_⟩, le_iff.mpr ⟨?_, ?_, ?_⟩⟩ <;>
      simp only [isNaN, key, hpi, hnpi, magBits_pack _ hp31, neg?_pack _ hp31, decide_eq_false_iff_not, if_true,
        Bool.false_eq_true, if_false] <;> omega
  · next hge =>
    have hp31 : i.val - 1078530012 < 2147483648 := by omega
    refine ⟨lt_iff.mpr ⟨?_, ?_, ?_⟩, le_iff.mpr ⟨?_, ?_, ?_⟩⟩ <;>
      simp only [isNaN, key, hpi, hnpi, magBits_pack _ hp31, neg?_pack _ hp31, decide_eq_false_iff_not, if_true,
        Bool.false_eq_true, if_false] <;> omega

/-- The larger of two finite magnitudes. -/
theorem max_abs (ha : isFinite a = true) (hb : isFinite b = true) :
    neg? (max (abs a) (abs b)) = false ∧ magBits (max (abs a) (abs b)) = Max.max (magBits a) (magBits b) := by
  have hfa := of_decide_eq_true ha
  have hfb := of_decide_eq_true hb
  have hna : isNaN (abs a) = false := by simp [isNaN]; omega
  have hnb : isNaN (abs b) = false := by simp [isNaN]; omega
  have hlt : lt (abs a) (abs b) = true ↔ magBits a < magBits b := by
    rw [lt_iff]
    simp [hna, hnb, key]
  simp only [max, hna, hnb, Bool.or_self, Bool.false_eq_true, if_false]
  split
  · next h =>
    have := hlt.mp h
    exact ⟨neg?_abs b, by rw [magBits_abs, Nat.max_eq_right this.le]⟩
  · next h =>
    have := fun h' => h (hlt.mpr h')
    exact ⟨neg?_abs a, by rw [magBits_abs, Nat.max_eq_left (not_lt.mp this)]⟩

theorem magBits_one : magBits one = 1065353216 ∧ neg? one = false ∧ magValue (magBits one) = 2 ^ 149 := by decide

/-- A quotient by a magnitude that is as large is at most 1, and 1 exactly if they are equal. -/
theorem magBits_div_le (ha : isFinite a = true) (hb : isFinite b = true) (hz : isZero b = false) (hle : magBits a ≤ magBits b) :
    magBits (div a b) ≤ magBits one ∧ (magBits a = magBits b → magBits (div a b) = magBits one) := by
  obtain ⟨hone, -, hval⟩ := magBits_one
  have hpos := magValue_pos_of_isZero hz
  have hposR : (0 : ℝ) < magValue (magBits b) := by exact_mod_cast hpos
  have hround := roundsTo_roundPat (units a * 2 ^ 149) hpos
  have hbound : ((units a * 2 ^ 149 : Nat) : ℝ) / magValue (magBits b) ≤ magValue (magBits one) := by
    rw [hval, div_le_iff₀ hposR, mul_comm]
    exact_mod_cast Nat.mul_le_mul_left _ (magValue_strictMono.monotone hle)
  have hpat := hround.le_of_le hbound
  have hdiv : magBits (div a b) = roundPat (units a * 2 ^ 149) (magValue (magBits b)) := by
    simp only [div, isNaN_of_isFinite ha, isNaN_of_isFinite hb, isInf_of_isFinite ha, isInf_of_isFinite hb, hz, Bool.or_self,
      Bool.false_eq_true, if_false]
    rw [roundQ, roundMag_eq, magBits_pack _ (by omega), units_eq b, min_eq_left (by omega)]
  refine ⟨hdiv ▸ hpat, fun heq => ?_⟩
  have hquot : ((units a * 2 ^ 149 : Nat) : ℝ) / magValue (magBits b) = magValue (magBits one) := by
    rw [hval, div_eq_iff hposR.ne', units_eq, heq, mul_comm]
    push_cast
    ring
  rw [hquot] at hround
  rw [hdiv, hround.eq_of_exact]

/-- A magnitude at most that of 1. -/
theorem le_abs_one (h : magBits a ≤ magBits one) : le (abs a) one = true := by
  obtain ⟨hone, hneg, -⟩ := magBits_one
  refine le_iff.mpr ⟨?_, by decide, ?_⟩
  · simp [isNaN]
    omega
  · simpa [key, hneg] using h

theorem abs_eq_one (h : magBits a = magBits one) : abs a = one := ext (by simp [magBits_one]) (by simp [h])

end Sys2Proof.Fp

open Sys2Proof Sys2Proof.Machine

/-- Settles O32: an angle's number lies in the range of the numbering; a product's larger component is divided by itself. -/
theorem angleAndNormalisedRanges : Obligations.AngleAndNormalisedRanges := by
  refine ⟨fun z hre him => ?angle, fun v hre him hne => ?norm⟩
  case angle =>
    have hzero : Fp.isZero z.re = true → Fp.isZero z.im = true → z.arg = Fp.zero := fun h1 h2 => by
      simp [Cplx.arg, hre, him, h1, h2]
    by_cases h : Fp.isZero z.re = true ∧ Fp.isZero z.im = true
    · rw [hzero h.1 h.2]
      exact ⟨by decide, by decide, fun _ _ => rfl⟩
    · have harg : z.arg = Fp.angleOf (Config.argFree z.re z.im) := by
        simp only [Cplx.arg, hre, him, Bool.or_self, Bool.false_eq_true, if_false, Bool.and_eq_true, if_neg h]
      rw [harg] at hzero ⊢
      obtain ⟨hlow, hhigh⟩ := Fp.angleOf_range (Config.argFree z.re z.im)
      exact ⟨hlow, hhigh, hzero⟩
  case norm =>
    obtain ⟨hneg, hmag⟩ := Fp.max_abs hre him
    have hfre := of_decide_eq_true hre
    have hfim := of_decide_eq_true him
    have hne' : Fp.magBits v.re ≠ 0 ∨ Fp.magBits v.im ≠ 0 := hne.imp of_decide_eq_false of_decide_eq_false
    have hz : Fp.isZero (Fp.max (Fp.abs v.re) (Fp.abs v.im)) = false := decide_eq_false (by omega)
    have hfin : Fp.isFinite (Fp.max (Fp.abs v.re) (Fp.abs v.im)) = true := decide_eq_true (by omega)
    simp only [normalise, hz, Bool.false_eq_true, if_false]
    obtain ⟨hle1, heq1⟩ := Fp.magBits_div_le hre hfin hz (by omega)
    obtain ⟨hle2, heq2⟩ := Fp.magBits_div_le him hfin hz (by omega)
    refine ⟨Fp.le_abs_one hle1, Fp.le_abs_one hle2, ?_⟩
    obtain h | h := Nat.le_total (Fp.magBits v.im) (Fp.magBits v.re)
    · exact .inl (Fp.abs_eq_one (heq1 (by omega)))
    · exact .inr (Fp.abs_eq_one (heq2 (by omega)))

end

section
/-! The two peak searches (42 R179, R182): an ascending scan ends with the first maximum. -/

namespace Sys2Proof.Dsp

variable {val : Nat → NUM} {first best i : Nat} {seen rest : List Nat}

/-- `best` is where an ascending scan that began at `first` stands after the candidates `seen`: none is above it, every
earlier one that is no NaN is below it, and a NaN can only be the first. -/
def FirstMax (val : Nat → NUM) (first : Nat) (seen : List Nat) (best : Nat) : Prop :=
  best ∈ seen ∧ (Fp.isNaN (val best) = true → best = first)
    ∧ ∀ j ∈ seen, Fp.lt (val best) (val j) = false
      ∧ (j < best → Fp.isNaN (val j) = false → Fp.lt (val j) (val best) = true)

theorem firstMax_single (val : Nat → NUM) (first : Nat) : FirstMax val first [first] first := by
  refine ⟨by simp, fun _ => rfl, fun j hj => ?_⟩
  obtain rfl : j = first := by simpa using hj
  refine ⟨?_, fun h => absurd h (lt_irrefl _)⟩
  simp [Fp.lt]

/-- One more candidate, behind all seen. -/
theorem FirstMax.step (h : FirstMax val first seen best) (hi : ∀ j ∈ seen, j < i) :
    FirstMax val first (seen ++ [i]) (if Fp.lt (val best) (val i) then i else best) := by
  obtain ⟨hmem, hnan, hall⟩ := h
  split
  · next hlt =>
    obtain ⟨hb, hni, hkey⟩ := Fp.lt_iff.mp hlt
    refine ⟨by simp, fun hn => absurd hn (by simp [hni]), fun j hj => ?_⟩
    obtain hj | hj : j ∈ seen ∨ j = i := by simpa using hj
    · have hle : Fp.isNaN (val j) = false → Fp.key (val j) ≤ Fp.key (val best) := fun hn => by
        have hnot := (hall j hj).1
        simpa [Fp.lt, hb, hn] using hnot
      refine ⟨?_, fun _ hn => Fp.lt_iff.mpr ⟨hn, hni, (hle hn).trans_lt hkey⟩⟩
      cases hn : Fp.isNaN (val j)
      · have := hle hn
        simp only [Fp.lt, hni, hn]
        simp
        omega
      · simp [Fp.lt, hn]
    · subst hj
      refine ⟨by simp [Fp.lt], fun h => absurd h (lt_irrefl _)⟩
  · next hnot =>
    refine ⟨by simp [hmem], hnan, fun j hj => ?_⟩
    obtain hj | hj : j ∈ seen ∨ j = i := by simpa using hj
    · exact hall j hj
    · subst hj
      exact ⟨by simpa using hnot, fun h => absurd (hi best hmem) (by omega)⟩

/-- The scan over the candidates in rising order ends with the first maximum. -/
theorem FirstMax.scan (h : FirstMax val first seen best) (hsort : (seen ++ rest).Pairwise (· < ·)) :
    FirstMax val first (seen ++ rest) (scanMax val best rest) := by
  induction rest generalizing seen best with
  | nil => simpa [scanMax] using h
  | cons i rest ih =>
    have hi : ∀ j ∈ seen, j < i := fun j hj => (List.pairwise_append.mp hsort).2.2 j hj i (by simp)
    have hnext := ih (h.step hi) (by simpa using hsort)
    simpa [scanMax] using hnext

theorem firstMax_scanMax (val : Nat → NUM) {first : Nat} {rest : List Nat} (hsort : (first :: rest).Pairwise (· < ·)) :
    FirstMax val first (first :: rest) (scanMax val first rest) :=
  (firstMax_single val first).scan hsort

end Sys2Proof.Dsp

namespace Sys2Proof.Machine

variable {s : State}

/-- Rising numbers from `a` on. -/
theorem pairwise_map_add (a n : Nat) : ((List.range n).map fun i => a + i).Pairwise (· < ·) := by
  rw [List.pairwise_map]
  exact List.pairwise_lt_range.imp fun h => Nat.add_lt_add_left h a

theorem mem_coarseCandidates {N W i : Nat} (hW : W ≤ N / 2) :
    i ∈ coarseCandidates N W ↔ N / 2 - W < i ∧ i ≤ N / 2 + W ∧ i ≠ N := by
  simp only [coarseCandidates, List.mem_filter, List.mem_map, List.mem_range, decide_eq_true_eq]
  constructor
  · rintro ⟨⟨j, hj, rfl⟩, hne⟩
    exact ⟨by omega, by omega, hne⟩
  · rintro ⟨h1, h2, hne⟩
    exact ⟨⟨i - (N / 2 - W + 1), by omega, by omega⟩, hne⟩

theorem pairwise_coarse {N W : Nat} (hW : W ≤ N / 2) : ((N / 2 - W) :: coarseCandidates N W).Pairwise (· < ·) := by
  refine List.pairwise_cons.mpr ⟨fun i hi => ((mem_coarseCandidates hW).mp hi).1, ?_⟩
  exact (pairwise_map_add (N / 2 - W + 1) (2 * W)).filter _

theorem searchHalfWidth_le (s : State) : searchHalfWidth s ≤ s.par.N / 2 := by
  unfold searchHalfWidth
  dsimp only
  split_ifs
  · exact Nat.zero_le _
  · exact le_rfl
  · exact Nat.min_le_right _ _

/-- The greatest integer at most a value (00_scope R11). -/
theorem floorInt_eq (y : NUM) : Fp.floorInt y = ⌊Fp.value y⌋ := by
  have := Rat.floor_intCast_div_natCast (Fp.sunits y) (2 ^ 149)
  push_cast at this
  exact this.symm

/-- `PEAKC`'s scan runs over the window without index `N` (42 R179). -/
theorem firstMax_coarsePeak (s : State) : Dsp.FirstMax s.spec.rd (s.par.N / 2 - searchHalfWidth s)
    ((s.par.N / 2 - searchHalfWidth s) :: coarseCandidates s.par.N (searchHalfWidth s)) (coarsePeak s) :=
  Dsp.firstMax_scanMax _ (pairwise_coarse (searchHalfWidth_le s))

/-- The candidates of `PEAKC`, the first among them. -/
theorem mem_coarse {N W i : Nat} (hW : W ≤ N / 2) (hN : 1 ≤ N) :
    i ∈ (N / 2 - W) :: coarseCandidates N W ↔ N / 2 - W ≤ i ∧ i ≤ N / 2 + W ∧ i ≠ N := by
  rw [List.mem_cons, mem_coarseCandidates hW]
  omega

/-- `PEAKW`'s scan runs over all indices (42 R182). -/
theorem firstMax_impulsePeak (s : State) : Dsp.FirstMax (weightedPeak s) 0
    (0 :: (List.range (s.par.N - 1)).map fun i => i + 1) (impulsePeak s) := by
  refine Dsp.firstMax_scanMax _ (List.pairwise_cons.mpr ⟨fun i hi => ?_, ?_⟩)
  · obtain ⟨j, -, rfl⟩ := List.mem_map.mp hi
    exact Nat.succ_pos j
  · simpa [Nat.add_comm] using pairwise_map_add 1 (s.par.N - 1)

theorem mem_impulse {N k : Nat} (hN : 1 ≤ N) : k ∈ 0 :: (List.range (N - 1)).map (fun i => i + 1) ↔ k < N := by
  simp only [List.mem_cons, List.mem_map, List.mem_range]
  constructor
  · rintro (rfl | ⟨j, hj, rfl⟩) <;> omega
  · intro h
    cases k with
    | zero => exact .inl rfl
    | succ k => exact .inr ⟨k, by omega, rfl⟩

/-- A legal `N` is positive. -/
theorem one_le_N_of_legal {p : Params} (h : p.legal = true) : 1 ≤ p.N := by
  simp only [Params.legal, Bool.and_eq_true, decide_eq_true_eq] at h
  omega

end Sys2Proof.Machine

open Sys2Proof Sys2Proof.Machine

/-- Settles O23: the candidates rise, so the scan ends with the first maximum of the window. -/
theorem peakcResults : Obligations.PeakcResults := by
  refine ⟨⟨by decide, fun s hs hlegal => ⟨_, coarsePeak s, exec_of_ingest (i := .peakc) hs trivial, rfl, ?window⟩⟩,
    fun s hfin => ?width⟩
  case window =>
    have hW := searchHalfWidth_le s
    have hN := one_le_N_of_legal hlegal
    obtain ⟨hmem, hnan, hall⟩ := firstMax_coarsePeak s
    rw [mem_coarse hW hN] at hmem
    refine ⟨hW, hmem.1, hmem.2.1, hmem.2.2, fun i h1 h2 hne => ?_⟩
    obtain ⟨hmax, hfirst⟩ := hall i ((mem_coarse hW hN).mpr ⟨h1, h2, hne⟩)
    exact ⟨hmax, hfirst, hnan⟩
  case width =>
    have hinf := Fp.isInf_of_isFinite hfin
    simp only [searchHalfWidth, hinf, Bool.false_eq_true, if_false, ← floorInt_eq]
    omega

/-- Settles O24: the candidates are all indices, in rising order. -/
theorem peakwResult : Obligations.PeakwResult := by
  refine ⟨by decide, fun s hs hN => ⟨_, exec_of_ingest (i := .peakw) hs trivial, rfl, rfl, rfl, ?_⟩⟩
  obtain ⟨hmem, hnan, hall⟩ := firstMax_impulsePeak s
  refine ⟨(mem_impulse hN).mp hmem, fun k hk => ?_⟩
  obtain ⟨hmax, hfirst⟩ := hall k ((mem_impulse hN).mpr hk)
  exact ⟨hmax, hfirst, hnan⟩

end

section
/-! The ranges of the registers (10_state R34, R36 to R40, R58), kept by every step. -/

namespace Sys2Proof

/-- What a legal parameter set says of `N` (00_scope R5). -/
theorem Params.N_of_legal {p : Params} (h : p.legal = true) : p.N = 2 ^ p.L ∧ 1 ≤ p.L ∧ p.N = 2 * (p.N / 2) := by
  simp only [Params.legal, Bool.and_eq_true, decide_eq_true_eq] at h
  obtain ⟨⟨⟨⟨⟨⟨⟨hN, h2⟩, -⟩, -⟩, -⟩, -⟩, -⟩, -⟩ := h
  have hL : 1 ≤ p.L := by
    by_contra hL
    rw [show p.L = 0 by omega] at hN
    omega
  obtain ⟨k, hk⟩ := Nat.exists_eq_add_of_le hL
  refine ⟨hN, hL, ?_⟩
  rw [hk, Nat.add_comm, Nat.pow_succ] at hN
  omega

namespace Machine

variable {s t : State} {i : Instr}

/-- The mode table's limit holds of the row in force. -/
theorem rowFits_row (h : modesFit s.modes) : rowFits s.row := by
  obtain ⟨h0, h1, h2, h3⟩ := h
  unfold State.row
  split <;> assumption

theorem L_lt_of_legal (hlegal : s.par.legal = true) (hfit : modesFit s.modes) : s.par.L < 16 := by
  obtain ⟨hN, -⟩ := Params.N_of_legal hlegal
  have hlt : s.par.N < 65536 := (rowFits_row hfit).1
  rw [hN] at hlt
  exact (Nat.pow_lt_pow_iff_right (by decide)).mp (by simpa using hlt : 2 ^ s.par.L < 2 ^ 16)

/-! The wrapped offset (10_state R34). -/

/-- The value is not at or above `B_f` in magnitude; of a NaN nothing is said (log entry 26). -/
def belowBound (N : Nat) (x : NUM) : Prop := Fp.le (fineBound N) (Fp.abs x) = false

theorem not_le_of_isNaN {a b : NUM} (h : Fp.isNaN b = true) : Fp.le a b = false := by simp [Fp.le, h]

/-- The wrap of any value is below the bound: a NaN for one that is not finite, an exact remainder otherwise. -/
theorem belowBound_wrapF {L : Nat} (h1 : 1 ≤ L) (h2 : L < 16) (v : NUM) : belowBound (2 ^ L) (wrapF (2 ^ L) v) := by
  obtain ⟨hfin, hneg, hz⟩ := fineBound_finite h1 h2
  have hmax := of_decide_eq_true hfin
  by_cases hv : Fp.isFinite v = true
  · obtain ⟨p, hlt, -, hwrap⟩ := wrapF_eq h1 h2 hv
    have hmag : Fp.magBits (Fp.abs (wrapF (2 ^ L) v)) = p := by
      rw [Fp.magBits_abs, hwrap, Fp.magBits_pack _ (by omega)]
    simp only [belowBound, Fp.le, Fp.key, hneg, Fp.neg?_abs, hmag]
    simp
    omega
  · have hnan : Fp.isNaN (wrapF (2 ^ L) v) = true := by
      have hcond : (Fp.isNaN v || Fp.isNaN (fineBound (2 ^ L)) || Fp.isInf v || Fp.isZero (fineBound (2 ^ L))) = true := by
        have hmag : 2139095040 ≤ Fp.magBits v := by simpa [Fp.isFinite] using hv
        obtain h | h := Nat.eq_or_lt_of_le hmag
        · simp [Fp.isInf, ← h]
        · simp [Fp.isNaN, h]
      rw [wrapF, Fp.fmod, if_pos hcond, Fp.nan, Fp.isNaN, Fp.magBits_pack _ (by omega)]
      exact decide_eq_true (by omega)
    refine not_le_of_isNaN ?_
    simpa [Fp.isNaN] using hnan

theorem belowBound_wrapF_of_eq {N L : Nat} (hN : N = 2 ^ L) (h1 : 1 ≤ L) (h2 : L < 16) (v : NUM) :
    belowBound N (wrapF N v) := by
  rw [hN]
  exact belowBound_wrapF h1 h2 v

theorem belowBound_zero {L : Nat} (h1 : 1 ≤ L) (h2 : L < 16) : belowBound (2 ^ L) Fp.zero := by
  obtain ⟨hfin, hneg, hz⟩ := fineBound_finite h1 h2
  have hne := of_decide_eq_false hz
  have habs : Fp.magBits (Fp.abs Fp.zero) = 0 := by decide
  simp only [belowBound, Fp.le, Fp.key, hneg, Fp.neg?_abs, habs]
  simp
  omega

/-! What every operation keeps. -/

theorem par_of_ends (h : Ends s i t) : t.par = s.par :=
  keeps_of_ends State.par h (by simp) fun _ => rfl

/-- `FTCHK`'s range of the offset, or the value after reset (10_state R35). -/
def offsetRange (s : State) : Prop := s.fineTimeOffset = 0
  ∨ (-(s.par.G : Int) ≤ s.fineTimeOffset ∧ s.fineTimeOffset ≤ (s.par.N : Int) - 1 - (s.par.G : Int))

/-- The range of a coarse peak (42 R179). -/
def peakRange (s : State) : Prop := -((s.par.N / 2 : Nat) : Int) ≤ s.peakOff ∧ s.peakOff < ((s.par.N / 2 : Nat) : Int)

section
variable (h : Ends s i t)
include h

theorem circWr_of_ends (hP : s.circWr < s.par.P) : t.circWr < s.par.P := by
  by_cases hi : i = .nsamp
  · subst hi
    cases h with
    | completed => exact Nat.mod_lt _ (by omega)
    | stopped => simpa using hP
    | blocked => exact hP
  · rwa [keeps_of_ends State.circWr h (written_circWr s hi) fun _ => rfl]

theorem corrLen_of_ends (hlen : s.corrLen ≤ s.par.P + s.par.S) : t.corrLen ≤ s.par.P + s.par.S := by
  by_cases hi : i = .ncap ∨ i = .capp ∨ i = .nullcp ∨ i = .desync
  · cases h with
    | completed hc =>
      obtain rfl | rfl | rfl | rfl := hi
      · exact Nat.le_add_right _ _
      · exact hc.2.2
      · exact Nat.le_add_right _ _
      · exact hlen
    | stopped => simpa using hlen
    | halted => simpa using hlen
    | handled => exact Nat.zero_le _
    | blocked | armed | raised | advanced => exact hlen
  · simp only [not_or] at hi
    rwa [keeps_of_ends State.corrLen h (written_corrLen s hi.1 hi.2.1 hi.2.2.1) fun h => absurd h hi.2.2.2]

theorem ingLen_of_ends (hlen : s.ingLen ≤ s.par.frameLen) : t.ingLen ≤ s.par.frameLen := by
  by_cases hi : i = .prscp ∨ i = .iapp ∨ i = .swap
  · cases h with
    | completed hc =>
      obtain rfl | rfl | rfl := hi
      · have hfits : prscpFits s := hc
        exact Int.toNat_le.mpr hfits.2.2
      · exact hc.2.2
      · exact Nat.zero_le _
    | stopped => simpa using hlen
    | halted => simpa using hlen
    | blocked | armed | raised | advanced | handled => exact hlen
  · simp only [not_or] at hi
    rwa [keeps_of_ends State.ingLen h (written_ingLen s hi.1 hi.2.1 hi.2.2) fun _ => rfl]

theorem peakRange_of_ends (hlegal : s.par.legal = true) (hpeak : peakRange s) : peakRange t := by
  have hpar := par_of_ends h
  by_cases hi : i = .peakc
  · subst hi
    cases h with
    | completed =>
      obtain ⟨-, -, heven⟩ := Params.N_of_legal hlegal
      have hW := searchHalfWidth_le s
      have hmem := (mem_coarse hW (one_le_N_of_legal hlegal)).mp (firstMax_coarsePeak s).1
      rw [peakRange, hpar]
      show _ ≤ (coarsePeak s : Int) - _ ∧ (coarsePeak s : Int) - _ < _
      omega
    | stopped hb => cases hb
    | blocked => exact hpeak
  · rw [peakRange, hpar, keeps_of_ends State.peakOff h (written_peakOff s hi) fun _ => rfl]
    exact hpeak

theorem impK_of_ends (hN : 1 ≤ s.par.N) (hk : s.impK < s.par.N) : t.impK < s.par.N := by
  by_cases hi : i = .peakw
  · subst hi
    cases h with
    | completed => exact (mem_impulse hN).mp (firstMax_impulsePeak s).1
    | stopped hb => cases hb
    | blocked => exact hk
  · rwa [keeps_of_ends State.impK h (written_impK s hi) fun _ => rfl]

theorem offsetRange_of_ends (hk : s.impK < s.par.N) (hoff : offsetRange s) : offsetRange t := by
  have hpar := par_of_ends h
  by_cases hi : i = .ftchk ∨ i = .desync
  · cases h with
    | completed =>
      obtain rfl | rfl := hi
      · refine .inr ?_
        rw [hpar]
        show _ ≤ (s.impK : Int) - _ ∧ (s.impK : Int) - _ ≤ _
        omega
      · exact hoff
    | handled => exact .inl rfl
    | stopped hb =>
      obtain rfl | rfl := hi
      · cases hb
      · cases hb
    | raised | blocked => exact hoff
    | armed | advanced | halted => simp at hi
  · simp only [not_or] at hi
    rw [offsetRange, hpar, keeps_of_ends State.fineTimeOffset h (written_fineTimeOffset s hi.1) fun h => absurd h hi.2]
    exact hoff

theorem l1Win_of_ends (hwin : s.l1Win < s.D) : t.l1Win < s.D := by
  by_cases hi : i = .l1win ∨ i = .desync
  · cases h with
    | completed =>
      obtain rfl | rfl := hi
      · exact Nat.mod_lt _ (by omega)
      · exact hwin
    | handled => exact Nat.pos_of_ne_zero (by omega)
    | stopped hb =>
      obtain rfl | rfl := hi
      · cases hb
      · cases hb
    | raised | blocked => exact hwin
    | armed | advanced | halted => simp at hi
  · simp only [not_or] at hi
    rwa [keeps_of_ends State.l1Win h (written_l1Win s hi.1) fun h => absurd h hi.2]

theorem fFine_of_ends {L : Nat} (hN : s.par.N = 2 ^ L) (h1 : 1 ≤ L) (h2 : L < 16) (hf : belowBound (2 ^ L) s.fFine) :
    belowBound (2 ^ L) t.fFine := by
  by_cases hi : i = .fcupd ∨ i = .ffupd ∨ i = .desync
  · cases h with
    | completed =>
      obtain rfl | rfl | rfl := hi
      · exact hN ▸ belowBound_wrapF_of_eq hN h1 h2 (Fp.sub s.fFine (coarseStep s))
      · exact hN ▸ belowBound_wrapF_of_eq hN h1 h2 (Fp.add s.fFine (fineStep s))
      · exact hf
    | handled => exact belowBound_zero h1 h2
    | stopped => simpa using hf
    | raised | blocked => exact hf
    | armed | advanced | halted => simp at hi
  · simp only [not_or] at hi
    rwa [keeps_of_ends State.fFine h (written_fFine s hi.1 hi.2.1) fun h => absurd h hi.2.2]

/-- Every operation keeps the ranges. -/
theorem rangesHold_of_ends (hlegal : s.par.legal = true) (hfit : modesFit s.modes) (hr : rangesHold s) : rangesHold t := by
  obtain ⟨hcirc, hcorr, hing, hpeak, himp, hoff, hwin, hfine⟩ := hr
  obtain ⟨hN, hL, -⟩ := Params.N_of_legal hlegal
  have hpar := par_of_ends h
  have hD : t.D = s.D := keeps_of_ends State.D h (by simp) fun _ => rfl
  refine ⟨?_, ?_, ?_, peakRange_of_ends h hlegal hpeak, ?_, offsetRange_of_ends h himp hoff, ?_, ?_⟩
  · rw [hpar]; exact circWr_of_ends h hcirc
  · rw [hpar]; exact corrLen_of_ends h hcorr
  · rw [hpar]; exact ingLen_of_ends h hing
  · rw [hpar]; exact impK_of_ends h (one_le_N_of_legal hlegal) himp
  · rw [hD]; exact l1Win_of_ends h hwin
  · rw [fineBounded, hpar, hN]
    exact fFine_of_ends h hN hL (L_lt_of_legal hlegal hfit) (hN ▸ hfine)

theorem legalRun_of_ends (hl : legalRun s) : legalRun t := by
  have hT : t.T = s.T := keeps_of_ends State.T h (by simp) fun _ => rfl
  have hcfg : t.cfg = s.cfg := keeps_of_ends State.cfg h (by simp) fun _ => rfl
  rw [legalRun, par_of_ends h, hT, State.K, State.D, hcfg]
  exact hl

/-- Every operation of an enabled core keeps the invariant of the registers. -/
theorem rangeInv_of_ends (hen : s.en = true) (hinv : RangeInv s) : RangeInv t := by
  obtain ⟨hfit, hrun, -⟩ := hinv
  obtain ⟨hl, hr⟩ := hrun hen
  have hen' : t.en = true := (keeps_of_ends State.en h (by simp) fun _ => rfl).trans hen
  have hmodes : t.modes = s.modes := keeps_of_ends State.modes h (by simp) fun _ => rfl
  exact ⟨hmodes ▸ hfit, fun _ => ⟨legalRun_of_ends h hl, rangesHold_of_ends h hl.1 hfit hr⟩, by simp [hen']⟩

end

/-! The host's actions. -/

/-- A legal configuration is a legal run (10_state R50). -/
theorem legalRun_of_configLegal (h : s.configLegal = true) : legalRun s ∧ s.K ≤ s.par.P := by
  simp only [State.configLegal, Bool.and_eq_true, decide_eq_true_eq] at h
  obtain ⟨⟨⟨⟨⟨⟨⟨⟨⟨⟨⟨⟨⟨⟨⟨-, hlegal⟩, hT⟩, -⟩, hK⟩, hD⟩, -⟩, -⟩, -⟩, -⟩, -⟩, -⟩, -⟩, -⟩, -⟩, -⟩ := h
  exact ⟨⟨hlegal, hT.1, hT.2, hK.1, hD⟩, hK.2⟩

/-- The quiet registers are in their ranges. -/
theorem rangesHold_of_quiet (hl : legalRun s) (hfit : modesFit s.modes) (hq : quiet s) (hP : 1 ≤ s.par.P) : rangesHold s := by
  obtain ⟨hlegal, -, -, -, hD⟩ := hl
  obtain ⟨-, -, -, -, -, -, hcirc, hcorr, hing, hpeak, himp, hoff, hwin, -, hfine⟩ := hq
  obtain ⟨hN, hL, heven⟩ := Params.N_of_legal hlegal
  have hone := one_le_N_of_legal hlegal
  refine ⟨by omega, by omega, by omega, by omega, by omega, .inl hoff, by omega, ?_⟩
  rw [fineBounded, hN, hfine]
  exact belowBound_zero hL (L_lt_of_legal hlegal hfit)

/-- The state after reset is quiet (10_state R56). -/
theorem quiet_power (m : Modes) (T : Nat) : quiet (State.power m T) := by
  refine ⟨rfl, rfl, rfl, rfl, rfl, fun k hk => ?_, rfl, rfl, rfl, rfl, rfl, rfl, rfl, rfl, rfl⟩
  rw [List.eq_of_mem_replicate hk]
  exact ⟨rfl, rfl⟩

/-- What a write of CTRL does to the invariant: it may enable a quiet core with a legal configuration. -/
theorem rangeInv_writeCtrl {v : BitVec 32} (hinv : RangeInv s) (h : s.writeCtrl v = .next t) : RangeInv t := by
  obtain ⟨hfit, hrun, hquiet⟩ := hinv
  obtain ⟨hlegal, rfl⟩ := writeCtrl_next h
  refine ⟨hfit, fun hen => ?_, fun hen => hquiet ?_⟩
  · cases hs : s.en with
    | true => exact hrun hs
    | false =>
      have hv : v.getLsbD 0 = true := by simpa [hs] using hen
      obtain ⟨hl, hK⟩ := legalRun_of_configLegal (hlegal hv hs)
      have hP : 1 ≤ s.par.P := hl.2.2.2.1.trans hK
      exact ⟨hl, rangesHold_of_quiet hl hfit (hquiet hs) hP⟩
  · have hen' : (s.en || v.getLsbD 0) = false := hen
    simp only [Bool.or_eq_false_iff] at hen'
    exact hen'.1

/-- Every action of the host keeps the invariant of the registers. -/
theorem rangeInv_hostStep (x : HostAct) (hinv : RangeInv s) (h : hostStep x s = .next t) : RangeInv t := by
  cases x with
  | rst =>
    cases h
    exact ⟨hinv.1, nofun, fun _ => quiet_power s.modes s.T⟩
  | regRead _ | offer _ | readOut _ => cases h; exact hinv
  | regWrite n v =>
    obtain ⟨-, hc⟩ | ⟨-, rfl⟩ | ⟨-, rfl⟩ | ⟨hen, rfl⟩ := regWrite_next h
    · exact rangeInv_writeCtrl hinv hc
    · exact hinv
    · exact hinv
    · have hoff : s.en ≠ true := by simp [hen]
      exact ⟨hinv.1, fun he => absurd he hoff, fun _ => hinv.2.2 hen⟩

/-- Every step keeps the invariant of the registers. -/
theorem rangeInv_step (h : RangeInv s) (hstep : step s = .next t) : RangeInv t :=
  step_keeps (fun _ _ _ hs hen he => rangeInv_of_ends (ends_of_exec_next he) hen hs)
    (fun _ _ x hs hx => rangeInv_hostStep x hs hx) (fun _ _ hs => hs) (fun _ _ _ hs => hs) h hstep

end Machine
end Sys2Proof

open Sys2Proof Sys2Proof.Machine

/-- Settles O55: each range through the ways an operation can end, `f_fine` through the exact wrap; the host enables a
quiet core with a legal configuration only. -/
theorem stepKeepsRegistersInRange : Obligations.StepKeepsRegistersInRange := fun _ _ => rangeInv_step

end

section
/-! Why an operation is refused, check by check (00_scope R17; 20_memory R88, R97; 30_encoding R113 to R115; 45 R266). -/

namespace Sys2Proof.Machine

variable {s : State} {j : Instr}

theorem exec_refused_noSuchAgent (ha : agentExists s.T s.cur = false) : exec j s = .refused .noSuchAgent :=
  exec_refused_of_check (by simp [issueCheck, ha])

section
variable (ha : agentExists s.T s.cur = true)
include ha

theorem exec_refused_reservedOperand (hl : operandsLegal s.par s.T j = false) : exec j s = .refused .reservedOperand :=
  exec_refused_of_check (by simp [issueCheck, ha, hl])

/-- An operation not refused for its operands has legal ones. -/
theorem operandsLegal_of_ne (h : exec j s ≠ .refused .reservedOperand) : operandsLegal s.par s.T j = true := by
  by_contra hl
  exact h (exec_refused_reservedOperand ha (by simpa using hl))

theorem exec_refused_notEntitled (hl : operandsLegal s.par s.T j = true) (he : entitled s.cur j = false) :
    exec j s = .refused .notEntitled :=
  exec_refused_of_check (by simp [issueCheck, ha, hl, he])

theorem exec_refused_notOwned (hl : operandsLegal s.par s.T j = true) (he : entitled s.cur j = true)
    (ho : owned s.par s.T s.cur j = false) : exec j s = .refused .notOwned :=
  exec_refused_of_check (by simp [issueCheck, ha, hl, he, ho])

theorem exec_refused_outOfPhase (hl : operandsLegal s.par s.T j = true) (he : entitled s.cur j = true)
    (ho : owned s.par s.T s.cur j = true) (hp : inPhase s j = false) : exec j s = .refused .outOfPhase :=
  exec_refused_of_check (by simp [issueCheck, ha, hl, he, ho, hp])

end

theorem eq_coord_of_isCoord {a : Agent} (h : isCoord a = true) : a = .coord := by
  cases a with
  | coord => rfl
  | ingest | worker _ => cases h

theorem eq_worker_of_isWorker {a : Agent} (h : isWorker a = true) : ∃ w, a = .worker w := by
  cases a with
  | worker w => exact ⟨w, rfl⟩
  | ingest | coord => cases h

/-- Who is entitled, as the last column of R114 and the table of R266 have it. -/
theorem entitled_cases {a : Agent} (h : entitled a j = true) :
    match j with
    | .bitrev _ | .bflyf _ _ => a ≠ .coord
    | .bflyi _ _ | .delta | .cmul _ | .mag | .lmag | .pllp | .ldprs | .nsamp | .l1win | .ncap | .capp | .fczero
    | .peakc | .fcupd | .peakw | .ftchk | .prscp | .iapp | .nullcp | .desync | .adv _ | .swap
    | .sig .cs | .wait .ce => a = .ingest
    | .derot _ | .cperr _ | .phpub | .ldsym _ | .dqpsk _ | .soft _ => ∃ w, a = .worker w
    | .rel | .phavg | .ffupd | .emit | .sig .ce | .sig (.ws _) | .wait .cs | .wait (.wp _) | .wait (.wd _) => a = .coord
    | .sig (.wp w) | .sig (.wf w) | .sig (.wd w) | .wait (.ws w) => a = .worker w
    | .wait (.wf w) => 1 ≤ w ∧ a = .worker (w - 1)
    | .halt => True := by
  cases j
  case bitrev | bflyf =>
    rintro rfl
    cases h
  case derot | cperr | phpub | ldsym | dqpsk | soft => exact eq_worker_of_isWorker h
  case rel | phavg | ffupd | emit => exact eq_coord_of_isCoord h
  case halt => trivial
  case sig x =>
    cases x with
    | cs => exact eq_ingest_of_isIngest h
    | ce | ws _ => exact eq_coord_of_isCoord h
    | wp _ | wf _ | wd _ => exact of_decide_eq_true h
  case wait x =>
    cases x with
    | ce => exact eq_ingest_of_isIngest h
    | cs | wp _ | wd _ => exact eq_coord_of_isCoord h
    | ws _ | wf _ => exact of_decide_eq_true h
  all_goals exact eq_ingest_of_isIngest h

/-- A slot outside the worker's range is not its own (00_scope R7). -/
theorem not_ownsSlot {w i : Nat} (hi : i < w * ((s.par.F + 1) / s.T) ∨ (w + 1 < s.T ∧ (w + 1) * ((s.par.F + 1) / s.T) ≤ i)) :
    ownsSlot s.par s.T (.worker w) i = false := by
  refine decide_eq_false fun ⟨hstart, hend⟩ => ?_
  obtain hlow | ⟨hw, hhigh⟩ := hi
  · exact absurd hlow (not_lt.mpr hstart)
  · rw [endOf_of_lt hw] at hend
    exact absurd hend (not_lt.mpr hhigh)

end Sys2Proof.Machine

open Sys2Proof Sys2Proof.Machine

/-- Settles O5: each clause names the first check of `issueCheck` that fails. -/
theorem wrongIssuerOrOperandIsRefused : Obligations.WrongIssuerOrOperandIsRefused := by
  refine ⟨fun j s w hc hw => exec_refused_noSuchAgent (by rw [hc]; exact decide_eq_false (by omega)), fun s hex => ?_⟩
  have ha : agentExists s.T s.cur = true := by
    cases hc : s.cur with
    | ingest | coord => rfl
    | worker w => exact decide_eq_true (hex w hc)
  have hop {j : Instr} := exec_refused_reservedOperand (j := j) ha
  refine ⟨⟨fun i st hi j hj => ?slot, fun L b st hN hst j hj => ?stage, fun i hi => ?cperr, fun i hi j hj => ?pair,
    fun w hw x hx j hj => ?barrier, fun j hj => ?none⟩, fun j hne hnot => ?entitled, fun w hc => ⟨fun i st _ hi j hj hne => ?range,
    fun st j hj hne => ?scratch⟩, fun hc i st j hj hne => ?zf, fun w i h hF => ⟨fun hh j hj hne => ?holds, fun hv hF2 => ?valid,
    fun hend hsaw hF2 => ?saw, fun hw hstart hwf st j hj hne => ?first⟩, fun w hc hwp => ?phpub, fun w hc hw hsaw => ?phavg,
    fun hc hbusy => ?swap⟩
  case slot =>
    simp only [List.mem_cons, List.not_mem_nil, or_false] at hj
    obtain rfl | rfl | rfl | rfl | rfl := hj <;> exact hop (by simp [operandsLegal, xbufLegal, hi])
  case stage =>
    have hL : s.par.L = L := by rw [Params.L, hN, Nat.log2_two_pow]
    have hstage : stageLegal s.par st = false := decide_eq_false (by omega)
    simp only [List.mem_cons, List.not_mem_nil, or_false] at hj
    obtain rfl | rfl := hj <;> exact hop (by simp [operandsLegal, hstage])
  case cperr => exact hop (decide_eq_false (by omega))
  case pair =>
    simp only [List.mem_cons, List.not_mem_nil, or_false] at hj
    obtain rfl | rfl := hj <;> exact hop (decide_eq_false (by omega))
  case barrier =>
    have hbar : barrierLegal s.T x = false := by
      simp only [List.mem_cons, List.not_mem_nil, or_false] at hx
      obtain rfl | rfl | rfl | rfl := hx <;> exact decide_eq_false (by omega)
    simp only [List.mem_cons, List.not_mem_nil, or_false] at hj
    obtain rfl | rfl := hj <;> exact hop (by simp [operandsLegal, hbar])
  case none =>
    simp only [List.mem_cons, List.not_mem_nil, or_false] at hj
    obtain rfl | rfl := hj <;> exact hop (by simp [operandsLegal])
  case entitled =>
    refine exec_refused_notEntitled ha (operandsLegal_of_ne ha hne) ?_
    by_contra he
    have hcases := entitled_cases (by simpa using he : entitled s.cur j = true)
    refine hnot ?_
    cases j
    case sig x | wait x => cases x <;> exact hcases
    all_goals exact hcases
  case range =>
    have hown := not_ownsSlot hi
    simp only [List.mem_cons, List.not_mem_nil, or_false] at hj
    obtain rfl | rfl | rfl | rfl | rfl | rfl | rfl := hj <;>
      exact exec_refused_notOwned ha (operandsLegal_of_ne ha hne) (by rw [hc]; rfl) (by rw [hc]; exact hown)
  case scratch =>
    simp only [List.mem_cons, List.not_mem_nil, or_false] at hj
    obtain rfl | rfl := hj <;>
      exact exec_refused_notOwned ha (operandsLegal_of_ne ha hne) (by rw [hc]; rfl) (by rw [hc]; rfl)
  case zf =>
    simp only [List.mem_cons, List.not_mem_nil, or_false] at hj
    obtain rfl | rfl | rfl := hj <;>
      exact exec_refused_notOwned ha (operandsLegal_of_ne ha hne) (by rw [hc]; rfl) (by rw [hc]; rfl)
  case holds =>
    have hcur := curW_of_worker h.1
    simp only [List.mem_cons, List.not_mem_nil, or_false] at hj
    obtain rfl | rfl | rfl | rfl := hj <;>
      exact exec_refused_outOfPhase ha (operandsLegal_of_ne ha hne) (by rw [h.1]; rfl)
        (by rw [h.1]; exact owned_of_issuesAsOwner h) (by simp [inPhase, hcur, hh])
  case valid =>
    exact exec_refused_outOfPhase ha (decide_eq_true hF2) (by rw [h.1]; rfl) (by rw [h.1]; exact owned_of_issuesAsOwner h)
      (by simp [inPhase, hv])
  case saw =>
    exact exec_refused_outOfPhase ha (decide_eq_true hF2) (by rw [h.1]; rfl) (by rw [h.1]; exact owned_of_issuesAsOwner h)
      (by simp [inPhase, curW_of_worker h.1, hend, hsaw])
  case first =>
    have hphase : xbufInPhase s (.zf i) = false := by simp [xbufInPhase, curW_of_worker h.1, hw, hstart, hwf]
    simp only [List.mem_cons, List.not_mem_nil, or_false] at hj
    obtain rfl | rfl | rfl := hj <;>
      exact exec_refused_outOfPhase ha (operandsLegal_of_ne ha hne) (by rw [h.1]; rfl)
        (by rw [h.1]; exact owned_of_issuesAsOwner h) (by simp [inPhase, hphase])
  case phpub =>
    exact exec_refused_outOfPhase ha rfl (by rw [hc]; rfl) (by rw [hc]; rfl) (by simp [inPhase, curW_of_worker hc, hwp])
  case phavg =>
    refine exec_refused_outOfPhase ha rfl (by rw [hc]; rfl) (by rw [hc]; rfl) ?_
    rw [wk_eq_getElem s w hw] at hsaw
    exact List.all_eq_false.mpr ⟨_, List.getElem_mem hw, by simp [hsaw]⟩
  case swap =>
    refine exec_refused_outOfPhase ha rfl (by rw [hc]; rfl) (by rw [hc]; rfl) ?_
    obtain hpc | hcs | ⟨w, hw, hbusy⟩ := hbusy
    · simp [inPhase, hpc]
    · simp [inPhase, hcs]
    · rw [wk_eq_getElem s w hw] at hbusy
      have hall : (s.workers.all fun k => !k.holds && !k.ws) = false :=
        List.all_eq_false.mpr ⟨_, List.getElem_mem hw, by obtain h | h := hbusy <;> simp [h]⟩
      simp [inPhase, hall]

end

section
/-! The host's ports, the state after reset, and the carriers' bins (10_state R48 to R56). -/

namespace Sys2Proof

/-! The bins of a legal parameter set (10_state R54). -/

section
variable {p : Params} {j k : Nat}

theorem Params.C_of_legal (h : p.legal = true) : p.C = 2 * (p.C / 2) ∧ 2 ≤ p.C ∧ p.C + 2 ≤ p.N := by
  simp only [Params.legal, Bool.and_eq_true, decide_eq_true_eq] at h
  omega

/-- The carrier numbers run from `−C/2` to `C/2` without 0. -/
theorem cprime_bounds (h : p.legal = true) (hj : j < p.C) :
    cprime p j ≠ 0 ∧ -((p.C / 2 : Nat) : Int) ≤ cprime p j ∧ cprime p j ≤ ((p.C / 2 : Nat) : Int) := by
  obtain ⟨heven, -, -⟩ := Params.C_of_legal h
  unfold cprime
  split <;> omega

/-- A negative carrier's bin lies `N` higher, a positive one's is its number. -/
theorem bin_eq (h : p.legal = true) (hj : j < p.C) :
    (bin p j : Int) = if cprime p j < 0 then p.N + cprime p j else cprime p j := by
  obtain ⟨-, -, hC⟩ := Params.C_of_legal h
  obtain ⟨-, hlow, hhigh⟩ := cprime_bounds h hj
  have hmod : ((p.N : Int) + cprime p j) % p.N = if cprime p j < 0 then p.N + cprime p j else cprime p j := by
    split
    · exact Int.emod_eq_of_lt (by omega) (by omega)
    · rw [Int.add_emod_left]
      exact Int.emod_eq_of_lt (by omega) (by omega)
  rw [bin, hmod]
  split <;> omega

theorem cprime_injective (hj : cprime p j = cprime p k) : j = k := by
  unfold cprime at hj
  split at hj <;> split at hj <;> omega

end

namespace Machine

variable {s t : State} {n m : BitVec 8} {v : BitVec 32}

/-! The configuration registers (10_state R48). -/

/-- The bits a configuration register keeps. -/
def cfgMask (n : BitVec 8) : BitVec 32 :=
  if n = 0x00#8 then 3#32 else if n = 0x15#8 then 1#32 else if n = 0x1B#8 then 255#32 else 0xFFFFFFFF#32

theorem forall_cfgNumbers {P : BitVec 8 → Prop} : (∀ n ∈ cfgNumbers, P n) ↔ P 0x00#8 ∧ P 0x10#8 ∧ P 0x11#8 ∧ P 0x12#8
    ∧ P 0x13#8 ∧ P 0x14#8 ∧ P 0x15#8 ∧ P 0x16#8 ∧ P 0x17#8 ∧ P 0x18#8 ∧ P 0x19#8 ∧ P 0x1A#8 ∧ P 0x1B#8 := by
  simp [cfgNumbers]

/-- The low bits of a word, cut out or masked. -/
theorem extract_eq_and (v : BitVec 32) {k : Nat} (hk : k ≤ 32) :
    (v.extractLsb' 0 k).zeroExtend 32 = v &&& BitVec.ofNat 32 (2 ^ k - 1) := by
  have hpow : 2 ^ k ≤ 2 ^ 32 := Nat.pow_le_pow_right (by decide) hk
  have hmod : v.toNat % 2 ^ k < 2 ^ 32 := (Nat.mod_le _ _).trans_lt v.isLt
  refine BitVec.eq_of_toNat_eq ?_
  show ((v.extractLsb' 0 k).setWidth 32).toNat = _
  rw [BitVec.toNat_and, BitVec.toNat_ofNat, Nat.mod_eq_of_lt (by omega : 2 ^ k - 1 < 2 ^ 32), Nat.and_two_pow_sub_one_eq_mod,
    BitVec.toNat_setWidth, BitVec.extractLsb'_toNat, Nat.shiftRight_zero, Nat.mod_eq_of_lt hmod]

theorem ofNat_bitAt (v : BitVec 32) : BitVec.ofNat 32 (bitAt (v.getLsbD 0) 0) = v &&& 1#32 := by
  refine BitVec.eq_of_toNat_eq ?_
  rw [BitVec.toNat_and, BitVec.getLsbD, Nat.testBit_zero]
  simp only [bitAt]
  split <;> simp_all

/-- What a configuration register keeps of the word written (10_state R48). -/
def cfgKept (n : BitVec 8) (v : BitVec 32) : BitVec 32 :=
  if n = 0x00#8 then (v.extractLsb' 0 2).zeroExtend 32
  else if n = 0x15#8 then BitVec.ofNat 32 (bitAt (v.getLsbD 0) 0)
  else if n = 0x1B#8 then (v.extractLsb' 0 8).zeroExtend 32
  else v

theorem cfgKept_eq (n : BitVec 8) (v : BitVec 32) : cfgKept n v = v &&& cfgMask n := by
  unfold cfgKept cfgMask
  split_ifs
  · exact extract_eq_and v (k := 2) (by decide)
  · exact ofNat_bitAt v
  · exact extract_eq_and v (k := 8) (by decide)
  · exact (BitVec.and_allOnes (x := v)).symm

/-- The configuration registers after a write of one of them: that one shows what it keeps, the others what they did. -/
theorem regRead_write (s : State) (u : List (BitVec 8)) (v : BitVec 32) : ∀ n ∈ cfgNumbers, ∀ m ∈ cfgNumbers,
    State.regRead { s with cfg := s.cfg.write n v, unset := u } m = if m = n then cfgKept n v else s.regRead m := by
  simp only [forall_cfgNumbers]
  refine ⟨?_, ?_, ?_, ?_, ?_, ?_, ?_, ?_, ?_, ?_, ?_, ?_, ?_⟩ <;>
    exact ⟨rfl, rfl, rfl, rfl, rfl, rfl, rfl, rfl, rfl, rfl, rfl, rfl, rfl⟩

/-- A number that is no configuration register's is ignored by a write. -/
theorem write_of_not_mem (c : Cfg) (v : BitVec 32) (h : n ∉ cfgNumbers) : c.write n v = c := by
  have hne : ∀ k : BitVec 8, k ∈ cfgNumbers → n.toNat ≠ k.toNat := fun k hk heq => h (BitVec.eq_of_toNat_eq heq ▸ hk)
  rw [forall_cfgNumbers] at hne
  unfold Cfg.write
  split <;> simp_all

/-- The numbers of the read-only registers (10_state R48, R49). -/
def readOnlyNumbers : List (BitVec 8) :=
  [0x01#8, 0x02#8, 0x03#8, 0x04#8, 0x05#8, 0x06#8, 0x20#8, 0x21#8, 0x22#8, 0x23#8, 0x24#8, 0x25#8, 0x26#8,
    0x27#8, 0x28#8, 0x2A#8]

/-- A number that is not listed reads 0 (10_state R51). -/
theorem regRead_of_not_listed (h : n ∉ cfgNumbers) (h29 : n ≠ 0x29#8) (hro : n ∉ readOnlyNumbers) : s.regRead n = 0#32 := by
  have hnot : n.toNat ∉ (cfgNumbers ++ [0x29#8] ++ readOnlyNumbers).map BitVec.toNat := by
    intro hmem
    obtain ⟨k, hk, heq⟩ := List.mem_map.mp hmem
    obtain rfl := BitVec.eq_of_toNat_eq heq
    simp only [List.mem_append, List.mem_singleton] at hk
    exact hk.elim (fun hk => hk.elim h h29) hro
  unfold State.regRead
  split
  case h_31 => rfl
  all_goals
    next heq =>
    rw [heq] at hnot
    exact absurd (by decide) hnot

/-! The state after reset (10_state R56). -/

theorem wk_power (m : Modes) (T w : Nat) : (State.power m T).wk w = Worker.power := by
  simp only [State.wk, State.power, List.getD_eq_getElem?_getD, List.getElem?_replicate]
  split <;> rfl

/-- After reset the right is in `CE` and no worker has begun (10_state R56). -/
theorem handoffInv_power (m : Modes) (T : Nat) : HandoffInv (State.power m T) := by
  refine ⟨rfl, nofun, fun _ w _ => ?_, nofun, nofun⟩
  rw [wk_power m T w]
  exact ⟨rfl, rfl⟩

theorem phaseInv_power (m : Modes) (T : Nat) : PhaseInv (State.power m T) := by
  refine ⟨fun w _ => ?_, nofun, by simp [State.power]⟩
  rw [workerPhases, wk_power m T w]
  exact ⟨rfl, nofun, fun h => absurd rfl h, nofun⟩

/-- FLAGS, bit by bit (10_state R49). -/
theorem flags_bits : ∀ b0 b1 b2 b3 b4 b5 b6 b7 : Bool,
    let w := bitAt b0 0 + bitAt b1 1 + bitAt b2 2 + bitAt b3 3 + bitAt b4 4 + bitAt b5 5 + bitAt b6 6 + bitAt b7 7
    w < 2 ^ 8 ∧ w.testBit 0 = b0 ∧ w.testBit 1 = b1 ∧ w.testBit 2 = b2 ∧ w.testBit 3 = b3 ∧ w.testBit 4 = b4
      ∧ w.testBit 5 = b5 ∧ w.testBit 6 = b6 ∧ w.testBit 7 = b7 := by
  decide

/-- The bits of a word below 256. -/
theorem getLsbD_ofNat_32 {w b : Nat} (hb : b < 8) : (BitVec.ofNat 32 w).getLsbD b = w.testBit b := by
  rw [BitVec.getLsbD_ofNat, decide_eq_true (by omega), Bool.true_and]

end Machine
end Sys2Proof

open Sys2Proof Sys2Proof.Machine

/-- Settles O38: each bin in terms of its carrier number, in which two bins differ by less than `N`. -/
theorem carrierBins : Obligations.CarrierBins := by
  intro p h
  obtain ⟨-, -, hC⟩ := Params.C_of_legal h
  refine ⟨fun j hj => ?_, fun j k hj hk heq => ?_⟩
  · obtain ⟨hne, hlow, hhigh⟩ := cprime_bounds h hj
    have hbin := bin_eq h hj
    refine ⟨?_, ?_, hne, hlow, hhigh, ?_⟩
    · split at hbin <;> omega
    · split at hbin <;> omega
    · rw [bin, Int.toNat_of_nonneg (Int.emod_nonneg _ (by omega))]
  · obtain ⟨-, hlowj, hhighj⟩ := cprime_bounds h hj
    obtain ⟨-, hlowk, hhighk⟩ := cprime_bounds h hk
    have hbinj := bin_eq h hj
    have hbink := bin_eq h hk
    refine cprime_injective (p := p) ?_
    split at hbinj <;> split at hbink <;> omega

/-- Settles O51: the registers are a finite table; a write changes one field of the configuration. -/
theorem configurationAndUnlistedRegisters : Obligations.ConfigurationAndUnlistedRegisters := by
  refine ⟨fun s n v hn => ?config, fun s n v hn h29 h30 => ?unlisted, fun s v => ⟨_, rfl, rfl, rfl⟩⟩
  case config =>
    have h30 : n ≠ 0x30#8 := by
      rintro rfl
      exact absurd hn (by decide)
    have h29 : n ≠ 0x29#8 := by
      rintro rfl
      exact absurd hn (by decide)
    refine ⟨fun hen => ?_, fun hen => ⟨{ s with
      cfg := s.cfg.write n v, unset := s.unset.filter fun m => decide (m ≠ n) }, ?_, rfl, ?_, fun m hm hne =>
      (regRead_write s _ v n hn m hm).trans (if_neg hne), fun m => by simp⟩⟩
    · simp [hostStep, State.regWrite, h30, h29, hen]
    · simp only [hostStep, State.regWrite, h30, h29, hen, if_false, Bool.false_eq_true]
    · exact ((regRead_write s _ v n hn n hn).trans (if_pos rfl)).trans (cfgKept_eq n v)
  case unlisted =>
    refine ⟨?_, regRead_of_not_listed hn h29⟩
    simp only [hostStep, State.regWrite, h30, h29, if_false, write_of_not_mem _ _ hn]
    split
    · exact ⟨s, rfl, rfl, fun _ => rfl⟩
    · exact ⟨_, rfl, rfl, fun _ => rfl⟩

/-- Settles O52: each register by its number, FLAGS by its bits. -/
theorem statusRegistersAndReads : Obligations.StatusRegistersAndReads := by
  refine ⟨fun s => ?status, fun s a n => ⟨⟨_, rfl, rfl, fun hv ha => ?frame⟩, _, rfl, rfl⟩⟩
  case status =>
    obtain ⟨hlt, h0, h1, h2, h3, h4, h5, h6, h7⟩ :=
      flags_bits s.isFound s.nullStart s.nullEnd s.sel s.frameValid s.stop s.en s.allHalted
    have hbit : ∀ b, b < 8 → (s.regRead 0x28#8).getLsbD b = _ := fun b hb => getLsbD_ofNat_32 hb
    refine ⟨(hbit 0 (by decide)).trans h0, (hbit 1 (by decide)).trans h1, (hbit 2 (by decide)).trans h2,
      (hbit 3 (by decide)).trans h3, (hbit 4 (by decide)).trans h4, (hbit 5 (by decide)).trans h5,
      (hbit 6 (by decide)).trans h6, ?halted, fun b hb => ?above, ?code, rfl, rfl, rfl, rfl, fun hlow hhigh => ?offset,
      rfl, rfl, rfl, rfl, rfl, fun hidx => ⟨fun hold => ?current, fun old hst hold => ?fineTime⟩⟩
    case halted => rw [hbit 7 (by decide), h7, all_halted_iff]
    case above =>
      refine BitVec.getLsbD_ofNat _ _ _ |>.trans ?_
      rw [Nat.testBit_lt_two_pow (hlt.trans_le (Nat.pow_le_pow_right (by decide) hb)), Bool.and_false]
    case code =>
      show (BitVec.ofNat 32 s.acqState.code).toNat = _
      cases s.acqState <;> rfl
    case offset =>
      show (BitVec.ofInt 32 s.fineTimeOffset).toInt = _
      rw [BitVec.toInt_ofInt]
      exact Int.bmod_eq_of_le (by norm_num; omega) (by norm_num; omega)
    case current =>
      show s.impData = _
      rw [State.impData, if_pos hidx]
      cases hprev : s.impPrev with
      | none => rfl
      | some old =>
        obtain hst | hnone := hold
        · simp [hst]
        · rw [hprev] at hnone
          cases hnone
    case fineTime =>
      show s.impData = _ ∨ s.impData = _
      rw [State.impData, if_pos hidx, hold]
      dsimp only
      split
      · exact .inr rfl
      · exact .inl rfl
  case frame =>
    show s.frameRead a = _
    rw [State.frameRead, hv, decide_eq_true (show a < s.par.outLen from ha)]
    rfl

/-- Settles O53: both are the state after reset of some mode table and number of workers. -/
theorem resetState : Obligations.ResetState := by
  intro s h
  have hpower : ∃ m T x r k, s = { State.power m T with samples := x, turns := r, tick := k } := by
    obtain rfl | ⟨r, hr⟩ := h
    · exact ⟨builtModes, 4, [], [], 0, rfl⟩
    · cases hr
      exact ⟨r.modes, r.T, _, _, _, rfl⟩
  obtain ⟨m, T, x, r, k, rfl⟩ := hpower
  have hwk : ∀ w, State.wk { State.power m T with samples := x, turns := r, tick := k } w = Worker.power := wk_power m T
  refine ⟨rfl, rfl, rfl, rfl, rfl, rfl, rfl, rfl, rfl, rfl, rfl, rfl, rfl, rfl, rfl, rfl, rfl, rfl, rfl, rfl, rfl, rfl, rfl,
    rfl, rfl, rfl, rfl, rfl, rfl, rfl, rfl, rfl, fun a => ?halted, fun w => ?worker,
    fun n => ⟨rfl, rfl, rfl, rfl, rfl, rfl, rfl, rfl, fun i => rfl⟩, fun n hn => hn⟩
  case halted =>
    cases a with
    | ingest | coord => rfl
    | worker w => rw [State.isHalted, hwk w]; rfl
  case worker =>
    rw [hwk w]
    exact ⟨rfl, rfl, rfl, rfl, rfl, rfl, rfl, fun n => rfl⟩

/-- Settles O58: the state after reset is quiet, holds the right in `CE`, and no worker has begun. -/
theorem invariantsHoldAtReset : Obligations.InvariantsHoldAtReset := by
  have hfit : modesFit State.reset.modes :=
    ⟨⟨by decide, by decide⟩, ⟨by decide, by decide⟩, ⟨by decide, by decide⟩, ⟨by decide, by decide⟩⟩
  have hrange : RangeInv State.reset := ⟨hfit, nofun, fun _ => quiet_power builtModes 4⟩
  exact ⟨Memory.wf_power builtModes 4, hrange, ⟨hrange, nofun⟩, handoffInv_power builtModes 4, phaseInv_power builtModes 4⟩

end

section
/-! The write of CTRL, and when a configuration is legal (10_state R50; 00_scope R5, R7, R8). -/

namespace Sys2Proof

/-- A legal parameter set, written out (00_scope R5). -/
theorem Params.legal_iff {p : Params} : p.legal = true ↔ (∃ L, 1 ≤ L ∧ p.N = 2 ^ L) ∧ (1 ≤ p.G ∧ p.G ≤ p.N)
    ∧ (Even p.C ∧ 2 ≤ p.C ∧ p.C + 2 ≤ p.N) ∧ 2 ≤ p.F ∧ p.N + p.G ≤ p.P ∧ p.G ≤ p.P := by
  have hN : (p.N = 2 ^ p.L ∧ 2 ≤ p.N) ↔ ∃ L, 1 ≤ L ∧ p.N = 2 ^ L := by
    constructor
    · rintro ⟨hN, h2⟩
      refine ⟨p.L, ?_, hN⟩
      by_contra hL
      rw [show p.L = 0 by omega] at hN
      omega
    · rintro ⟨L, hL, hN⟩
      have hlog : p.L = L := by rw [Params.L, hN, Nat.log2_two_pow]
      exact ⟨by rw [hlog, hN], hN ▸ Nat.pow_le_pow_right (n := 2) (by decide) hL⟩
  rw [← hN]
  simp only [Params.legal, Bool.and_eq_true, decide_eq_true_eq, Nat.even_iff]
  constructor
  · rintro ⟨⟨⟨⟨⟨⟨⟨h1, h2⟩, h3⟩, h4⟩, h5⟩, h6⟩, h7⟩, h8⟩
    exact ⟨⟨h1, h2⟩, h3, ⟨h4, h5⟩, h6, h7, h8⟩
  · rintro ⟨⟨h1, h2⟩, h3, ⟨h4, h5⟩, h6, h7, h8⟩
    exact ⟨⟨⟨⟨⟨⟨⟨h1, h2⟩, h3⟩, h4⟩, h5⟩, h6⟩, h7⟩, h8⟩

/-- A number in `[0, 1]`: the order of NUM is that of the values, and nothing else lies between two finite values. -/
theorem Fp.unit_range_iff (x : NUM) : (Fp.le Fp.zero x = true ∧ Fp.le x Fp.one = true)
    ↔ Fp.isFinite x = true ∧ 0 ≤ Fp.value x ∧ Fp.value x ≤ 1 := by
  have hzero : Fp.isFinite Fp.zero = true := by decide
  have hone : Fp.isFinite Fp.one = true := by decide
  have hval0 : Fp.value Fp.zero = 0 := by
    rw [Fp.value, show Fp.sunits Fp.zero = 0 by decide]
    simp
  have hval1 : Fp.value Fp.one = 1 := by
    rw [Fp.value, show Fp.sunits Fp.one = 2 ^ 149 by decide]
    norm_num
  constructor
  · rintro ⟨h0, h1⟩
    have hfin := Fp.isFinite_of_le_of_le hzero hone h0 h1
    rw [Fp.le_iff_value hzero hfin, hval0] at h0
    rw [Fp.le_iff_value hfin hone, hval1] at h1
    exact ⟨hfin, h0, h1⟩
  · rintro ⟨hfin, h0, h1⟩
    rw [Fp.le_iff_value hzero hfin, Fp.le_iff_value hfin hone, hval0, hval1]
    exact ⟨h0, h1⟩

namespace Machine

/-- `CMAP` is legal exactly if it is a permutation of the positions (10_state R54). -/
theorem cmapLegal_iff (r : ModeRow) : cmapLegal r = true ↔ r.cmap.Perm (List.range r.par.C) := by
  simp only [cmapLegal, Bool.and_eq_true, decide_eq_true_eq]
  constructor
  · rintro ⟨hlen, hall⟩
    have hsub : List.range r.par.C ⊆ r.cmap := fun j hj => hall j (List.mem_range.mp hj)
    exact (List.nodup_range.subperm hsub |>.perm_of_length_le (by simp [hlen])).symm
  · intro h
    exact ⟨by simpa using h.length_eq, fun j hj => h.mem_iff.mpr (List.mem_range.mpr hj)⟩

variable {s : State} {v : BitVec 32}

/-- A legal configuration, written out. -/
theorem configLegal_iff (hunset : ∀ n ∈ s.unset, n ∈ cfgNumbers) : s.configLegal = true ↔
    (∀ n ∈ cfgNumbers, n ∉ s.unset)
      ∧ (∃ L, 1 ≤ L ∧ s.par.N = 2 ^ L) ∧ (1 ≤ s.par.G ∧ s.par.G ≤ s.par.N)
      ∧ (Even s.par.C ∧ 2 ≤ s.par.C ∧ s.par.C + 2 ≤ s.par.N) ∧ 2 ≤ s.par.F
      ∧ s.par.N + s.par.G ≤ s.par.P ∧ s.par.G ≤ s.par.P ∧ (1 ≤ s.T ∧ s.T ≤ s.par.F + 1)
      ∧ s.row.cmap.Perm (List.range s.par.C)
      ∧ (1 ≤ s.cfg.l1NbSamples.toNat ∧ s.cfg.l1NbSamples.toNat ≤ s.par.P) ∧ 1 ≤ s.cfg.l1NbDecimate.toNat
      ∧ (∀ r ∈ [s.cfg.l1UpdateBeta, s.cfg.threshNullStart, s.cfg.threshNullEnd, s.cfg.maxCoarseFreqNorm,
          s.cfg.coarseFreqSlowBeta, s.cfg.impulsePeakThreshDb, s.cfg.impulsePeakDistProb, s.cfg.fineFreqUpdateBeta],
        Fp.isFinite r = true)
      ∧ (0 ≤ Fp.value s.cfg.impulsePeakDistProb ∧ Fp.value s.cfg.impulsePeakDistProb ≤ 1)
      ∧ (1 ≤ s.cfg.softHigh.toInt ∧ s.cfg.softHigh.toInt ≤ 127) := by
  have hempty : s.unset.isEmpty = true ↔ ∀ n ∈ cfgNumbers, n ∉ s.unset := by
    rw [List.isEmpty_iff, List.eq_nil_iff_forall_not_mem]
    exact ⟨fun h n _ => h n, fun h n hn => h n (hunset n hn) hn⟩
  have hprob := Fp.unit_range_iff s.cfg.impulsePeakDistProb
  have hsoft : s.cfg.softHigh.toInt ≤ 127 := by have := BitVec.toInt_lt (x := s.cfg.softHigh); omega
  simp only [State.configLegal, Bool.and_eq_true, decide_eq_true_eq, hempty, Params.legal_iff, cmapLegal_iff,
    List.forall_mem_cons, List.not_mem_nil, false_implies, implies_true, and_true]
  constructor
  · rintro ⟨⟨⟨⟨⟨⟨⟨⟨⟨⟨⟨⟨⟨⟨⟨h1, hN, hG, hC, hF, hS, hP⟩, hT⟩, hcmap⟩, hK⟩, hD⟩, f1⟩, f2⟩, f3⟩, f4⟩, f5⟩, f6⟩, f8⟩, hp0⟩, hp1⟩, hs⟩
    obtain ⟨f7, h0, h1'⟩ := hprob.mp ⟨hp0, hp1⟩
    exact ⟨h1, hN, hG, hC, hF, hS, hP, hT, hcmap, hK, hD, ⟨f1, f2, f3, f4, f5, f6, f7, f8⟩, ⟨h0, h1'⟩, hs, hsoft⟩
  · rintro ⟨h1, hN, hG, hC, hF, hS, hP, hT, hcmap, hK, hD, ⟨f1, f2, f3, f4, f5, f6, f7, f8⟩, ⟨h0, h1'⟩, hs, -⟩
    obtain ⟨hp0, hp1⟩ := hprob.mpr ⟨f7, h0, h1'⟩
    exact ⟨⟨⟨⟨⟨⟨⟨⟨⟨⟨⟨⟨⟨⟨⟨h1, hN, hG, hC, hF, hS, hP⟩, hT⟩, hcmap⟩, hK⟩, hD⟩, f1⟩, f2⟩, f3⟩, f4⟩, f5⟩, f6⟩, f8⟩, hp0⟩, hp1⟩, hs⟩

/-- A write of CTRL that does not enable an illegal configuration is done. -/
theorem writeCtrl_of_legal (h : v.getLsbD 0 = false ∨ s.en = true ∨ s.configLegal = true) :
    s.writeCtrl v = .next { s with
      en := s.en || v.getLsbD 0, frameValid := s.frameValid && !v.getLsbD 2, stop := s.stop || v.getLsbD 1 } := by
  have hok : ¬ (v.getLsbD 0 && !s.en && !s.configLegal) = true := by
    obtain h | h | h := h <;> rw [h] <;> simp
  obtain ⟨t, ht⟩ : ∃ t, s.writeCtrl v = .next t := ⟨_, if_neg hok⟩
  rw [ht, (writeCtrl_next ht).2]

end Machine
end Sys2Proof

open Sys2Proof Sys2Proof.Machine

/-- Settles O50: the legality spelled out is the one the model tests. -/
theorem controlRegister : Obligations.ControlRegister := by
  intro s v legal hunset
  have hlegal : s.configLegal = true ↔ legal := configLegal_iff hunset
  refine ⟨fun hv hen hnot => ?refused, fun h => ?done, rfl⟩
  case refused =>
    have hill : s.configLegal = false := by simpa using fun h => hnot (hlegal.mp h)
    show s.writeCtrl v = _
    simp only [State.writeCtrl, hv, hen, hill]
    rfl
  case done =>
    rw [← hlegal] at h
    exact writeCtrl_of_legal h

end

section
/-! What an agent's next operation can be, seen from the operation: the lists read backwards (42, 43 R211, 44 R240). -/

namespace Sys2Proof.Machine

variable {s t : State} {i : Instr} {n : Nat}

/-! The ingest agent's lists. -/

/-- The operations of the ingest agent that only need legal operands: the steps on `SA`, and those that compute registers
from its own buffers (41 R150 to R160, 42 R178 to R182). -/
def onScratch (L : Nat) : Instr → Bool
  | .bitrev .sa => true
  | .bflyf .sa st => decide (1 ≤ st ∧ st ≤ L)
  | .bflyi .sa st => decide (1 ≤ st ∧ st ≤ L)
  | .delta => true
  | .cmul _ => true
  | .mag => true
  | .lmag => true
  | .pllp => true
  | .ldprs => true
  | .fczero => true
  | .peakc => true
  | .fcupd => true
  | .peakw => true
  | _ => false

theorem onScratch_of_mem_fftOps {L : Nat} (h : i ∈ fftOps L .sa) : onScratch L i = true := by
  simp only [fftOps, List.mem_cons, List.mem_map, List.mem_range] at h
  obtain rfl | ⟨k, hk, rfl⟩ := h
  · rfl
  · exact decide_eq_true (by omega)

theorem onScratch_of_mem_ifftOps {L : Nat} (h : i ∈ ifftOps L) : onScratch L i = true := by
  simp only [ifftOps, List.mem_cons, List.mem_map, List.mem_range] at h
  obtain rfl | ⟨k, hk, rfl⟩ := h
  · rfl
  · exact decide_eq_true (by omega)

/-- An element of a list with a last one is that one or one before. -/
theorem getElem?_concat {α : Type} {l : List α} {a x : α} (h : (l ++ [a])[n]? = some x) :
    (n < l.length ∧ x ∈ l) ∨ (n = l.length ∧ x = a) := by
  obtain hlt | hge := Nat.lt_or_ge n l.length
  · rw [List.getElem?_append_left hlt] at h
    exact .inl ⟨hlt, List.mem_of_getElem? h⟩
  · rw [List.getElem?_append_right hge] at h
    obtain h0 : n - l.length = 0 := by
      by_contra hne
      obtain ⟨k, hk⟩ := Nat.exists_eq_succ_of_ne_zero hne
      rw [hk] at h
      cases h
    rw [h0] at h
    exact .inr ⟨by omega, by simpa using h.symm⟩

/-- COARSE_FREQ's list: operations on `SA`, then `ADV FINE_TIME` (42 R177). -/
theorem coarseFreqOps_cases {L : Nat} {en : Bool} (h : (coarseFreqOps L en)[n]? = some i) :
    (n + 1 < (coarseFreqOps L en).length ∧ onScratch L i = true)
      ∨ (n + 1 = (coarseFreqOps L en).length ∧ i = .adv .fineTime) := by
  cases en with
  | false =>
    have hcut : coarseFreqOps L false = [.fczero] ++ [.adv .fineTime] := rfl
    rw [hcut] at h ⊢
    obtain ⟨hlt, hmem⟩ | ⟨hn, rfl⟩ := getElem?_concat h
    · obtain rfl := List.mem_singleton.mp hmem
      exact .inl ⟨by simpa using hlt, rfl⟩
    · exact .inr ⟨by simpa using hn, rfl⟩
  | true =>
    have hcut : coarseFreqOps L true = (Instr.ldprs :: fftOps L XBuf.sa ++ [Instr.delta] ++ ifftOps L ++ [Instr.cmul .prst]
        ++ fftOps L XBuf.sa ++ [Instr.mag, Instr.peakc, Instr.fcupd]) ++ [.adv .fineTime] := by
      simp [coarseFreqOps]
    rw [hcut] at h ⊢
    obtain ⟨hlt, hmem⟩ | ⟨hn, rfl⟩ := getElem?_concat h
    · refine .inl ⟨by simp at hlt ⊢; omega, ?_⟩
      simp only [List.mem_append, List.mem_cons, List.not_mem_nil, or_false] at hmem
      obtain (((((rfl | hm) | rfl) | hm) | rfl) | hm) | rfl | rfl | rfl := hmem
      · rfl
      · exact onScratch_of_mem_fftOps hm
      · rfl
      · exact onScratch_of_mem_ifftOps hm
      · rfl
      · exact onScratch_of_mem_fftOps hm
      all_goals rfl
    · exact .inr ⟨by simp [hn]; omega, rfl⟩

/-- FINE_TIME's list: operations on `SA`, then `FTCHK`, `PRSCP` and `ADV READ_SYMBOLS` (42 R181). -/
theorem fineTimeOps_cases {L : Nat} (h : (fineTimeOps L)[n]? = some i) :
    (n + 3 < (fineTimeOps L).length ∧ onScratch L i = true) ∨ (n + 3 = (fineTimeOps L).length ∧ i = .ftchk)
      ∨ (n + 2 = (fineTimeOps L).length ∧ i = .prscp) ∨ (n + 1 = (fineTimeOps L).length ∧ i = .adv .readSymbols) := by
  have hcut : fineTimeOps L = ([Instr.ldprs, Instr.pllp] ++ fftOps L XBuf.sa ++ [Instr.cmul .prsf] ++ ifftOps L
      ++ [Instr.lmag, Instr.peakw]) ++ [.ftchk] ++ [.prscp] ++ [.adv .readSymbols] := by
    simp [fineTimeOps]
  rw [hcut] at h ⊢
  obtain ⟨hlt, hmem⟩ | ⟨hn, rfl⟩ := getElem?_concat h
  · rw [List.getElem?_append_left hlt] at h
    obtain ⟨hlt, hmem⟩ | ⟨hn, rfl⟩ := getElem?_concat h
    · rw [List.getElem?_append_left hlt] at h
      obtain ⟨hlt, hmem⟩ | ⟨hn, rfl⟩ := getElem?_concat h
      · refine .inl ⟨by simp at hlt ⊢; omega, ?_⟩
        simp only [List.mem_append, List.mem_cons, List.not_mem_nil, or_false] at hmem
        obtain ((((rfl | rfl) | hm) | rfl) | hm) | rfl | rfl := hmem
        · rfl
        · rfl
        · exact onScratch_of_mem_fftOps hm
        · rfl
        · exact onScratch_of_mem_ifftOps hm
        all_goals rfl
      · exact .inr (.inl ⟨by simp [hn]; omega, rfl⟩)
    · exact .inr (.inr (.inl ⟨by simp [hn]; omega, rfl⟩))
  · exact .inr (.inr (.inr ⟨by simp [hn]; omega, rfl⟩))

/-- FIND_NULL's list by position (42 R171). -/
theorem findNullOps_cases (h : findNullOps[n]? = some i) : (n = 0 ∧ i = .nsamp) ∨ (n = 1 ∧ i = .l1win) ∨ (n = 2 ∧ i = .ncap)
    ∨ (n = 3 ∧ i = .adv .readNullPrs) := by
  obtain ⟨hn, rfl⟩ := List.getElem?_eq_some_iff.mp h
  have hn : n < 4 := hn
  interval_cases n <;> simp [findNullOps]

/-- READ_NULL_PRS's list by position (42 R175). -/
theorem readNullPrsOps_cases (h : readNullPrsOps[n]? = some i) : (n = 0 ∧ i = .capp) ∨ (n = 1 ∧ i = .adv .coarseFreq) := by
  obtain ⟨hn, rfl⟩ := List.getElem?_eq_some_iff.mp h
  have hn : n < 2 := hn
  interval_cases n <;> simp [readNullPrsOps]

/-- READ_SYMBOLS's list by position (42 R185). -/
theorem readSymbolsOps_cases (h : readSymbolsOps[n]? = some i) : (n = 0 ∧ i = .iapp) ∨ (n = 1 ∧ i = .nullcp)
    ∨ (n = 2 ∧ i = .wait .ce) ∨ (n = 3 ∧ i = .swap) ∨ (n = 4 ∧ i = .sig .cs) ∨ (n = 5 ∧ i = .adv .readNullPrs) := by
  obtain ⟨hn, rfl⟩ := List.getElem?_eq_some_iff.mp h
  have hn : n < 6 := hn
  interval_cases n <;> simp [readSymbolsOps]

/-- What the ingest agent can be about to do: a pending operation, an operation on `SA`, or one of the others at its place
in the list. -/
inductive IngestNext (s : State) : Instr → Prop
  | desync (hd : s.ingDivert = .desync) : IngestNext s .desync
  | halt (hd : s.ingDivert = .stopped) : IngestNext s .halt
  | scratch {i : Instr} (hd : s.ingDivert = .none) (hi : onScratch s.par.L i = true)
      (hst : s.acqState = .coarseFreq ∧ s.acqSub + 1 < (coarseFreqOps s.par.L s.cfg.coarseFreqEn).length
        ∨ s.acqState = .fineTime ∧ s.acqSub + 3 < (fineTimeOps s.par.L).length) : IngestNext s i
  | nsamp (hd : s.ingDivert = .none) (hst : s.acqState = .findNull) (hn : s.acqSub = 0) : IngestNext s .nsamp
  | l1win (hd : s.ingDivert = .none) (hst : s.acqState = .findNull) (hn : s.acqSub = 1) : IngestNext s .l1win
  | ncap (hd : s.ingDivert = .none) (hst : s.acqState = .findNull) (hn : s.acqSub = 2) : IngestNext s .ncap
  | found (hd : s.ingDivert = .none) (hst : s.acqState = .findNull) (hn : s.acqSub = 3) : IngestNext s (.adv .readNullPrs)
  | capp (hd : s.ingDivert = .none) (hst : s.acqState = .readNullPrs) (hn : s.acqSub = 0) : IngestNext s .capp
  | read (hd : s.ingDivert = .none) (hst : s.acqState = .readNullPrs) (hn : s.acqSub = 1) : IngestNext s (.adv .coarseFreq)
  | tuned (hd : s.ingDivert = .none) (hst : s.acqState = .coarseFreq)
      (hn : s.acqSub + 1 = (coarseFreqOps s.par.L s.cfg.coarseFreqEn).length) : IngestNext s (.adv .fineTime)
  | ftchk (hd : s.ingDivert = .none) (hst : s.acqState = .fineTime) (hn : s.acqSub + 3 = (fineTimeOps s.par.L).length) :
      IngestNext s .ftchk
  | prscp (hd : s.ingDivert = .none) (hst : s.acqState = .fineTime) (hn : s.acqSub + 2 = (fineTimeOps s.par.L).length) :
      IngestNext s .prscp
  | timed (hd : s.ingDivert = .none) (hst : s.acqState = .fineTime) (hn : s.acqSub + 1 = (fineTimeOps s.par.L).length) :
      IngestNext s (.adv .readSymbols)
  | iapp (hd : s.ingDivert = .none) (hst : s.acqState = .readSymbols) (hn : s.acqSub = 0) : IngestNext s .iapp
  | nullcp (hd : s.ingDivert = .none) (hst : s.acqState = .readSymbols) (hn : s.acqSub = 1) : IngestNext s .nullcp
  | waitCe (hd : s.ingDivert = .none) (hst : s.acqState = .readSymbols) (hn : s.acqSub = 2) : IngestNext s (.wait .ce)
  | swap (hd : s.ingDivert = .none) (hst : s.acqState = .readSymbols) (hn : s.acqSub = 3) : IngestNext s .swap
  | sigCs (hd : s.ingDivert = .none) (hst : s.acqState = .readSymbols) (hn : s.acqSub = 4) : IngestNext s (.sig .cs)
  | again (hd : s.ingDivert = .none) (hst : s.acqState = .readSymbols) (hn : s.acqSub = 5) :
      IngestNext s (.adv .readNullPrs)

theorem ingestNext (h : s.nextInstr .ingest = some i) : IngestNext s i := by
  cases hd : s.ingDivert with
  | desync =>
    simp only [State.nextInstr, nextIngest, hd] at h
    cases h
    exact .desync hd
  | stopped =>
    simp only [State.nextInstr, nextIngest, hd] at h
    cases h
    exact .halt hd
  | none =>
    simp only [State.nextInstr, nextIngest, hd] at h
    cases hst : s.acqState with
    | findNull =>
      simp only [ingestOps, hst] at h
      obtain ⟨hn, rfl⟩ | ⟨hn, rfl⟩ | ⟨hn, rfl⟩ | ⟨hn, rfl⟩ := findNullOps_cases h
      · exact .nsamp hd hst hn
      · exact .l1win hd hst hn
      · exact .ncap hd hst hn
      · exact .found hd hst hn
    | readNullPrs =>
      simp only [ingestOps, hst] at h
      obtain ⟨hn, rfl⟩ | ⟨hn, rfl⟩ := readNullPrsOps_cases h
      · exact .capp hd hst hn
      · exact .read hd hst hn
    | coarseFreq =>
      simp only [ingestOps, hst] at h
      obtain ⟨hn, hi⟩ | ⟨hn, rfl⟩ := coarseFreqOps_cases h
      · exact .scratch hd hi (.inl ⟨hst, hn⟩)
      · exact .tuned hd hst hn
    | fineTime =>
      simp only [ingestOps, hst] at h
      obtain ⟨hn, hi⟩ | ⟨hn, rfl⟩ | ⟨hn, rfl⟩ | ⟨hn, rfl⟩ := fineTimeOps_cases h
      · exact .scratch hd hi (.inr ⟨hst, hn⟩)
      · exact .ftchk hd hst hn
      · exact .prscp hd hst hn
      · exact .timed hd hst hn
    | readSymbols =>
      simp only [ingestOps, hst] at h
      obtain ⟨hn, rfl⟩ | ⟨hn, rfl⟩ | ⟨hn, rfl⟩ | ⟨hn, rfl⟩ | ⟨hn, rfl⟩ | ⟨hn, rfl⟩ := readSymbolsOps_cases h
      · exact .iapp hd hst hn
      · exact .nullcp hd hst hn
      · exact .waitCe hd hst hn
      · exact .swap hd hst hn
      · exact .sigCs hd hst hn
      · exact .again hd hst hn

/-! The coordinator's list. -/

/-- What the coordinator can be about to do, by its position (44 R240). -/
inductive CoordNext (s : State) : Instr → Prop
  | halt (hd : s.coDivert = .stopped) : CoordNext s .halt
  | waitCs (hd : s.coDivert = .none) (hn : s.coPc = 0) : CoordNext s (.wait .cs)
  | rel (hd : s.coDivert = .none) (hn : s.coPc = 1) : CoordNext s .rel
  | waitWp (hd : s.coDivert = .none) {w : Nat} (hw : w < s.T) (hn : s.coPc = w + 2) : CoordNext s (.wait (.wp w))
  | phavg (hd : s.coDivert = .none) (hn : s.coPc = s.T + 2) : CoordNext s .phavg
  | ffupd (hd : s.coDivert = .none) (hn : s.coPc = s.T + 3) : CoordNext s .ffupd
  | waitWd (hd : s.coDivert = .none) {w : Nat} (hw : w < s.T) (hn : s.coPc = s.T + 4 + w) : CoordNext s (.wait (.wd w))
  | emit (hd : s.coDivert = .none) (hn : s.coPc = 2 * s.T + 4) : CoordNext s .emit
  | sigCe (hd : s.coDivert = .none) (hn : s.coPc = 2 * s.T + 5) : CoordNext s (.sig .ce)

theorem coordNext (h : s.nextInstr .coord = some i) : CoordNext s i := by
  cases hd : s.coDivert with
  | stopped =>
    simp only [State.nextInstr, nextCoord, hd] at h
    cases h
    exact .halt hd
  | desync =>
    simp only [State.nextInstr, nextCoord, hd] at h
    cases h
  | none =>
    simp only [State.nextInstr, nextCoord, hd] at h
    have hlt : s.coPc < 2 * s.T + 6 := by
      rw [← length_coordOps]
      exact (List.getElem?_eq_some_iff.mp h).1
    have hpos : s.coPc = 0 ∨ s.coPc = 1 ∨ (2 ≤ s.coPc ∧ s.coPc < s.T + 2) ∨ s.coPc = s.T + 2 ∨ s.coPc = s.T + 3
        ∨ (s.T + 4 ≤ s.coPc ∧ s.coPc < 2 * s.T + 4) ∨ s.coPc = 2 * s.T + 4 ∨ s.coPc = 2 * s.T + 5 := by omega
    obtain hn | hn | ⟨h1, h2⟩ | hn | hn | ⟨h1, h2⟩ | hn | hn := hpos
    · rw [hn, coordOps_waitCs] at h
      cases h
      exact .waitCs hd hn
    · rw [hn, coordOps_rel] at h
      cases h
      exact .rel hd hn
    · obtain ⟨w, hn⟩ := Nat.exists_eq_add_of_le h1
      have hw : w < s.T := by omega
      rw [hn, coordOps_waitWp hw] at h
      cases h
      exact .waitWp hd hw (by omega)
    · rw [hn, (coordOps_phavg s.T).get (k := 0) rfl] at h
      cases h
      exact .phavg hd hn
    · rw [hn, (coordOps_phavg s.T).get (k := 1) rfl] at h
      cases h
      exact .ffupd hd hn
    · obtain ⟨w, hn⟩ := Nat.exists_eq_add_of_le h1
      have hw : w < s.T := by omega
      rw [hn, coordOps_waitWd hw] at h
      cases h
      exact .waitWd hd hw hn
    · rw [hn, (coordOps_emit s.T).get (k := 0) rfl] at h
      cases h
      exact .emit hd hn
    · rw [hn, (coordOps_emit s.T).get (k := 1) rfl] at h
      cases h
      exact .sigCe hd hn

/-! A worker's list. -/

/-- What a worker can be about to do: a pending `HALT`, or the operation at its position in its list. -/
theorem workerNext {w : Nat} (h : s.nextInstr (.worker w) = some i) :
    w < s.T ∧ ((s.wk w).divert = .stopped ∧ i = .halt
      ∨ (s.wk w).divert = .none ∧ (workerOps s.par s.T w)[(s.wk w).pc]? = some i) := by
  cases hk : s.workers[w]? with
  | none =>
    simp only [State.nextInstr, nextWorker, hk] at h
    cases h
  | some k =>
    obtain ⟨hw, rfl⟩ := List.getElem?_eq_some_iff.mp hk
    refine ⟨hw, ?_⟩
    rw [wk_eq_getElem s w hw]
    simp only [State.nextInstr, nextWorker, hk] at h
    cases hd : s.workers[w].divert with
    | stopped =>
      simp only [hd] at h
      cases h
      exact .inl ⟨rfl, rfl⟩
    | desync =>
      simp only [hd] at h
      cases h
    | none =>
      simp only [hd] at h
      exact .inr ⟨rfl, h⟩

/-! Every operation of a list has a word (30_encoding R111, R115). -/

theorem wf_of_onScratch {L : Nat} (hL : L < 16) (h : onScratch L i = true) : i.wf = true := by
  cases i
  case bitrev b => cases b <;> [rfl; cases h]
  case bflyf b st | bflyi b st =>
    cases b with
    | sa =>
      obtain ⟨h1, h2⟩ := of_decide_eq_true h
      simp [Instr.wf, XBuf.fits, stageFits]
      omega
    | zf _ => cases h
  case delta | cmul | mag | lmag | pllp | ldprs | fczero | peakc | fcupd | peakw => rfl
  all_goals cases h

theorem wf_of_mem_workerOpsOn {F L w a e : Nat} (hL : L < 16) (hF : F < 65536) (he : e ≤ F + 1) (hw : w < 65536)
    (hlast : e ≤ F → w + 1 < 65536) (ha : a ≤ F) (h : i ∈ workerOpsOn F L w a e) : i.wf = true := by
  have hffts : ∀ j, j ≤ F → i ∈ fftsOps L j → i.wf = true := by
    intro j hj hm
    simp only [fftsOps, fftOps, List.mem_cons, List.mem_map, List.mem_range] at hm
    obtain rfl | rfl | ⟨k, hk, rfl⟩ := hm
    · exact decide_eq_true (by omega)
    · exact decide_eq_true (by omega)
    · simp [Instr.wf, XBuf.fits, stageFits, idxFits]
      omega
  have hpair : ∀ j, j < e → j + 1 < F → i ∈ pairOps w e j → i.wf = true := by
    intro j hje hj hm
    simp only [pairOps, List.mem_append, List.mem_cons, List.not_mem_nil, or_false] at hm
    obtain hm | rfl | rfl := hm
    · split at hm
      · next hend =>
        obtain rfl := List.mem_singleton.mp hm
        exact wf_wait (decide_eq_true (hlast (by omega))) (by simp)
      · cases hm
    · exact decide_eq_true (by omega)
    · exact decide_eq_true (by omega)
  simp only [workerOpsOn, List.mem_append, List.mem_map, List.mem_flatMap, List.mem_cons, List.not_mem_nil, or_false,
    mem_slots] at h
  obtain (((((((rfl | ⟨j, hj, rfl⟩) | ⟨j, hj, rfl⟩) | rfl | rfl) | hm) | rfl) | ⟨j, hj, hm⟩) | ⟨j, hj, hm⟩) | rfl := h
  · exact wf_wait (decide_eq_true hw) nofun
  · exact decide_eq_true (by omega)
  · exact decide_eq_true (by omega)
  · rfl
  · exact decide_eq_true hw
  · exact hffts a ha hm
  · exact decide_eq_true hw
  · exact hffts j (by omega) hm
  · exact hpair j (by omega) (by omega) hm
  · exact decide_eq_true hw

theorem startOf_le {p : Params} {T w : Nat} (hw : w < T) : startOf p T w ≤ p.F := by
  have hle : (w + 1) * sliceLen p T ≤ p.F + 1 := succ_mul_sliceLen_le hw
  rw [Nat.succ_mul] at hle
  unfold startOf
  obtain hq | hq := Nat.eq_zero_or_pos (sliceLen p T)
  · simp [hq]
  · omega

theorem L_lt_of_modesFit (h : modesFit s.modes) : s.par.L < 16 := by
  have hlt : s.par.N < 65536 := (rowFits_row h).1
  obtain h0 | h0 := Nat.eq_zero_or_pos s.par.N
  · simp [Params.L, h0]
  · exact (Nat.log2_lt (by omega)).mpr hlt

theorem wf_of_next_ingest (hfit : modesFit s.modes) (h : s.nextInstr .ingest = some i) : i.wf = true := by
  cases ingestNext h with
  | scratch _ hi => exact wf_of_onScratch (L_lt_of_modesFit hfit) hi
  | _ => rfl

/-- Whatever an agent is about to do has a word. -/
theorem wf_of_nextInstr {a : Agent} (hfit : modesFit s.modes) (hT : s.T ≤ 65536) (h : s.nextInstr a = some i) :
    i.wf = true := by
  cases a with
  | ingest => exact wf_of_next_ingest hfit h
  | coord =>
    cases coordNext h with
    | @waitWp _ w hw => exact wf_wait (decide_eq_true (by omega)) nofun
    | @waitWd _ w hw => exact wf_wait (decide_eq_true (by omega)) nofun
    | _ => rfl
  | worker w =>
    obtain ⟨hw, ⟨-, rfl⟩ | ⟨-, hi⟩⟩ := workerNext h
    · rfl
    · refine wf_of_mem_workerOpsOn (L_lt_of_modesFit hfit) (rowFits_row hfit).2 (endOf_le hw) (by omega) (fun he => ?_)
        (startOf_le hw) (List.mem_of_getElem? hi)
      by_contra hge
      rw [endOf_last (by omega)] at he
      omega

/-- A turn of an agent of the hardware does nothing, or runs the operation at its position. -/
theorem agentTurn_cases (hfit : modesFit s.modes) (hT : s.T ≤ 65536) (hturn : agentTurn s) (h : step s = .next t) :
    ∃ a r k, t = s.withTurns r k
      ∨ s.en = true ∧ s.isHalted a = false
        ∧ ∃ i, s.nextInstr a = some i ∧ exec i { s.withTurns r k with cur := a } = .next t := by
  obtain ⟨a, r, k, -, hstep⟩ := step_of_agentTurn hturn
  refine ⟨a, r, k, ?_⟩
  rw [hstep] at h
  obtain ⟨-, rfl⟩ | ⟨he, hh, -, i, hi, hissue⟩ := runAgent_next_cases h
  · exact .inl rfl
  · rw [issueWord_of_decode he hh (decode_of_encode (wf_of_nextInstr (s := s) hfit hT hi))] at hissue
    exact .inr ⟨he, hh, i, hi, hissue⟩

end Sys2Proof.Machine
end

section
/-! The acquisition's transitions and the pending `DESYNC` (42 R183, R190; 60 R281, R286). -/

namespace Sys2Proof.Machine

variable {s t : State} {i : Instr}

/-! What only the ingest agent can change. -/

/-- The acquisition state is changed by `ADV` and `DESYNC` only (42 R188; 60 R287). -/
theorem acqState_of_exec_next (h : exec i s = .next t) :
    t.acqState = s.acqState ∨ s.cur = .ingest ∧ (i = .desync ∧ t = s.handleDesync
      ∨ ∃ a, i = .adv a ∧ t = { s with acqState := a, acqSub := 0, impPrev := none }) := by
  have hent := (issueCheck_none.mp (check_of_exec_next h)).2.2.1
  cases ends_of_exec_next h with
  | completed => exact .inl (by simp)
  | stopped => exact .inl (by simp)
  | blocked | armed | raised => exact .inl rfl
  | handled => exact .inr ⟨eq_ingest_of_isIngest hent, .inl ⟨rfl, rfl⟩⟩
  | advanced a => exact .inr ⟨eq_ingest_of_isIngest hent, .inr ⟨a, rfl, rfl⟩⟩
  | halted => exact .inl (by simp)

/-- What is pending for the ingest agent another agent leaves (60 R281). -/
theorem ingDivert_of_exec_next (h : exec i s = .next t) (hc : s.cur ≠ .ingest) : t.ingDivert = s.ingDivert := by
  have hent := (issueCheck_none.mp (check_of_exec_next h)).2.2.1
  cases ends_of_exec_next h with
  | completed => simp
  | stopped =>
    unfold State.setStopped
    split
    next hcur => exact absurd hcur hc
    next => rfl
    next => rfl
  | blocked | armed | advanced => rfl
  | raised | handled => exact absurd (eq_ingest_of_isIngest hent) hc
  | halted => simp

/-! The host's actions but `rst`. -/

/-- What the host's actions but `rst` can change: the port's data, the queue, the configuration and CTRL's bits
(10_state R48 to R51). -/
theorem hostStep_frame {x : HostAct} (hx : x ≠ .rst) (h : hostStep x s = .next t) :
    t = { s with
      rdData := t.rdData, frData := t.frData, tick := t.tick, samples := t.samples, cfg := t.cfg, unset := t.unset
      impIndex := t.impIndex, en := t.en, stop := t.stop, frameValid := t.frameValid } := by
  cases x with
  | rst => exact absurd rfl hx
  | regRead _ | offer _ | readOut _ => cases h; rfl
  | regWrite n v =>
    obtain ⟨-, hc⟩ | ⟨-, rfl⟩ | ⟨-, rfl⟩ | ⟨-, rfl⟩ := regWrite_next h
    · rw [(writeCtrl_next hc).2]
    all_goals rfl

end Sys2Proof.Machine

open Sys2Proof Sys2Proof.Machine

/-- Settles O25: the two ends of `FTCHK`; a pending `DESYNC` is the ingest agent's own to take. -/
theorem ftchkRaisesDesync : Obligations.FtchkRaisesDesync := by
  have hcheck : ∀ s : State, s.cur = .ingest → issueCheck s .ftchk = none := fun s hc =>
    issueCheck_none.mpr (by rw [hc]; exact ⟨rfl, rfl, rfl, rfl, rfl⟩)
  refine ⟨⟨by decide, fun s hc => ⟨fun hd => ?raised, fun hd => ?kept⟩⟩, fun s t hd hstep hne hrun hissue hrst => ?pending⟩
  case raised =>
    exact ⟨_, exec_of_ends (hcheck s hc) (.raised hd), rfl, next_of_desync rfl⟩
  case kept =>
    refine ⟨ingestDone s .ftchk, exec_of_ingest hc hd, rfl, fun hst => nextSub_eq_succ _ ?_⟩
    simp [written, hst]
  case pending =>
    suffices t.ingDivert = .desync from ⟨this, next_of_desync this⟩
    have hexec : ∀ {a : Agent} {w : Word} {r : List Turn}, a ≠ .ingest → issueWord a w { s with turns := r } = .next t →
        t.ingDivert = .desync := by
      intro a w r ha h
      obtain ⟨-, heq⟩ | ⟨-, -, ⟨-, heq⟩ | ⟨i, -, heq⟩⟩ := issueWord_cases a w { s with turns := r } <;> rw [heq] at h
      · cases h
        exact hd
      · cases h
      · exact (ingDivert_of_exec_next h ha).trans hd
    cases hturns : s.turns with
    | nil => exact absurd hturns hne
    | cons x r =>
      cases x with
      | run a =>
        rw [step_of_run hturns] at hstep
        have ha : a ≠ .ingest := fun h => hrun r (h ▸ hturns)
        obtain ⟨-, rfl⟩ | ⟨-, -, -, i, -, h⟩ := runAgent_next_cases hstep
        · exact hd
        · exact hexec ha h
      | issue a w =>
        rw [step_of_issue hturns] at hstep
        exact hexec (fun h => hissue w r (h ▸ hturns)) hstep
      | host x =>
        rw [step_of_host hturns] at hstep
        rw [hostStep_frame (fun h => hrst r (h ▸ hturns)) hstep]
        exact hd

/-- Settles O28: only `ADV` and `DESYNC` of the ingest agent change the state, and its lists hold six of them. -/
theorem transitionGraph : Obligations.TransitionGraph := by
  intro s t hfit hturn hdesync hstep hne
  obtain ⟨a, r, k, -, hrun⟩ := step_of_agentTurn hturn
  rw [hrun] at hstep
  obtain ⟨-, rfl⟩ | ⟨he, hh, -, i, hi, hissue⟩ := runAgent_next_cases hstep
  · exact absurd rfl hne
  obtain ⟨-, heq⟩ | ⟨-, -, ⟨-, heq⟩ | ⟨j, hj, heq⟩⟩ := issueWord_cases a (encode i) (s.withTurns r k) <;>
    rw [heq] at hissue
  · cases hissue
    exact absurd rfl hne
  · cases hissue
  obtain h | ⟨hcur, h⟩ := acqState_of_exec_next hissue
  · exact absurd h hne
  have hcur : a = .ingest := hcur
  subst hcur
  have hi : s.nextInstr .ingest = some i := hi
  obtain rfl : i = j := Option.some.inj ((decode_of_encode (wf_of_next_ingest hfit hi)).symm.trans hj)
  have hnext := ingestNext hi
  obtain ⟨rfl, rfl⟩ | ⟨b, rfl, rfl⟩ := h
  · cases hnext with
    | desync hd => exact .inr ⟨hdesync hd, rfl, rfl⟩
    | scratch _ hb => cases hb
  · left
    cases hnext with
    | scratch _ hb => cases hb
    | found _ hst | read _ hst | tuned _ hst | timed _ hst | again _ hst => simp [hst, State.withTurns]

end

section
/-! A worker's list read backwards: what stands at a position (43 R211). -/

namespace Sys2Proof.Machine

variable {F L w a e n : Nat} {i : Instr}

/-- An element of two lists joined is one of the first or one of the second. -/
theorem getElem?_append_cases {α : Type} {xs ys : List α} {x : α} (h : (xs ++ ys)[n]? = some x) :
    xs[n]? = some x ∨ xs.length ≤ n ∧ ys[n - xs.length]? = some x := by
  obtain hlt | hge := Nat.lt_or_ge n xs.length
  · rw [List.getElem?_append_left hlt] at h
    exact .inl h
  · rw [List.getElem?_append_right hge] at h
    exact .inr ⟨hge, h⟩

/-- What worker `w` does for the slots `[a, e)` at position `n` of its list, between `WAIT WS` and `SIG WD` (43 R211). -/
inductive WorkerOp (F L w a e n : Nat) : Instr → Prop
  | derot {j : Nat} (hj : a ≤ j ∧ j < e) : WorkerOp F L w a e n (.derot j)
  | cperr {j : Nat} (hj : a ≤ j ∧ j < e ∧ j < F) : WorkerOp F L w a e n (.cperr j)
  | phpub (hn : n = phpubAt F a e) : WorkerOp F L w a e n .phpub
  | sigWp (hn : n = phpubAt F a e + 1) : WorkerOp F L w a e n (.sig (.wp w))
  | first {i : Instr} (hn : n < phpubAt F a e + L + 4) (hi : i ∈ fftsOps L a) : WorkerOp F L w a e n i
  | sigWf (hn : n = phpubAt F a e + L + 4) : WorkerOp F L w a e n (.sig (.wf w))
  | further {j : Nat} {i : Instr} (hj : a < j ∧ j < e) (hi : i ∈ fftsOps L j) : WorkerOp F L w a e n i
  | waitWf (he : e < F) : WorkerOp F L w a e n (.wait (.wf (w + 1)))
  | dqpsk {j : Nat} (hj : a ≤ j ∧ j < e ∧ j + 1 < F) : WorkerOp F L w a e n (.dqpsk j)
  | soft {j : Nat} (hj : a ≤ j ∧ j < e ∧ j + 1 < F) : WorkerOp F L w a e n (.soft j)

/-- A worker's list up to its first transform, after `WAIT WS`. -/
def workerHead (F w a e : Nat) : List Instr :=
  (slots a e).map Instr.derot ++ (slots a (min e F)).map Instr.cperr ++ [Instr.phpub, Instr.sig (.wp w)]

/-- A worker's list between `WAIT WS` and `SIG WD`. -/
def workerBody (F L w a e : Nat) : List Instr :=
  workerHead F w a e ++ fftsOps L a ++ [Instr.sig (.wf w)] ++ (slots (a + 1) e).flatMap (fftsOps L)
    ++ (slots a (min e (F - 1))).flatMap (pairOps w e)

theorem workerOpsOn_eq_body : workerOpsOn F L w a e = .wait (.ws w) :: (workerBody F L w a e ++ [.sig (.wd w)]) := by
  simp [workerOpsOn, workerBody, workerHead]

theorem length_workerHead : (workerHead F w a e).length = phpubAt F a e + 1 := by
  simp [workerHead, phpubAt]
  omega

theorem workerHead_cases (h : (workerHead F w a e)[n]? = some i) : WorkerOp F L w a e (n + 1) i := by
  obtain h | ⟨hn, h⟩ := getElem?_append_cases h
  · obtain h | ⟨-, h⟩ := getElem?_append_cases h
    · obtain ⟨j, hj, rfl⟩ := List.mem_map.mp (List.mem_of_getElem? h)
      exact .derot (mem_slots.mp hj)
    · obtain ⟨j, hj, rfl⟩ := List.mem_map.mp (List.mem_of_getElem? h)
      have := mem_slots.mp hj
      exact .cperr (by omega)
  · simp only [List.length_append, List.length_map, length_slots] at hn h
    obtain ⟨hlt, hget⟩ := List.getElem?_eq_some_iff.mp h
    obtain h0 | h1 : n - (e - a + (min e F - a)) = 0 ∨ n - (e - a + (min e F - a)) = 1 := by
      simp at hlt
      omega
    · rw [h0] at h
      cases h
      exact .phpub (by unfold phpubAt; omega)
    · rw [h1] at h
      cases h
      exact .sigWp (by unfold phpubAt; omega)

theorem pairOps_cases {j : Nat} (hj : a ≤ j ∧ j < min e (F - 1)) (h : i ∈ pairOps w e j) : WorkerOp F L w a e n i := by
  by_cases hlast : j + 1 = e
  · rw [pairOps_last hlast] at h
    simp only [List.mem_cons, List.not_mem_nil, or_false] at h
    obtain rfl | rfl | rfl := h
    · exact .waitWf (by omega)
    · exact .dqpsk (by omega)
    · exact .soft (by omega)
  · rw [pairOps_of_ne hlast] at h
    simp only [List.mem_cons, List.not_mem_nil, or_false] at h
    obtain rfl | rfl := h
    · exact .dqpsk (by omega)
    · exact .soft (by omega)

theorem workerBody_cases (h : (workerBody F L w a e)[n]? = some i) : WorkerOp F L w a e (n + 1) i := by
  obtain h | ⟨-, h⟩ := getElem?_append_cases h
  · obtain h | ⟨-, h⟩ := getElem?_append_cases h
    · obtain h | ⟨hn, h⟩ := getElem?_append_cases h
      · obtain h' | ⟨-, h'⟩ := getElem?_append_cases h
        · exact workerHead_cases h'
        · have hlt := (List.getElem?_eq_some_iff.mp h).1
          simp only [List.length_append, length_workerHead, length_fftsOps] at hlt
          exact .first (by omega) (List.mem_of_getElem? h')
      · obtain rfl := List.mem_singleton.mp (List.mem_of_getElem? h)
        have hlt := (List.getElem?_eq_some_iff.mp h).1
        simp only [List.length_append, length_workerHead, length_fftsOps, List.length_singleton] at hlt hn
        exact .sigWf (by omega)
    · obtain ⟨j, hj, hi⟩ := List.mem_flatMap.mp (List.mem_of_getElem? h)
      exact .further (mem_slots.mp hj) hi
  · obtain ⟨j, hj, hi⟩ := List.mem_flatMap.mp (List.mem_of_getElem? h)
    exact pairOps_cases (mem_slots.mp hj) hi

/-- What stands at position `n` of a worker's list: `WAIT WS` first, `SIG WD` last, and the work between. -/
theorem workerOpsOn_cases (h : (workerOpsOn F L w a e)[n]? = some i) :
    (n = 0 ∧ i = .wait (.ws w)) ∨ (0 < n ∧ n + 1 < (workerOpsOn F L w a e).length ∧ WorkerOp F L w a e n i)
      ∨ (0 < n ∧ n + 1 = (workerOpsOn F L w a e).length ∧ i = .sig (.wd w)) := by
  rw [workerOpsOn_eq_body] at h ⊢
  cases n with
  | zero => exact .inl ⟨rfl, by simpa using h.symm⟩
  | succ n =>
    rw [List.getElem?_cons_succ] at h
    obtain h' | ⟨hn, h'⟩ := getElem?_append_cases h
    · have hlt := (List.getElem?_eq_some_iff.mp h').1
      exact .inr (.inl ⟨by omega, by simpa using hlt, workerBody_cases h'⟩)
    · obtain rfl := List.mem_singleton.mp (List.mem_of_getElem? h')
      have hlt := (List.getElem?_eq_some_iff.mp h).1
      refine .inr (.inr ⟨by omega, ?_, rfl⟩)
      simp at hlt ⊢
      omega

end Sys2Proof.Machine
end

section
/-! The hand-off discipline, agent by agent (20_memory R90; 44 R240; 45 R260). -/

namespace Sys2Proof.Machine

variable {s t : State} {i : Instr} {w : Nat}

/-! The ingest agent: the right is with it between `WAIT CE` and `SIG CS`. -/

theorem ingestHolds_of_ne (h : s.acqState ≠ .readSymbols) : ingestHolds s = false := by simp [ingestHolds, h]

theorem ingestHolds_of_sub (h3 : s.acqSub ≠ 3) (h4 : s.acqSub ≠ 4) : ingestHolds s = false := by simp [ingestHolds, h3, h4]

/-- A turn that leaves the workers and the coordinator where they are keeps the discipline if it keeps the right in one
place. -/
theorem handoffInv_of_pipelineSide (h : HandoffInv s) (hside : pipelineSide t = pipelineSide s)
    (hcount : t.ce.toNat + (ingestHolds t).toNat + t.cs.toNat = s.ce.toNat + (ingestHolds s).toNat + s.cs.toNat)
    (hd : t.ingDivert = .desync → t.acqState = .fineTime) : HandoffInv t := by
  obtain ⟨hone, -, hidle, hframe, hdone⟩ := h
  simp only [pipelineSide, Prod.mk.injEq] at hside
  obtain ⟨hwk, -, -, -, hco⟩ := hside
  have hT : t.T = s.T := congrArg List.length hwk
  have hwk : ∀ v, t.wk v = s.wk v := wk_congr hwk
  simp only [HandoffInv, handoffCount, hco, hT, hwk, hcount]
  exact ⟨hone, hd, hidle, hframe, hdone⟩

/-- An operation on `SA` is none of the synchronisation. -/
theorem flag_written_of_onScratch {L : Nat} (h : onScratch L i = true) (x : Barrier) : (written s i).flag x = s.flag x :=
  flag_written s (by rintro x rfl; cases h) (by rintro x rfl; cases h) (by rintro rfl; cases h) x

/-- Outside READ_SYMBOLS an operation that completes leaves the right where it is. -/
theorem count_ingestDone_of_ne (hst : s.acqState ≠ .readSymbols) (hcs : (written s i).cs = s.cs) (hce : (written s i).ce = s.ce) :
    (ingestDone s i).ce.toNat + (ingestHolds (ingestDone s i)).toNat + (ingestDone s i).cs.toNat
      = s.ce.toNat + (ingestHolds s).toNat + s.cs.toNat := by
  have hst' : (ingestDone s i).acqState ≠ .readSymbols := by rwa [ingestDone, written_acqState]
  rw [ingestHolds_of_ne hst, ingestHolds_of_ne hst']
  simp only [ingestDone, hcs, hce]

theorem acqSub_ingestDone_of_reading (hst : s.acqState = .readSymbols) (hn : s.acqSub ≠ 0) :
    (ingestDone s i).acqSub = s.acqSub + 1 := by
  have hsucc := nextSub_eq_succ (written s i) (by simp [hst, hn])
  rwa [written_acqSub] at hsucc

/-- In READ_SYMBOLS `WAIT CE` takes the right from `CE` and `SIG CS` gives it to `CS` (42 R185). -/
theorem count_ingestDone (hone : handoffCount s = 1) (hi : IngestNext s i) (hc : completes s i) :
    (ingestDone s i).ce.toNat + (ingestHolds (ingestDone s i)).toNat + (ingestDone s i).cs.toNat
      = s.ce.toNat + (ingestHolds s).toNat + s.cs.toNat := by
  cases hi with
  | desync | halt | found | read | tuned | timed | again => exact hc.elim
  | scratch _ hi hst =>
    have hst : s.acqState ≠ .readSymbols := by
      obtain ⟨hst, -⟩ | ⟨hst, -⟩ := hst <;> simp [hst]
    exact count_ingestDone_of_ne hst (flag_written_of_onScratch hi .cs) (flag_written_of_onScratch hi .ce)
  | nsamp _ hst | l1win _ hst | ncap _ hst | capp _ hst | ftchk _ hst | prscp _ hst =>
    exact count_ingestDone_of_ne (by simp [hst]) rfl rfl
  | iapp _ hst hn =>
    have hsub : (ingestDone s .iapp).acqSub ≤ 1 := by
      simp only [ingestDone, nextSub, written_acqState, written_acqSub, hst, hn]
      split <;> omega
    rw [ingestHolds_of_sub (by omega) (by omega), ingestHolds_of_sub (s := s) (by omega) (by omega)]
    rfl
  | nullcp _ hst hn =>
    have hsub := acqSub_ingestDone_of_reading (i := .nullcp) hst (by omega)
    rw [ingestHolds_of_sub (by omega) (by omega), ingestHolds_of_sub (s := s) (by omega) (by omega)]
    rfl
  | waitCe _ hst hn =>
    have hsub := acqSub_ingestDone_of_reading (i := .wait .ce) hst (by omega)
    have hce : s.ce = true := hc.2
    have hce' : (ingestDone s (.wait .ce)).ce = false := rfl
    have hcs' : (ingestDone s (.wait .ce)).cs = s.cs := rfl
    have hst' : (ingestDone s (.wait .ce)).acqState = .readSymbols := hst
    simp [ingestHolds, hst, hn, hsub, hce, hce', hcs', hst']
  | swap _ hst hn =>
    have hsub := acqSub_ingestDone_of_reading (i := .swap) hst (by omega)
    have hce' : (ingestDone s .swap).ce = s.ce := rfl
    have hcs' : (ingestDone s .swap).cs = s.cs := rfl
    have hst' : (ingestDone s .swap).acqState = .readSymbols := hst
    simp [ingestHolds, hst, hn, hsub, hce', hcs', hst']
  | sigCs _ hst hn =>
    have hsub := acqSub_ingestDone_of_reading (i := .sig .cs) hst (by omega)
    have hce' : (ingestDone s (.sig .cs)).ce = s.ce := rfl
    have hcs' : (ingestDone s (.sig .cs)).cs = true := rfl
    have hst' : (ingestDone s (.sig .cs)).acqState = .readSymbols := hst
    have hcs : s.cs = false := by
      cases hcs : s.cs
      · rfl
      · simp [handoffCount, ingestHolds, hst, hn, hcs] at hone
        omega
    simp [ingestHolds, hst, hn, hsub, hce', hcs', hst', hcs]

/-- Every turn of the ingest agent keeps the discipline. -/
theorem handoffInv_ingest (h : HandoffInv s) (hcur : s.cur = .ingest) (hi : IngestNext s i) (hexec : exec i s = .next t) :
    HandoffInv t := by
  have hcheck := check_of_exec_next hexec
  have hends := ends_of_exec_next hexec
  have hside := (ingest_changes hcur hcheck hends).1
  have hcount := fun hc hd => handoffInv_of_pipelineSide h hside hc hd
  obtain ⟨hone, hdesync, -⟩ := h
  cases hends with
  | completed hc =>
    have ht := eq_ingestDone hexec hcur hc
    rw [ht] at hcount ⊢
    exact hcount (count_ingestDone hone hi hc) (by simpa [ingestDone] using hdesync)
  | stopped =>
    have ht : s.setStopped = { s with ingDivert := .stopped } := by simp [State.setStopped, hcur]
    rw [ht] at hcount ⊢
    exact hcount rfl nofun
  | blocked => exact hcount rfl hdesync
  | armed =>
    rw [issueCheck_none, hcur] at hcheck
    cases hcheck.2.2.1
  | raised =>
    cases hi with
    | scratch _ hb => cases hb
    | ftchk _ hst => exact hcount rfl fun _ => hst
  | handled =>
    cases hi with
    | scratch _ hb => cases hb
    | desync hd =>
      refine hcount ?_ nofun
      rw [ingestHolds_of_ne (s := s) (by simp [hdesync hd]), ingestHolds_of_sub (s := s.handleDesync) nofun nofun]
      rfl
  | advanced b =>
    obtain ⟨hd, hnot⟩ : s.ingDivert = .none ∧ ingestHolds s = false := by
      cases hi with
      | scratch _ hb => cases hb
      | found hd hst | read hd hst | tuned hd hst | timed hd hst => exact ⟨hd, ingestHolds_of_ne (by simp [hst])⟩
      | again hd _ hn => exact ⟨hd, ingestHolds_of_sub (by omega) (by omega)⟩
    refine hcount ?_ fun hd' => absurd (hd.symm.trans hd') nofun
    rw [hnot, ingestHolds_of_sub (show (0 : Nat) ≠ 3 by decide) (show (0 : Nat) ≠ 4 by decide)]
  | halted =>
    have ht : s.setHalted = { s with ingHalted := true } := by simp [State.setHalted, hcur]
    rw [ht] at hcount ⊢
    exact hcount rfl hdesync

/-! The coordinator: the right is with it from `WAIT CS` to `SIG CE`, and the workers are in the frame from `REL` on. -/

/-- The position of a worker and its two flags of the frame are as before. -/
def sameFrame (s t : State) : Prop :=
  t.T = s.T ∧ ∀ v, (t.wk v).pc = (s.wk v).pc ∧ (t.wk v).ws = (s.wk v).ws ∧ (t.wk v).wd = (s.wk v).wd

theorem sameFrame.idle (h : sameFrame s t) (v : Nat) : idle (t.wk v) ↔ idle (s.wk v) := by
  obtain ⟨hpc, hws, -⟩ := h.2 v
  simp only [Machine.idle, hpc, hws]

theorem sameFrame.inFrame (h : sameFrame s t) (v : Nat) : inFrame (t.wk v) ↔ inFrame (s.wk v) := by
  obtain ⟨hpc, hws, hwd⟩ := h.2 v
  simp only [Machine.inFrame, hpc, hws, hwd]

/-- A turn of the coordinator that leaves the right with it and the workers where they are keeps the discipline; one past
`WAIT WD[w]` if `WD[w]` is set. -/
theorem handoffInv_of_coPc (h : HandoffInv s) (hside : exceptCoord t = exceptCoord s) (hframe : sameFrame s t)
    (hcs : t.cs = s.cs) (hce : t.ce = s.ce) (h2 : 2 ≤ s.coPc) (hpc : t.coPc = s.coPc ∨ t.coPc = s.coPc + 1)
    (hwd : t.coPc = s.coPc + 1 → ∀ v < s.T, s.T + 4 + v = s.coPc → (s.wk v).wd = true) : HandoffInv t := by
  obtain ⟨hone, hdesync, hidle, hin, hdone⟩ := h
  have hst : t.acqState = s.acqState := show (exceptCoord t).acqState = (exceptCoord s).acqState by rw [hside]
  have hsub : t.acqSub = s.acqSub := show (exceptCoord t).acqSub = (exceptCoord s).acqSub by rw [hside]
  have hdiv : t.ingDivert = s.ingDivert := show (exceptCoord t).ingDivert = (exceptCoord s).ingDivert by rw [hside]
  have hT := hframe.1
  refine ⟨?_, ?_, fun h1 => ?_, fun _ v hv => (hframe.inFrame v).mpr (hin h2 v (hT ▸ hv)), fun v hv hlt => ?_⟩
  · have hnz : t.coPc ≠ 0 ∧ s.coPc ≠ 0 := by omega
    simpa [handoffCount, ingestHolds, hst, hsub, hcs, hce, hnz] using hone
  · rwa [hst, hdiv]
  · omega
  · rw [(hframe.2 v).2.2]
    rw [hT] at hv hlt
    obtain hlt' | heq : s.T + 4 + v < s.coPc ∨ s.T + 4 + v = s.coPc := by omega
    · exact hdone v hv hlt'
    · exact hwd (by omega) v hv heq

/-- An operation of the coordinator that completes leaves what it wrote, the position moved. -/
theorem eq_coordDone (h : exec i s = .next t) (hcur : s.cur = .coord) (hc : completes s i) : t = coordDone s i := by
  rw [exec_of_completes (check_of_exec_next h) hc, advance_coord (by rw [written_cur, hcur])] at h
  cases h
  rfl

theorem coPc_coordDone (s : State) (i : Instr) : (coordDone s i).coPc = (s.coPc + 1) % (2 * s.T + 6) := by
  simp [coordDone, nextCoPc]

theorem sameFrame_setWk {g : Worker → Worker} (hg : ∀ k, (g k).pc = k.pc ∧ (g k).ws = k.ws ∧ (g k).wd = k.wd) :
    sameFrame s (s.setWk w g) :=
  ⟨setWk_T s w g, fun v => ⟨wk_setWk_keeps Worker.pc w v fun k => (hg k).1, wk_setWk_keeps Worker.ws w v fun k => (hg k).2.1,
    wk_setWk_keeps Worker.wd w v fun k => (hg k).2.2⟩⟩

/-- `WAIT CS` takes the right from `CS`. -/
theorem handoffInv_waitCs (h : HandoffInv s) (hn : s.coPc = 0) (hcs : s.cs = true) : HandoffInv (coordDone s (.wait .cs)) := by
  obtain ⟨hone, hdesync, hidle, -⟩ := h
  have hpc : (coordDone s (.wait .cs)).coPc = 1 := by
    rw [coPc_coordDone, hn, Nat.mod_eq_of_lt (by omega)]
  have hce' : (coordDone s (.wait .cs)).ce = s.ce := rfl
  have hcs' : (coordDone s (.wait .cs)).cs = false := rfl
  have hholds : ingestHolds (coordDone s (.wait .cs)) = ingestHolds s := rfl
  refine ⟨?_, hdesync, fun _ => hidle (by omega), fun h2 => by omega, fun v hv hlt => by omega⟩
  simp only [handoffCount, hn, hcs, hpc, hce', hcs', hholds] at hone ⊢
  simpa using hone

theorem wk_coordDone_rel (hw : w < s.T) : (coordDone s .rel).wk w = (s.wk w).released :=
  (wk_map_released s w).trans (if_pos hw)

/-- `REL` finds every worker idle and puts it in the frame (44 R241). -/
theorem handoffInv_rel (h : HandoffInv s) (hn : s.coPc = 1) : HandoffInv (coordDone s .rel) := by
  obtain ⟨hone, hdesync, hidle, -⟩ := h
  have hT : (coordDone s .rel).T = s.T := written_T s .rel
  have hpc : (coordDone s .rel).coPc = 2 := by
    rw [coPc_coordDone, hn, Nat.mod_eq_of_lt (by omega)]
  have hce' : (coordDone s .rel).ce = s.ce := rfl
  have hcs' : (coordDone s .rel).cs = s.cs := rfl
  have hholds : ingestHolds (coordDone s .rel) = ingestHolds s := rfl
  refine ⟨?_, hdesync, fun _ => by omega, fun _ v hv => .inl ?_, fun v hv hlt => by omega⟩
  · simp only [handoffCount, hn, hpc, hce', hcs', hholds] at hone ⊢
    simpa using hone
  · rw [hT] at hv
    rw [wk_coordDone_rel hv]
    exact ⟨rfl, (hidle (by omega) v hv).1, rfl⟩

/-- A worker that has signalled done is at `WAIT WS`, not released. -/
theorem idle_of_done {k : Worker} (h : inFrame k) (hwd : k.wd = true) : idle k := by
  obtain ⟨-, -, hno⟩ | ⟨-, -, hno⟩ | ⟨hws, hpc, -⟩ := h
  · simp [hwd] at hno
  · simp [hwd] at hno
  · exact ⟨hpc, hws⟩

/-- Once the coordinator has passed every `WAIT WD` every worker has signalled done and is idle again. -/
theorem HandoffInv.done (h : HandoffInv s) (hn : 2 * s.T + 4 ≤ s.coPc) (hw : w < s.T) :
    idle (s.wk w) ∧ (s.wk w).wd = true := by
  obtain ⟨-, -, -, hin, hdone⟩ := h
  have hwd := hdone w hw (by omega)
  exact ⟨idle_of_done (hin (by omega) w hw) hwd, hwd⟩

/-- `SIG CE` gives the right back. -/
theorem handoffInv_sigCe (h : HandoffInv s) (hn : s.coPc = 2 * s.T + 5) : HandoffInv (coordDone s (.sig .ce)) := by
  have hidle := fun v (hv : v < s.T) => (h.done (by omega) hv).1
  obtain ⟨hone, hdesync, -⟩ := h
  have hpc : (coordDone s (.sig .ce)).coPc = 0 := by
    rw [coPc_coordDone, hn, Nat.mod_self]
  have hce' : (coordDone s (.sig .ce)).ce = true := rfl
  have hcs' : (coordDone s (.sig .ce)).cs = s.cs := rfl
  have hholds : ingestHolds (coordDone s (.sig .ce)) = ingestHolds s := rfl
  refine ⟨?_, hdesync, fun _ => hidle, fun h2 => by omega, fun v hv hlt => by omega⟩
  have hco : decide (s.coPc ≠ 0) = true := decide_eq_true (by omega)
  have hco' : decide ((0 : Nat) ≠ 0) = false := rfl
  simp only [handoffCount, hco, hco', hpc, hce', hcs', hholds, Bool.toNat_true, Bool.toNat_false] at hone ⊢
  omega

/-- The coordinator's turn keeps the discipline. -/
theorem handoffInv_coord (h : HandoffInv s) (hcur : s.cur = .coord) (hi : CoordNext s i) (hexec : exec i s = .next t) :
    HandoffInv t := by
  have hcheck := check_of_exec_next hexec
  have hends := ends_of_exec_next hexec
  have hent := (issueCheck_none.mp hcheck).2.2.1
  rw [hcur] at hent
  have hside := (coord_changes hcur hent hends).1
  cases hends with
  | stopped =>
    have ht : s.setStopped = { s with coDivert := .stopped } := by simp [State.setStopped, hcur]
    rw [ht]
    exact h
  | halted =>
    have ht : s.setHalted = { s with coHalted := true } := by simp [State.setHalted, hcur]
    rw [ht]
    exact h
  | blocked | armed => exact h
  | raised | handled | advanced => cases hent
  | completed hc =>
    have ht := eq_coordDone hexec hcur hc
    rw [ht] at hside ⊢
    have hpc := coPc_coordDone s i
    have hstep : ∀ {n : Nat}, s.coPc = n → n + 1 < 2 * s.T + 6 → (coordDone s i).coPc = s.coPc + 1 := fun hn hlt => by
      rw [hpc, hn, Nat.mod_eq_of_lt hlt]
    cases hi with
    | halt => exact hc.elim
    | waitCs _ hn => exact handoffInv_waitCs h hn hc.2
    | rel _ hn => exact handoffInv_rel h hn
    | @waitWp _ v hv hn =>
      refine handoffInv_of_coPc h hside (sameFrame_setWk fun _ => ⟨rfl, rfl, rfl⟩) rfl rfl (by omega)
        (.inr (hstep hn (by omega))) fun _ u hu hun => by omega
    | phavg _ hn | ffupd _ hn =>
      exact handoffInv_of_coPc h hside ⟨rfl, fun _ => ⟨rfl, rfl, rfl⟩⟩ rfl rfl (by omega) (.inr (hstep hn (by omega)))
        fun _ u hu hun => by omega
    | @waitWd _ v hv hn =>
      refine handoffInv_of_coPc h hside ⟨rfl, fun _ => ⟨rfl, rfl, rfl⟩⟩ rfl rfl (by omega) (.inr (hstep hn (by omega)))
        fun _ u hu hun => ?_
      obtain rfl : u = v := by omega
      exact hc.2
    | emit _ hn =>
      exact handoffInv_of_coPc h hside ⟨rfl, fun _ => ⟨rfl, rfl, rfl⟩⟩ rfl rfl (by omega) (.inr (hstep hn (by omega)))
        fun _ u hu hun => by omega
    | sigCe _ hn => exact handoffInv_sigCe h hn

/-! A worker: in the frame from `WAIT WS` to `SIG WD`. -/

/-- A worker's position, flags and phase bits, the rest blanked out. -/
def Worker.sync (k : Worker) : Worker :=
  { k with phAcc := Fp.zero, phSlot := Fp.zero, halted := false, divert := .none, nv := [] }

/-- What an operation of a worker's list does to its flags and phase bits (20_memory R88, 43 R211, 45 R260). -/
def Worker.after (k : Worker) : Instr → Worker
  | .wait (.ws _) => { k with ws := false, holds := true }
  | .wait (.wf _) => { k with sawWf := true }
  | .sig (.wp _) => { k with wp := true }
  | .sig (.wf _) => { k with wf := true }
  | .sig (.wd _) => { k with wd := true, holds := false }
  | _ => k

theorem sync_written (hw : w < s.T) (he : entitled (.worker w) i = true) (hc : s.curW = w) :
    ((written s i).wk w).sync = ((s.wk w).after i).sync := by
  have hw' : w < s.workers.length := hw
  cases i
  case bitrev b | bflyf b _ | bflyi b _ => cases b <;> rfl
  case cperr | phpub | dqpsk => simp [written, wk_setWk, hc, hw', Worker.sync, Worker.after]
  case derot | ldsym | soft | halt => rfl
  case sig x =>
    cases x with
    | cs | ce | ws _ => cases he
    | wp v | wf v | wd v =>
      obtain rfl : w = v := by simpa [entitled, maySignal] using he
      simp [written, State.setFlag, State.leavePhase, wk_setWk, hw', Worker.sync, Worker.after]
  case wait x =>
    cases x with
    | cs | ce | wp _ | wd _ => cases he
    | ws v =>
      obtain rfl : w = v := by simpa [entitled, mayWait] using he
      simp [written, isConsumed, State.setFlag, State.enterPhase, wk_setWk, hw', Worker.sync, Worker.after]
    | wf v =>
      obtain ⟨hv, rfl⟩ : 1 ≤ v ∧ w = v - 1 := by simpa [entitled, mayWait] using he
      simp [written, isConsumed, State.enterPhase, wk_setWk, hw', Worker.sync, Worker.after]
  all_goals cases he

theorem eq_workerDone (h : exec i s = .next t) (hcur : s.cur = .worker w) (hc : completes s i) : t = workerDone s w i := by
  rw [exec_of_completes (check_of_exec_next h) hc, advance_worker (by rw [written_cur, hcur])] at h
  cases h
  rfl

/-- Worker `w` after an operation of its list: its flags and phase bits, and its position one further or back to 0. -/
theorem sync_workerDone (hw : w < s.T) (he : entitled (.worker w) i = true) (hc : s.curW = w) :
    ((workerDone s w i).wk w).sync = { ((s.wk w).after i).sync with pc := nextWkPc s w (s.wk w) } := by
  have hw' : w < (written s i).workers.length := hw.trans_eq (written_T s i).symm
  have hpc : nextWkPc (written s i) w ((written s i).wk w) = nextWkPc s w (s.wk w) := by
    rw [wk_written_frame]
    simp [nextWkPc]
  have hself : (workerDone s w i).wk w = { (written s i).wk w with pc := nextWkPc s w (s.wk w) } := by
    rw [workerDone, wk_setWk, if_pos ⟨rfl, hw'⟩, hpc]
  rw [hself, ← sync_written hw he hc]
  rfl

/-- What a worker's turn does to its position, flags and phase bits: nothing, or what its operation does. -/
theorem sync_of_worker_turn (hcur : s.cur = .worker w) (hexec : exec i s = .next t) :
    (t.wk w).sync = (s.wk w).sync
      ∨ completes s i ∧ (t.wk w).sync = { ((s.wk w).after i).sync with pc := nextWkPc s w (s.wk w) } := by
  have hcheck := check_of_exec_next hexec
  obtain ⟨hex, -, he, -, -⟩ := issueCheck_none.mp hcheck
  rw [hcur] at hex he
  cases ends_of_exec_next hexec with
  | completed hc =>
    rw [eq_workerDone hexec hcur hc]
    exact .inr ⟨hc, sync_workerDone (of_decide_eq_true hex) he (curW_of_worker hcur)⟩
  | stopped => exact .inl (by rw [wk_setStopped]; rfl)
  | halted => exact .inl (by rw [wk_setHalted]; rfl)
  | blocked => exact .inl rfl
  | armed | raised | handled | advanced => cases he

/-- A worker's turn that keeps its place in the frame keeps the discipline. -/
theorem handoffInv_of_exceptWorker (h : HandoffInv s) (hside : exceptWorker t = exceptWorker s) (hothers : sameOthers s t w)
    (hplace : (idle (s.wk w) → idle (t.wk w)) ∧ (inFrame (s.wk w) → inFrame (t.wk w)))
    (hwd : inFrame (s.wk w) → (s.wk w).wd = true → (t.wk w).wd = true) : HandoffInv t := by
  obtain ⟨hone, hdesync, hidle, hin, hdone⟩ := h
  obtain ⟨hT, hv⟩ := hothers
  have hcount : handoffCount t = handoffCount s :=
    show handoffCount (exceptWorker t) = handoffCount (exceptWorker s) by rw [hside]
  have hco : t.coPc = s.coPc := show (exceptWorker t).coPc = (exceptWorker s).coPc by rw [hside]
  have hst : t.acqState = s.acqState := show (exceptWorker t).acqState = (exceptWorker s).acqState by rw [hside]
  have hdiv : t.ingDivert = s.ingDivert := show (exceptWorker t).ingDivert = (exceptWorker s).ingDivert by rw [hside]
  have hcases : ∀ {p : Worker → Prop}, (p (s.wk w) → p (t.wk w)) → ∀ v, p (s.wk v) → p (t.wk v) := fun hp v hs => by
    by_cases hvw : v = w
    · exact hvw ▸ hp (hvw ▸ hs)
    · rwa [hv v hvw]
  refine ⟨hcount.trans hone, by rwa [hst, hdiv], fun h1 v hlt => ?_, fun h2 v hlt => ?_, fun v hlt hpc => ?_⟩
  · exact hcases hplace.1 v (hidle (hco ▸ h1) v (hT ▸ hlt))
  · exact hcases hplace.2 v (hin (hco ▸ h2) v (hT ▸ hlt))
  · rw [hT] at hlt hpc
    rw [hco] at hpc
    exact (hcases (p := fun k => inFrame k ∧ k.wd = true) (fun hk => ⟨hplace.2 hk.1, hwd hk.1 hk.2⟩) v
      ⟨hin (by omega) v hlt, hdone v hlt hpc⟩).2

/-- The work between `WAIT WS` and `SIG WD` touches neither flag of the frame, nor the hold on the slots. -/
theorem after_of_workerOp {F L a e n : Nat} (h : WorkerOp F L w a e n i) (k : Worker) :
    (k.after i).ws = k.ws ∧ (k.after i).wd = k.wd ∧ (k.after i).holds = k.holds := by
  cases h with
  | first _ hi | further _ hi =>
    simp only [fftsOps, fftOps, List.mem_cons, List.mem_map] at hi
    obtain rfl | rfl | ⟨_, -, rfl⟩ := hi <;> exact ⟨rfl, rfl, rfl⟩
  | _ => exact ⟨rfl, rfl, rfl⟩

/-- A worker at work is in the frame, neither about to start nor done. -/
theorem inFrame_of_pc {k : Worker} (h : inFrame k) (hpc : k.pc ≠ 0) : k.ws = false ∧ k.wd = false := by
  obtain ⟨-, h0, -⟩ | ⟨hws, -, hwd⟩ | ⟨-, h0, -⟩ := h
  · exact absurd h0 hpc
  · exact ⟨hws, hwd⟩
  · exact absurd h0 hpc

/-- A worker's operation that completes takes it into the frame, through it, or out of it. -/
theorem place_of_workerOps {k : Worker} {p : Params} {T : Nat} (hi : (workerOps p T w)[k.pc]? = some i)
    (hws : i = .wait (.ws w) → k.ws = true) :
    let k' := { (k.after i).sync with pc := (k.pc + 1) % (workerOps p T w).length }
    ¬ idle k ∧ (inFrame k → inFrame k') ∧ (inFrame k → k.wd = true → k'.wd = true) := by
  have hlen := congrArg List.length (workerOpsOn_eq_body (F := p.F) (L := p.L) (w := w) (a := startOf p T w) (e := endOf p T w))
  simp only [List.length_cons, List.length_append, List.length_nil] at hlen
  change (workerOps p T w).length = _ at hlen
  obtain ⟨hn, rfl⟩ | ⟨hpos, hlt, hop⟩ | ⟨hpos, hlast, rfl⟩ := workerOpsOn_cases hi
  · have hset := hws rfl
    refine ⟨fun hidle => by simp [hidle.2] at hset, fun hf => .inr (.inl ⟨rfl, ?_, ?_⟩), fun _ h => h⟩
    · show (k.pc + 1) % (workerOps p T w).length ≠ 0
      rw [hn, Nat.mod_eq_of_lt (by omega)]
      decide
    · exact hf.elim (fun h => h.2.2) fun h => h.elim (fun h => absurd hn h.2.1) fun h => by simp [h.1] at hset
  · have hpc : k.pc ≠ 0 := by omega
    obtain ⟨hws, hwd, -⟩ := after_of_workerOp hop k
    refine ⟨fun hidle => hpc hidle.1, fun hf => .inr (.inl ⟨?_, ?_, ?_⟩), fun _ h => hwd.trans h⟩
    · exact hws.trans (inFrame_of_pc hf hpc).1
    · show (k.pc + 1) % (workerOps p T w).length ≠ 0
      rw [workerOps, Nat.mod_eq_of_lt hlt]
      omega
    · exact hwd.trans (inFrame_of_pc hf hpc).2
  · have hpc : k.pc ≠ 0 := by omega
    refine ⟨fun hidle => hpc hidle.1, fun hf => .inr (.inr ⟨(inFrame_of_pc hf hpc).1, ?_, rfl⟩), fun _ _ => rfl⟩
    show (k.pc + 1) % (workerOps p T w).length = 0
    rw [workerOps, hlast]
    exact Nat.mod_self _

/-- A worker's turn keeps the discipline. -/
theorem handoffInv_worker (h : HandoffInv s) (hcur : s.cur = .worker w)
    (hi : i = .halt ∨ (workerOps s.par s.T w)[(s.wk w).pc]? = some i) (hexec : exec i s = .next t) : HandoffInv t := by
  obtain ⟨hside, hothers, -⟩ := worker_changes hcur (check_of_exec_next hexec) (ends_of_exec_next hexec)
  obtain hsame | ⟨hc, hdone⟩ := sync_of_worker_turn hcur hexec
  · have hkeep : ∀ {p : Worker → Prop}, (∀ k, p k ↔ p k.sync) → p (s.wk w) → p (t.wk w) := fun hp hs =>
      (hp _).mpr (hsame ▸ (hp _).mp hs)
    exact handoffInv_of_exceptWorker h hside hothers ⟨hkeep fun _ => Iff.rfl, hkeep fun _ => Iff.rfl⟩
      fun _ => hkeep (p := fun k => k.wd = true) fun _ => Iff.rfl
  · obtain rfl | hi := hi
    · exact hc.elim
    obtain ⟨hnot, hplace, hwd⟩ := place_of_workerOps hi (by rintro rfl; exact hc.2)
    refine handoffInv_of_exceptWorker h hside hothers ⟨fun hidle => absurd hidle hnot, fun hf => ?_⟩ fun hf hset => ?_
    · have hf' := hplace hf
      change inFrame { ((s.wk w).after i).sync with pc := nextWkPc s w (s.wk w) } at hf'
      rw [← hdone] at hf'
      exact hf'
    · have hset' := hwd hf hset
      change { ((s.wk w).after i).sync with pc := nextWkPc s w (s.wk w) }.wd = true at hset'
      rw [← hdone] at hset'
      exact hset'

/-! Every turn. -/

/-- Every action of the host keeps the discipline: `rst` restores it. -/
theorem handoffInv_hostStep {x : HostAct} (h : HandoffInv s) (hstep : hostStep x s = .next t) : HandoffInv t := by
  by_cases hx : x = .rst
  · subst hx
    cases hstep
    exact handoffInv_power s.modes s.T
  · rw [hostStep_frame hx hstep]
    exact h

/-- An operation of an agent's own keeps the discipline. -/
theorem handoffInv_exec {a : Agent} (h : HandoffInv s) (hcur : s.cur = a) (hi : s.nextInstr a = some i)
    (hexec : exec i s = .next t) : HandoffInv t := by
  cases a with
  | ingest => exact handoffInv_ingest h hcur (ingestNext hi) hexec
  | coord => exact handoffInv_coord h hcur (coordNext hi) hexec
  | worker w =>
    exact handoffInv_worker h hcur ((workerNext hi).2.imp And.right And.right) hexec

/-- At `SWAP` the right is with the ingest agent: the coordinator is at `WAIT CS` and no worker is in the frame. -/
theorem HandoffInv.idle_of_swap (h : HandoffInv s) (hi : s.nextInstr .ingest = some .swap) :
    s.coPc = 0 ∧ s.cs = false ∧ ∀ w, w < s.T → (s.wk w).pc = 0 ∧ (s.wk w).ws = false := by
  obtain ⟨hone, -, hidle, -⟩ := h
  cases ingestNext hi with
  | scratch _ hb => cases hb
  | swap _ hst hn =>
    have hholds : ingestHolds s = true := by simp [ingestHolds, hst, hn]
    have hone' : s.ce.toNat + 1 + s.cs.toNat + (decide (s.coPc ≠ 0)).toNat = 1 := by
      rwa [handoffCount, hholds] at hone
    have hco : decide (s.coPc ≠ 0) = false := Bool.toNat_eq_zero.mp (by omega)
    have hcs : s.cs = false := Bool.toNat_eq_zero.mp (by omega)
    have hco : s.coPc = 0 := by simpa using hco
    exact ⟨hco, hcs, hidle (by omega)⟩

end Sys2Proof.Machine

open Sys2Proof Sys2Proof.Machine

/-- Settles O57: the turns of the three kinds of agents keep the discipline, which says what `SWAP` and `EMIT` find. -/
theorem handoffDiscipline : Obligations.HandoffDiscipline := by
  refine ⟨fun s t hfit hT h hturn hstep => ?keeps, fun s h => ⟨fun hi => ?swap, fun hi => ?emit⟩⟩
  case keeps =>
    obtain hagent | ⟨x, r, hx⟩ := agentTurn_or_host hturn
    · obtain ⟨a, r, k, rfl | ⟨-, -, i, hi, hexec⟩⟩ := agentTurn_cases hfit hT hagent hstep
      · exact h
      · exact handoffInv_exec (s := { s.withTurns r k with cur := a }) h rfl hi hexec
    · rw [step_of_host hx] at hstep
      exact handoffInv_hostStep (s := { s with turns := r }) h hstep
  case swap => exact h.idle_of_swap hi
  case emit =>
    intro w hw
    cases coordNext hi with
    | emit _ hn =>
      obtain ⟨⟨hpc, hws⟩, hwd⟩ := h.done (by omega) hw
      exact ⟨hpc, hws, hwd⟩

end

section
/-! The phases, agent by agent (20_memory R88; 43 R211; 44 R240, R244). -/

namespace Sys2Proof.Machine

variable {s t : State} {i : Instr} {w : Nat}

/-! A worker's phase bits, given its list. -/

/-- What the phase bits of worker `w` say of its position `k.pc` in its list `l` (`workerPhases`). -/
def phasesAt (l : List Instr) (w : Nat) (k : Worker) : Prop :=
  k.holds = decide (k.pc ≠ 0)
    ∧ (k.ws = true → k.wp = false ∧ k.wf = false)
    ∧ (k.pc ≠ 0 → ∀ n, k.pc ≤ n → (l[n]? = some (.sig (.wp w)) → k.wp = false) ∧ (l[n]? = some (.sig (.wf w)) → k.wf = false))
    ∧ ∀ n, n < k.pc → l[n]? = some (.wait (.wf (w + 1))) → k.sawWf = true

theorem workerPhases_iff : workerPhases s w ↔ phasesAt (workerOps s.par s.T w) w (s.wk w) := Iff.rfl

theorem phasesAt_sync {l : List Instr} {k : Worker} : phasesAt l w k.sync ↔ phasesAt l w k := Iff.rfl

/-- `REL` clears what an idle worker has signalled (44 R241). -/
theorem phasesAt_released {l : List Instr} {k : Worker} (h : phasesAt l w k) (hpc : k.pc = 0) : phasesAt l w k.released :=
  ⟨h.1, fun _ => ⟨rfl, rfl⟩, fun hne => absurd hpc hne,
    fun n hn => absurd hn (by rw [Worker.released, hpc]; exact Nat.not_lt_zero n)⟩

/-- `SIG WP` stands at one place of a worker's list. -/
theorem pos_sigWp {F L a e n : Nat} (h : (workerOpsOn F L w a e)[n]? = some (.sig (.wp w))) : n = phpubAt F a e + 1 := by
  obtain ⟨-, hi⟩ | ⟨-, -, hop⟩ | ⟨-, -, hi⟩ := workerOpsOn_cases h
  · cases hi
  · cases hop with
    | sigWp hn => exact hn
    | first _ hi | further _ hi => simp [fftsOps, fftOps] at hi
  · cases hi

/-- `SIG WF` stands at one place of a worker's list. -/
theorem pos_sigWf {F L a e n : Nat} (h : (workerOpsOn F L w a e)[n]? = some (.sig (.wf w))) : n = phpubAt F a e + L + 4 := by
  obtain ⟨-, hi⟩ | ⟨-, -, hop⟩ | ⟨-, -, hi⟩ := workerOpsOn_cases h
  · cases hi
  · cases hop with
    | sigWf hn => exact hn
    | first _ hi | further _ hi => simp [fftsOps, fftOps] at hi
  · cases hi

/-- What the work between `WAIT WS` and `SIG WD` does to the signals a worker has given and seen. -/
theorem signals_after {F L a e n : Nat} (h : WorkerOp F L w a e n i) (k : Worker) :
    ((k.after i).wp = k.wp ∨ n = phpubAt F a e + 1) ∧ ((k.after i).wf = k.wf ∨ n = phpubAt F a e + L + 4)
      ∧ (k.sawWf = true ∨ i = .wait (.wf (w + 1)) → (k.after i).sawWf = true) := by
  cases h with
  | sigWp hn => exact ⟨.inr hn, .inl rfl, fun h => h.elim id nofun⟩
  | sigWf hn => exact ⟨.inl rfl, .inr hn, fun h => h.elim id nofun⟩
  | waitWf => exact ⟨.inl rfl, .inl rfl, fun _ => rfl⟩
  | first _ hi | further _ hi =>
    simp only [fftsOps, fftOps, List.mem_cons, List.mem_map] at hi
    obtain rfl | rfl | ⟨_, -, rfl⟩ := hi <;> exact ⟨.inl rfl, .inl rfl, fun h => h.elim id nofun⟩
  | _ => exact ⟨.inl rfl, .inl rfl, fun h => h.elim id nofun⟩

/-- An operation of a worker's list that completes keeps its phase bits right. -/
theorem phasesAt_after {F L a e : Nat} {k : Worker} (h : phasesAt (workerOpsOn F L w a e) w k) (hf : inFrame k)
    (hi : (workerOpsOn F L w a e)[k.pc]? = some i) (hws : i = .wait (.ws w) → k.ws = true) :
    phasesAt (workerOpsOn F L w a e) w { (k.after i).sync with pc := (k.pc + 1) % (workerOpsOn F L w a e).length } := by
  obtain ⟨hholds, hclear, hsig, hsaw⟩ := h
  obtain ⟨hn, rfl⟩ | ⟨hpos, hlt, hop⟩ | ⟨hpos, hlast, rfl⟩ := workerOpsOn_cases hi
  · have hlen := congrArg List.length (workerOpsOn_eq_body (F := F) (L := L) (w := w) (a := a) (e := e))
    simp only [List.length_cons, List.length_append, List.length_nil] at hlen
    obtain ⟨hwp, hwf⟩ := hclear (hws rfl)
    rw [hn, Nat.mod_eq_of_lt (by omega)]
    refine ⟨rfl, nofun, fun _ n _ => ⟨fun _ => hwp, fun _ => hwf⟩, fun n hn1 hget => ?_⟩
    obtain rfl : n = 0 := by simpa using hn1
    cases hget
  · have hne : k.pc ≠ 0 := by omega
    obtain ⟨hws', -, hholds'⟩ := after_of_workerOp hop k
    obtain ⟨hwp, hwf, hsaw'⟩ := signals_after hop k
    have hset : k.ws = false := (inFrame_of_pc hf hne).1
    rw [Nat.mod_eq_of_lt hlt]
    refine ⟨?_, fun hset' => ?_, fun _ n hle => ⟨fun hget => ?_, fun hget => ?_⟩, fun n hn hget => hsaw' ?_⟩
    · exact hholds'.trans (by simp [hholds, hne])
    · exact absurd (hws'.symm.trans hset') (by simp [hset])
    · have hle : k.pc + 1 ≤ n := hle
      have hpos := pos_sigWp hget
      exact (hwp.resolve_right (by omega)).trans ((hsig hne n (by omega)).1 hget)
    · have hle : k.pc + 1 ≤ n := hle
      have hpos := pos_sigWf hget
      exact (hwf.resolve_right (by omega)).trans ((hsig hne n (by omega)).2 hget)
    · obtain hlt' | rfl : n < k.pc ∨ n = k.pc := Nat.lt_succ_iff_lt_or_eq.mp hn
      · exact .inl (hsaw n hlt' hget)
      · exact .inr (Option.some.inj (hi.symm.trans hget))
  · have hset : k.ws = false := (inFrame_of_pc hf (by omega)).1
    rw [hlast, Nat.mod_self]
    exact ⟨rfl, fun hset' => absurd (show k.ws = true from hset') (by simp [hset]), fun hne => absurd rfl hne,
      fun n hn => absurd hn (Nat.not_lt_zero n)⟩

theorem sawWp_after (i : Instr) (k : Worker) : (k.after i).sawWp = k.sawWp := by
  cases i
  case sig x | wait x => cases x <;> rfl
  all_goals rfl

/-! A worker's turn. -/

theorem inFrame_of_not_idle (h : HandoffInv s) (hw : w < s.T) (hnot : ¬ idle (s.wk w)) : inFrame (s.wk w) := by
  obtain ⟨-, -, hidle, hin, -⟩ := h
  obtain h1 | h2 : s.coPc ≤ 1 ∨ 2 ≤ s.coPc := by omega
  · exact absurd (hidle h1 w hw) hnot
  · exact hin h2 w hw

theorem phaseInv_worker (h : PhaseInv s) (hh : HandoffInv s) (hcur : s.cur = .worker w) (hw : w < s.T)
    (hi : i = .halt ∨ (workerOps s.par s.T w)[(s.wk w).pc]? = some i) (hexec : exec i s = .next t) : PhaseInv t := by
  obtain ⟨hphases, hsaw, hoffered⟩ := h
  obtain ⟨hside, ⟨hT, hothers⟩, -⟩ := worker_changes hcur (check_of_exec_next hexec) (ends_of_exec_next hexec)
  have hco : t.coPc = s.coPc := show (exceptWorker t).coPc = (exceptWorker s).coPc by rw [hside]
  have hpar : t.par = s.par := show (exceptWorker t).par = (exceptWorker s).par by rw [hside]
  have hvalid : t.frameValid = s.frameValid := show (exceptWorker t).frameValid = (exceptWorker s).frameValid by rw [hside]
  have harmed : t.emitArmed = s.emitArmed := show (exceptWorker t).emitArmed = (exceptWorker s).emitArmed by rw [hside]
  have hself : phasesAt (workerOps s.par s.T w) w (t.wk w) ∧ (t.wk w).sawWp = (s.wk w).sawWp := by
    obtain hsame | ⟨hc, hdone⟩ := sync_of_worker_turn hcur hexec
    · exact ⟨phasesAt_sync.mp (hsame ▸ phasesAt_sync.mpr (hphases w hw)),
        show (t.wk w).sync.sawWp = (s.wk w).sync.sawWp by rw [hsame]⟩
    · obtain rfl | hi := hi
      · exact hc.elim
      have hset : i = .wait (.ws w) → (s.wk w).ws = true := by rintro rfl; exact hc.2
      have hf := inFrame_of_not_idle hh hw (place_of_workerOps hi hset).1
      constructor
      · rw [← phasesAt_sync, hdone]
        exact phasesAt_after (hphases w hw) hf hi hset
      · show (t.wk w).sync.sawWp = _
        rw [hdone]
        exact sawWp_after i (s.wk w)
  refine ⟨fun v hv => ?_, fun v hv hlt => ?_, ?_⟩
  · rw [workerPhases_iff, hpar, hT]
    by_cases hvw : v = w
    · exact hvw ▸ hself.1
    · rw [hothers v hvw]
      exact hphases v (hT ▸ hv)
  · have hold := hsaw v (hT ▸ hv) (hco ▸ hlt)
    by_cases hvw : v = w
    · subst hvw
      exact hself.2.trans hold
    · rwa [hothers v hvw]
  · rw [hco, hT, hvalid, harmed]
    exact hoffered

/-! The ingest agent's turn and the host's touch no phase but by taking the frame on offer. -/

/-- What the phases speak of is as before, but that the frame on offer may have been taken. -/
theorem phaseInv_of_same (h : PhaseInv s) (hpar : t.par = s.par) (hwk : t.workers = s.workers) (hco : t.coPc = s.coPc)
    (hvalid : t.frameValid = true → s.frameValid = true) (harmed : t.emitArmed = s.emitArmed) : PhaseInv t := by
  obtain ⟨hphases, hsaw, hoffered⟩ := h
  have hT : t.T = s.T := congrArg List.length hwk
  simp only [PhaseInv, workerPhases_iff, hpar, hT, hco, wk_congr hwk, harmed]
  exact ⟨hphases, hsaw, fun hor => hoffered (hor.imp_left hvalid)⟩

theorem written_emitArmed (h : i ≠ .emit) : (written s i).emitArmed = s.emitArmed := by
  cases i <;> simp_all [written, prsCopied, apply_ite State.emitArmed]

theorem phaseInv_ingest (h : PhaseInv s) (hcur : s.cur = .ingest) (hexec : exec i s = .next t) : PhaseInv t := by
  have hcheck := check_of_exec_next hexec
  have hends := ends_of_exec_next hexec
  have hside := (ingest_changes hcur hcheck hends).1
  have hent := (issueCheck_none.mp hcheck).2.2.1
  rw [hcur] at hent
  simp only [pipelineSide, Prod.mk.injEq] at hside
  obtain ⟨hwk, -, -, -, hco⟩ := hside
  have hkeep : t.frameValid = s.frameValid ∧ t.emitArmed = s.emitArmed := by
    cases hends with
    | completed =>
      have harmed := written_emitArmed (s := s) (i := i) (by rintro rfl; cases hent)
      exact ⟨by simp, by simp [harmed]⟩
    | stopped | halted => exact ⟨by simp, by simp⟩
    | armed => cases hent
    | blocked | raised | handled | advanced => exact ⟨rfl, rfl⟩
  exact phaseInv_of_same h (par_of_ends hends) hwk hco (fun hv => hkeep.1 ▸ hv) hkeep.2

/-! The coordinator's turn. -/

/-- A worker after a coordinator's operation other than `REL`: as before, but for what is seen of `WP`. -/
theorem wk_coordDone (hi : CoordNext s i) (hne : i ≠ .rel) (v : Nat) :
    (coordDone s i).wk v = { s.wk v with sawWp := ((coordDone s i).wk v).sawWp } := by
  cases hi with
  | rel => exact absurd rfl hne
  | @waitWp _ w =>
    show (s.setWk w fun k => { k with sawWp := true }).wk v
      = { s.wk v with sawWp := ((s.setWk w fun k => { k with sawWp := true }).wk v).sawWp }
    rw [wk_setWk]
    split
    next hv =>
      obtain ⟨rfl, -⟩ := hv
      rfl
    next => rfl
  | halt | waitCs | phavg | ffupd | waitWd | emit | sigCe => rfl

theorem phaseInv_coord (h : PhaseInv s) (hh : HandoffInv s) (hcur : s.cur = .coord) (hi : CoordNext s i)
    (hexec : exec i s = .next t) : PhaseInv t := by
  have hcheck := check_of_exec_next hexec
  have hent := (issueCheck_none.mp hcheck).2.2.1
  rw [hcur] at hent
  cases ends_of_exec_next hexec with
  | stopped =>
    have ht : s.setStopped = { s with coDivert := .stopped } := by simp [State.setStopped, hcur]
    rw [ht]
    exact h
  | halted =>
    have ht : s.setHalted = { s with coHalted := true } := by simp [State.setHalted, hcur]
    rw [ht]
    exact h
  | blocked => exact h
  | armed =>
    cases hi with
    | emit _ hn => exact ⟨h.1, h.2.1, fun _ => hn⟩
  | raised | handled | advanced => cases hent
  | completed hc =>
    rw [eq_coordDone hexec hcur hc]
    obtain ⟨hphases, hsaw, hoffered⟩ := h
    have hT : (coordDone s i).T = s.T := written_T s i
    have hpar : (coordDone s i).par = s.par := written_par s i
    have hpc := coPc_coordDone s i
    refine ⟨fun v hv => ?phases, fun v hv hlt => ?seen, fun hor => ?offered⟩
    case phases =>
      rw [hT] at hv
      rw [workerPhases_iff, hpar, hT]
      by_cases hrel : i = .rel
      · subst hrel
        cases hi with
        | rel _ hn =>
          rw [wk_coordDone_rel hv]
          exact phasesAt_released (hphases v hv) (hh.2.2.1 (by omega) v hv).1
      · rw [wk_coordDone hi hrel]
        exact hphases v hv
    case seen =>
      rw [hT] at hv
      have hold : v + 2 < s.coPc → ((coordDone s i).wk v).sawWp = (s.wk v).sawWp → ((coordDone s i).wk v).sawWp = true :=
        fun hlt heq => heq.trans (hsaw v hv hlt)
      cases hi with
      | halt => exact hc.elim
      | waitCs _ hn | rel _ hn =>
        rw [hn, Nat.mod_eq_of_lt (by omega)] at hpc
        omega
      | @waitWp _ w hw hn =>
        rw [hn, Nat.mod_eq_of_lt (by omega)] at hpc
        have hset := wk_setWk s w v fun k => { k with sawWp := true }
        by_cases hvw : v = w
        · subst hvw
          rw [if_pos ⟨rfl, hw⟩] at hset
          exact congrArg Worker.sawWp hset
        · rw [if_neg fun h => hvw h.1] at hset
          exact hold (by omega) (congrArg Worker.sawWp hset)
      | sigCe _ hn =>
        rw [hn, Nat.mod_self] at hpc
        omega
      | phavg _ hn | ffupd _ hn | waitWd _ _ hn | emit _ hn => exact hold (by omega) rfl
    case offered =>
      by_cases hemit : i = .emit
      · subst hemit
        obtain ⟨-, -, hvalid⟩ := hc
        obtain hor | hor := hor
        · exact absurd hor (by simp [coordDone, hvalid])
        · cases hor
      · have hpos : s.coPc = 2 * s.T + 4 := by
          refine hoffered (hor.imp (fun hv => ?_) fun ha => ?_)
          · simpa [coordDone] using hv
          · rwa [coordDone, written_emitArmed hemit] at ha
        cases hi with
        | emit => exact absurd rfl hemit
        | halt => exact hc.elim
        | waitCs _ hn | rel _ hn | waitWp _ _ hn | phavg _ hn | ffupd _ hn | waitWd _ _ hn | sigCe _ hn => omega

/-! Every turn. -/

/-- An operation of an agent's own keeps the phases. -/
theorem phaseInv_exec {a : Agent} (h : PhaseInv s) (hh : HandoffInv s) (hcur : s.cur = a) (hi : s.nextInstr a = some i)
    (hexec : exec i s = .next t) : PhaseInv t := by
  cases a with
  | ingest => exact phaseInv_ingest h hcur hexec
  | coord => exact phaseInv_coord h hh hcur (coordNext hi) hexec
  | worker w =>
    obtain ⟨hw, hcases⟩ := workerNext hi
    exact phaseInv_worker h hh hcur hw (hcases.imp And.right And.right) hexec

end Sys2Proof.Machine
end

section
/-! The positions and lengths of a core that runs its own lists (42 R171, R175, R177, R181, R185; 43 R211; 44 R240). -/

namespace Sys2Proof.Machine

variable {s t : State} {i : Instr} {w : Nat}

/-! The coordinator's and the workers' positions, whatever is issued. -/

theorem coDivert_setStopped (h : s.coDivert ≠ .desync) : s.setStopped.coDivert ≠ .desync := by
  unfold State.setStopped
  split
  next => exact h
  next => exact nofun
  next => exact h

theorem wk_divert_setStopped {v : Nat} (h : (s.wk v).divert ≠ .desync) : (s.setStopped.wk v).divert ≠ .desync := by
  unfold State.setStopped
  split
  next => exact h
  next => exact h
  next u =>
    rw [wk_setWk]
    split
    next => exact nofun
    next => exact h

/-- A position inside its list moves on inside it (10_state R32). -/
theorem pipelinePlaced_advance (hp : pipelinePlaced s) : pipelinePlaced s.advance := by
  obtain ⟨hco, hdiv, hwk⟩ := hp
  refine ⟨?_, hdiv, fun v hv => ?_⟩
  · rw [advance_coPc, advance_T]
    split
    · exact Nat.mod_lt _ (by omega)
    · exact hco
  · rw [advance_T] at hv
    obtain ⟨hpc, hdv⟩ := hwk v hv
    rw [wk_advance, advance_T, advance_par]
    split
    · exact ⟨Nat.mod_lt _ (by omega), hdv⟩
    · exact ⟨hpc, hdv⟩

theorem pipelinePlaced_written (hp : pipelinePlaced s) : pipelinePlaced (written s i) := by
  simpa only [pipelinePlaced, written_coPc, written_T, written_coDivert, written_par, wk_written_pc, wk_written_divert] using hp

theorem pipelinePlaced_of_ends (h : Ends s i t) (hp : pipelinePlaced s) : pipelinePlaced t := by
  cases h with
  | completed => exact pipelinePlaced_advance (pipelinePlaced_written hp)
  | stopped =>
    obtain ⟨hco, hdiv, hwk⟩ := hp
    refine ⟨by simpa using hco, coDivert_setStopped hdiv, fun v hv => ?_⟩
    obtain ⟨hpc, hdv⟩ := hwk v (by simpa using hv)
    exact ⟨by rw [wk_setStopped]; simpa using hpc, wk_divert_setStopped hdv⟩
  | halted =>
    obtain ⟨hco, hdiv, hwk⟩ := hp
    refine ⟨by simpa using hco, by simpa using hdiv, fun v hv => ?_⟩
    rw [wk_setHalted]
    simpa using hwk v (by simpa using hv)
  | blocked | armed | raised | handled | advanced => exact hp

/-! The ingest agent's position and the lengths it needs. -/

/-- `l1_cnt` is at most `K`, and the ingest agent is in its list with the lengths its next operation needs. -/
def ingestFit (s : State) : Prop := s.l1Cnt ≤ s.K ∧ ingestPlaced s

theorem ingestFit_findNull (hst : s.acqState = .findNull) : ingestFit s ↔ s.l1Cnt ≤ s.K
    ∧ s.acqSub < 4 ∧ (s.acqSub = 0 → s.l1Cnt < s.K) ∧ (s.acqSub = 1 → s.l1Cnt = s.K) ∧ (s.acqSub = 3 → s.corrLen = s.par.P) := by
  simp only [ingestFit, ingestPlaced, hst]

theorem ingestFit_readNullPrs (hst : s.acqState = .readNullPrs) :
    ingestFit s ↔ s.l1Cnt ≤ s.K ∧ s.acqSub < 2 ∧ (s.acqSub = 0 → s.corrLen < s.par.P + s.par.S) := by
  simp only [ingestFit, ingestPlaced, hst]

theorem ingestFit_coarseFreq (hst : s.acqState = .coarseFreq) :
    ingestFit s ↔ s.l1Cnt ≤ s.K ∧ s.acqSub < (coarseFreqOps s.par.L s.cfg.coarseFreqEn).length := by
  simp only [ingestFit, ingestPlaced, hst]

theorem ingestFit_fineTime (hst : s.acqState = .fineTime) :
    ingestFit s ↔ s.l1Cnt ≤ s.K ∧ s.acqSub < (fineTimeOps s.par.L).length
      ∧ (s.acqSub + 1 = (fineTimeOps s.par.L).length → s.ingLen < s.par.frameLen) := by
  simp only [ingestFit, ingestPlaced, hst]

theorem ingestFit_readSymbols (hst : s.acqState = .readSymbols) :
    ingestFit s ↔ s.l1Cnt ≤ s.K ∧ s.acqSub < 6 ∧ (s.acqSub = 0 → s.ingLen < s.par.frameLen)
      ∧ (2 ≤ s.acqSub → s.corrLen = s.par.P) := by
  simp only [ingestFit, ingestPlaced, hst]

/-- A legal parameter set has a null symbol at least a symbol long (00_scope R5). -/
theorem Params.S_le_P_of_legal {p : Params} (h : p.legal = true) : p.S ≤ p.P := by
  simp only [Params.legal, Bool.and_eq_true, decide_eq_true_eq] at h
  obtain ⟨⟨-, hSP⟩, -⟩ := h
  exact hSP

theorem length_coarseFreqOps_pos (L : Nat) (en : Bool) : 0 < (coarseFreqOps L en).length := by
  cases en <;> exact Nat.succ_pos _

/-- What `PRSCP` copies is shorter than a frame: `S + G < F·S + P` (42 R184). -/
theorem prscpLen_lt (hlegal : s.par.legal = true)
    (hoff : s.fineTimeOffset = 0 ∨ offsetInRange s) : prscpFits s ∧ prscpLen s < s.par.frameLen := by
  obtain ⟨hGN, hF, hGP⟩ := Params.bounds_of_legal hlegal
  have hone := one_le_N_of_legal hlegal
  have htwoS : 2 * (s.par.N + s.par.G) ≤ s.par.F * (s.par.N + s.par.G) := Nat.mul_le_mul_right _ hF
  have hP := Params.S_le_P_of_legal hlegal
  simp only [Params.S] at hP
  obtain h0 | hoff := hoff
  · simp only [prscpFits, prscpLen, h0, Params.S, Params.frameLen]
    omega
  · obtain ⟨-, hmax, -⟩ := prscpLen_bounds hoff
    simp only [Params.S, Params.frameLen] at hmax ⊢
    exact ⟨prscpFits_of_offsetInRange hlegal hoff, by omega⟩

/-- An operation on `SA` writes neither `l1_cnt` nor the lengths. -/
theorem lengths_of_onScratch {L : Nat} (hi : onScratch L i = true) :
    (written s i).l1Cnt = s.l1Cnt ∧ (written s i).corrLen = s.corrLen ∧ (written s i).ingLen = s.ingLen := by
  have hne : ∀ {j : Instr}, onScratch L j = false → i ≠ j := fun hj h => by simp [← h, hi] at hj
  exact ⟨written_l1Cnt s (hne rfl) (hne rfl), written_corrLen s (hne rfl) (hne rfl) (hne rfl),
    written_ingLen s (hne rfl) (hne rfl) (hne rfl)⟩

theorem ingestFit_ingestDone (hl : legalRun s) (hr : rangesHold s) (h : ingestFit s) (hi : IngestNext s i)
    (hc : completes s i) : ingestFit (ingestDone s i) := by
  obtain ⟨hlegal, -, -, hK, -⟩ := hl
  have hsub : ¬ (s.acqState = .findNull ∧ s.acqSub ≤ 1) ∧ ¬ (s.acqState = .readNullPrs ∧ s.acqSub = 0)
      ∧ ¬ (s.acqState = .readSymbols ∧ s.acqSub = 0) → (ingestDone s i).acqSub = s.acqSub + 1 := fun hn => by
    have hsucc := nextSub_eq_succ (written s i) (by simpa using hn)
    rwa [written_acqSub] at hsucc
  have hst : (ingestDone s i).acqState = s.acqState := written_acqState s i
  have hpar : (ingestDone s i).par = s.par := written_par s i
  have hK' : (ingestDone s i).K = s.K := written_K s i
  have hcfg : (ingestDone s i).cfg = s.cfg := written_cfg s i
  cases hi with
  | desync | halt | found | read | tuned | timed | again => exact hc.elim
  | scratch hd hi hplace =>
    obtain ⟨hcnt, hcorr, hing⟩ := lengths_of_onScratch (s := s) hi
    have hcnt' : (ingestDone s i).l1Cnt = s.l1Cnt := hcnt
    obtain ⟨hacq, hlt⟩ | ⟨hacq, hlt⟩ := hplace
    · rw [ingestFit_coarseFreq hacq] at h
      rw [ingestFit_coarseFreq (hst.trans hacq), hsub (by simp [hacq]), hcnt', hK', hpar, hcfg]
      exact ⟨h.1, hlt⟩
    · rw [ingestFit_fineTime hacq] at h
      rw [ingestFit_fineTime (hst.trans hacq), hsub (by simp [hacq]), hcnt', hK', hpar]
      exact ⟨h.1, by omega, by omega⟩
  | nsamp _ hacq hn =>
    rw [ingestFit_findNull hacq] at h
    rw [ingestFit_findNull (hst.trans hacq), hK']
    have hcnt : (ingestDone s .nsamp).l1Cnt = s.l1Cnt + 1 := rfl
    have hnext : (ingestDone s .nsamp).acqSub = if s.l1Cnt + 1 = s.K then 1 else if s.nullEnd then 2 else 0 := by
      simp only [ingestDone, nextSub, written_acqState, written_acqSub, written_K, hacq, hn]
      rfl
    rw [hcnt, hnext]
    split_ifs <;> simp <;> omega
  | l1win _ hacq hn =>
    rw [ingestFit_findNull (hst.trans hacq), hK']
    have hcnt : (ingestDone s .l1win).l1Cnt = 0 := rfl
    have hnext : (ingestDone s .l1win).acqSub = if (written s .l1win).nullEnd then 2 else 0 := by
      simp [ingestDone, nextSub, hacq, hn]
    rw [hcnt, hnext]
    split_ifs <;> simp
    omega
  | ncap _ hacq hn =>
    rw [ingestFit_findNull hacq] at h
    have hcnt : (ingestDone s .ncap).l1Cnt = s.l1Cnt := rfl
    rw [ingestFit_findNull (hst.trans hacq), hK', hsub (by simp [hn]), hcnt]
    exact ⟨h.1, by omega, by omega, by omega, fun _ => rfl⟩
  | capp _ hacq hn =>
    rw [ingestFit_readNullPrs hacq] at h
    have hcnt : (ingestDone s .capp).l1Cnt = s.l1Cnt := rfl
    have hlen : (ingestDone s .capp).corrLen = s.corrLen + 1 := rfl
    have hnext : (ingestDone s .capp).acqSub = if s.corrLen + 1 = s.par.P + s.par.S then 1 else 0 := by
      simp only [ingestDone, nextSub, written_acqState, written_acqSub, hacq, hn]
      rfl
    rw [ingestFit_readNullPrs (hst.trans hacq), hK', hpar, hcnt, hlen, hnext]
    split_ifs <;> simp <;> omega
  | ftchk _ hacq hn =>
    rw [ingestFit_fineTime hacq] at h
    have hcnt : (ingestDone s .ftchk).l1Cnt = s.l1Cnt := rfl
    rw [ingestFit_fineTime (hst.trans hacq), hK', hpar, hsub (by simp [hacq]), hcnt]
    exact ⟨h.1, by omega, by omega⟩
  | prscp _ hacq hn =>
    rw [ingestFit_fineTime hacq] at h
    have hcnt : (ingestDone s .prscp).l1Cnt = s.l1Cnt := rfl
    have hlen : (ingestDone s .prscp).ingLen = prscpLen s := rfl
    rw [ingestFit_fineTime (hst.trans hacq), hK', hpar, hsub (by simp [hacq]), hcnt, hlen]
    obtain ⟨-, -, -, -, -, hoff, -⟩ := hr
    exact ⟨h.1, by omega, fun _ => (prscpLen_lt hlegal hoff).2⟩
  | iapp _ hacq hn =>
    rw [ingestFit_readSymbols hacq] at h
    have hcnt : (ingestDone s .iapp).l1Cnt = s.l1Cnt := rfl
    have hlen : (ingestDone s .iapp).ingLen = s.ingLen + 1 := rfl
    have hnext : (ingestDone s .iapp).acqSub = if s.ingLen + 1 = s.par.frameLen then 1 else 0 := by
      simp only [ingestDone, nextSub, written_acqState, written_acqSub, written_par, hacq, hn]
      rfl
    rw [ingestFit_readSymbols (hst.trans hacq), hK', hpar, hcnt, hlen, hnext]
    split_ifs <;> simp <;> omega
  | nullcp _ hacq hn =>
    rw [ingestFit_readSymbols hacq] at h
    have hcnt : (ingestDone s .nullcp).l1Cnt = s.l1Cnt := rfl
    rw [ingestFit_readSymbols (hst.trans hacq), hK', hsub (by simp [hacq, hn]), hcnt]
    exact ⟨h.1, by omega, by omega, fun _ => rfl⟩
  | waitCe _ hacq hn | swap _ hacq hn | sigCs _ hacq hn =>
    rw [ingestFit_readSymbols hacq] at h
    rw [ingestFit_readSymbols (hst.trans hacq), hK', hpar, hsub (by simp [hacq, hn])]
    exact ⟨h.1, by omega, by omega, fun _ => h.2.2.2 (by omega)⟩

/-- Every turn of the ingest agent leaves it in its list with the lengths its next operation needs. -/
theorem ingestFit_ingest (hl : legalRun s) (hr : rangesHold s) (h : ingestFit s) (hcur : s.cur = .ingest)
    (hi : IngestNext s i) (hexec : exec i s = .next t) : ingestFit t := by
  have hent := (issueCheck_none.mp (check_of_exec_next hexec)).2.2.1
  rw [hcur] at hent
  cases ends_of_exec_next hexec with
  | completed hc =>
    rw [eq_ingestDone hexec hcur hc]
    exact ingestFit_ingestDone hl hr h hi hc
  | stopped =>
    have ht : s.setStopped = { s with ingDivert := .stopped } := by simp [State.setStopped, hcur]
    rw [ht]
    exact h
  | halted =>
    have ht : s.setHalted = { s with ingHalted := true } := by simp [State.setHalted, hcur]
    rw [ht]
    exact h
  | blocked | raised => exact h
  | armed => cases hent
  | handled =>
    obtain ⟨-, -, -, hK, -⟩ := hl
    exact (ingestFit_findNull rfl).mpr ⟨Nat.zero_le _, (by decide : 0 < 4), fun _ => hK, nofun, nofun⟩
  | advanced b =>
    have hS := one_le_N_of_legal hl.1
    cases hi with
    | scratch _ hb => cases hb
    | found _ hacq hn =>
      rw [ingestFit_findNull hacq] at h
      refine (ingestFit_readNullPrs rfl).mpr ⟨h.1, (by decide : 0 < 2), fun _ => ?_⟩
      show s.corrLen < s.par.P + s.par.S
      have := h.2.2.2.2 hn
      simp only [Params.S]
      omega
    | read _ hacq hn =>
      exact (ingestFit_coarseFreq rfl).mpr ⟨h.1, length_coarseFreqOps_pos _ _⟩
    | tuned _ hacq hn =>
      refine (ingestFit_fineTime rfl).mpr ⟨h.1, ?_, ?_⟩
      · simp
      · simp
    | timed _ hacq hn =>
      rw [ingestFit_fineTime hacq] at h
      exact (ingestFit_readSymbols rfl).mpr ⟨h.1, (by decide : 0 < 6), fun _ => h.2.2 hn, nofun⟩
    | again _ hacq hn =>
      rw [ingestFit_readSymbols hacq] at h
      refine (ingestFit_readNullPrs rfl).mpr ⟨h.1, (by decide : 0 < 2), fun _ => ?_⟩
      show s.corrLen < s.par.P + s.par.S
      have := h.2.2.2 (by omega)
      simp only [Params.S]
      omega

end Sys2Proof.Machine
end

section
/-! The hardware's own lists are never refused (00_scope R17; 60 R280). -/

namespace Sys2Proof.Machine

variable {s t : State} {i : Instr} {w : Nat}

/-! An operation that passes the checks and has room gives a next state. -/

/-- The buffer an operation writes has room for it. -/
def roomFor (s : State) : Instr → Prop
  | .nsamp => s.circWr < s.par.P
  | .capp => s.corrLen < s.par.P + s.par.S
  | .iapp => s.ingLen < s.par.frameLen
  | .prscp => prscpFits s
  | _ => True

/-- A sample operation with room takes the sample there is, or is blocked. -/
theorem completes_or_blocked (hroom : roomFor s i) (hb : isBlocking i = true) (hs : s.stop = false)
    (harmed : i = .emit → s.emitArmed = true) : completes s i ∨ isBlockedAt s i := by
  cases i
  case nsamp | capp | iapp =>
    by_cases hq : s.samples = []
    · exact .inr hq
    · exact .inl ⟨hs, hq, hroom⟩
  case emit =>
    cases hv : s.frameValid with
    | false => exact .inl ⟨hs, harmed rfl, hv⟩
    | true => exact .inr ⟨harmed rfl, hv⟩
  case wait x =>
    cases hx : s.flag x with
    | false => exact .inr hx
    | true => exact .inl ⟨hs, hx⟩
  all_goals cases hb

theorem exists_next_of_check (hc : issueCheck s i = none) (hroom : roomFor s i) : ∃ t, exec i s = .next t := by
  by_cases hb : isBlocking i = true
  · cases hs : s.stop with
    | true => exact ⟨_, exec_of_stop hc hb hs⟩
    | false =>
      by_cases harm : i = .emit ∧ s.emitArmed = false
      · obtain ⟨rfl, harmed⟩ := harm
        exact ⟨_, exec_of_ends hc (.armed hs harmed)⟩
      · obtain h | h := completes_or_blocked hroom hb hs fun he => by simpa [he] using harm
        · exact ⟨_, exec_of_completes hc h⟩
        · exact ⟨_, exec_of_isBlockedAt hc hs h⟩
  · cases i
    case ftchk =>
      cases hd : desyncTest s with
      | true => exact ⟨_, exec_of_ends hc (.raised hd)⟩
      | false => exact ⟨_, exec_of_completes hc hd⟩
    case desync => exact ⟨_, exec_of_ends hc .handled⟩
    case adv a => exact ⟨_, exec_of_ends hc (.advanced a)⟩
    case halt => exact ⟨_, exec_of_ends hc .halted⟩
    case prscp => exact ⟨_, exec_of_completes hc hroom⟩
    case nsamp | capp | iapp | emit | wait => exact absurd rfl hb
    all_goals exact ⟨_, exec_of_completes hc trivial⟩

/-! The ingest agent's operations pass the checks. -/

/-- While the ingest agent is at `SWAP` no worker holds a slot or is about to take one. -/
theorem inPhase_swap (hh : HandoffInv s) (hp : PhaseInv s) (hi : s.nextInstr .ingest = some .swap) : inPhase s .swap = true := by
  obtain ⟨hco, hcs, hidle⟩ := hh.idle_of_swap hi
  have hall : s.workers.all (fun k => !k.holds && !k.ws) = true := workers_all fun w hw => by
    obtain ⟨hpc, hws⟩ := hidle w hw
    have hholds := (hp.1 w hw).1
    simp [hholds, hpc, hws]
  simp [inPhase, hco, hcs, hall]

theorem check_ingest (hh : HandoffInv s) (hp : PhaseInv s) (hcur : s.cur = .ingest) (hi : s.nextInstr .ingest = some i) :
    issueCheck s i = none := by
  rw [issueCheck_none, hcur]
  refine ⟨rfl, ?_⟩
  have hnext := ingestNext hi
  cases hnext with
  | scratch _ hb =>
    cases i
    case bitrev b => cases b <;> [exact ⟨rfl, rfl, rfl, rfl⟩; cases hb]
    case bflyf b st | bflyi b st =>
      cases b with
      | sa => exact ⟨hb, rfl, rfl, rfl⟩
      | zf _ => cases hb
    case delta | cmul | mag | lmag | pllp | ldprs | fczero | peakc | fcupd | peakw => exact ⟨rfl, rfl, rfl, rfl⟩
    all_goals cases hb
  | swap => exact ⟨rfl, rfl, rfl, inPhase_swap hh hp hi⟩
  | _ => exact ⟨rfl, rfl, rfl, rfl⟩

theorem room_ingest (hl : legalRun s) (hr : rangesHold s) (h : ingestFit s) (hi : IngestNext s i) : roomFor s i := by
  cases hi with
  | scratch _ hb =>
    cases i
    case nsamp | capp | iapp | prscp => cases hb
    all_goals trivial
  | nsamp => exact hr.1
  | capp _ hacq hn => exact ((ingestFit_readNullPrs hacq).mp h).2.2 hn
  | iapp _ hacq hn => exact ((ingestFit_readSymbols hacq).mp h).2.2.1 hn
  | prscp =>
    obtain ⟨-, -, -, -, -, hoff, -⟩ := hr
    exact (prscpLen_lt hl.1 hoff).1
  | _ => trivial

/-! The coordinator's operations pass the checks. -/

theorem check_coord (hp : PhaseInv s) (hcur : s.cur = .coord) (hi : CoordNext s i) : issueCheck s i = none := by
  rw [issueCheck_none, hcur]
  refine ⟨rfl, ?_⟩
  cases hi with
  | @waitWp _ v hv | @waitWd _ v hv =>
    exact ⟨by simpa [operandsLegal, barrierLegal] using hv, rfl, rfl, rfl⟩
  | phavg _ hn => 
    have hall : s.workers.all (·.sawWp) = true := workers_all fun w hw => hp.2.1 w hw (by omega)
    exact ⟨rfl, rfl, rfl, hall⟩
  | _ => exact ⟨rfl, rfl, rfl, rfl⟩

/-- What another agent than the ingest agent may issue needs no room. -/
theorem room_of_not_ingest {a : Agent} (ha : a ≠ .ingest) (he : entitled a i = true) : roomFor s i := by
  cases i
  case nsamp | capp | iapp | prscp => exact absurd (eq_ingest_of_isIngest he) ha
  all_goals trivial

/-! The workers' operations pass the checks. -/

/-- Worker `w` may issue an operation on its slot: the checks but the phase. -/
theorem checks_slot {p : Params} {T j : Nat} (hw : w < T) (hj : startOf p T w ≤ j ∧ j < endOf p T w) :
    j ≤ p.F ∧ ownsSlot p T (.worker w) j = true := by
  have := endOf_le (p := p) hw
  exact ⟨by omega, decide_eq_true hj⟩

/-- The operations of `FFTS j` pass the checks where the worker may write row `j` of `ZF`. -/
theorem check_ffts {j : Nat} (hw : w < s.T) (hcur : s.cur = .worker w)
    (hj : startOf s.par s.T w ≤ j ∧ j < endOf s.par s.T w) (hholds : (s.wk w).holds = true)
    (hphase : xbufInPhase s (.zf j) = true) (hi : i ∈ fftsOps s.par.L j) : issueCheck s i = none := by
  obtain ⟨hF, hown⟩ := checks_slot hw hj
  rw [issueCheck_none, hcur]
  refine ⟨decide_eq_true hw, ?_⟩
  simp only [fftsOps, fftOps, List.mem_cons, List.mem_map, List.mem_range] at hi
  obtain rfl | rfl | ⟨k, hk, rfl⟩ := hi
  · refine ⟨decide_eq_true hF, rfl, hown, ?_⟩
    simp only [inPhase, curW_of_worker hcur, hholds, hphase, Bool.and_self]
  · exact ⟨decide_eq_true hF, rfl, hown, hphase⟩
  · refine ⟨?_, rfl, hown, hphase⟩
    simp [operandsLegal, xbufLegal, stageLegal, hF]
    omega

/-- While a worker is in its list no frame is on offer (44 R240). -/
theorem frameValid_of_pc (hh : HandoffInv s) (hp : PhaseInv s) (hw : w < s.T) (hpc : (s.wk w).pc ≠ 0) :
    s.frameValid = false := by
  by_contra hv
  have hemit := hp.2.2 (.inl (by simpa using hv))
  exact hpc (hh.done hemit.ge hw).1.1

theorem check_worker (hl : legalRun s) (hh : HandoffInv s) (hp : PhaseInv s) (hcur : s.cur = .worker w) (hw : w < s.T)
    (hi : (workerOps s.par s.T w)[(s.wk w).pc]? = some i) : issueCheck s i = none := by
  obtain ⟨-, hT1, hTF, -, -⟩ := hl
  obtain ⟨hholds, -, hsig, hsaw⟩ := hp.1 w hw
  have hcw := curW_of_worker hcur
  have hend := endOf_le (p := s.par) hw
  have hae := startOf_lt_endOf (p := s.par) hT1 hTF hw
  obtain ⟨-, rfl⟩ | ⟨hpos, -, hop⟩ | ⟨-, -, rfl⟩ := workerOpsOn_cases hi
  · rw [issueCheck_none, hcur]
    exact ⟨decide_eq_true hw, by simp [operandsLegal, barrierLegal, hw], by simp [entitled, mayWait], rfl, rfl⟩
  · have hne : (s.wk w).pc ≠ 0 := by omega
    have hholds : (s.wk w).holds = true := by simp [hholds, hne]
    cases hop with
    | first hn hi =>
      have hwf : (s.wk w).wf = false := (hsig hne _ hn.le).2 (workerOps_sigWf.get (k := 0) rfl)
      exact check_ffts hw hcur ⟨le_rfl, hae⟩ hholds (by simp [xbufInPhase, hcw, hwf]) hi
    | @further j i hj hi =>
      have hrow : j ≠ startOf s.par s.T w := by omega
      exact check_ffts hw hcur ⟨by omega, hj.2⟩ hholds (by simp [xbufInPhase, hcw, hrow]) hi
    | derot hj =>
      obtain ⟨hF, hown⟩ := checks_slot hw hj
      rw [issueCheck_none, hcur]
      exact ⟨decide_eq_true hw, decide_eq_true hF, rfl, hown, holds_curW hcur hholds⟩
    | cperr hj =>
      obtain ⟨-, hown⟩ := checks_slot (p := s.par) hw ⟨hj.1, hj.2.1⟩
      rw [issueCheck_none, hcur]
      exact ⟨decide_eq_true hw, decide_eq_true hj.2.2, rfl, hown, holds_curW hcur hholds⟩
    | phpub hn =>
      have hwp : (s.wk w).wp = false := (hsig hne _ (by omega)).1 (workerOps_phpub.get (k := 1) rfl)
      rw [issueCheck_none, hcur]
      exact ⟨decide_eq_true hw, rfl, rfl, rfl, by simp [inPhase, hcw, hwp]⟩
    | sigWp | sigWf =>
      rw [issueCheck_none, hcur]
      exact ⟨decide_eq_true hw, by simp [operandsLegal, barrierLegal, hw], by simp [entitled, maySignal], rfl, rfl⟩
    | waitWf he =>
      have hw1 : w + 1 < s.T := by
        by_contra hge
        rw [endOf_last (by omega)] at he
        omega
      rw [issueCheck_none, hcur]
      exact ⟨decide_eq_true hw, by simp [operandsLegal, barrierLegal, hw1], by simp [entitled, mayWait], rfl, rfl⟩
    | @dqpsk j hj =>
      obtain ⟨-, hown⟩ := checks_slot (p := s.par) hw ⟨hj.1, hj.2.1⟩
      have hseen : j + 1 = endOf s.par s.T w → (s.wk w).sawWf = true := fun hlast => by
        obtain ⟨m, hm, hwait⟩ := waitWf_before_dqpsk hi hlast
        exact hsaw m hm hwait
      rw [issueCheck_none, hcur]
      refine ⟨decide_eq_true hw, decide_eq_true hj.2.2, rfl, hown, ?_⟩
      by_cases hlast : j + 1 = endOf s.par s.T w
      · simp [inPhase, hcw, hseen hlast]
      · simp [inPhase, hcw, hlast]
    | soft hj =>
      obtain ⟨-, hown⟩ := checks_slot (p := s.par) hw ⟨hj.1, hj.2.1⟩
      rw [issueCheck_none, hcur]
      refine ⟨decide_eq_true hw, decide_eq_true hj.2.2, rfl, hown, ?_⟩
      simp [inPhase, hcw, hholds, frameValid_of_pc hh hp hw hne]
  · rw [issueCheck_none, hcur]
    exact ⟨decide_eq_true hw, by simp [operandsLegal, barrierLegal, hw], by simp [entitled, maySignal], rfl, rfl⟩

/-! Every turn. -/

theorem acqSub_lt (h : ingestPlaced s) : s.acqSub < (ingestOps s).length := by
  cases hst : s.acqState with
  | findNull | readNullPrs | fineTime | readSymbols =>
    simp only [ingestPlaced, ingestOps, hst] at h ⊢
    exact h.1
  | coarseFreq =>
    simp only [ingestPlaced, ingestOps, hst] at h ⊢
    exact h

/-- An agent of a running core has a next operation: its position is inside its list. -/
theorem exists_nextInstr {a : Agent} (h : PlaceInv s) (hen : s.en = true) (ha : agentExists s.T a = true) :
    ∃ i, s.nextInstr a = some i := by
  obtain ⟨-, hing, hco, hcod, hwk⟩ := h.2 hen
  cases a with
  | ingest =>
    cases hd : s.ingDivert with
    | desync => exact ⟨.desync, next_of_desync hd⟩
    | stopped => exact ⟨.halt, by simp [State.nextInstr, nextIngest, hd]⟩
    | none =>
      simp only [State.nextInstr, nextIngest, hd]
      exact ⟨_, List.getElem?_eq_getElem (acqSub_lt hing)⟩
  | coord =>
    cases hd : s.coDivert with
    | desync => exact absurd hd hcod
    | stopped => exact ⟨.halt, by simp [State.nextInstr, nextCoord, hd]⟩
    | none =>
      simp only [State.nextInstr, nextCoord, hd]
      exact ⟨_, List.getElem?_eq_getElem hco⟩
  | worker w =>
    have hw : w < s.workers.length := of_decide_eq_true ha
    obtain ⟨hpc, hdv⟩ := hwk w hw
    rw [wk_eq_getElem s w hw] at hpc hdv
    simp only [State.nextInstr, nextWorker, List.getElem?_eq_getElem hw]
    cases hd : s.workers[w].divert with
    | desync => exact absurd hd hdv
    | stopped => exact ⟨.halt, rfl⟩
    | none => exact ⟨_, List.getElem?_eq_getElem hpc⟩

/-- The next operation of an agent gives a next state. -/
theorem exists_next {a : Agent} (h : RunInv s) (hen : s.en = true) (hcur : s.cur = a) (hi : s.nextInstr a = some i) :
    ∃ t, exec i s = .next t := by
  obtain ⟨⟨⟨hfit, hrun, -⟩, hplace⟩, hh, hp⟩ := h
  obtain ⟨hl, hr⟩ := hrun hen
  obtain ⟨hcnt, hing, hpipe⟩ := hplace hen
  have hother : ∀ {b : Agent}, s.cur = b → b ≠ .ingest → issueCheck s i = none → ∃ t, exec i s = .next t :=
    fun hb hne hcheck => exists_next_of_check hcheck (room_of_not_ingest hne (hb ▸ (issueCheck_none.mp hcheck).2.2.1))
  cases a with
  | ingest =>
    exact exists_next_of_check (check_ingest hh hp hcur hi) (room_ingest hl hr ⟨hcnt, hing⟩ (ingestNext hi))
  | coord => exact hother hcur nofun (check_coord hp hcur (coordNext hi))
  | worker w =>
    obtain ⟨hw, ⟨-, rfl⟩ | ⟨-, hi⟩⟩ := workerNext hi
    · exact hother hcur nofun (issueCheck_none.mpr (by rw [hcur]; exact ⟨decide_eq_true hw, rfl, rfl, rfl, rfl⟩))
    · exact hother hcur nofun (check_worker hl hh hp hcur hw hi)

/-- An operation of an agent's own keeps positions and lengths. -/
theorem placeInv_exec {a : Agent} (h : PlaceInv s) (hen : s.en = true) (hcur : s.cur = a) (hi : s.nextInstr a = some i)
    (hexec : exec i s = .next t) : PlaceInv t := by
  have hends := ends_of_exec_next hexec
  have hcheck := check_of_exec_next hexec
  obtain ⟨hrange, hplace⟩ := h
  obtain ⟨hl, hr⟩ := hrange.2.1 hen
  obtain ⟨hcnt, hing, hpipe⟩ := hplace hen
  have hold : ingestFit s := ⟨hcnt, hing⟩
  have hfit : ingestFit t := by
    cases a with
    | ingest => exact ingestFit_ingest hl hr hold hcur (ingestNext hi) hexec
    | coord =>
      have hside := (coord_changes hcur (hcur ▸ (issueCheck_none.mp hcheck).2.2.1) hends).1
      change ingestFit (exceptCoord t)
      rw [hside]
      exact hold
    | worker w =>
      have hside := (worker_changes hcur hcheck hends).1
      change ingestFit (exceptWorker t)
      rw [hside]
      exact hold
  exact ⟨rangeInv_of_ends hends hen hrange, fun _ => ⟨hfit.1, hfit.2, pipelinePlaced_of_ends hends hpipe⟩⟩

/-! The host's actions. -/

theorem wk_of_quiet (hq : quiet s) (hw : w < s.T) : (s.wk w).pc = 0 ∧ (s.wk w).divert = .none := by
  obtain ⟨-, -, -, -, -, hwk, -⟩ := hq
  have hw' : w < s.workers.length := hw
  rw [wk_eq_getElem s w hw']
  exact hwk _ (List.getElem_mem hw')

/-- A quiet core with a legal configuration is at the start of its lists. -/
theorem placed_of_quiet (hl : legalRun s) (hq : quiet s) : s.l1Cnt ≤ s.K ∧ ingestPlaced s ∧ pipelinePlaced s := by
  obtain ⟨-, -, -, hK, -⟩ := hl
  have hwk := fun w (hw : w < s.T) => wk_of_quiet hq hw
  obtain ⟨hacq, hsub, hco, -, hcod, -, -, -, -, -, -, -, -, hcnt, -⟩ := hq
  have hfit : ingestFit s := (ingestFit_findNull hacq).mpr ⟨by omega, by omega, by omega, by omega, by omega⟩
  refine ⟨hfit.1, hfit.2, by simp [hco], by simp [hcod], fun w hw => ?_⟩
  obtain ⟨hpc, hdv⟩ := hwk w hw
  have hlen := congrArg List.length (workerOpsOn_eq_body (F := s.par.F) (L := s.par.L) (w := w) (a := startOf s.par s.T w)
    (e := endOf s.par s.T w))
  rw [List.length_cons] at hlen
  exact ⟨by rw [hpc, workerOps, hlen]; exact Nat.succ_pos _, by simp [hdv]⟩

theorem placeInv_hostStep {x : HostAct} (h : PlaceInv s) (hstep : hostStep x s = .next t) : PlaceInv t := by
  have hrange := rangeInv_hostStep x h.1 hstep
  refine ⟨hrange, fun hen => ?_⟩
  cases x with
  | rst => cases hstep; cases hen
  | regRead _ | offer _ | readOut _ => cases hstep; exact h.2 hen
  | regWrite n v =>
    obtain ⟨-, hc⟩ | ⟨-, rfl⟩ | ⟨-, rfl⟩ | ⟨hoff, rfl⟩ := regWrite_next hstep
    · obtain ⟨-, rfl⟩ := writeCtrl_next hc
      cases hs : s.en with
      | true => exact h.2 hs
      | false => exact placed_of_quiet (hrange.2.1 hen).1 (h.1.2.2 hs)
    · exact h.2 hen
    · exact h.2 hen
    · exact absurd hen (by simp [hoff])

/-- Before a worker has begun its phase bits do not speak of its list. -/
theorem phasesAt_of_pc {l l' : List Instr} {k : Worker} (h : phasesAt l w k) (hpc : k.pc = 0) : phasesAt l' w k :=
  ⟨h.1, h.2.1, fun hne => absurd hpc hne, fun n hn => absurd hn (by omega)⟩

theorem phaseInv_hostStep {x : HostAct} (h : PhaseInv s) (hq : s.en = false → quiet s) (hstep : hostStep x s = .next t) :
    PhaseInv t := by
  cases x with
  | rst => cases hstep; exact phaseInv_power s.modes s.T
  | regRead _ | offer _ | readOut _ => cases hstep; exact h
  | regWrite n v =>
    obtain ⟨-, hc⟩ | ⟨-, rfl⟩ | ⟨-, rfl⟩ | ⟨hoff, rfl⟩ := regWrite_next hstep
    · obtain ⟨-, rfl⟩ := writeCtrl_next hc
      exact phaseInv_of_same h rfl rfl rfl (fun hv => (Bool.and_eq_true_iff.mp hv).1) rfl
    · exact h
    · exact h
    · exact ⟨fun v hv => phasesAt_of_pc (h.1 v hv) (wk_of_quiet (hq hoff) hv).1, h.2⟩

/-- The host's actions are not refused but for an illegal configuration (10_state R50). -/
theorem hostStep_next_or_refused (x : HostAct) (s : State) :
    (∃ t, hostStep x s = .next t) ∨ hostStep x s = .refused .illegalConfiguration := by
  cases x with
  | rst | regRead _ | offer _ | readOut _ => exact .inl ⟨_, rfl⟩
  | regWrite n v =>
    simp only [hostStep, State.regWrite, State.writeCtrl]
    split_ifs <;> simp

/-- A turn of an agent gives a next state and keeps the invariant. -/
theorem runAgent_of_runInv {a : Agent} (h : RunInv s) (ha : agentExists s.T a = true) :
    ∃ t, runAgent a s = .next t ∧ RunInv t := by
  by_cases hoff : s.en = false ∨ s.isHalted a = true
  · exact ⟨s, runAgent_of_disabled hoff, h⟩
  · simp only [not_or, Bool.not_eq_false, Bool.not_eq_true] at hoff
    obtain ⟨hen, hhalt⟩ := hoff
    obtain ⟨hfit, hrun, -⟩ := h.1.1
    obtain ⟨⟨-, -, hT, -⟩, -⟩ := hrun hen
    have hF : s.par.F < 65536 := (rowFits_row hfit).2
    obtain ⟨i, hi⟩ := exists_nextInstr h.1 hen ha
    rw [runAgent_of_nextInstr hen hhalt ha hi (wf_of_nextInstr hfit (by omega) hi)]
    obtain ⟨t, ht⟩ := exists_next (s := { s with cur := a }) h hen rfl hi
    exact ⟨t, ht, placeInv_exec (s := { s with cur := a }) h.1 hen rfl hi ht,
      handoffInv_exec (s := { s with cur := a }) h.2.1 rfl hi ht,
      phaseInv_exec (s := { s with cur := a }) h.2.2 h.2.1 rfl hi ht⟩

end Sys2Proof.Machine

open Sys2Proof Sys2Proof.Machine

/-- Settles O56: each agent's next operation passes the checks, has room and keeps the invariant; so does the host's
action, but for an `EN` with an illegal configuration. -/
theorem hardwiredListsAreNeverRefused : Obligations.HardwiredListsAreNeverRefused := by
  intro s h hturn
  obtain hagent | ⟨x, r, hx⟩ := agentTurn_or_host hturn
  · obtain ⟨a, r, k, ha, hstep⟩ := step_of_agentTurn hagent
    rw [hstep]
    exact .inl (runAgent_of_runInv (s := s.withTurns r k) h ha)
  · rw [step_of_host hx]
    obtain ⟨t, ht⟩ | href := hostStep_next_or_refused x { s with turns := r }
    · exact .inl ⟨t, ht, placeInv_hostStep (s := { s with turns := r }) h.1 ht,
        handoffInv_hostStep (s := { s with turns := r }) h.2.1 ht,
        phaseInv_hostStep (s := { s with turns := r }) h.2.2 h.1.1.2.2 ht⟩
    · exact .inr ⟨href, by simp [agentTurn, hx]⟩

end

section
/-! The bit reversal and the stages over exact numbers: the decimation in time (41 R141 to R143). -/

namespace Sys2Proof

open Complex

/-- `cis(σ·2π·m/2^k)`: the twiddles of stage `k`, `σ` the sign of the transform. -/
noncomputable def root (σ : ℂ) (k m : Nat) : ℂ := exp (σ * (2 * Real.pi * I * m / 2 ^ k))

variable {σ : ℂ}

theorem root_zero (k : Nat) : root σ k 0 = 1 := by simp [root]

theorem root_add (k a b : Nat) : root σ k (a + b) = root σ k a * root σ k b := by
  rw [root, root, root, ← exp_add]
  push_cast
  ring_nf

/-- Two steps of one stage are one of the stage before. -/
theorem root_two_mul (k m : Nat) : root σ (k + 1) (2 * m) = root σ k m := by
  rw [root, root]
  congr 2
  push_cast
  field_simp
  ring

/-- Half a turn is `−1`. -/
theorem root_half (hσ : σ = 1 ∨ σ = -1) (k : Nat) : root σ (k + 1) (2 ^ k) = -1 := by
  have harg : 2 * Real.pi * I * ((2 ^ k : ℕ) : ℂ) / 2 ^ (k + 1) = Real.pi * I := by
    push_cast
    field_simp
    ring
  rw [root, harg]
  obtain rfl | rfl := hσ
  · rw [one_mul, exp_pi_mul_I]
  · rw [neg_one_mul, exp_neg, exp_pi_mul_I]
    norm_num

/-- A whole turn is `1`. -/
theorem root_turn (hσ : σ = 1 ∨ σ = -1) (k m : Nat) : root σ k (2 ^ k * m) = 1 := by
  induction m with
  | zero => exact root_zero k
  | succ m ih =>
    have hone : root σ k (2 ^ k) = 1 := by
      rw [← root_two_mul, two_mul, root_add, root_half hσ]
      norm_num
    rw [Nat.mul_succ, root_add, ih, hone, one_mul]

/-- A sum over an even number of terms, the even and the odd ones apart. -/
theorem sum_range_two_mul (f : Nat → ℂ) (n : Nat) :
    ∑ m ∈ Finset.range (2 * n), f m = ∑ m ∈ Finset.range n, f (2 * m) + ∑ m ∈ Finset.range n, f (2 * m + 1) := by
  induction n with
  | zero => simp
  | succ n ih =>
    rw [show 2 * (n + 1) = 2 * n + 1 + 1 by ring, Finset.sum_range_succ, Finset.sum_range_succ, ih, Finset.sum_range_succ,
      Finset.sum_range_succ]
    ring

/-- Element `j` of the transform of `2^k` numbers given in bit-reversed order from `base` on. -/
noncomputable def blockDft (σ : ℂ) (y : Nat → ℂ) (k base j : Nat) : ℂ :=
  ∑ m ∈ Finset.range (2 ^ k), y (base + Dsp.rev k m) * root σ k (m * j)

/-- The even and the odd terms of a block are the two blocks of half its size (41 R143). -/
theorem blockDft_succ (y : Nat → ℂ) (k base j : Nat) :
    blockDft σ y (k + 1) base j
      = blockDft σ y k base j + root σ (k + 1) j * blockDft σ y k (base + 2 ^ k) j := by
  rw [blockDft, pow_succ', sum_range_two_mul, blockDft, blockDft, Finset.mul_sum]
  congr 1
  · refine Finset.sum_congr rfl fun m _ => ?_
    rw [Dsp.rev, mul_assoc, root_two_mul]
    simp
  · refine Finset.sum_congr rfl fun m _ => ?_
    have hrev : Dsp.rev (k + 1) (2 * m + 1) = 2 ^ k + Dsp.rev k m := by
      rw [Dsp.rev, show (2 * m + 1) % 2 = 1 by omega, show (2 * m + 1) / 2 = m by omega, one_mul]
    rw [hrev, add_mul, one_mul, mul_assoc, root_add, root_two_mul, Nat.add_assoc]
    ring

/-- The block transform repeats after its size. -/
theorem blockDft_add (hσ : σ = 1 ∨ σ = -1) (y : Nat → ℂ) (k base j : Nat) :
    blockDft σ y k base (j + 2 ^ k) = blockDft σ y k base j := by
  refine Finset.sum_congr rfl fun m _ => ?_
  rw [Nat.mul_add, root_add, Nat.mul_comm m (2 ^ k), root_turn hσ, mul_one]

/-- After `k` stages each block of `2^k` elements holds its transform. -/
theorem stages_exact (hσ : σ = 1 ∨ σ = -1) (y : Nat → ℂ) (k b : Nat) {j : Nat} (hj : j < 2 ^ k) :
    Dsp.stages exactArith (root σ) y k (b * 2 ^ k + j) = blockDft σ y k (b * 2 ^ k) j := by
  induction k generalizing b j with
  | zero =>
    obtain rfl : j = 0 := by simpa using hj
    simp [Dsp.stages, blockDft, root_zero, Dsp.rev]
  | succ k ih =>
    have hlow : ∀ {i : Nat}, i < 2 ^ k →
        Dsp.stages exactArith (root σ) y k (b * (2 * 2 ^ k) + i) = blockDft σ y k (b * (2 * 2 ^ k)) i := fun {i} hi => by
      have h := ih (2 * b) hi
      rwa [show 2 * b * 2 ^ k = b * (2 * 2 ^ k) by ring] at h
    have hhigh : ∀ {i : Nat}, i < 2 ^ k →
        Dsp.stages exactArith (root σ) y k (b * (2 * 2 ^ k) + i + 2 ^ k) = blockDft σ y k (b * (2 * 2 ^ k) + 2 ^ k) i :=
      fun {i} hi => by
        have h := ih (2 * b + 1) hi
        rwa [show (2 * b + 1) * 2 ^ k = b * (2 * 2 ^ k) + 2 ^ k by ring, add_right_comm] at h
    rw [Dsp.stages, pow_succ']
    obtain hlt | hge := Nat.lt_or_ge j (2 ^ k)
    · obtain ⟨htop, -⟩ := Dsp.stage_pair (A := exactArith) (w := root σ (k + 1)) (x := Dsp.stages exactArith (root σ) y k) b hlt
      rw [htop, hlow hlt, hhigh hlt, blockDft_succ]
      rfl
    · obtain ⟨i, rfl⟩ := Nat.exists_eq_add_of_le' hge
      have hi : i < 2 ^ k := by omega
      obtain ⟨-, hbot⟩ := Dsp.stage_pair (A := exactArith) (w := root σ (k + 1)) (x := Dsp.stages exactArith (root σ) y k) b hi
      rw [← Nat.add_assoc, hbot, hlow hi, hhigh hi, blockDft_succ, blockDft_add hσ, blockDft_add hσ, root_add, root_half hσ,
        mul_neg_one, neg_mul, ← sub_eq_add_neg]
      rfl

theorem transform_exact (hσ : σ = 1 ∨ σ = -1) (L : Nat) (x : Nat → ℂ) {k : Nat} (hk : k < 2 ^ L) :
    Dsp.transform exactArith L (root σ) x k = ∑ n ∈ Finset.range (2 ^ L), x n * root σ L (n * k) := by
  have h := stages_exact hσ (fun n => x (Dsp.rev L n)) L 0 hk
  rw [Nat.zero_mul, Nat.zero_add] at h
  rw [Dsp.transform, h]
  refine Finset.sum_congr rfl fun m hm => ?_
  simp only [Nat.zero_add, Dsp.rev_rev (Finset.mem_range.mp hm)]

end Sys2Proof

open Sys2Proof

/-- Settles O17: the block transforms of the stages, doubled by every butterfly, end with the whole transform. -/
theorem pipelineIsTheFourierTransform : Obligations.PipelineIsTheFourierTransform := by
  intro L x k hk
  have hfwd : exactTw = root (-1) := by
    funext s j
    rw [exactTw, root, neg_one_mul]
  have hinv : exactTwInv = root 1 := by
    funext s j
    rw [exactTwInv, root, one_mul]
  rw [hfwd, hinv, transform_exact (.inr rfl) L x hk, transform_exact (.inl rfl) L x hk, exactFft, exactIfft]
  constructor <;> refine Finset.sum_congr rfl fun n _ => ?_
  · rw [root, neg_one_mul]
    push_cast
    ring_nf
  · rw [root, one_mul]
    push_cast
    ring_nf

end

section
/-! How near the fixed-point series of the twiddles comes to the cosine and the sine (10_state R55; log entry 22). -/

namespace Sys2Proof.Twiddle

open Finset Real Nat

/-! Alternating series. -/

/-- The partial sums of an alternating series bracket its limit. -/
theorem alternating_bounds {f : ℕ → ℝ} {l : ℝ} (hf : Antitone f) (h : HasSum (fun n => (-1) ^ n * f n) l) (k : ℕ) :
    ∑ i ∈ range (2 * k), (-1) ^ i * f i ≤ l ∧ l ≤ ∑ i ∈ range (2 * k), (-1) ^ i * f i + f (2 * k) := by
  have hlim := h.tendsto_sum_nat
  refine ⟨hf.alternating_series_le_tendsto hlim k, ?_⟩
  have hup := hf.tendsto_le_alternating_series hlim k
  rw [sum_range_succ] at hup
  simpa using hup

theorem arctan_bounds {x : ℝ} (h0 : 0 ≤ x) (h1 : x < 1) (k : ℕ) :
    ∑ i ∈ range (2 * k), (-1) ^ i * (x ^ (2 * i + 1) / ((2 * i + 1 : ℕ) : ℝ)) ≤ arctan x
      ∧ arctan x ≤ ∑ i ∈ range (2 * k), (-1) ^ i * (x ^ (2 * i + 1) / ((2 * i + 1 : ℕ) : ℝ))
          + x ^ (2 * (2 * k) + 1) / ((2 * (2 * k) + 1 : ℕ) : ℝ) := by
  refine alternating_bounds (f := fun n => x ^ (2 * n + 1) / ((2 * n + 1 : ℕ) : ℝ)) (antitone_nat_of_succ_le fun n => ?_) ?_ k
  · have hpow : x ^ (2 * (n + 1) + 1) ≤ x ^ (2 * n + 1) := pow_le_pow_of_le_one h0 h1.le (by omega)
    exact div_le_div₀ (by positivity) hpow (by positivity) (by push_cast; linarith)
  · have hsum := Real.hasSum_arctan (x := x) (by rwa [Real.norm_eq_abs, abs_of_nonneg h0])
    simpa only [mul_div_assoc] using hsum

/-- `π` to 114 bits, by Machin's formula. -/
theorem piScaled_near : |π * 2 ^ 120 - piScaled| ≤ 64 := by
  have hmachin := four_mul_arctan_inv_5_sub_arctan_inv_239
  obtain ⟨hl5, hu5⟩ := arctan_bounds (x := 5⁻¹) (by norm_num) (by norm_num) 12
  obtain ⟨hl239, hu239⟩ := arctan_bounds (x := 239⁻¹) (by norm_num) (by norm_num) 4
  norm_num [sum_range_succ] at hl5 hu5 hl239 hu239
  rw [piScaled, abs_le]
  push_cast
  constructor <;> linarith

/-- The sum the fixed-point series stands for, with exact numbers: from the term `τ` with index `k`, for the square `y`. -/
noncomputable def exactSeries (y : ℝ) : (fuel k : ℕ) → ℝ → ℝ
  | 0, _, _ => 0
  | fuel + 1, k, τ => τ - exactSeries y fuel (k + 2) (τ * y / ((k + 1) * (k + 2)))

theorem exactSeries_eq (y : ℝ) (fuel k : ℕ) (τ : ℝ) :
    exactSeries y fuel k τ = τ * ∑ i ∈ range fuel, (-1) ^ i * (y ^ i * k ! / (k + 2 * i)!) := by
  induction fuel generalizing k τ with
  | zero => simp [exactSeries]
  | succ fuel ih =>
    have hfact : (k ! : ℝ) ≠ 0 := by exact_mod_cast k.factorial_ne_zero
    have hstep : ((k + 2)! : ℝ) = (k + 2) * ((k + 1) * k !) := by
      rw [Nat.factorial_succ, Nat.factorial_succ]
      push_cast
      ring
    have htail : τ * y / ((k + 1) * (k + 2)) * ∑ i ∈ range fuel, (-1) ^ i * (y ^ i * (k + 2)! / (k + 2 + 2 * i)!)
        = -(τ * ∑ i ∈ range fuel, (-1) ^ (i + 1) * (y ^ (i + 1) * k ! / (k + 2 * (i + 1))!)) := by
      rw [mul_sum, mul_sum, ← sum_neg_distrib]
      refine sum_congr rfl fun i _ => ?_
      rw [hstep, show k + 2 + 2 * i = k + 2 * (i + 1) by ring]
      field_simp
      ring
    rw [exactSeries, ih, htail, sum_range_succ', mul_add]
    simp [hfact]
    ring

/-- A quotient rounded down is less than 1 from the exact one. -/
theorem natDiv_near (n : ℕ) {d : ℕ} (hd : 0 < d) : |((n / d : ℕ) : ℝ) - n / d| ≤ 1 := by
  have hd' : (0 : ℝ) < d := by exact_mod_cast hd
  have hsplit : (n : ℝ) = d * (n / d : ℕ) + (n % d : ℕ) := by exact_mod_cast (Nat.div_add_mod n d).symm
  have hmod : ((n % d : ℕ) : ℝ) < d := by exact_mod_cast Nat.mod_lt n hd
  have hdiff : ((n / d : ℕ) : ℝ) - n / d = -((n % d : ℕ) / d) := by
    rw [eq_neg_iff_add_eq_zero]
    field_simp
    linarith
  rw [hdiff, abs_neg, abs_of_nonneg (by positivity), div_le_one hd']
  exact hmod.le

theorem scale_cast : (scale : ℝ) = 2 ^ 120 := by
  rw [scale, Nat.cast_pow, Nat.cast_ofNat]

/-- The fixed-point series loses at most 1024 units a term where the square is known to 512 units. -/
theorem series_near {x2 : ℕ} {y : ℝ} (hy0 : 0 ≤ y) (hy1 : y ≤ 1) (hx : |(x2 : ℝ) - y * 2 ^ 120| ≤ 512) (fuel k term : ℕ) {τ : ℝ}
    (hτ0 : 0 ≤ τ) (hτ1 : τ ≤ 2 ^ 120) (hterm : |(term : ℝ) - τ| ≤ 1024) :
    |(series x2 fuel k term : ℝ) - exactSeries y fuel k τ| ≤ fuel * 1024 := by
  induction fuel generalizing k term τ with
  | zero => simp [series, exactSeries]
  | succ fuel ih =>
    have hq : (2 : ℝ) ≤ (k + 1) * (k + 2) := by nlinarith [Nat.cast_nonneg (α := ℝ) k]
    have hnext : |((term * x2 / (scale * ((k + 1) * (k + 2))) : ℕ) : ℝ) - τ * y / ((k + 1) * (k + 2))| ≤ 1024 := by
      have hS : (0 : ℝ) < 2 ^ 120 := by positivity
      obtain ⟨hx1, hx2⟩ := abs_le.mp hx
      have hfloor := natDiv_near (term * x2) (d := scale * ((k + 1) * (k + 2))) (by unfold scale; positivity)
      have hcross : |(term : ℝ) * x2 - τ * (y * 2 ^ 120)| ≤ 1792 * 2 ^ 120 := by
        have hsplit : (term : ℝ) * x2 - τ * (y * 2 ^ 120) = (term - τ) * x2 + τ * (x2 - y * 2 ^ 120) := by ring
        have h1 : |((term : ℝ) - τ) * x2| ≤ 1024 * (5 / 4 * 2 ^ 120) := by
          rw [abs_mul, Nat.abs_cast]
          exact mul_le_mul hterm (by nlinarith) (Nat.cast_nonneg _) (by norm_num)
        have h2 : |τ * ((x2 : ℝ) - y * 2 ^ 120)| ≤ 2 ^ 120 * 512 := by
          rw [abs_mul, abs_of_nonneg hτ0]
          exact mul_le_mul hτ1 hx (abs_nonneg _) hS.le
        rw [hsplit]
        exact (abs_add_le _ _).trans (by linarith)
      have hexact : |((term * x2 : ℕ) : ℝ) / (scale * ((k + 1) * (k + 2)) : ℕ) - τ * y / ((k + 1) * (k + 2))| ≤ 896 := by
        have hdiv : ((term * x2 : ℕ) : ℝ) / (scale * ((k + 1) * (k + 2)) : ℕ) - τ * y / ((k + 1) * (k + 2))
            = (term * x2 - τ * (y * 2 ^ 120)) / (2 ^ 120 * ((k + 1) * (k + 2))) := by
          rw [Nat.cast_mul scale, scale_cast]
          push_cast
          field_simp
        rw [hdiv, abs_div, abs_of_pos (by positivity : (0 : ℝ) < 2 ^ 120 * ((k + 1) * (k + 2))), div_le_iff₀ (by positivity)]
        nlinarith
      exact (abs_sub_le _ _ _).trans ((add_le_add hfloor hexact).trans (by norm_num))
    have h := ih (k + 2) _ (τ := τ * y / ((k + 1) * (k + 2))) (by positivity) ?_ hnext
    · rw [series, exactSeries]
      push_cast
      obtain ⟨h1, h2⟩ := abs_le.mp h
      obtain ⟨h3, h4⟩ := abs_le.mp hterm
      rw [abs_le]
      constructor <;> linarith
    · rw [div_le_iff₀ (by positivity)]
      nlinarith

/-! The Taylor series of the cosine and the sine, cut off after twenty terms. -/

variable {θ : ℝ}

/-- The terms of index `2n + c` of an exponential series fall off. -/
theorem antitone_terms (h0 : 0 ≤ θ) (h1 : θ ≤ 1) (c : ℕ) : Antitone fun n : ℕ => θ ^ (2 * n + c) / ((2 * n + c)! : ℝ) := by
  refine antitone_nat_of_succ_le fun n => div_le_div₀ (by positivity) ?_ (by positivity) ?_
  · exact pow_le_pow_of_le_one h0 h1 (by omega)
  · exact_mod_cast Nat.factorial_le (by omega)

/-- Twenty terms of an exponential series come within `2^-120` of its limit. -/
theorem taylor_near {l : ℝ} (h0 : 0 ≤ θ) (h1 : θ ≤ 1) (c : ℕ)
    (hsum : HasSum (fun n : ℕ => (-1) ^ n * (θ ^ (2 * n + c) / ((2 * n + c)! : ℝ))) l) :
    |∑ i ∈ range 20, (-1) ^ i * (θ ^ (2 * i + c) / ((2 * i + c)! : ℝ)) * 2 ^ 120 - l * 2 ^ 120| ≤ 1 := by
  obtain ⟨hlow, hup⟩ := alternating_bounds (antitone_terms h0 h1 c) hsum 10
  have hlast : θ ^ (2 * (2 * 10) + c) / ((2 * (2 * 10) + c)! : ℝ) * 2 ^ 120 ≤ 1 := by
    have hpow : θ ^ (2 * (2 * 10) + c) ≤ 1 := pow_le_one₀ h0 h1
    have hfact : (2 : ℝ) ^ 120 ≤ ((2 * (2 * 10) + c)! : ℝ) := by
      have h40 : 2 ^ 120 ≤ (2 * (2 * 10))! := by decide
      exact_mod_cast h40.trans (Nat.factorial_le (by omega))
    rw [div_mul_eq_mul_div, div_le_one (by positivity)]
    nlinarith [pow_nonneg h0 (2 * (2 * 10) + c)]
  rw [← sum_mul, ← sub_mul, abs_mul, abs_of_nonpos (by linarith), abs_of_pos (by positivity : (0 : ℝ) < 2 ^ 120)]
  exact (mul_le_mul_of_nonneg_right (by linarith) (by positivity)).trans hlast

theorem cos_near (h0 : 0 ≤ θ) (h1 : θ ≤ 1) : |exactSeries (θ ^ 2) 20 0 (2 ^ 120) - cos θ * 2 ^ 120| ≤ 1 := by
  have hseries : exactSeries (θ ^ 2) 20 0 (2 ^ 120)
      = ∑ i ∈ range 20, (-1) ^ i * (θ ^ (2 * i + 0) / ((2 * i + 0)! : ℝ)) * 2 ^ 120 := by
    rw [exactSeries_eq, mul_sum]
    refine sum_congr rfl fun i _ => ?_
    rw [← pow_mul, Nat.factorial_zero, Nat.cast_one, mul_one, Nat.zero_add, Nat.add_zero, mul_comm]
  rw [hseries]
  exact taylor_near h0 h1 0 (by simpa only [mul_div_assoc, Nat.add_zero] using Real.hasSum_cos θ)

theorem sin_near (h0 : 0 ≤ θ) (h1 : θ ≤ 1) : |exactSeries (θ ^ 2) 20 1 (θ * 2 ^ 120) - sin θ * 2 ^ 120| ≤ 1 := by
  have hseries : exactSeries (θ ^ 2) 20 1 (θ * 2 ^ 120)
      = ∑ i ∈ range 20, (-1) ^ i * (θ ^ (2 * i + 1) / ((2 * i + 1)! : ℝ)) * 2 ^ 120 := by
    rw [exactSeries_eq, mul_sum]
    refine sum_congr rfl fun i _ => ?_
    rw [← pow_mul, Nat.factorial_one, Nat.cast_one, mul_one, Nat.add_comm 1, pow_succ]
    ring
  rw [hseries]
  exact taylor_near h0 h1 1 (by simpa only [mul_div_assoc] using Real.hasSum_sin θ)

/-! The octant. -/

/-- The angle of the model is near the exact one. -/
theorem angle_near {N t : ℕ} (ht : 8 * t ≤ N) (hN : 0 < N) : |(angle N t : ℝ) - 2 * π * t / N * 2 ^ 120| ≤ 17 := by
  have hN' : (0 : ℝ) < N := by exact_mod_cast hN
  have ht' : (8 * t : ℝ) ≤ N := by exact_mod_cast ht
  have hfloor := natDiv_near (2 * piScaled * t) hN
  have hpi : |((2 * piScaled * t : ℕ) : ℝ) / N - 2 * π * t / N * 2 ^ 120| ≤ 16 := by
    have hsplit : ((2 * piScaled * t : ℕ) : ℝ) / N - 2 * π * t / N * 2 ^ 120 = 2 * t / N * -(π * 2 ^ 120 - piScaled) := by
      rw [Nat.cast_mul, Nat.cast_mul, Nat.cast_ofNat]
      ring
    have hfrac : (2 * t : ℝ) / N ≤ 1 / 4 := by
      rw [div_le_iff₀ hN']
      linarith
    rw [hsplit, abs_mul, abs_neg, abs_of_nonneg (by positivity)]
    exact (mul_le_mul hfrac piScaled_near (abs_nonneg _) (by norm_num)).trans (by norm_num)
  exact (abs_sub_le _ _ _).trans ((add_le_add hfloor hpi).trans (by norm_num))

/-- The square of an angle known to 17 units is known to 512. -/
theorem square_near {a : ℕ} (h0 : 0 ≤ θ) (h1 : θ ≤ 1) (ha : |(a : ℝ) - θ * 2 ^ 120| ≤ 17) :
    |((a * a / scale : ℕ) : ℝ) - θ ^ 2 * 2 ^ 120| ≤ 512 := by
  have hS : (0 : ℝ) < 2 ^ 120 := by positivity
  obtain ⟨ha1, ha2⟩ := abs_le.mp ha
  have hfloor := natDiv_near (a * a) (d := scale) (by unfold scale; positivity)
  rw [Nat.cast_mul, scale_cast] at hfloor
  have hsq : |(a : ℝ) * a / 2 ^ 120 - θ ^ 2 * 2 ^ 120| ≤ 51 := by
    have hsplit : (a : ℝ) * a / 2 ^ 120 - θ ^ 2 * 2 ^ 120 = (a - θ * 2 ^ 120) * ((a + θ * 2 ^ 120) / 2 ^ 120) := by
      field_simp
      ring
    have hsum : (a + θ * 2 ^ 120) / 2 ^ 120 ≤ 3 := by
      rw [div_le_iff₀ hS]
      nlinarith
    rw [hsplit, abs_mul, abs_of_nonneg (by positivity : 0 ≤ (a + θ * 2 ^ 120) / 2 ^ 120)]
    exact (mul_le_mul ha hsum (by positivity) (by norm_num)).trans (by norm_num)
  exact (abs_sub_le _ _ _).trans ((add_le_add hfloor hsq).trans (by norm_num))

/-- Cut off below at zero a number comes no further from one that is not negative. -/
theorem toNat_near {z : ℤ} {x ε : ℝ} (hx : 0 ≤ x) (h : |(z : ℝ) - x| ≤ ε) : |(z.toNat : ℝ) - x| ≤ ε := by
  obtain hz | hz := le_total 0 z
  · have hcast : (z.toNat : ℝ) = z := by exact_mod_cast Int.toNat_of_nonneg hz
    rwa [hcast]
  · have hz' : (z : ℝ) ≤ 0 := by exact_mod_cast hz
    rw [Int.toNat_of_nonpos hz, Nat.cast_zero, zero_sub, abs_neg, abs_of_nonneg hx]
    exact le_trans (by linarith) ((neg_le_abs _).trans h)

/-- Up to an eighth of a turn the series are within `2^15` units of the cosine and the sine. -/
theorem octant_near {N t : ℕ} (ht : 8 * t ≤ N) (hN : 0 < N) :
    |(cosOct N t : ℝ) - cos (2 * π * t / N) * 2 ^ 120| ≤ 2 ^ 15
      ∧ |(sinOct N t : ℝ) - sin (2 * π * t / N) * 2 ^ 120| ≤ 2 ^ 15 := by
  have hS : (0 : ℝ) < 2 ^ 120 := by positivity
  have ha := angle_near ht hN
  have h0 : 0 ≤ 2 * π * t / N := by positivity
  have h1 : 2 * π * t / N ≤ 1 := by
    have ht' : (8 * t : ℝ) ≤ N := by exact_mod_cast ht
    rw [div_le_one (by exact_mod_cast hN)]
    nlinarith [pi_le_four, Nat.cast_nonneg (α := ℝ) t]
  generalize 2 * π * t / N = θ at *
  have hx := square_near h0 h1 ha
  have hcos0 : 0 ≤ cos θ := cos_nonneg_of_mem_Icc ⟨by linarith [pi_pos], by linarith [pi_gt_three]⟩
  have hsin0 : 0 ≤ sin θ := sin_nonneg_of_nonneg_of_le_pi h0 (by linarith [pi_gt_three])
  constructor
  · refine toNat_near (by positivity) ?_
    have h := series_near (sq_nonneg θ) (by nlinarith) hx 20 0 scale (τ := 2 ^ 120) hS.le le_rfl (by simp [scale_cast])
    exact (abs_sub_le _ _ _).trans ((add_le_add h (cos_near h0 h1)).trans (by norm_num))
  · refine toNat_near (by positivity) ?_
    have h := series_near (sq_nonneg θ) (by nlinarith) hx 20 1 (angle N t) (τ := θ * 2 ^ 120) (by positivity) (by nlinarith)
      (ha.trans (by norm_num))
    exact (abs_sub_le _ _ _).trans ((add_le_add h (sin_near h0 h1)).trans (by norm_num))

end Sys2Proof.Twiddle
end

section
/-! The twiddle table (10_state R55; log entry 22). -/

namespace Sys2Proof.Twiddle

open Real

/-- A scaled value of at most 2 is rounded to the nearest NUM. -/
theorem nearest_toNum (neg : Bool) {c : ℕ} (hc : c ≤ 2 * scale) : Fp.Nearest (toNum neg c) (Fp.signed neg (c / 2 ^ 120)) := by
  have hS : (0 : ℝ) < 2 ^ 120 := by positivity
  have hratio : (((c * 2 ^ 149 : ℕ) : ℝ) / (scale : ℕ)) / 2 ^ 149 = c / 2 ^ 120 := by
    rw [Nat.cast_mul, Nat.cast_pow, Nat.cast_ofNat, scale_cast]
    field_simp
  have hround : Fp.IsRounding (toNum neg c) (Fp.signed neg (c / 2 ^ 120)) := by
    refine Fp.isRounding_roundQ _ _ (by unfold scale; positivity) ?_
    rw [Fp.signed_div, hratio]
    obtain rfl | hne := Nat.eq_zero_or_pos c
    · simp [Fp.signed]
    · simp [hne.ne']
  refine (hround.2.1 ?_).1
  have hc' : (c : ℝ) ≤ 2 * 2 ^ 120 := by
    rw [← scale_cast]
    exact_mod_cast hc
  rw [Fp.abs_signed, abs_of_nonneg (by positivity), div_lt_iff₀ hS]
  exact hc'.trans_lt (by norm_num)

/-- Up to a quarter of a turn the fixed-point values are within `2^15` units of the cosine and the sine. -/
theorem quarter_near {L t : ℕ} (ht : 4 * t ≤ 2 ^ L) :
    |((quarter (2 ^ L) t).1 : ℝ) - cos (2 * π * t / (2 ^ L : ℕ)) * 2 ^ 120| ≤ 2 ^ 15
      ∧ |((quarter (2 ^ L) t).2 : ℝ) - sin (2 * π * t / (2 ^ L : ℕ)) * 2 ^ 120| ≤ 2 ^ 15 := by
  have hN : 0 < 2 ^ L := Nat.two_pow_pos L
  unfold quarter
  split
  next h8 => exact octant_near h8 hN
  next h8 =>
    obtain ⟨M, hM⟩ : 4 ∣ 2 ^ L := by
      by_contra hdiv
      have hL : L < 2 := by
        by_contra hge
        exact hdiv (pow_dvd_pow 2 (not_lt.mp hge))
      interval_cases L <;> omega
    have hdiv : 2 ^ L / 4 = M := by omega
    have htM : t ≤ M := by omega
    have hangle : 2 * π * ((M - t : ℕ) : ℝ) / (2 ^ L : ℕ) = π / 2 - 2 * π * t / (2 ^ L : ℕ) := by
      have hM' : (0 : ℝ) < M := by exact_mod_cast (by omega : 0 < M)
      rw [hM, Nat.cast_sub htM]
      push_cast
      field_simp
      ring
    obtain ⟨hcos, hsin⟩ := octant_near (N := 2 ^ L) (t := 2 ^ L / 4 - t) (by omega) hN
    rw [hdiv] at hcos hsin ⊢
    rw [hangle, cos_pi_div_two_sub] at hcos
    rw [hangle, sin_pi_div_two_sub] at hsin
    exact ⟨hsin, hcos⟩

/-- A value within `2^15` units of a number of magnitude at most 1 rounds to the number nearest to one within `2^-100`. -/
theorem toNum_near (neg : Bool) {c : ℕ} {x : ℝ} (hx : x ≤ 1) (h : |(c : ℝ) - x * 2 ^ 120| ≤ 2 ^ 15) :
    ∃ d : ℝ, |d - Fp.signed neg x| ≤ 1 / 2 ^ 100 ∧ Fp.Nearest (toNum neg c) d := by
  have hS : (0 : ℝ) < 2 ^ 120 := by positivity
  refine ⟨Fp.signed neg (c / 2 ^ 120), ?_, nearest_toNum neg ?_⟩
  · have hdist : |Fp.signed neg ((c : ℝ) / 2 ^ 120) - Fp.signed neg x| = |(c : ℝ) - x * 2 ^ 120| / 2 ^ 120 := by
      have hsame : |(c : ℝ) / 2 ^ 120 - x| = |(c : ℝ) - x * 2 ^ 120| / 2 ^ 120 := by
        rw [div_sub' hS.ne', abs_div, abs_of_pos hS, mul_comm x]
      rw [← hsame]
      cases neg
      · rfl
      · exact (congrArg _ (by simp only [Fp.signed, if_true]; ring)).trans (abs_neg _)
    rw [hdist, div_le_iff₀ hS]
    exact h.trans (by norm_num)
  · have hc := (abs_le.mp h).2
    have hc' : (c : ℝ) ≤ (2 * scale : ℕ) := by
      rw [Nat.cast_mul, scale_cast]
      push_cast
      nlinarith
    exact_mod_cast hc'

theorem exp_twiddle (θ : ℝ) : Complex.exp (-(θ * Complex.I)) = ⟨cos θ, -sin θ⟩ := by
  rw [← neg_mul, ← Complex.ofReal_neg]
  apply Complex.ext
  · rw [Complex.exp_ofReal_mul_I_re, cos_neg]
  · rw [Complex.exp_ofReal_mul_I_im, sin_neg]

/-- Every entry is rounded from numbers within `2^-100` of its exact parts: up to a quarter of a turn those of the series,
past it those of the angle that is left to a half. -/
theorem tw_near {L t : ℕ} (ht : t < 2 ^ L / 2) :
    (tw (2 ^ L) t).NearestWithin (Complex.exp (-(2 * Real.pi * Complex.I * t / (2 ^ L : ℕ)))) (1 / 2 ^ 100) := by
  have harg : 2 * (π : ℂ) * Complex.I * t / (2 ^ L : ℕ) = ((2 * π * t / (2 ^ L : ℕ) : ℝ) : ℂ) * Complex.I := by
    push_cast
    ring
  rw [harg, exp_twiddle]
  unfold tw
  split
  next h4 =>
    obtain ⟨hcos, hsin⟩ := quarter_near h4
    obtain ⟨c, hc, hre⟩ := toNum_near false (cos_le_one _) hcos
    obtain ⟨d, hd, him⟩ := toNum_near true (sin_le_one _) hsin
    exact ⟨c, d, hc, hd, hre, him⟩
  next h4 =>
    have hhalf : 2 * π * ((2 ^ L / 2 - t : ℕ) : ℝ) / (2 ^ L : ℕ) = π - 2 * π * t / (2 ^ L : ℕ) := by
      obtain ⟨L, rfl⟩ : ∃ K, L = K + 1 := Nat.exists_eq_succ_of_ne_zero (by rintro rfl; simp at ht)
      rw [Nat.pow_succ, Nat.mul_div_cancel _ (by decide)] at ht ⊢
      rw [Nat.cast_sub ht.le]
      push_cast
      field_simp
    obtain ⟨hcos, hsin⟩ := quarter_near (L := L) (t := 2 ^ L / 2 - t) (by omega)
    rw [hhalf, cos_pi_sub] at hcos
    rw [hhalf, sin_pi_sub] at hsin
    obtain ⟨c, hc, hre⟩ := toNum_near true (by linarith [neg_one_le_cos (2 * π * t / (2 ^ L : ℕ))]) hcos
    obtain ⟨d, hd, him⟩ := toNum_near true (sin_le_one _) hsin
    exact ⟨c, d, by simpa [Fp.signed] using hc, hd, hre, him⟩

theorem quarter_zero (N : ℕ) : quarter N 0 = (scale, 0) := by
  have hcos : cosOct N 0 = scale := by
    have hangle : angle N 0 = 0 := Nat.zero_div N
    rw [cosOct, hangle]
    rfl
  have hsin : sinOct N 0 = 0 := by
    have hangle : angle N 0 = 0 := Nat.zero_div N
    rw [sinOct, hangle]
    rfl
  rw [quarter, if_pos (Nat.zero_le N), hcos, hsin]

theorem tw_zero (N : ℕ) : tw N 0 = ⟨0x3F800000#32, 0x00000000#32⟩ := by
  rw [tw, if_pos (Nat.zero_le N), quarter_zero]
  decide

theorem tw_quarter {L : ℕ} (hL : 2 ≤ L) : tw (2 ^ L) (2 ^ L / 4) = ⟨0x00000000#32, 0xBF800000#32⟩ := by
  have h4 : 2 ^ 2 ≤ 2 ^ L := Nat.pow_le_pow_right (by decide) hL
  have hquarter : quarter (2 ^ L) (2 ^ L / 4) = (0, scale) := by
    have hzero := quarter_zero (2 ^ L)
    rw [quarter, if_pos (Nat.zero_le _), Prod.mk.injEq] at hzero
    rw [quarter, if_neg (by omega), Nat.sub_self, hzero.1, hzero.2]
  rw [tw, if_pos (by omega), hquarter]
  decide

end Sys2Proof.Twiddle
end

section
/-! The reference tables: the exact rounding of `PRST` (10_state R53; 41 R141, R147; log entries 4, 24). -/

namespace Sys2Proof.Tower

open Fp

variable {n : Nat} {x : Tower n}

/-! The rounding of an exact number. -/

theorem units_ofNat {m : Nat} (hm : m < 2147483648) : Fp.units (BitVec.ofNat 32 m) = magValue m := by
  rw [units_eq, show BitVec.ofNat 32 m = pack false m from rfl, magBits_pack false hm]

theorem magUnits_eq {m : Nat} (hm : m < 2147483648) : (magUnits m : ℝ) = magValue m * 2 ^ 150 := by
  rw [magUnits, units_ofNat hm, Int.cast_mul, Int.cast_natCast, Int.cast_pow, Int.cast_ofNat]

theorem sign_cases (x : Tower n) :
    (val n x < 0 ∧ sign n x = -1) ∨ (val n x = 0 ∧ sign n x = 0) ∨ (0 < val n x ∧ sign n x = 1) := by
  rw [sign_eq]
  obtain h | h | h := lt_trichotomy (val n x) 0
  · exact .inl ⟨h, by rw [sign_neg h]; rfl⟩
  · exact .inr (.inl ⟨h, by rw [h, sign_zero]; rfl⟩)
  · exact .inr (.inr ⟨h, by rw [sign_pos h]; rfl⟩)

theorem sign_neg_iff : sign n x < 0 ↔ val n x < 0 := by
  obtain ⟨h, hs⟩ | ⟨h, hs⟩ | ⟨h, hs⟩ := sign_cases x <;> simp [hs, h, h.le]

theorem sign_pos_iff : 0 < sign n x ↔ 0 < val n x := by
  obtain ⟨h, hs⟩ | ⟨h, hs⟩ | ⟨h, hs⟩ := sign_cases x <;> simp [hs, h, h.le]

theorem sign_zero_iff : sign n x = 0 ↔ val n x = 0 := by
  obtain ⟨h, hs⟩ | ⟨h, hs⟩ | ⟨h, hs⟩ := sign_cases x
  · simp [hs, h.ne]
  · simp [hs, h]
  · simp [hs, h.ne']

/-- The sign of the difference from an integer decides the order. -/
theorem sign_sub_ofInt_nonneg (c : Int) : 0 ≤ sign n (sub n x (ofInt n c)) ↔ (c : ℝ) ≤ val n x := by
  rw [← not_lt, sign_neg_iff, val_sub, val_ofInt, not_lt, sub_nonneg]

/-- The search finds the last magnitude of a finite pattern at most the number. -/
theorem truncFrom_spec (k m : Nat) (hm : m < 2139095040) (hlow : magUnits m ≤ val n x)
    (hhigh : m + 2 ^ k < 2139095040 → val n x < magUnits (m + 2 ^ k)) :
    truncFrom n x k m < 2139095040 ∧ magUnits (truncFrom n x k m) ≤ val n x
      ∧ (truncFrom n x k m + 1 < 2139095040 → val n x < magUnits (truncFrom n x k m + 1)) := by
  induction k generalizing m with
  | zero => exact ⟨hm, hlow, hhigh⟩
  | succ k ih =>
    rw [truncFrom]
    split
    next h =>
      refine ih _ h.1 ((sign_sub_ofInt_nonneg _).mp h.2) fun hlt => ?_
      rw [Nat.add_assoc, ← Nat.two_mul, ← Nat.pow_succ'] at hlt ⊢
      exact hhigh hlt
    next h =>
      refine ih _ hm hlow fun hlt => ?_
      rw [← not_le, ← sign_sub_ofInt_nonneg]
      exact fun hle => h ⟨hlt, hle⟩

/-- The magnitude pattern found, before it is moved up to the nearer neighbour. -/
theorem truncFrom_bounds (h0 : 0 ≤ val n x) :
    truncFrom n x 31 0 < 2139095040 ∧ (magValue (truncFrom n x 31 0) : ℝ) ≤ val n x / 2 ^ 150
      ∧ (truncFrom n x 31 0 + 1 < 2139095040 → val n x / 2 ^ 150 < magValue (truncFrom n x 31 0 + 1)) := by
  obtain ⟨hm, hlow, hhigh⟩ := truncFrom_spec (x := x) 31 0 (by decide) (by rw [magUnits_eq (by decide)]; simpa using h0)
    (fun hlt => absurd hlt (by decide))
  generalize truncFrom n x 31 0 = m at *
  rw [magUnits_eq (by omega)] at hlow
  refine ⟨hm, (le_div_iff₀ (by positivity)).mpr hlow, fun hlt => ?_⟩
  have h := hhigh hlt
  rw [magUnits_eq (by omega)] at h
  exact (div_lt_iff₀ (by positivity)).mpr h

/-- Between two neighbouring magnitudes a number is rounded to the nearer, to the even pattern if both are as near. -/
theorem roundsTo_of_between {ρ : ℝ} {M : Nat} (hlow : (magValue M : ℝ) ≤ ρ) (hhigh : ρ ≤ magValue (M + 1)) {up : Prop}
    [Decidable up] (hup : up ↔ (magValue M + magValue (M + 1) : ℝ) < 2 * ρ
      ∨ 2 * ρ = magValue M + magValue (M + 1) ∧ M % 2 = 1) : RoundsTo ρ (if up then M + 1 else M) := by
  refine ⟨M, hlow, hhigh, ?_⟩
  split
  next h => exact .inr ⟨rfl, hup.mp h⟩
  next h =>
    rw [hup, not_or, not_lt, not_and] at h
    obtain hlt | heq := h.1.lt_or_eq
    · exact .inl ⟨rfl, .inl hlt⟩
    · have hodd := h.2 heq
      exact .inl ⟨rfl, .inr ⟨heq, by omega⟩⟩

/-- A number not negative has a rounding, overflow left aside. -/
theorem exists_roundsTo {ρ : ℝ} (h : 0 ≤ ρ) : ∃ R, RoundsTo ρ R := by
  classical
  have habove : ∃ m, ρ < magValue m := by
    obtain ⟨m, hm⟩ := exists_nat_gt ρ
    exact ⟨m, hm.trans_le (by exact_mod_cast magValue_strictMono.le_apply)⟩
  obtain ⟨M, hM⟩ : ∃ M, Nat.find habove = M + 1 := Nat.exists_eq_succ_of_ne_zero fun h0 => by
    have hfind := Nat.find_spec habove
    rw [h0, magValue_zero, Nat.cast_zero] at hfind
    exact absurd h (not_le.mpr hfind)
  have hhigh := Nat.find_spec habove
  rw [hM] at hhigh
  exact ⟨_, roundsTo_of_between (not_lt.mp (Nat.find_min habove (by omega))) hhigh.le Iff.rfl⟩

/-- The pattern is the rounding cut off at that of `+∞` (00_scope R9). -/
theorem roundMag_spec (h0 : 0 ≤ val n x) : ∃ R, RoundsTo (val n x / 2 ^ 150) R ∧ roundMag n x = min R 2139095040 := by
  obtain ⟨hm, hlow, hhigh⟩ := truncFrom_bounds h0
  rw [roundMag]
  generalize truncFrom n x 31 0 = m at *
  have hu : (0 : ℝ) < 2 ^ 150 := by positivity
  have hdiff : val n (sub n (scale n 2 x) (ofInt n (magUnits m + magUnits (m + 1))))
      = (2 * (val n x / 2 ^ 150) - (magValue m + magValue (m + 1))) * 2 ^ 150 := by
    rw [val_sub, val_scale, val_ofInt, Int.cast_add, magUnits_eq (by omega), magUnits_eq (by omega), sub_mul, mul_assoc,
      div_mul_cancel₀ _ hu.ne', Int.cast_ofNat]
    ring
  have hup : (0 < sign n (sub n (scale n 2 x) (ofInt n (magUnits m + magUnits (m + 1))))
        ∨ sign n (sub n (scale n 2 x) (ofInt n (magUnits m + magUnits (m + 1)))) = 0 ∧ m % 2 = 1)
      ↔ (magValue m + magValue (m + 1) : ℝ) < 2 * (val n x / 2 ^ 150)
        ∨ 2 * (val n x / 2 ^ 150) = magValue m + magValue (m + 1) ∧ m % 2 = 1 := by
    rw [sign_pos_iff, sign_zero_iff, hdiff, mul_pos_iff_of_pos_right hu, sub_pos, mul_eq_zero, or_iff_left hu.ne', sub_eq_zero]
  by_cases hle : val n x / 2 ^ 150 ≤ magValue (m + 1)
  · refine ⟨_, roundsTo_of_between hlow hle hup, (min_eq_left ?_).symm⟩
    split <;> omega
  · obtain ⟨R, hR⟩ := exists_roundsTo (div_nonneg h0 hu.le)
    have hlast : m + 1 = 2139095040 := by
      by_contra hne
      exact hle (hhigh (by omega)).le
    have hR' := hR.le_of_ge (not_le.mp hle).le
    have hstep : (magValue m : ℝ) < magValue (m + 1) := by exact_mod_cast magValue_strictMono (Nat.lt_succ_self m)
    refine ⟨R, hR, ?_⟩
    rw [min_eq_right (hlast ▸ hR')]
    exact (if_pos (hup.mpr (.inl (by linarith)))).trans hlast

/-- `toNum` is the rounding of the exact number; a zero gives `+0` (log entry 24). -/
theorem isRounding_toNum (x : Tower n) : IsRounding (toNum n x) (val n x / 2 ^ 150 / 2 ^ 149) := by
  have hu : (0 : ℝ) < 2 ^ 150 := by positivity
  rw [toNum]
  split
  next h =>
    have hneg : val n (scale n (-1) x) = -val n x := by
      rw [val_scale]
      norm_num
    have h0 : 0 ≤ val n (scale n (-1) x) := by linarith [sign_neg_iff.mp h]
    obtain ⟨R, hR, heq⟩ := roundMag_spec h0
    have hround := isRounding_pack true hR (div_nonneg h0 hu.le)
    rw [← heq, hneg] at hround
    simpa only [signed, if_true, neg_div, neg_neg] using hround
  next h =>
    have h0 : 0 ≤ val n x := not_lt.mp fun hlt => h (sign_neg_iff.mpr hlt)
    obtain ⟨R, hR, heq⟩ := roundMag_spec h0
    have hround := isRounding_pack false hR (div_nonneg h0 hu.le)
    rwa [← heq] at hround

theorem toNum_zero (h : val n x = 0) : toNum n x = Fp.zero := by
  have hsign : ¬ sign n x < 0 := by simp [sign_neg_iff, h]
  obtain ⟨R, hR, heq⟩ := roundMag_spec h.ge
  have hR0 : R = 0 := RoundsTo.eq_of_exact (by simpa [h] using hR)
  rw [toNum, if_neg hsign, heq, hR0]
  rfl

end Sys2Proof.Tower

namespace Sys2Proof.Tables

open Tower

variable {N L n : Nat} {prs : Nat → Cplx}

/-! The exact transform. -/

/-- The parts of the circle of the level of `N` make the angles of `N`. -/
theorem turnPart_angle (hN : N = 2 ^ L) (m : Nat) :
    2 * Real.pi * (turnPart N m : ℕ) / 2 ^ (level N + 2) = 2 * Real.pi * m / N := by
  have hlevel : L ≤ level N + 2 := by
    rw [level, hN, Nat.log2_two_pow]
    omega
  obtain ⟨c, hc⟩ : N ∣ 2 ^ (level N + 2) := hN.dvd.trans (pow_dvd_pow 2 hlevel)
  have hpos : 0 < N := hN ▸ Nat.two_pow_pos L
  have hc0 : c ≠ 0 := by
    rintro rfl
    exact absurd hc (Nat.two_pow_pos _).ne'
  have hpow : (2 : ℝ) ^ (level N + 2) = N * c := by exact_mod_cast hc
  have hN' : (N : ℝ) ≠ 0 := by exact_mod_cast hpos.ne'
  have hc' : (c : ℝ) ≠ 0 := by exact_mod_cast hc0
  rw [turnPart, hc, Nat.mul_div_cancel_left _ hpos, hpow]
  push_cast
  field_simp

theorem value_re (a : Cplx) : a.value.re = (Fp.sunits a.re : ℝ) / 2 ^ 149 := Fp.value_cast a.re

theorem value_im (a : Cplx) : a.value.im = (Fp.sunits a.im : ℝ) / 2 ^ 149 := Fp.value_cast a.im

theorem exactDelta_re (k : Nat) : (exactDelta N (fun k => (prs k).value) k).re = deltaRe N prs k / 2 ^ 149 / 2 ^ 149 := by
  rw [exactDelta, deltaRe]
  split
  · rw [Complex.mul_re, Complex.conj_re, Complex.conj_im, value_re, value_re, value_im, value_im]
    push_cast
    ring
  · simp

theorem exactDelta_im (k : Nat) : (exactDelta N (fun k => (prs k).value) k).im = deltaIm N prs k / 2 ^ 149 / 2 ^ 149 := by
  rw [exactDelta, deltaIm]
  split
  · rw [Complex.mul_im, Complex.conj_re, Complex.conj_im, value_re, value_re, value_im, value_im]
    push_cast
    ring
  · simp

/-- A term of the transform, by its angle. -/
theorem exactIfft_term (z : ℂ) (N n k : Nat) : z * Complex.exp (2 * Real.pi * Complex.I * n * k / N)
    = z * Complex.exp ((2 * Real.pi * (n * k : ℕ) / N : ℝ) * Complex.I) := by
  congr 2
  push_cast
  ring

theorem exactIfft_re (x : Nat → ℂ) (N n : Nat) : (exactIfft N x n).re = ∑ k ∈ Finset.range N,
    ((x k).re * Real.cos (2 * Real.pi * (n * k : ℕ) / N) - (x k).im * Real.sin (2 * Real.pi * (n * k : ℕ) / N)) := by
  rw [exactIfft, Complex.re_sum]
  refine Finset.sum_congr rfl fun k _ => ?_
  rw [exactIfft_term, Complex.mul_re, Complex.exp_ofReal_mul_I_re, Complex.exp_ofReal_mul_I_im]

theorem exactIfft_im (x : Nat → ℂ) (N n : Nat) : (exactIfft N x n).im = ∑ k ∈ Finset.range N,
    ((x k).re * Real.sin (2 * Real.pi * (n * k : ℕ) / N) + (x k).im * Real.cos (2 * Real.pi * (n * k : ℕ) / N)) := by
  rw [exactIfft, Complex.im_sum]
  refine Finset.sum_congr rfl fun k _ => ?_
  rw [exactIfft_term, Complex.mul_im, Complex.exp_ofReal_mul_I_re, Complex.exp_ofReal_mul_I_im]

/-- Half a doubled number at the scale of a table is the number at the scale of its coefficients. -/
theorem unscale (r : ℝ) : 2 * r / 2 ^ 150 / 2 ^ 149 = r / 2 ^ 149 / 2 ^ 149 := by
  rw [pow_succ' _ 149, mul_div_mul_left _ _ (two_ne_zero)]

theorem val_ifftRe (hN : N = 2 ^ L) :
    val _ (ifftRe N prs n) / 2 ^ 150 / 2 ^ 149 = (exactIfft N (exactDelta N fun k => (prs k).value) n).re := by
  rw [ifftRe, val_sum, exactIfft_re, Finset.sum_div, Finset.sum_div]
  refine Finset.sum_congr rfl fun k _ => ?_
  rw [val_sub, val_scale, val_scale, val_twoCos, val_twoSin, turnPart_angle hN, exactDelta_re, exactDelta_im, mul_left_comm,
    mul_left_comm _ 2, ← mul_sub, unscale]
  ring

theorem val_ifftIm (hN : N = 2 ^ L) :
    val _ (ifftIm N prs n) / 2 ^ 150 / 2 ^ 149 = (exactIfft N (exactDelta N fun k => (prs k).value) n).im := by
  rw [ifftIm, val_sum, exactIfft_im, Finset.sum_div, Finset.sum_div]
  refine Finset.sum_congr rfl fun k _ => ?_
  rw [val_add, val_scale, val_scale, val_twoCos, val_twoSin, turnPart_angle hN, exactDelta_re, exactDelta_im, mul_left_comm,
    mul_left_comm _ 2, ← mul_add, unscale]
  ring

/-- A component of `PRST` is the rounding of its exact value, `+0` for a zero. -/
theorem component_of_val {m : Nat} {x : Tower m} {r : ℝ} (h : val m x / 2 ^ 150 / 2 ^ 149 = r) :
    Fp.IsRounding (toNum m x) r ∧ (r = 0 → toNum m x = Fp.zero) := by
  refine ⟨h ▸ isRounding_toNum x, fun h0 => toNum_zero ?_⟩
  rw [h0] at h
  simpa using h

/-- Element `n` of `PRST`, against the conjugate of the exact transform. -/
theorem prst_spec (hN : N = 2 ^ L) :
    let z := (starRingEnd ℂ) (exactIfft N (exactDelta N fun k => (prs k).value) n)
    Fp.IsRounding (prst N prs n).re z.re ∧ Fp.IsRounding (prst N prs n).im z.im
      ∧ (z.re = 0 → (prst N prs n).re = Fp.zero) ∧ (z.im = 0 → (prst N prs n).im = Fp.zero) := by
  intro z
  have him : val _ (scale _ (-1) (ifftIm N prs n)) / 2 ^ 150 / 2 ^ 149 = z.im := by
    rw [val_scale, Int.cast_neg, Int.cast_one, neg_one_mul, neg_div, neg_div, val_ifftIm hN, Complex.conj_im]
  obtain ⟨hreRound, hreZero⟩ := component_of_val (val_ifftRe (prs := prs) (n := n) hN)
  obtain ⟨himRound, himZero⟩ := component_of_val him
  exact ⟨hreRound, himRound, hreZero, himZero⟩

/-! The rows as built. -/

/-- The free phase-reference symbol is finite. -/
theorem isFinite_prsFft (mode k : Nat) :
    Fp.isFinite (prsFft mode k).re = true ∧ Fp.isFinite (prsFft mode k).im = true := by
  have hpack (c : Bool × Fin 2139095040) : Fp.isFinite (Fp.pack c.1 c.2.val) = true := by
    have hc := c.2.isLt
    rw [Fp.isFinite, Fp.magBits_pack _ (by omega)]
    exact decide_eq_true hc
  exact ⟨hpack _, hpack _⟩

end Sys2Proof.Tables

namespace Sys2Proof.Machine

/-- The carrier map of a built row is a permutation of the carriers' positions. -/
theorem builtRow_cmap_perm (mode : Nat) (p : Params) : (builtRow mode p).cmap.Perm (List.range p.C) := by
  have h := ((Config.cmap mode p.C).map_finRange_perm).map Fin.val
  rwa [List.map_map, List.map_coe_finRange_eq_range] at h

/-- A built row holds the tables of some finite phase-reference symbol, with a permutation as its carrier map. -/
theorem builtRow_spec (mode : Nat) (p : Params) :
    (∃ prs : Nat → Cplx, (∀ k, Fp.isFinite (prs k).re = true ∧ Fp.isFinite (prs k).im = true)
      ∧ builtRow mode p = ModeRow.ofPrs p prs (builtRow mode p).cmap)
    ∧ (builtRow mode p).cmap.Perm (List.range p.C) :=
  ⟨⟨Tables.prsFft mode, Tables.isFinite_prsFft mode, rfl⟩, builtRow_cmap_perm mode p⟩

/-- Every row at reset is one of the built rows. -/
theorem eq_builtRow_of_mem_reset {r : ModeRow}
    (hr : r ∈ [State.reset.modes.row0, State.reset.modes.row1, State.reset.modes.row2, State.reset.modes.row3]) :
    ∃ mode p, r = builtRow mode p := by
  rw [List.mem_cons, List.mem_cons, List.mem_cons, List.mem_singleton] at hr
  obtain rfl | rfl | rfl | rfl := hr
  · exact ⟨0, Config.modeI, rfl⟩
  · exact ⟨1, Config.modeII, rfl⟩
  · exact ⟨2, Config.modeIII, rfl⟩
  · exact ⟨3, Config.modeIV, rfl⟩

end Sys2Proof.Machine

open Sys2Proof Sys2Proof.Machine

/-- Settles O60: the twiddles by their series, `PRST` by exact comparison, and every built row made of finite symbols. -/
theorem twiddleAndReferenceTables : Obligations.TwiddleAndReferenceTables := by
  refine ⟨fun L h1 h15 => ⟨Twiddle.tw_zero _, Twiddle.tw_quarter, fun t ht => Twiddle.tw_near ht⟩,
    fun L p prs cmap h1 hN hfin => ⟨rfl, rfl, fun n hn => ?tables⟩, fun r hr => ?built⟩
  case tables =>
    have helem (f : Nat → Cplx) : ((List.range p.N).map f).getD n default = f n := by
      simp [List.getD_eq_getElem?_getD, hn]
    refine ⟨helem _, ?_⟩
    rw [ModeRow.ofPrs, helem]
    exact Tables.prst_spec hN
  case built =>
    obtain ⟨mode, p, rfl⟩ := eq_builtRow_of_mem_reset hr
    exact builtRow_spec mode p

end
